-- ==== Sys2Proof/Word.lean ====
section
/-!
DEFINITION. Word.lean: the word types of the Orojan T1 block model and their plainest arithmetic.
R6 (little-endian) is coded in the byte-order helpers of Machine/Bits.lean, not here.
-/

namespace Sys2Proof

/-- One byte of memory or of a packet. -/
abbrev Byte := BitVec 8

/-- A 32-bit register, word or FP32 value. -/
abbrev Word := BitVec 32

/-- A 64-bit register: a step number, a REF tick count, a seed. -/
abbrev Dword := BitVec 64

/-- One 128-bit instruction word (R7, R46). -/
abbrev InsnWord := BitVec 128

/-- An AF40 value: S[39] E[38:28] F[27:0] (R85). -/
abbrev AF40 := BitVec 40

/-- A 48-bit module address (R7). -/
abbrev Addr := BitVec 48

/-- A 20-bit endpoint ID: rank in bits [19:2], partition in bits [1:0] (R250). -/
abbrev Endpoint := BitVec 20

end Sys2Proof
end

