-- ==== Sys2Proof/Syntax.lean ====
section
/-!
DEFINITION. Syntax.lean: the commands of the block, one constructor per row of the table of operations,
and the shapes of what they carry (engine instruction fields, packets, alignment blocks, requests).
-/

namespace Sys2Proof

/-- The flat engine index of R84: Tussocks 0-127, Sedges 128-159, Hummocks 160-163, Meres 164-167,
Culverts 168-199. -/
abbrev Eng := Fin 200
/-- A partition index (R28). -/
abbrev Part := Fin 4
/-- An optical port (R210). -/
abbrev Port := Fin 32
/-- A colour of the comb grid (R212). -/
abbrev Colour := Fin 20
/-- A photonic engine (R14). -/
abbrev Phot := Fin 8
/-- A comb laser source instance (R14). -/
abbrev CombId := Fin 16
/-- A PCIe function: 0 is PF0, 1-4 are VF1-VF4 (R416). -/
abbrev Fn := Fin 5

/-- Bits 8 to 127 of an instruction word (Table 3.2): everything but the opcode, which the command names. -/
structure Fields where
  mod : BitVec 7
  cs : Bool
  csem : BitVec 16
  d : Byte
  s1 : Byte
  s2 : Byte
  s3 : Byte
  imm : BitVec 64
deriving DecidableEq, Repr

/-- The engine opcodes of Table 3.7, in its order. -/
inductive Op where
  | nop | halt | loop | endl | jmp | phase | setr
  | swait | sadd | ssub | ssig | swatch
  | move | gather | scatter | put | dispatch
  | mma | mmax | accsp | accrs | acccb | epi
  | vop | vred | vrng | vcvt
  | rring | rnorm
  | upd | commit
  | nwatch
deriving DecidableEq, Repr

/-- Which direction of a lane a happening concerns (R244 codes transmit 0, receive 1). -/
inductive Dir where
  | tx
  | rx
deriving DecidableEq, Repr

/-- A packet: the header of Table 10.1 and its payload. -/
structure Packet where
  typ : BitVec 4
  vc : BitVec 3
  coord : Bool
  hops : BitVec 6
  dl : Bool
  packv : Bool
  dest : Endpoint
  src : Endpoint
  dcoord : BitVec 17
  dirs : BitVec 3
  resv : BitVec 4
  gen : BitVec 16
  pseq : BitVec 16
  pack : BitVec 16
  len : BitVec 13
  wfmt : BitVec 3
  addr : Addr
  chain : BitVec 16
  jobtag : BitVec 16
  hcrc : BitVec 32
  payload : List Byte
deriving DecidableEq, Repr

/-- A MCAST packet as it comes: the number at its source of the multicast PUT that it belongs to, and how many packets that PUT has at
this member (R197), which its header does not say. -/
structure McastIn where
  k : Packet
  put : Word
  n : Word
deriving DecidableEq, Repr

/-- A silence (R325 cause 2): the slot, and the carr-mates whose reports of its silence have come. -/
structure Silence where
  slot : Colour
  told : BitVec 20
deriving DecidableEq, Repr

/-- The alignment block of Table 9.4, after its own codeword has been decoded. -/
structure AlignBlock where
  interval : BitVec 32
  rptPort : Port
  rptOma : BitVec 16
  rptCorr : BitVec 16
  rptUnc : BitVec 12
  state : BitVec 2
deriving DecidableEq, Repr

/-- The binding over which a management message came (R431). -/
inductive Binding where
  | pcie (fn : Fn)
  | i2c
deriving DecidableEq, Repr

/-- The way a request reached firmware: the function's BAR4 mailbox, or an MCTP vendor-defined message on a binding, which
R432 treats as coming from PF0. -/
inductive Via where
  | mailbox (fn : Fn)
  | mctp (b : Binding)
deriving DecidableEq, Repr

/-- The request header fields of Table 17.3 that the host chooses. -/
structure Req where
  via : Via
  tag : Word
  part : Byte
deriving DecidableEq, Repr

/-- The three observation rings of R403. -/
inductive RingBlk where
  | cnt
  | trace
  | evt
deriving DecidableEq, Repr

/-- A register of the host's: PF0's BAR0 (Table 0.4), or the control page of a function's BAR4 (Table 17.2). -/
inductive RegAt where
  | bar0 (off : BitVec 26)
  | bar4 (fn : Fn) (off : BitVec 16)
deriving DecidableEq, Repr

/-- What a memory scrub pass met at one word: a correctable error or an uncorrectable one (R176, R177). -/
structure ScrubHit where
  addr : Addr
  bit : Word
  uncorrectable : Bool
deriving DecidableEq, Repr

/-- The commands: one constructor per row of the table of operations. -/
inductive Instr where
  -- engine instruction issues (chapter 3)
  | nop (e : Eng) (f : Fields)
  | halt (e : Eng) (f : Fields)
  | loop (e : Eng) (f : Fields)
  | endl (e : Eng) (f : Fields)
  | jmp (e : Eng) (f : Fields)
  | phase (e : Eng) (f : Fields)
  | setr (e : Eng) (f : Fields)
  | swait (e : Eng) (f : Fields)
  | swatch (e : Eng) (f : Fields)
  | sadd (e : Eng) (f : Fields)
  | ssub (e : Eng) (f : Fields)
  | ssig (e : Eng) (f : Fields)
  | move (e : Eng) (f : Fields)
  | gather (e : Eng) (f : Fields)
  | scatter (e : Eng) (f : Fields)
  | put (e : Eng) (f : Fields)
  | dispatch (e : Eng) (f : Fields)
  | mma (e : Eng) (f : Fields)
  | mmax (e : Eng) (f : Fields)
  | accsp (e : Eng) (f : Fields)
  | accrs (e : Eng) (f : Fields)
  | acccb (e : Eng) (f : Fields)
  | epi (e : Eng) (f : Fields)
  | vop (e : Eng) (f : Fields)
  | vred (e : Eng) (f : Fields)
  | vrng (e : Eng) (f : Fields)
  | vcvt (e : Eng) (f : Fields)
  | rring (e : Eng) (f : Fields)
  | rnorm (e : Eng) (f : Fields)
  | upd (e : Eng) (f : Fields)
  | commit (e : Eng) (f : Fields)
  | nwatch (e : Eng) (f : Fields)
  -- engine happenings
  | instructionComplete (e : Eng)
  | checkpointSaved (e : Eng)
  | blockFault (e : Eng) (cause : Byte) (addr : Addr)
  | waitLimitExceeded (e : Eng)
  -- sync unit
  | ssigRelease (q : Part) (sender : Endpoint) (seq : BitVec 16)
  | barrierArrive (q : Part)
  | commitBarrierComplete (q : Part)
  | syncScrub (corrected : List Word) (uncorrectable : List Word)
  -- lanes, rings, islands, combs
  | laneFrameReceive (p : Port) (c : Colour) (cw : List (BitVec 10))
  | alignmentBlockReceive (p : Port) (c : Colour) (b : AlignBlock)
  | ackTimeout (p : Port) (c : Colour)
  | busyPauseEnd (p : Port) (c : Colour)
  | laneTrained (p : Port) (c : Colour) (d : Dir)
  | lossOfSignal (p : Port) (c : Colour)
  | lowMarginTimeout (p : Port) (c : Colour)
  | laneRetireDeadline (p : Port) (c : Colour) (d : Dir)
  | islandOutOfBand (e : Phot) (temp : BitVec 12)
  | islandInBand (e : Phot) (temp : BitVec 12)
  | islandTimeout (e : Phot)
  | ringLockLoop (p : Port) (c : Colour) (d : Dir) (errMHz : Nat) (heat : BitVec 16)
  | ringRelockDone (p : Port) (c : Colour) (d : Dir) (ok : Bool) (heat : BitVec 16)
  | combDriveAdjust (k : CombId)
  | combSwitchStart (e : Phot)
  | combSwitchDone (e : Phot)
  | combSwitchForced (e : Phot)
  | combSourceFail (k : CombId)
  | standbyCombFail (k : CombId)
  -- packets
  | writeReceive (p : Port) (c : Colour) (k : Packet)
  | mcastReceive (p : Port) (c : Colour) (k : McastIn)
  | signalReceive (p : Port) (c : Colour) (k : Packet)
  | packReceive (p : Port) (c : Colour) (k : Packet)
  | linkReceive (p : Port) (c : Colour) (k : Packet)
  | packetRelay (p : Port) (c : Colour) (k : Packet)
  | packTimeout (q : Part) (peer : Endpoint)
  | lanestatePeriodic
  | detourWaitTimeout (plane : BitVec 3) (slot : Colour)
  | hello (p : Port) (c : Colour) (k : Packet)
  | drain (p : Port) (c : Colour) (k : Packet)
  | drainComplete (q : Part)
  | drainTimeout (q : Part)
  | drained (p : Port) (c : Colour) (k : Packet)
  | rtab (p : Port) (c : Colour) (k : Packet)
  | rtack (p : Port) (c : Colour) (k : Packet)
  | resume (p : Port) (c : Colour) (k : Packet)
  | resumeTick (q : Part)
  | fence (p : Port) (c : Colour) (k : Packet)
  | numans (p : Port) (c : Colour) (k : Packet)
  | lanestate (p : Port) (c : Colour) (k : Packet)
  | admitDeclare (p : Port) (c : Colour) (k : Packet)
  | admitReport (p : Port) (c : Colour) (k : Packet)
  | admitOffer (p : Port) (c : Colour) (k : Packet)
  | admitAccept (p : Port) (c : Colour) (k : Packet)
  | admitDecline (p : Port) (c : Colour) (k : Packet)
  | admitData (p : Port) (c : Colour) (k : Packet)
  | admitChunkack (p : Port) (c : Colour) (k : Packet)
  | admitLive (p : Port) (c : Colour) (k : Packet)
  | admitGo (p : Port) (c : Colour) (k : Packet)
  | ringExpUp (p : Port) (c : Colour) (k : Packet)
  | ringExpDown (p : Port) (c : Colour) (k : Packet)
  | ringSum (p : Port) (c : Colour) (k : Packet)
  | ringHeld (p : Port) (c : Colour) (k : Packet)
  | ringHack (p : Port) (c : Colour) (k : Packet)
  | ringReady (p : Port) (c : Colour) (k : Packet)
  | ringNorm (p : Port) (c : Colour) (k : Packet)
  | ringRetry (p : Port) (c : Colour) (k : Packet)
  -- recovery timers and decisions
  | silenceTimeout (slot : Silence)
  | reportTimeout (q : Part) (rank : BitVec 18)
  | recoveryHeld (q : Part)
  | offerTimeout (q : Part)
  | noStandbyTimer (q : Part)
  | spareLoadDone (q : Part)
  | replacementDeadline (q : Part)
  | plannedReplacement (q : Part)
  | warmNoticeTimeout (q : Part) (rank : BitVec 18)
  | numericsDeadline (q : Part)
  | hostCapExpire
  -- memories
  | dramScrubPass (hits : List ScrubHit)
  | peatScrubPass (hits : List ScrubHit)
  | pageRetireCopyDone
  | culvertHostRetry (e : Eng)
  -- supply, power, clock, heat
  | vinWarning (v : BitVec 13)
  | vinRecovered (v : BitVec 13)
  | brownoutTimeout
  | powerFailReset (v : BitVec 13)
  | overvoltageTrip (v : BitVec 13)
  | vinGood (v : BitVec 13)
  | aux12Lost
  | aux12Restored
  | powerInterval (counts : List (Byte × Word))
  | capNotHeld
  | opChangeStart
  | pllLocked
  | opRampEnd
  | opChangeAbandon
  | droopTrip (detector : BitVec 6)
  | droopBurstEnd (still : Bool)
  | droopRelease
  | thermalSample (temps : List (BitVec 16)) (bad : List (BitVec 7))
  | shutdownNLow
  | refLoss
  | refRestore
  | stepWordReceive (w : BitVec 96)
  | stepWordSend
  | stepWordAbsent
  | refDriftCheck (ppb : BitVec 16) (p : Port) (c : Colour)
  | backupChargeCheck (bkv : Byte)
  | calSet
  -- resets and bring-up
  | perstNAssert
  | perstNRelease
  | modctlModuleReset (v : Word)
  | modctlWarmReset (v : Word)
  | modctlPartReset (v : Word)
  | bringupStageEnd (failed : List (BitVec 11)) (ms : BitVec 13)
  | bringupStageOverrun (ms : BitVec 13)
  | helloSend
  | helloRepeat
  | snapshotLatch
  -- mailbox requests
  | load (r : Req) (addr : Dword) (len : Dword)
  | loadDone (q : Part)
  | start (r : Req) (seed : Dword) (first : Dword) (tick : Dword)
  | startTick (q : Part)
  | stop (r : Req)
  | unload (r : Req)
  | partcnt (r : Req) (n : Byte)
  | tkeySet (r : Req) (ident : Dword) (key : List Byte)
  | tkeyClr (r : Req)
  | cap (r : Req) (watts : BitVec 16) (ms : BitVec 16)
  | decide (r : Req) (ident : Word) (answer : Byte) (slot : Byte) (step : Dword)
  | hsig (r : Req) (sem : BitVec 16) (n : Word) (step : Dword)
  | declare (r : Req) (coord : BitVec 17)
  | reinstate (r : Req)
  | vacate (r : Req) (board : Byte)
  | modreset (r : Req)
  | status (r : Req)
  | notificationPost (fn : Fn)
  -- PCIe windows and functions
  | bar2Read (fn : Fn) (off : BitVec 36) (len : BitVec 13)
  | bar2Write (fn : Fn) (off : BitVec 36) (data : List Byte)
  | functionLevelReset (fn : Fn)
  | pcieLinkLoss
  | barResize (fn : Fn) (log2 : BitVec 3)
  -- management
  | mctpControl (b : Binding) (cmd : Byte) (arg : Byte)
  | mctpUnsupportedType (b : Binding) (typ : Byte)
  | pldmBase (b : Binding) (body : List Byte)
  | pldmPlatform (b : Binding) (body : List Byte)
  | pldmFwUpdate (b : Binding) (sigOk : Bool) (svn : BitVec 6) (ver : BitVec 16) (image : List Byte)
  | getVersion (b : Binding)
  | getCapabilities (b : Binding)
  | negotiateAlgorithms (b : Binding)
  | getDigests (b : Binding)
  | getCertificate (b : Binding) (slot : Byte)
  | challenge (b : Binding) (slot : Byte) (nonce : List Byte)
  | getMeasurements (b : Binding) (index : Byte)
  | keyExchange (b : Binding) (nonce : List Byte)
  | finish (b : Binding) (ok : Bool)
  | heartbeat (b : Binding)
  | endSession (b : Binding)
  | spdmUnsupportedRequest (b : Binding) (code : Byte)
  -- registers with an effect of their own
  | commitSvn (v : Word)
  | syncDbgSelWrite (v : Word)
  | syncWselWrite (v : Word)
  | routeRtselWrite (v : Word)
  | numwSelWrite (v : Word)
  | evtLselWrite (v : Word)
  | secMselWrite (v : Word)
  | cntClrPart (v : Word)
  | cntClrModule
  | cntValLoRead (n : BitVec 12)
  | clkTickLoRead
  | clkCalLoRead
  | evtNextLoRead
  | ringEnable (b : RingBlk)
  | sluiceWrite (peat : Bool) (q : Part) (v : Word)
  | routeCoordWrite (ext : Bool) (v : Word)
  | registerWrite (reg : RegAt) (v : Word)
  | pcieLinkUp
  | replyHeaderRead (fn : Fn)
  | mailboxUnknownOpcode (r : Req) (op : BitVec 16)
  | laneTrainingFailed (p : Port) (c : Colour) (d : Dir)
deriving DecidableEq, Repr

end Sys2Proof
end

