-- ==== Sys2Proof/WellFormed.lean ====
section
/-!
DEFINITION. WellFormed.lean: which commands are well formed. For an engine instruction this is the legality of its form
(R46, R47, R55, R58-R77, R468); for a packet, that its header can be sent (Table 10.1); for the rest, the ranges of
their operands.
-/

namespace Sys2Proof

/-- The engine kinds of Table 3.1, in its code order. -/
inductive Kind where
  | tus | sdg | hmk | mere | clv
deriving DecidableEq, Repr

def Kind.code : Kind → Nat
  | .tus => 0 | .sdg => 1 | .hmk => 2 | .mere => 3 | .clv => 4

/-- The kind of flat index `e` (R84). -/
def kindOf (e : Nat) : Kind :=
  if e < 128 then .tus else if e < 160 then .sdg else if e < 164 then .hmk else if e < 168 then .mere else .clv

/-- The engine kinds that may issue an opcode (Table 3.7). -/
def Op.issuedBy (op : Op) (k : Kind) : Bool :=
  match op with
  | .nop | .halt | .loop | .endl | .jmp | .phase | .setr => true
  | .swait | .sadd | .ssub | .ssig | .swatch => true
  | .move | .gather | .scatter | .put | .dispatch => k == .clv
  | .mma | .mmax | .accsp | .accrs | .acccb | .epi => k == .tus
  | .vop | .vred | .vrng | .vcvt => k == .sdg
  | .rring | .rnorm => k == .mere
  | .upd | .commit => k == .hmk
  | .nwatch => k != .mere

/-! ## Specifiers (R47): bits [7:6] name the file, g, a, t or k, of 32, 16, 16 and 8 registers; bits [5:0] the index -/

/-- No operand (R47). -/
def noSpec : Byte := 0xFF
def specFile (b : Byte) : Nat := b.toNat / 64
def specIdx (b : Byte) : Nat := b.toNat % 64
def isG (b : Byte) : Bool := specFile b == 0 && decide (specIdx b < 32)
def isA (b : Byte) : Bool := specFile b == 1 && decide (specIdx b < 16)
def isT (b : Byte) : Bool := specFile b == 2 && decide (specIdx b < 16)
def isK (b : Byte) : Bool := specFile b == 3 && decide (specIdx b < 8)
/-- A g register that SETR may write (R48, R61). -/
def isGw (b : Byte) : Bool := isG b && b != 0 && b != 30 && b != 31
def tOrG (b : Byte) : Bool := isT b || isG b

/-- Bits [lo + n − 1 : lo] of IMM. -/
def Fields.immF (f : Fields) (lo n : Nat) : Nat := (f.imm.toNat >>> lo) % 2 ^ n
/-- Bits [lo + n − 1 : lo] of MOD. -/
def Fields.modF (f : Fields) (lo n : Nat) : Nat := (f.mod.toNat >>> lo) % 2 ^ n
/-- IMM is zero from bit `n` up (R468). -/
def Fields.immLow (f : Fields) (n : Nat) : Bool := decide (f.imm.toNat < 2 ^ n)
/-- D, S1, S2 and S3 as a list of accepted shapes. -/
def Fields.specs (f : Fields) (d s1 s2 s3 : Byte → Bool) : Bool := d f.d && s1 f.s1 && s2 f.s2 && s3 f.s3
def isNo (b : Byte) : Bool := b == noSpec
def isZero (b : Byte) : Bool := b == 0
def anyByte (_ : Byte) : Bool := true
def orNo (p : Byte → Bool) (b : Byte) : Bool := p b || isNo b

/-- How many sources a VOP function takes, and whether it is listed in R75. -/
def vopArity (m : Nat) : Option Nat :=
  if m = 0x00 ∨ m = 0x07 ∨ m = 0x08 then some 1
  else if m = 0x01 ∨ m = 0x02 ∨ m = 0x03 ∨ m = 0x05 ∨ m = 0x06 then some 2
  else if m = 0x04 then some 3
  else if 0x10 ≤ m ∧ m ≤ 0x17 then some 1
  else if m = 0x30 then some 1
  else if m = 0x31 then some 3
  else if m = 0x32 then some 2
  else none

/-- ε of R143: an FP32 value that is neither negative, infinite nor NaN. −0 is not below zero. -/
def epsLegal (w : Nat) : Bool := decide (w < 0x7F800000) || w == 0x80000000

/-- The operands and modifiers that an opcode admits: the files of R47 at each position, the fields of R58-R77, R143 and R154, and the
values of R468 for all the others, so far as they can be judged from the word alone. VCVT takes MOVE's MOD[0], since R75 has it
convert as MOVE does. [DEDUCED, assumption 107] -/
def Op.operands (op : Op) (k : Kind) (f : Fields) : Bool :=
  match op with
  | .nop => decide (f.mod.toNat ≤ 1) && f.specs isZero isZero isZero isZero && f.immLow 0
  | .halt => f.mod == 0 && f.specs isZero isZero isZero isZero && f.immLow 0
  | .loop => f.mod == 0 && f.specs isK isNo isNo isNo && f.immLow 24
  | .endl => f.mod == 0 && f.specs isK isNo isNo isNo && f.immLow 0
  | .jmp => f.mod == 0 && f.specs isNo isNo isNo isNo && f.immLow 24
  | .phase => f.mod == 0 && f.specs isNo isNo isNo isNo && f.immLow 16
      && decide (1 ≤ f.immF 0 16) && decide (f.immF 0 16 ≤ 0xFFFE)
  | .setr => f.mod == 0 && f.specs (fun b => isGw b || isA b || isT b) isNo isNo isNo && f.immLow 24
  | .swait | .swatch => f.modF 4 3 == 0 && f.specs isNo anyByte isNo isNo && f.immF 28 4 == 0
  | .sadd | .ssub => f.mod == 0 && f.specs isNo isNo isNo isNo && f.immF 16 16 == 0
      && decide (1 ≤ f.immF 32 32) && decide (f.immF 32 32 ≤ 1048575)
  | .ssig => f.mod == 0 && f.specs isNo isNo isNo isNo && f.immLow 52 && decide (1 ≤ f.immF 36 16)
  | .move => f.modF 1 6 == 0 && f.specs isT isT (orNo isZero) (orNo isZero) && f.immLow 0
  | .gather => f.mod == 0 && f.specs isT isT isT isNo && f.immLow 0
  | .scatter => decide (f.mod.toNat ≤ 1) && f.specs isT isT isT isNo && f.immLow 0
  | .put => (f.modF 0 3 == 2 || f.modF 0 3 == 3 || f.modF 0 3 == 5) && decide (f.modF 3 4 ≤ 2)
      && f.specs isA isT isNo isNo && f.immLow 20
  | .dispatch => decide (f.mod.toNat ≤ 1) && f.specs isT isT isT isT && f.immLow 0
  | .mma => decide (f.modF 0 2 ≤ 2) && f.specs isNo isT isT (if f.modF 0 2 = 1 then isT else isNo) && f.immLow 0
  | .mmax => decide (f.modF 0 2 ≤ 1) && f.specs isNo isT isT isNo && f.immLow 0
  | .accsp => f.modF 0 6 == 0 && f.specs isT isNo isNo isNo && f.immLow 0
  | .accrs => f.modF 0 6 == 0 && f.specs isNo isT isNo isNo && f.immLow 0
  | .acccb => f.modF 0 6 == 0 && f.specs isNo isT isNo isNo && f.immLow 2 && decide (1 ≤ f.immF 0 2)
  | .epi => decide (f.modF 0 4 ≤ 5) && f.modF 4 2 == 0 && f.specs isT (orNo isT) (orNo isG) isNo && f.immLow 0
  | .vop => match vopArity f.mod.toNat with
      | none => false
      | some n => isT f.d && tOrG f.s1 && (if 2 ≤ n then tOrG f.s2 else isNo f.s2)
          && (if 3 ≤ n then tOrG f.s3 else isNo f.s3)
          && (if 0x31 ≤ f.mod.toNat then f.immLow 32 && epsLegal (f.immF 0 32) else f.immLow 0)
  | .vred => f.modF 3 4 == 0 && f.specs isT isT isNo isNo && f.immLow 0
  | .vrng => decide (f.mod.toNat ≤ 1) && f.specs isT isNo (if f.mod = 1 then isG else isNo) isNo
  | .vcvt => decide (f.mod.toNat ≤ 1) && f.specs isT isT isNo isNo && f.immLow 0
  | .rring => decide (f.mod.toNat ≤ 1) && f.specs (if f.mod = 1 then isT else isNo) isT isNo isNo && f.immLow 48
  | .rnorm => f.mod == 0 && f.specs isT isT isNo isNo && f.immLow 16
  | .upd => f.mod == 0 && f.specs isT isT isT (orNo isT) && f.immLow 12
  | .commit => f.mod == 0 && f.specs isNo isNo isNo isNo && f.immLow 16
  | .nwatch => decide (1 ≤ f.mod.toNat) && decide (f.mod.toNat ≤ 3) && f.specs isNo isT (orNo isT) isNo && f.immLow 16
      && (f.mod == 1 || k == .hmk || k == .sdg)
      && (f.mod != 1 || isNo f.s2)
      && (f.mod == 1 || isT f.s2 || k == .hmk)

/-- CS and CSEM (R46), and CS = 0 in the Control family (R55). -/
def Op.csLegal (op : Op) (f : Fields) : Bool :=
  (f.cs || f.csem == 0) &&
  match op with
  | .nop | .halt | .loop | .endl | .jmp | .phase | .setr => !f.cs
  | _ => true

/-- The form of an instruction is legal for flat engine `e` (R47, R55, R79). -/
def legalForm (e : Nat) (op : Op) (f : Fields) : Bool :=
  op.issuedBy (kindOf e) && op.csLegal f && op.operands (kindOf e) f

/-! ## Packets (Table 10.1) -/

/-- What the header of any packet must hold to be sent at all: LEN counts the payload, and no more than 4,096 bytes. -/
def Packet.wf (k : Packet) : Bool := k.payload.length == k.len.toNat && decide (k.len.toNat ≤ 4096)

/-- A data frame's codeword: 272 symbols of 10 bits (R218, R220). -/
def codewordWf (cw : List (BitVec 10)) : Bool := cw.length == 272

/-- The command is well formed. -/
def Instr.wf : Instr → Bool
  | .nop e f => legalForm e.val .nop f
  | .halt e f => legalForm e.val .halt f
  | .loop e f => legalForm e.val .loop f
  | .endl e f => legalForm e.val .endl f
  | .jmp e f => legalForm e.val .jmp f
  | .phase e f => legalForm e.val .phase f
  | .setr e f => legalForm e.val .setr f
  | .swait e f => legalForm e.val .swait f
  | .swatch e f => legalForm e.val .swatch f
  | .sadd e f => legalForm e.val .sadd f
  | .ssub e f => legalForm e.val .ssub f
  | .ssig e f => legalForm e.val .ssig f
  | .move e f => legalForm e.val .move f
  | .gather e f => legalForm e.val .gather f
  | .scatter e f => legalForm e.val .scatter f
  | .put e f => legalForm e.val .put f
  | .dispatch e f => legalForm e.val .dispatch f
  | .mma e f => legalForm e.val .mma f
  | .mmax e f => legalForm e.val .mmax f
  | .accsp e f => legalForm e.val .accsp f
  | .accrs e f => legalForm e.val .accrs f
  | .acccb e f => legalForm e.val .acccb f
  | .epi e f => legalForm e.val .epi f
  | .vop e f => legalForm e.val .vop f
  | .vred e f => legalForm e.val .vred f
  | .vrng e f => legalForm e.val .vrng f
  | .vcvt e f => legalForm e.val .vcvt f
  | .rring e f => legalForm e.val .rring f
  | .rnorm e f => legalForm e.val .rnorm f
  | .upd e f => legalForm e.val .upd f
  | .commit e f => legalForm e.val .commit f
  | .nwatch e f => legalForm e.val .nwatch f
  | .laneFrameReceive _ _ cw => codewordWf cw
  | .instructionComplete _ => true
  | .checkpointSaved _ => true
  | .blockFault _ _ _ => true
  | .waitLimitExceeded _ => true
  | .ssigRelease _ _ _ => true
  | .barrierArrive _ => true
  | .commitBarrierComplete _ => true
  | .syncScrub _ _ => true
  | .alignmentBlockReceive _ _ _ => true
  | .ackTimeout _ _ => true
  | .busyPauseEnd _ _ => true
  | .laneTrained _ _ _ => true
  | .lossOfSignal _ _ => true
  | .lowMarginTimeout _ _ => true
  | .laneRetireDeadline _ _ _ => true
  | .islandOutOfBand _ _ => true
  | .islandInBand _ _ => true
  | .islandTimeout _ => true
  | .ringLockLoop _ _ _ _ _ => true
  | .ringRelockDone _ _ _ _ _ => true
  | .combDriveAdjust _ => true
  | .combSwitchStart _ => true
  | .combSwitchDone _ => true
  | .combSwitchForced _ => true
  | .combSourceFail _ => true
  | .standbyCombFail _ => true
  | .writeReceive _ _ k => k.wf
  | .mcastReceive _ _ x => x.k.wf && x.n != 0
  | .signalReceive _ _ k => k.wf
  | .packReceive _ _ k => k.wf
  | .linkReceive _ _ k => k.wf
  | .packetRelay _ _ k => k.wf
  | .packTimeout _ _ => true
  | .lanestatePeriodic => true
  | .detourWaitTimeout _ _ => true
  | .hello _ _ k => k.wf
  | .drain _ _ k => k.wf
  | .drainComplete _ => true
  | .drainTimeout _ => true
  | .drained _ _ k => k.wf
  | .rtab _ _ k => k.wf
  | .rtack _ _ k => k.wf
  | .resume _ _ k => k.wf
  | .resumeTick _ => true
  | .fence _ _ k => k.wf
  | .numans _ _ k => k.wf
  | .lanestate _ _ k => k.wf
  | .admitDeclare _ _ k => k.wf
  | .admitReport _ _ k => k.wf
  | .admitOffer _ _ k => k.wf
  | .admitAccept _ _ k => k.wf
  | .admitDecline _ _ k => k.wf
  | .admitData _ _ k => k.wf
  | .admitChunkack _ _ k => k.wf
  | .admitLive _ _ k => k.wf
  | .admitGo _ _ k => k.wf
  | .ringExpUp _ _ k => k.wf
  | .ringExpDown _ _ k => k.wf
  | .ringSum _ _ k => k.wf
  | .ringHeld _ _ k => k.wf
  | .ringHack _ _ k => k.wf
  | .ringReady _ _ k => k.wf
  | .ringNorm _ _ k => k.wf
  | .ringRetry _ _ k => k.wf
  | .silenceTimeout _ => true
  | .reportTimeout _ _ => true
  | .recoveryHeld _ => true
  | .offerTimeout _ => true
  | .noStandbyTimer _ => true
  | .spareLoadDone _ => true
  | .replacementDeadline _ => true
  | .plannedReplacement _ => true
  | .warmNoticeTimeout _ _ => true
  | .numericsDeadline _ => true
  | .hostCapExpire => true
  | .dramScrubPass _ => true
  | .peatScrubPass _ => true
  | .pageRetireCopyDone => true
  | .culvertHostRetry _ => true
  | .vinWarning _ => true
  | .vinRecovered _ => true
  | .brownoutTimeout => true
  | .powerFailReset _ => true
  | .overvoltageTrip _ => true
  | .vinGood _ => true
  | .aux12Lost => true
  | .aux12Restored => true
  | .powerInterval _ => true
  | .capNotHeld => true
  | .opChangeStart => true
  | .pllLocked => true
  | .opRampEnd => true
  | .opChangeAbandon => true
  | .droopTrip _ => true
  | .droopBurstEnd _ => true
  | .droopRelease => true
  | .thermalSample _ _ => true
  | .shutdownNLow => true
  | .refLoss => true
  | .refRestore => true
  | .stepWordReceive _ => true
  | .stepWordSend => true
  | .stepWordAbsent => true
  | .refDriftCheck _ _ _ => true
  | .backupChargeCheck _ => true
  | .calSet => true
  | .perstNAssert => true
  | .perstNRelease => true
  | .modctlModuleReset _ => true
  | .modctlWarmReset _ => true
  | .modctlPartReset _ => true
  | .bringupStageEnd _ _ => true
  | .bringupStageOverrun _ => true
  | .helloSend => true
  | .helloRepeat => true
  | .snapshotLatch => true
  | .load _ _ _ => true
  | .loadDone _ => true
  | .start _ _ _ _ => true
  | .startTick _ => true
  | .stop _ => true
  | .unload _ => true
  | .partcnt _ _ => true
  | .tkeySet _ _ key => key.length == 96
  | .tkeyClr _ => true
  | .cap _ _ _ => true
  | .decide _ _ _ _ _ => true
  | .hsig _ _ _ _ => true
  | .declare _ _ => true
  | .reinstate _ => true
  | .vacate _ _ => true
  | .modreset _ => true
  | .status _ => true
  | .notificationPost _ => true
  | .bar2Read _ _ _ => true
  | .bar2Write _ _ data => Nat.ble 1 data.length && Nat.ble data.length 4096
  | .functionLevelReset _ => true
  | .pcieLinkLoss => true
  | .barResize _ _ => true
  | .mctpControl _ _ _ => true
  | .mctpUnsupportedType _ _ => true
  | .pldmBase _ _ => true
  | .pldmPlatform _ _ => true
  | .pldmFwUpdate _ _ _ _ _ => true
  | .getVersion _ => true
  | .getCapabilities _ => true
  | .negotiateAlgorithms _ => true
  | .getDigests _ => true
  | .getCertificate _ _ => true
  | .challenge _ _ nonce => nonce.length == 32
  | .getMeasurements _ _ => true
  | .keyExchange _ nonce => nonce.length == 32
  | .finish _ _ => true
  | .heartbeat _ => true
  | .endSession _ => true
  | .spdmUnsupportedRequest _ _ => true
  | .commitSvn _ => true
  | .syncDbgSelWrite _ => true
  | .syncWselWrite _ => true
  | .routeRtselWrite _ => true
  | .numwSelWrite _ => true
  | .evtLselWrite _ => true
  | .secMselWrite _ => true
  | .cntClrPart _ => true
  | .cntClrModule => true
  | .cntValLoRead _ => true
  | .clkTickLoRead => true
  | .clkCalLoRead => true
  | .evtNextLoRead => true
  | .ringEnable _ => true
  | .sluiceWrite _ _ _ => true
  | .routeCoordWrite _ _ => true
  | .registerWrite _ _ => true
  | .pcieLinkUp => true
  | .replyHeaderRead _ => true
  | .mailboxUnknownOpcode _ _ => true
  | .laneTrainingFailed _ _ _ => true

end Sys2Proof
end

