-- ==== Sys2Proof/Decode.lean ====
section
/-!
DEFINITION. Decode.lean: the 128-bit instruction word that engines fetch (R46, R55) and its encoder. The table of
operations gives its commands no bits, so `decodeTableWord` reads none.
-/

namespace Sys2Proof

/-- The table of operations gives no row any bits: a word spells no command. -/
def decodeTableWord (_nbits _w : Nat) : Option Instr := none

/-- The opcode map of Table 3.7 (R55). -/
def Op.code : Op → Nat
  | .nop => 0x00 | .halt => 0x01 | .loop => 0x02 | .endl => 0x03 | .jmp => 0x04 | .phase => 0x05 | .setr => 0x06
  | .swait => 0x10 | .sadd => 0x11 | .ssub => 0x12 | .ssig => 0x13 | .swatch => 0x14
  | .move => 0x20 | .gather => 0x21 | .scatter => 0x22 | .put => 0x23 | .dispatch => 0x24
  | .mma => 0x30 | .mmax => 0x31 | .accsp => 0x32 | .accrs => 0x33 | .acccb => 0x34 | .epi => 0x35
  | .vop => 0x40 | .vred => 0x41 | .vrng => 0x42 | .vcvt => 0x43
  | .rring => 0x50 | .rnorm => 0x51
  | .upd => 0x60 | .commit => 0x61
  | .nwatch => 0x70

/-- The opcodes, in the order of Table 3.7. -/
def Op.all : List Op :=
  [.nop, .halt, .loop, .endl, .jmp, .phase, .setr, .swait, .sadd, .ssub, .ssig, .swatch,
   .move, .gather, .scatter, .put, .dispatch, .mma, .mmax, .accsp, .accrs, .acccb, .epi,
   .vop, .vred, .vrng, .vcvt, .rring, .rnorm, .upd, .commit, .nwatch]

/-- The opcode with a given code; an unlisted code is illegal (R55). -/
def Op.ofCode (n : Nat) : Option Op := Op.all.find? fun o => o.code == n

/-- The instruction word of Table 3.2, as a number (R46). -/
def encodeInsn (op : Op) (f : Fields) : Nat :=
  op.code + 2 ^ 8 * f.mod.toNat + 2 ^ 15 * f.cs.toNat + 2 ^ 16 * f.csem.toNat + 2 ^ 32 * f.d.toNat
    + 2 ^ 40 * f.s1.toNat + 2 ^ 48 * f.s2.toNat + 2 ^ 56 * f.s3.toNat + 2 ^ 64 * f.imm.toNat

/-- The fields of a word at the bits of Table 3.2 (R46). -/
def fieldsOf (w : Nat) : Fields where
  mod := BitVec.ofNat 7 (w / 2 ^ 8)
  cs := w / 2 ^ 15 % 2 == 1
  csem := BitVec.ofNat 16 (w / 2 ^ 16)
  d := BitVec.ofNat 8 (w / 2 ^ 32)
  s1 := BitVec.ofNat 8 (w / 2 ^ 40)
  s2 := BitVec.ofNat 8 (w / 2 ^ 48)
  s3 := BitVec.ofNat 8 (w / 2 ^ 56)
  imm := BitVec.ofNat 64 (w / 2 ^ 64)

/-- Read an instruction word (R46); an opcode that Table 3.7 does not list is rejected (R55). -/
def decodeInsn (w : Nat) : Option (Op × Fields) := (Op.ofCode (w % 256)).map fun o => (o, fieldsOf w)

end Sys2Proof
end

