-- ==== Sys2Proof/Config.lean ====
section
/-!
DEFINITION. Config.lean: what an implementation fixes and the manual does not state. Every constant here has no
body: nothing in Lean can evaluate it or prove a value of it, and a statement holds for every value of it.
-/

namespace Sys2Proof

/-- Bytes that host memory returns to a Culvert read with SPACE = 1 (R50): the host's, not the module's.
Arguments: how many free values were read before, the partition, the host I/O virtual address. [DESIGN CHOICE, assumption 9] -/
opaque Config.hostByte : Nat → Nat → Nat → Byte

/-- The factory leakage table of R355 in W, by core voltage code and by temperature in 1/16 °C. [DESIGN CHOICE, assumption 19] -/
opaque Config.pLeak : Nat → Int → Nat

/-- PWR_WEIGHT(j) of the factory record, in pJ per event (R355). [DESIGN CHOICE, assumption 19] -/
opaque Config.factoryWeight : Nat → BitVec 16

/-- Whether activity counter j belongs to a Tussock or a Sedge (R355): the manual does not list the 256 counters. [DESIGN CHOICE, assumption 19] -/
opaque Config.tsCounter : Nat → Bool

/-- The core voltage code, in 5 mV units, that the factory curve of R360 gives a frequency code outside Table 14.3. [DESIGN CHOICE, assumption 19] -/
opaque Config.vcode : Nat → Nat

/-- What R270, R280 and R295 ask of the images of a slice together, of which a module holds its own: true when the images of the
other modules keep the named rule with this one. Arguments: the rule's number, the image. [DESIGN CHOICE, assumption 16] -/
opaque Config.loaderProves : Nat → List Byte → Bool

/-- Whether the image of the module whose light comes in on a port with a colour lists this module as a peer with that port lit
(R306). Arguments: the image, the port, the colour. [DESIGN CHOICE, assumption 16] -/
opaque Config.peerLists : List Byte → Nat → Nat → Bool

/-- How many of the chunks of a UPD under way are complete when its engine faults (R152): the model keeps no time.
Argument: how many free values were read before. [DESIGN CHOICE, assumption 9] -/
opaque Config.chunksDone : Nat → Nat

/-- ECDSA P-384 verification under SHA-384 (R42): public key, message, signature r‖s. [DESIGN CHOICE, assumption 17] -/
opaque Config.ecdsaVerify : List Byte → List Byte → List Byte → Bool

/-- Whether X‖Y names a point of P-384 (TKEY_SET of Table 17.5). [DESIGN CHOICE, assumption 17] -/
opaque Config.onCurve : List Byte → Bool

/-- Whether the rerun of a block reads a poisoned grain or line cleanly (R178). [DESIGN CHOICE, assumption 21] -/
opaque Config.rereadClean : Nat → Bool

/-- Element or entry bits of a source plane that a GATHER's destination has and its source lacks: the manual states none. They depend on
the place alone, so that a rerun, a replay and another run write the same bits (R25).
Arguments: the address of the destination row, the element's place in it. [DESIGN CHOICE, assumption 22] -/
opaque Config.missing : Nat → Nat → Nat

/-- OMA received on a lane over a framing interval, in 0.01 dBm (R245): light outside the model. Argument: how many free values were read
before. [DESIGN CHOICE, assumption 25] -/
opaque Config.received : Nat → BitVec 16

/-- Whether a ring fails the calibration after its island's return (R229, R230). Arguments: how many free values were read before, the ring.
[DESIGN CHOICE, assumption 25] -/
opaque Config.ringFails : Nat → Nat → Bool

/-- Whether a load under way has run its check 0x04 or 0x08 when an engine or a lane retires (R34): R32 gives a load's end and no moment
of a check. Argument: how many free values were read before. [DEDUCED, assumption 32] -/
opaque Config.checked : Nat → Bool

/-- Which of its own checks a Mere's datapath fault fails in an open reduce pass, and at which block (R285): the fault happens outside
the model. Argument: how many free values were read before. [DESIGN CHOICE, assumption 105] -/
opaque Config.ringCheck : Nat → Nat

/-- The MAINT subtype of the packet that carries a forwarded VACATE (R430 gives it no form). [DESIGN CHOICE, assumption 58] -/
opaque Config.vacateSub : Nat

/-- Its payload. Argument: the board. [DESIGN CHOICE, assumption 58] -/
opaque Config.vacateBody : Nat → List Byte

/-- Where in the spare's DRAM a partner stream begins, in units of 4 KiB (R338 gives its chunks no addresses).
Argument: the resync ID. [DESIGN CHOICE, assumption 52] -/
opaque Config.streamAt : Nat → Nat

/-- Whether the calendar's backup has held until the standby rail came up, where R374 does not decide it.
Argument: how many free values were read before. [DEDUCED, assumption 61] -/
opaque Config.backupHeld : Nat → Bool

/-- Drive, in 0.1 % of maximum above 30 %, at which a comb source starts (R231 gives its bounds alone).
Argument: how many free values were read before. [DESIGN CHOICE, assumption 26] -/
opaque Config.combStart : Nat → Nat

/-- SHA-384 of the firmware image of the factory (R437). [DEDUCED, assumption 71] -/
opaque Config.factoryHash : List Byte

/-- The security block's random source (R180, R404). [DESIGN CHOICE, assumption 27] -/
opaque Config.random : Nat → Nat

/-- An FP32 or AF40 function value that the enclosure of Machine/Elem.lean did not decide (R141, R149).
Arguments: the function's code, the operand's bits. [DESIGN CHOICE, assumption 18] -/
opaque Config.elem : Nat → Nat → Nat

/-- The fused secret of the device (R438). [DESIGN CHOICE, assumption 127] -/
opaque Config.deviceSecret : List Byte

/-- How the SPDM signing key derives from the device's secret and the measurement of index 2 (R438). [DESIGN CHOICE, assumption 127] -/
opaque Config.deriveKey : List Byte → List Byte → List Byte

/-- An ECDSA P-384 signature. Arguments: the private key, what is signed, how many free values were read before. [DESIGN CHOICE, assumption 127] -/
opaque Config.ecdsaP384 : List Byte → List Byte → Nat → List Byte

/-- Noveidun's chain to the certificate of the device with this serial number (R438). [DESIGN CHOICE, assumption 127] -/
opaque Config.deviceChain : Dword → List Byte

/-- The alias certificate bound to a firmware image, by its measurement (R438). [DESIGN CHOICE, assumption 127] -/
opaque Config.aliasCert : List Byte → List Byte

/-- Body bytes of a management answer whose content the manual leaves to DMTF, to Noveidun's chain or to a signature
(R431-R433, R438). Arguments: message kind, how many free values were read before. [PRESUMED, assumption 46] -/
opaque Config.mgmtBody : Nat → Nat → List Byte

/-- The cycles between the stamps of a trace record (R405): the model keeps no CORE cycles. Arguments: the stamp that ends them, how
many free values were read before. [DESIGN CHOICE, assumption 24; DESIGN CHOICE, assumption 29] -/
opaque Config.stamp : Nat → Nat → Nat

/-- A tagged instruction missed the instruction cache (R405): the model keeps no such cache. Argument: how many free values were read
before. [DESIGN CHOICE, assumption 24] -/
opaque Config.icacheMiss : Nat → Bool

/-- REF ticks from the fetch of a tagged instruction to its issue (R405). Argument: how many free values were read before.
[DESIGN CHOICE, assumption 24] -/
opaque Config.fetchLead : Nat → Nat

/-- A counter of cycles or microseconds (R399, R400): the model keeps none. Arguments: how many free values were read before, the
counter. [DESIGN CHOICE, assumption 24] -/
opaque Config.cycles : Nat → Nat → BitVec 48

/-- The RING field of an HREADY (R290, Table 11.3 name no ring for it). Argument: how many free values were read before.
[DESIGN CHOICE, assumption 91] -/
opaque Config.hreadyRing : Nat → BitVec 16

/-- A heater code that a ring's lock loop or calibration settles on (R227, R229). [DESIGN CHOICE, assumption 25] -/
opaque Config.heater : Nat → BitVec 16

end Sys2Proof
end

