-- ==== Sys2Proof/Machine/Bits.lean ====
section
/-!
DEFINITION. Machine/Bits.lean: byte order (R6), bit fields, signed readings, CRCs (Table 10.1, R455).
-/

namespace Sys2Proof.Machine

/-- Little-endian reading of a byte list (R6). -/
def leNat : List Byte → Nat
  | [] => 0
  | b :: bs => b.toNat + 256 * leNat bs

/-- The `n` little-endian bytes of `v` (R6). -/
def leBytes : Nat → Nat → List Byte
  | 0, _ => []
  | n + 1, v => BitVec.ofNat 8 v :: leBytes n (v / 256)

/-- Bits [lo + n − 1 : lo] of `v`. -/
def fld (v lo n : Nat) : Nat := (v >>> lo) % 2 ^ n

/-- Bit `i` of `v`. -/
def bitAt (v i : Nat) : Bool := Nat.testBit v i

/-- Two's-complement reading of the low `n` bits of `v`. -/
def sgn (n v : Nat) : Int := if 2 * (v % 2 ^ n) < 2 ^ n then ((v % 2 ^ n : Nat) : Int) else ((v % 2 ^ n : Nat) : Int) - ((2 ^ n : Nat) : Int)

/-- The `n`-bit two's-complement pattern of `i`. -/
def unsgn (n : Nat) (i : Int) : Nat := (i % ((2 ^ n : Nat) : Int)).toNat

/-- `n` bytes of `bs` from offset `o`; bytes beyond the end read as zero. -/
def sub (bs : List Byte) (o n : Nat) : List Byte :=
  let r := (bs.drop o).take n
  r ++ List.replicate (n - r.length) 0

/-- The little-endian field of `n` bytes at offset `o`. -/
def fieldLE (bs : List Byte) (o n : Nat) : Nat := leNat (sub bs o n)

/-- `x` rounded up to a multiple of `m`. -/
def roundUp (x m : Nat) : Nat := (x + (m - 1)) / m * m

/-- Saturating increment by `n` at `top`. -/
def satAdd (x n top : Nat) : Nat := min (x + n) top

/-- ⌈log2 n⌉ by counting up to 64 doublings. -/
def clog2 (n : Nat) : Nat := if n ≤ 1 then 0 else Nat.log2 (n - 1) + 1

/-- One bit step of a reflected CRC with polynomial `poly`. -/
def crcBit (poly : Nat) (c : Nat) : Nat := if c % 2 = 1 then (c >>> 1) ^^^ poly else c >>> 1

/-- One byte of CRC-32C (Castagnoli, reflected 0x82F63B78). -/
def crc32cByte (c : Nat) (b : Byte) : Nat :=
  let x := c ^^^ b.toNat
  let p := 0x82F63B78
  crcBit p (crcBit p (crcBit p (crcBit p (crcBit p (crcBit p (crcBit p (crcBit p x)))))))

/-- CRC-32C of a byte list. -/
def crc32c (bs : List Byte) : Word := BitVec.ofNat 32 (bs.foldl crc32cByte 0xFFFFFFFF ^^^ 0xFFFFFFFF)

/-- CRC-8 of R455: polynomial x^8 + x^2 + x + 1, initial value 0, over the low `n` bits of `v`, bit 0 first. -/
def crc8 (n v : Nat) : Nat :=
  (List.range n).foldl (fun c i =>
    let top := bitAt c 7
    let c' := (c * 2) % 256
    if top != bitAt v i then c' ^^^ 0x07 else c') 0

/-- The signed 64-bit wrap of an integer (R50 computes in signed 64-bit arithmetic). -/
def wrap64 (i : Int) : Int := sgn 64 (unsgn 64 i)

end Sys2Proof.Machine
end

