-- ==== Sys2Proof/Machine/State.lean ====
section
/-!
DEFINITION. Machine/State.lean: everything the manual gives the module to remember, as plain data, and the state
right after a cold reset with VIN not yet good (R381, R388: bring-up stage 0).
Sparse tables (`Tab`) list entries in rising key order; a key they do not list holds its default.
Default field values below ARE the reset values; a value the manual does not give is named in the assumption log.
-/

namespace Sys2Proof.Machine

/-- A sparse table: keys strictly rising; a key it does not list holds the table's default (Machine/Tab.lean). -/
abbrev Tab (β : Type) := List (Nat × β)

/-! ## Engines (R48, R80-R84, R114-R128, R155, R336) -/

/-- ENG_STAT.STATE of R84, in its code order 0-5. -/
inductive EngRun where
  | idle | running | waiting | halted | rerun | retired
deriving DecidableEq, Repr

/-- An active loop (R58): the k register it names, its iteration, trip count minus 1, and first body index. -/
structure LoopFrame where
  k : BitVec 3
  iter : BitVec 24
  last : BitVec 24
  start : BitVec 24
deriving DecidableEq, Repr

/-- The tile modes of Table 5.1. -/
inductive TileMode where
  | af40 | fast | int32
deriving DecidableEq, Repr

/-- A tensor descriptor resolved at issue (R50, R52, R54): `ea` and `sea` are effective addresses. -/
structure Tens where
  dim0 : Nat := 1
  dim1 : Nat := 1
  dim2 : Nat := 1
  fmt : Byte := 0
  blkax : Bool := false
  pitch1 : Nat := 0
  pitch2 : Nat := 0
  ea : Nat := 0
  hint : BitVec 2 := 0
  host : Bool := false
  sea : Option Nat := none
  shint : BitVec 2 := 0
  recipe : Byte := 0xFF
  tid : BitVec 16 := 0
deriving DecidableEq, Repr

/-- A Tussock accumulator tile (R115, R126). Cell 32·i + j holds an AF40 word, a FAST residue written as the AF40
word of the same value, or (low 32 bits) an INT32 word. `spill` is the spill tensor of its fast MMAs (R126). -/
structure Tile where
  mode : TileMode := .af40
  cells : Tab AF40 := []
  groups : Nat := 0
  spills : Nat := 0
  spill : Tens := {}
deriving DecidableEq, Repr

/-- A run of bytes an instruction writes, held until the instruction completes (R56). -/
structure WriteRun where
  addr : Nat
  hint : BitVec 2
  host : Bool
  data : List Byte
deriving DecidableEq, Repr

/-- What an issued instruction still waits for before it may complete. -/
inductive WaitFor where
  /-- nothing but its turn -/
  | turn
  /-- a ring instance (R281, R283): ring index, reduce pass, first block -/
  | ring (ring : BitVec 16) (reduce : Bool) (first : Word)
  /-- the result of a norm tree (R293) -/
  | norm (tree : BitVec 16)
  /-- the commit barrier (R295) -/
  | barrier
  /-- a host-assisted numerics answer (R150) -/
  | numerics
deriving DecidableEq, Repr

/-- How far the UPD that follows a checkpoint has come (R152): its complete chunks, the 64 partial sums of u² and of w² after them
(R142, R155), and the kept elements and census counts of these chunks. -/
structure UpdProg where
  chunks : Nat := 0
  laneU : List AF40 := []
  laneW : List AF40 := []
  kept : Nat := 0
  census : List (BitVec 16 × Nat × Nat × Nat × Nat) := []
deriving DecidableEq, Repr

/-- One chunk of a UPD under way (R152): what it writes, and how far the UPD has come after it. -/
structure UpdChunk where
  runs : List WriteRun
  prog : UpdProg
deriving DecidableEq, Repr

/-- The part of an engine that a checkpoint saves (R80, R136, R152). -/
structure Ckpt where
  pc : BitVec 24 := 0
  g : Tab Dword := []
  a : Tab (BitVec 256) := []
  t : Tab (BitVec 256) := []
  loops : List LoopFrame := []
  tile0 : Tile := {}
  tile1 : Tile := {}
  sumU : AF40 := 0
  sumW : AF40 := 0
  idxRange : Nat := 0
  satCnt : Nat := 0
  keptCnt : Nat := 0
  dropCnt : Nat := 0
  lap : Bool := false
  upd : UpdProg := {}
deriving DecidableEq, Repr

/-- An issued instruction that has not completed (R56): its index, completion signal, pending writes, the census
counts it will report (R157), and the checkpoint its completion saves when it is a restart point. `swaits` counts the SWAITs
of the block up to it, `prog` is the progress that a UPD leaves in the checkpoint and `chunks` its chunks (R152), `mirror` the
record of a mirror UPD (R336); `bare` says that it has no source operand (R405). [DEDUCED, assumption 6] -/
structure InFlight where
  index : BitVec 24
  opc : Byte
  cs : Bool
  csem : BitVec 16
  wait : WaitFor := .turn
  writes : List WriteRun := []
  census : List (BitVec 16 × Nat × Nat × Nat × Nat) := []
  snap : Option Ckpt := none
  prog : Option Ckpt := none
  chunks : List UpdChunk := []
  swaits : Nat := 0
  mirror : Option Nat := none
  tagged : Bool := false
  bare : Bool := false
  tick : Dword := 0
  step : Dword := 0
  phase : BitVec 16 := 0
  rerun : Bool := false
deriving DecidableEq, Repr

/-- One RRING instance of a Mere (R280-R290). Tables are keyed by step block number: the agreed exponents, the blocks that
have been added, and the HELD packets whose HACK is outstanding (R289); `heldQueued` lists HELD packets, as first block and
count, that wait for HREADY (R290). -/
structure RInst where
  ring : BitVec 16
  reduce : Bool
  first : Word
  step : Dword := 0
  nblk : Nat
  attempt : BitVec 2 := 0
  s1 : Tens := {}
  d : Tens := {}
  succReady : Bool := false
  sent0 : Bool := false
  agreed : Tab (BitVec 16) := []
  added : Tab Bool := []
  hackWait : Tab Bool := []
  heldQueued : List (Nat × Nat) := []
  outq : List (Nat × Nat × List Byte) := []
  faulted : Bool := false
  done : Bool := false
deriving DecidableEq, Repr

/-- One logical engine. `lap` says that a JMP to index 0 has ended the pass: g31 rises and the step's events are logged when
instruction 0 issues (R48, R470); `evStep` is the step whose events have been logged, `rngStep` the step that has logged event
0x811 (R145), `traces` the tagged instructions of the block that have retired and `waitEntry` a tagged SWAIT that waits (R404), and `updSkipped` says that the engine's last UPD of the step was skipped (R155).
[DESIGN CHOICE, assumption 11] -/
structure Engine where
  run : EngRun := .idle
  pc : BitVec 24 := 0
  lap : Bool := false
  evStep : Option Dword := none
  g : Tab Dword := []
  a : Tab (BitVec 256) := []
  t : Tab (BitVec 256) := []
  loops : List LoopFrame := []
  phaseTag : BitVec 16 := 0
  waitSem : BitVec 16 := 0
  waitWatch : BitVec 12 := 0
  waitThr : Int := 0
  waitCs : Bool := false
  waitCsem : BitVec 16 := 0
  waitEntry : Option InFlight := none
  waitLogged : Bool := false
  retries : BitVec 16 := 0
  ckpt : Ckpt := {}
  ckptBusy : Bool := false
  blockSwaits : Nat := 0
  skipSwaits : Nat := 0
  rerunning : Bool := false
  faultTicks : List Nat := []
  hostAttempt : Nat := 0
  hostPause : Bool := false
  tile0 : Tile := {}
  tile1 : Tile := {}
  inflight : List InFlight := []
  idxRange : Nat := 0
  satCnt : Nat := 0
  keptCnt : Nat := 0
  dropCnt : Nat := 0
  rngStep : Option Dword := none
  census : List (BitVec 16 × Nat × Nat × Nat × Nat) := []
  opA : Option Tens := none
  opB : Option Tens := none
  sumU : AF40 := 0
  sumW : AF40 := 0
  updSkipped : Bool := false
  updIssued : Bool := false
  mirrorRec : Tab Dword := []
  rinsts : List RInst := []
  mismatches : Nat := 0
  heldAtZero : Bool := false
  lfsr : Word := 0
  traces : List InFlight := []
deriving DecidableEq, Repr

/-- The physical engine behind a logical one (ENG_MAP of R84). -/
structure EngMap where
  phys : Byte
  valid : Bool
deriving DecidableEq, Repr

/-! ## Sync unit (R186-R209) -/

/-- A semaphore entry of Table 8.1 and the REMOTE flag of Table 8.2. [DESIGN CHOICE, assumption 11] -/
structure Sem where
  value : Word := 0
  init : BitVec 22 := 0
  incr : BitVec 22 := 0
  lastEp : Endpoint := 0
  lastEng : Byte := 0xFF
  lastRmt : Bool := false
  alloc : Bool := false
  lastTick : BitVec 22 := 0
  remote : Bool := false
deriving DecidableEq, Repr

/-- The watch states of R191, and the unallocated state of SYNC_WDBG_STATE. -/
inductive WatchSt where
  | idle | armed | fired | unalloc
deriving DecidableEq, Repr

/-- A watch (R191). [DESIGN CHOICE, assumption 11] -/
structure Watch where
  st : WatchSt := .unalloc
  sem : BitVec 16 := 0
  thr : Int := 0
  owner : Byte := 0xFF
deriving DecidableEq, Repr

/-- A held or deferred SSIG (R194, R198, R202). -/
structure HeldSig where
  sender : Endpoint
  gen : BitVec 16
  seq : BitVec 16
  sem : BitVec 16
  n : BitVec 16
  epochBits : BitVec 2
  deferred : Bool
deriving DecidableEq, Repr

/-- A held HSIG (R428). -/
structure HeldHsig where
  sem : BitVec 16
  n : Word
  step : Dword
deriving DecidableEq, Repr

/-- Per-peer sequence state of one partition toward one endpoint (R193-R195); `txLast` is the last number given to a packet other than a PACK. -/
structure Peer where
  txNext : BitVec 16 := 0
  txLast : BitVec 16 := 0xFFFF
  txAcked : BitVec 16 := 0xFFFF
  rxMark : BitVec 16 := 0xFFFF
  rxAny : Bool := false
  rxAbove : List (BitVec 16) := []
  txWait : List Packet := []
  ackDirty : Bool := false
deriving DecidableEq, Repr

/-- The SYNC block's snapshots and counters (R208, R209). -/
structure SyncRegs where
  stat : Word := 0
  ceCnt : Word := 0
  ceTick : Option Nat := none
  dbgSel : BitVec 16 := 0
  dbgSem : Sem := {}
  dbgTick : Dword := 0
  dbgArmed : BitVec 7 := 0
  dbgFirst : BitVec 12 := 0
  wSel : BitVec 12 := 0
  wLatch : Option Watch := none
deriving DecidableEq, Repr

/-! ## Plans (R27, R44, R187, R277, R304, R465, R467) -/

/-- A stream as placed in the Peat (R44): byte addresses of the instruction array and the constant table. -/
structure StreamInfo where
  eng : Nat
  insnAt : Nat
  insnCnt : Nat
  constAt : Nat
  constCnt : Nat
  imgInsn : Nat
  imgConst : Nat
deriving DecidableEq, Repr

/-- A MEMMAP region (Table 7.8). -/
structure Region where
  base : Nat
  len : Nat
  use : Byte
  remote : Bool
  dramacc : Bool
  initOfs : Nat
  initLen : Nat
deriving DecidableEq, Repr

/-- A SEMA semaphore entry (Table 8.2). -/
structure SemDecl where
  index : Nat
  remote : Bool
  init : Int
  incr : Int
  remoteAdd : Nat
deriving DecidableEq, Repr

/-- A SEMA watch entry (Table 8.3), with its owner as a flat engine index. -/
structure WatchDecl where
  index : Nat
  eng : Nat
deriving DecidableEq, Repr

/-- A timeline phase (Table 2.5). -/
structure PhaseEnt where
  tag : BitVec 16
  op : Nat
  kind : Nat
  capW : Nat
  quiet : BitVec 16
  start : Nat
  len : Nat
deriving DecidableEq, Repr

/-- A ring or tree entry of Table 11.1. -/
structure RingEnt where
  index : Nat
  isTree : Bool
  barrier : Bool
  l : Nat
  pos : Nat
  psem : BitVec 16
  pred : Word
  succ : Word
  twin : Word
  ownBase : Nat
  heldBase : Nat
  shardLen : Nat
  children : List (Word × BitVec 16)
deriving DecidableEq, Repr

/-- A peer table entry of Table 12.3. -/
structure PeerEnt where
  rank : Nat
  plane : Nat
  lit : Nat
  role : Byte
  peak : Nat
deriving DecidableEq, Repr

/-- A multicast chain entry of Table 12.3. -/
structure ChainEnt where
  index : BitVec 16
  member : Bool
  column : Bool
  next : Word
  sem : BitVec 16
deriving DecidableEq, Repr

/-- A detour table entry of Table 12.3. -/
structure DetourEnt where
  rank : Nat
  plane : Nat
  mates : List Byte
deriving DecidableEq, Repr

/-- The SHAPE section (R304). -/
structure Shape where
  self : Nat := 0
  rankCnt : Nat := 1
  ddeg : Nat := 1
  pdeg : Nat := 1
  tdeg : Nat := 1
  edeg : Nat := 0
  flags : Byte := 1
  stage : Nat := 0
  twin : Word := 0xFFFFFFFF
  layers : Nat := 0
  heads : Nat := 0
  headsPad : Nat := 0
  experts : Nat := 0
  expertSlots : Nat := 0
  ranks : List (BitVec 17) := []
  lanes : List (BitVec 20 × BitVec 20) := []
  peers : List PeerEnt := []
  rings : List RingEnt := []
  chains : List ChainEnt := []
  detours : List DetourEnt := []
deriving DecidableEq, Repr

/-- The CONTROL section (Table 2.9); all zero when absent (R467). -/
structure Control where
  mode : Byte := 0
  level : Byte := 0
  profile : Byte := 0
  driveThr : Nat := 0
  marginThr : Nat := 0
  slowPct : Nat := 0
  slowSteps : Nat := 0
  drate : Nat := 0
  prate : Nat := 0
  optab : List (BitVec 16) := []
  weights : List (BitVec 16) := []
deriving DecidableEq, Repr

/-- An expert recipe entry (Table 4.7). -/
structure Recipe where
  kind : Nat
  fmt : Byte
  sofs : Int
  aux : Byte
deriving DecidableEq, Repr

/-- A loaded plan. `mirrors` lists the engine and the element address of every mirror UPD of its streams (R336); `rranges` the
ring, first block and block count of every reduce pass (R279). -/
structure Plan where
  imgAt : Nat
  imgLen : Nat
  imgHash : List Byte
  jobId : Dword
  keyId : Dword
  origin : Nat × Nat × Nat
  spans : Nat × Nat × Nat
  slotMask : BitVec 16
  stepTicks : Nat
  streams : List StreamInfo
  regions : List Region
  sems : List SemDecl
  watches : List WatchDecl
  shape : Shape
  timeline : List PhaseEnt
  preset : Nat
  recipes : List Recipe
  ctrl : Control
  mirrors : List (Nat × Nat)
  rranges : List (Nat × Nat × Nat)
  carveMib : Nat
deriving DecidableEq, Repr

/-- A load under way (R32): where the image lies and who asked; whether checks 0x04 and 0x08 are known to have run, and the engines and
transmit lanes that retired after them (R34). A spare's load has no requester (R332). -/
structure LoadJob where
  addr : Nat
  len : Nat
  fn : Option Fn
  tag : Word
  ran4 : Bool := false
  ran8 : Bool := false
  engs : List Nat := []
  lanes : List (Nat × Nat) := []
deriving DecidableEq, Repr

/-! ## Partitions -/

/-- The course of a partition's job (R35, R36, Table 17.12). -/
inductive PStat where
  | idle | pending | running | stopping
deriving DecidableEq, Repr

/-- The recovery hold of R329. -/
inductive Hold where
  | none | holding | held
deriving DecidableEq, Repr

/-- An installed tenant key (R42). -/
structure TKey where
  ident : Dword
  key : List Byte
deriving DecidableEq, Repr

/-- One node's part of a norm tree (R293): its own sum until it is used, the children's upward values by child index, whether
its RNORM still waits for the result, and the result of the step. `kept` is the own sum, for a roll forward (R343); `early` holds
upward values of an ATTEMPT that the partition has not come to yet. -/
structure NormNode where
  own : Option AF40 := none
  ups : Tab AF40 := []
  early : Tab AF40 := []
  waiting : Bool := false
  result : Option AF40 := none
  eng : Nat := 0
  d : Tens := {}
  kept : Option AF40 := none
  step : Dword := 0
deriving DecidableEq, Repr

/-- What a REPORT carries (R329, Table 13.6). -/
structure Report where
  rank : Nat
  c : Dword
  mstep : Dword
  flags : Byte
deriving DecidableEq, Repr

/-- The stages of a recovery at its coordinator (R327-R346). -/
inductive RecStage where
  | draining | reports | await | offering | admitting | tables
deriving DecidableEq, Repr

/-- A recovery under way at its coordinator, for one job (partition). `accepted` pairs a lost rank with the slot of its spare; `wanted`
lists the ranks of a planned replacement whose drain is under way; `drained` and `rtacks` count the modules that have answered. -/
structure Recov where
  stage : RecStage := .reports
  jobtag : BitVec 16
  lost : List Nat := []
  reports : List Report := []
  warmNotice : List Nat := []
  c : Dword := 0
  rollForward : Bool := false
  offeredTo : Option Nat := none
  offerRank : Nat := 0
  resync : Word := 0
  passed : List Nat := []
  hostSlot : Option Nat := none
  accepted : List (Nat × Nat) := []
  live : List Nat := []
  rtacks : Nat := 0
  drained : Nat := 0
  wanted : List Nat := []
  decision : Option Word := none
deriving DecidableEq, Repr

/-- A resync journal (R339), kept in the non-volatile store. `last` counts the chunks completed. What R339 does not list is the
model's own: `part` and `coord` say where the other end is, `start` marks a stream of START, `held` a stream that carries the
held shard and s, `c` the last committed step that it starts from, and a receiver lists the packets of the chunk under way in `got` and,
in `spans`, the chunks completed, by place and length. -/
structure Journal where
  resync : Word
  jobtag : BitVec 16
  rank : Nat
  part : Nat
  mirror : Bool
  sender : Bool
  start : Bool
  held : Bool
  chunks : Nat
  last : Nat := 0
  crcs : List Word := []
  peer : Endpoint
  coord : BitVec 17
  open_ : Bool := true
  c : Dword := 0
  got : List (Nat × Nat) := []
  spans : List (Nat × Nat) := []
deriving DecidableEq, Repr

/-- One partition. `spareFrom` is the lost module whose rank it took as a spare (R326), `resetTag` the job tag of the rank that a partition
reset declared (R386), `decidedC` the c that a RESUME or GO named (R341), `windows` the ranks whose resync window is open (R344), and
`planAt` the ranks whose planned replacement the host has fixed, with slot and step (R426). -/
structure Partn where
  plan : Option Plan := none
  loading : Option LoadJob := none
  stat : PStat := .idle
  hold : Hold := .none
  drain : BitVec 2 := 0
  drainStep : Dword := 0
  changes : BitVec 16 := 0
  resumeAt : Option Dword := none
  goAt : Option Dword := none
  tabAt : Option Dword := none
  pendingTab : List (Nat × Dword) := []
  seed : Dword := 0
  first : Dword := 0
  startTick : Dword := 0
  epoch : Dword := 0
  lastCommit : Dword := 0xFFFFFFFFFFFFFFFF
  phase : Option (BitVec 16) := none
  phaseTick : Dword := 0
  phaseStep : Dword := 0
  lateness : Int := 0
  stepTick : Dword := 0
  remoteWait : Nat := 0
  issued : Bool := false
  slowRun : Nat := 0
  slowSum : Nat := 0
  slowBreak : Bool := false
  censusLeft : Nat := 0
  censusNow : Bool := false
  arrived : Bool := false
  barStage : Nat := 0
  barSem : BitVec 16 := 0
  skipStep : Option Dword := none
  barPeerSeq : List (Endpoint × BitVec 16) := []
  ownSigs : List (Endpoint × BitVec 16) := []
  numDecision : Option Word := none
  numAnswer : Option (Dword × Byte) := none
  stopNow : Bool := false
  tkey : Option TKey := none
  keyEpoch : Word := 0
  carveMib : BitVec 10 := 0
  carveHost : Bool := false
  heldQ : List HeldSig := []
  heldPeak : BitVec 12 := 0
  hsigs : List HeldHsig := []
  qfull : Bool := false
  peers : Tab Peer := []
  readyKept : List (BitVec 16 × Bool × Word) := []
  ringAttempt : List ((BitVec 16 × Bool × Word) × BitVec 2) := []
  heldAttempt : List ((BitVec 16 × Word) × BitVec 2) := []
  heldGot : Tab Nat := []
  hreadyGot : Nat := 0
  norms : Tab NormNode := []
  normAtt : BitVec 2 := 0
  arrivals : Tab Nat := []
  recov : Option Recov := none
  slowRanks : List Nat := []
  fencedRanks : List Nat := []
  spare : Option (Word × Endpoint) := none
  spareTag : BitVec 16 := 0
  spareRank : Nat := 0
  spareC : Dword := 0
  spareTwinMstep : Dword := 0
  spareFrom : Option (BitVec 17) := none
  resetTag : Option (BitVec 16) := none
  decidedC : Option Dword := none
  windows : List Nat := []
  planAt : List (Nat × Nat × Dword) := []
  waitlim : Word := 0x0002540C
deriving DecidableEq, Repr

/-! ## Lanes, islands, combs (R210-R246) -/

/-- A data frame as the link layer holds it (Table 9.3). -/
structure Frame where
  fsn : BitVec 16
  first : BitVec 9
  payload : List Byte
deriving DecidableEq, Repr

/-- A frame on the fibre, with every field of Table 9.3. -/
structure Wire where
  fsn : BitVec 16
  ack : BitVec 16
  idle : Bool
  nak : Bool
  acksel : BitVec 5
  first : BitVec 9
  busy : Bool
  payload : List Byte
deriving DecidableEq, Repr

/-- A packet on a transmit lane: as it came to this module (`orig`, on plane set `inPlane`), as it is sent (`pkt`), the receive
port and colour whose slot it still occupies with the packet as it lies there (R262), whether it was detoured here (R471), and the frames not yet acknowledged that it began after those of the packets before
it: packets lie back to back, and one that begins and ends in a frame of the packet before begins none. `gone` marks a packet to a fenced rank, of which nothing waits any more (R328). -/
structure LaneJob where
  orig : Packet
  inPlane : Nat
  pkt : Packet
  slot : Option (Nat × Nat × Packet) := none
  turned : Bool := false
  left : Nat := 0
  gone : Bool := false
deriving DecidableEq, Repr

/-- Transmit lane states of LODE_LSTAT. -/
inductive TxSt where
  | dark | calib | training | up | heldSwitch | retired
deriving DecidableEq, Repr

/-- Receive lane states of LODE_LSTAT. -/
inductive RxSt where
  | dark | calib | training | up | closed | retired
deriving DecidableEq, Repr

/-- A transmit lane: frames not yet sent (`queue`), sent and unacknowledged (`unacked`, the replay buffer of R221), the packets
they belong to (`held`), how often each of those frames has been resent, by FSN (`resends`, R222), packets that wait for a credit (`waitq`), the far end's reports of the last 40 intervals (`omas`), and
everything put on the fibre so far but alignment blocks (`out`, newest last). `fill` counts the bytes taken of the last frame of `queue`
while it is not full, `interval` and `since` the alignment blocks sent and the frames sent since the last one, `rptTurn` the reports made
in turn (R219), and `replayDue` says that frames wait to be resent until the lane carries traffic again (R243). `trainCause` and `retCause` are the cause items of R244 for the retrain
and for the fault that waits for the host; `hostTry` marks the retrain that the host asked for,
and `helloDue` one that calls for a HELLO (R393). -/
structure TxLane where
  st : TxSt := .dark
  lit : Bool := false
  nextFsn : BitVec 16 := 0
  unacked : List Frame := []
  queue : List Frame := []
  resends : Tab Nat := []
  held : List LaneJob := []
  out : List Wire := []
  ackTurn : Nat := 0
  fill : Nat := 0
  interval : Word := 0
  since : Nat := 0
  rptTurn : Nat := 0
  replayDue : Bool := false
  omas : List (BitVec 16) := []
  hostTry : Bool := false
  trainCause : BitVec 3 := 0
  retCause : BitVec 4 := 0
  pausedBusy : Option (BitVec 16) := none
  margin : BitVec 16 := 0x8000
  heat : BitVec 16 := 0
  retry : Word := 0
  retrains : List Nat := []
  relocks : Nat := 0
  locked : Bool := true
  outOfTraffic : Bool := false
  credits : Tab Nat := []
  waitq : List LaneJob := []
  retiredNv : Bool := false
  helloDue : Bool := false
deriving DecidableEq, Repr

/-- A receive lane. `asm` gathers the bytes of the packet being received, which begins at byte `asmOff` of frame `asmFsn` (R249);
`restart` names the frame and byte at which a packet that failed or was declined begins (R264, R266). `nak` says that the frame
`expect` is missing and later ones are discarded, `nakDue` that the next frame toward the sender says so (R222); `corrI` and `uncI`
count for the next report (R219), and `declining` says that the lane's frames are being declined (R266). -/
structure RxLane where
  st : RxSt := .dark
  open_ : Bool := false
  expect : BitVec 16 := 0
  nak : Bool := false
  nakDue : Bool := false
  nakBusy : Bool := false
  declining : Bool := false
  corrI : Nat := 0
  uncI : Nat := 0
  asm : List Byte := []
  asmFsn : BitVec 16 := 0
  asmOff : Nat := 0
  restart : Option (BitVec 16 × Nat) := none
  hostTry : Bool := false
  trainCause : BitVec 3 := 0
  retCause : BitVec 4 := 0
  uncTicks : List Nat := []
  oma : BitVec 16 := 0x8000
  heat : BitVec 16 := 0
  unc : Word := 0
  corr : Word := 0
  relocks : Nat := 0
  locked : Bool := true
  retrains : List Nat := []
  noticeUntil : Nat := 0
  peerClosing : Option Nat := none
  outOfTraffic : Bool := false
  lastHeard : Nat := 0
  retiredNv : Bool := false
deriving DecidableEq, Repr

/-- Per-port link state and counters (LODE_STAT W1C bits, ROUTE_P* registers). `slots` and `small` hold the receive pool's packets
with their colours; `granted` counts the credits given and not yet used, by 16·colour + 2·VC + class (R262). `declines` holds the spans
of the last second in which the port declined frames (R266). -/
structure PortSt where
  stat : BitVec 5 := 0
  ptx : Word := 0
  prx : Word := 0
  prelay : Word := 0
  busySent : BitVec 16 := 0
  busyRcvd : BitVec 16 := 0
  slots : List (Nat × Packet) := []
  small : List (Nat × Packet) := []
  granted : Tab Nat := []
  peak : BitVec 7 := 0
  pdrop : Word := 0
  uncTick : Option Nat := none
  malTick : Option Nat := none
  declineSince : Option Nat := none
  declines : List (Nat × Nat) := []
deriving DecidableEq, Repr

/-- A photonic engine's thermal island (R226). -/
structure Island where
  temp : BitVec 12 := 0
  inband : Bool := false
  stopped : Bool := false
  lost : Bool := false
  excursion : Bool := false
deriving DecidableEq, Repr

/-- COMB_STAT.STATE of R246. -/
inductive CombSt where
  | off | warm | service | retired | failed
deriving DecidableEq, Repr

/-- A comb source (R231-R237, R246). [DESIGN CHOICE, assumption 11] -/
structure Comb where
  st : CombSt := .off
  pend : Bool := false
  w1c : BitVec 4 := 0
  drive : BitVec 10 := 0
  driveThr : BitVec 10 := 0x352
  marginThr : BitVec 9 := 0x064
  age : Word := 0
  worst : BitVec 16 := 0x8000
  worstPort : BitVec 2 := 0
  worstCol : BitVec 5 := 0
  pendTick : Nat := 0
  cause : BitVec 2 := 0
  ageTicks : Nat := 0
  lastTick : Dword := 0
  switching : Bool := false
  forced : Bool := false
  due : Bool := false
  startTick : Nat := 0
  approved : Bool := true
  decision : Option Word := none
deriving DecidableEq, Repr

/-! ## Router (R247-R275) -/

/-- A rank-table entry (R252). -/
structure RankEnt where
  valid : Bool := false
  coord : BitVec 17 := 0
  gen : BitVec 16 := 0
deriving DecidableEq, Repr

/-- A packet handed to a transmit lane. -/
structure Sent where
  port : Nat
  colour : Nat
  pkt : Packet
deriving DecidableEq, Repr

/-- A detoured packet that waits in a relay slot for a direct lane of its pair (R471). -/
structure RelayWait where
  plane : BitVec 3
  slot : BitVec 5
  job : LaneJob
deriving DecidableEq, Repr

/-- The router's own state. `aligns` lists the alignment blocks sent (R219), by port and colour, with the number of frames that the lane had
sent before. While `cork` is set, a frame that is not full waits for the next packet (R249).
`detours` lists the pairs that detour now, with their mates (R274). [DESIGN CHOICE, assumption 11] -/
structure Router where
  cx : BitVec 3 := 0
  cy : BitVec 3 := 0
  cz : BitVec 6 := 0
  ex : BitVec 4 := 1
  ey : BitVec 4 := 1
  ez : BitVec 6 := 1
  coordKnown : Bool := false
  extKnown : Bool := false
  rtab : Tab RankEnt := []
  stat : Word := 0
  dropcnt : Tab Word := []
  deal : Tab Nat := []
  mateTurn : Tab Nat := []
  reports : Tab (List (BitVec 20)) := []
  relayq : List RelayWait := []
  rtsel : Word := 0
  rtent : Dword := 0
  rate : Tab Nat := []
  txq : List Sent := []
  aligns : List (Nat × Nat × Nat × AlignBlock) := []
  cork : Bool := false
  detours : List (Nat × Nat) := []
  maintRx : List Packet := []
deriving DecidableEq, Repr

/-! ## Memories (R159-R185) -/

/-- A carve-out line (R163): its 256 B-aligned address, its bytes and whether DRAM lags behind it. -/
structure CLine where
  addr : Nat
  dirty : Bool
  data : List Byte
deriving DecidableEq, Repr

/-- A copy under way: a page retirement (R179) or a row sparing (R177). -/
structure CopyJob where
  page : Bool
  item : Nat
  reserve : Nat
deriving DecidableEq, Repr

/-- The memories and the MEM block. `mem` lists the bytes of the Peat and of the DRAM that differ from zero;
`lines` holds each partition's carve-out, most recently used line first. -/
structure MemSt where
  mem : Tab Byte := []
  lines : Tab (List CLine) := []
  poison : List Nat := []
  drate : Tab Nat := [(0, 0x100)]
  dburst : Tab Nat := []
  prate : Tab Nat := [(0, 0x100)]
  pburst : Tab Nat := []
  dlow : Tab Nat := []
  plow : Tab Nat := []
  dramPeriod : Byte := 0x18
  peatPeriod : Byte := 0x0A
  ecc : Word := 0
  dce : Word := 0
  pce : Word := 0
  ueDram : BitVec 16 := 0
  uePeat : BitVec 16 := 0
  errAddr : Addr := 0
  errKind : BitVec 4 := 0
  errPart : BitVec 2 := 0
  ceSeen : List (Nat × Nat × Nat) := []
  dceTick : Tab Nat := []
  pceTick : Option Nat := none
  rows : Tab Nat := []
  pages : List (Nat × Nat) := []
  spareLines : Tab Nat := []
  reserveLow : Bool := false
  copies : List CopyJob := []
  stackSpared : Tab Nat := []
  stackRows : Tab Nat := []
  hostOut : List (Nat × Nat × List Byte) := []
  grains : Tab (BitVec 48) := []
deriving DecidableEq, Repr

/-! ## Power, heat, clocks (R353-R380) -/

/-- An operating-point change under way (R362, R364). `step` is 0 before step 1 of Table 14.5, 1 after it. -/
structure OpChange where
  target : Nat
  from_ : Nat
  tag : BitVec 16
  raise : Bool
  step : Nat
deriving DecidableEq, Repr

/-- Supply, cap loop, operating points, droop and heat. `over56` marks an interval that ended at level 56 with the power above
the cap; `temps` holds the last 11 readings of each sensor, newest first, and `excl` the sensors excluded. -/
structure Power where
  vin : BitVec 13 := 0
  on : Bool := false
  offLatched : Bool := false
  tripped : Bool := false
  throttle : Bool := false
  dipTick : Nat := 0
  lowest : BitVec 13 := 0
  auxok : Bool := false
  stat : Word := 0
  est : BitVec 11 := 0
  ts : BitVec 11 := 0
  capEff : BitVec 11 := 0x5DC
  capHost : BitVec 11 := 0
  capOpen : Bool := false
  profile : BitVec 2 := 0
  lvl : BitVec 6 := 0
  thm : BitVec 6 := 0
  over56 : Bool := false
  capMissed : Bool := false
  opCur : Nat := 0
  opWant : Nat := 0
  wantTag : BitVec 16 := 0
  mhz : Nat := 600
  pllMhz : Option Nat := none
  chg : Option OpChange := none
  abandoned : BitVec 16 := 0
  droopCnt : Word := 0
  droopTick : Option Nat := none
  droopNow : Bool := false
  burst : Bool := false
  temps : Tab (List (BitVec 16)) := []
  excl : List Nat := []
  tmax : BitVec 16 := 0
  tsensor : BitVec 7 := 0
  early : Bool := false
  opFreq : Tab Byte := []
  opInvalid : Tab Bool := []
  weights : Tab (BitVec 16) := []
  thermN : Bool := false
deriving DecidableEq, Repr

/-- REF, STEP and the calendar. `refIn` says that REFCLK_IN carries REF. `calSub` counts the part of a nanosecond in units of 2·10^−19 s (Machine/Clock.lean); `hop` is the
hop count of the received STEP words, which R456 keeps from sending words at 63. `bkv` is the backup voltage in 20 mV; `offAt`
holds the calendar's second at which the standby rail went down, and `calLost` a calendar that its backup has lost (R374). -/
structure Clock where
  tick : Dword := 0
  refIn : Bool := true
  lock : Bool := false
  hold : Bool := false
  holdTick : Nat := 0
  stepLock : Bool := false
  head : Bool := false
  hop : BitVec 6 := 0
  stat : Word := 0
  hiTick : Word := 0
  drift : BitVec 16 := 0
  driftPort : BitVec 5 := 0
  driftCol : BitVec 5 := 0
  driftRun : Nat := 0
  driftTick : Option Nat := none
  tickOfs : BitVec 16 := 0
  tickDir : BitVec 3 := 0
  ofsBy : Tab (BitVec 16) := []
  misTick : Option Nat := none
  sec : BitVec 34 := 0
  ns : BitVec 30 := 0
  calSub : Nat := 0
  hiCal : Word := 0
  setLo : Word := 0
  setHi : Word := 0
  slew : Word := 0
  valid : Bool := false
  bkv : Byte := 0
  offAt : Option (BitVec 34) := some 0
  calLost : Bool := false
  stepOut : List (BitVec 96) := []
deriving DecidableEq, Repr

/-! ## Resets, bring-up and pins (R381-R396, R448-R456) -/

/-- Reset and bring-up state, straps and pins. `elapsed` adds up the durations of the stages passed and `since` is the tick at which the
stage under way began. `brd` and `pos` are the straps as last sampled, `brdPins` and `posPins` the pins themselves (R448). `warmWanted` and
`partWanted` hold a warm reset (as its MODCTL_LAST.KIND) and the partition resets that wait for ready; `owed` is a cold reset whose
event 0xB02 waits for the event log (R381), and `perstRelease` a release of PERST_N that waits for PWR_GOOD (R451). [DESIGN CHOICE, assumption 11] -/
structure Boot where
  stage : Nat := 0
  failed : Bool := false
  warm : Bool := false
  cause : Byte := 0
  elapsed : Nat := 0
  since : Dword := 0
  lastKind : BitVec 3 := 0
  stat : Word := 0
  cntModule : Byte := 0
  cntWarm : Byte := 0
  cntPart : Byte := 0
  quar : Bool := false
  quarCause : BitVec 3 := 0
  stime : Tab Nat := []
  disc : Tab (BitVec 20) := []
  discBad : Tab (BitVec 20) := []
  helloCnt : Nat := 0
  brd : BitVec 3 := 0
  pos : BitVec 2 := 0
  brdPins : BitVec 3 := 0
  posPins : BitVec 2 := 0
  perst : Bool := true
  perstRelease : Bool := false
  pwrGood : Bool := false
  faultN : Bool := false
  warmWanted : Option (BitVec 3) := none
  partWanted : BitVec 4 := 0
  reinstating : Bool := false
  stacksBad : BitVec 8 := 0
  owed : Bool := true
deriving DecidableEq, Repr

/-! ## Observation (R397-R414) -/

/-- An event record of Table 16.7 with all its argument bytes. -/
structure EventRec where
  code : BitVec 12
  part : BitVec 2
  lost : Bool
  seq : Dword
  tick : Dword
  cal : Dword
  args : List Byte
deriving DecidableEq, Repr

/-- A ring's registers (R410) and its LOST mark. -/
structure Ring where
  base : Addr := 0
  part : BitVec 2 := 0
  size : BitVec 24 := 0
  en : Bool := false
  refused : Bool := false
  wr : BitVec 24 := 0
  rd : BitVec 24 := 0
  drop : Word := 0
  lost : Bool := false
deriving DecidableEq, Repr

/-- A tensor slot of the numerics watch (R153-R157). `pend` holds the ratio figures of a step not yet committed (R413). -/
structure NumSlot where
  step : Dword := 0
  rho : Word := 0
  sumU : AF40 := 0
  sumW : AF40 := 0
  pend : Option (Word × AF40 × AF40) := none
  last : Nat × Nat × Nat × Nat := (0, 0, 0, 0)
  cur : Nat × Nat × Nat × Nat := (0, 0, 0, 0)
  bound : Option (BitVec 160) := none
  hiDone : Bool := false
  loDone : Bool := false
deriving DecidableEq, Repr

/-- Counters, snapshots, trace, numerics watch and event log. -/
structure Obs where
  ctr : Tab (BitVec 48) := []
  sel : Tab (BitVec 17) := []
  selUse : Tab (BitVec 17) := []
  hiVal : Tab (BitVec 16) := []
  period : BitVec 21 := 0x3D09
  preset : Byte := 0
  clrPart : BitVec 4 := 0
  clrModule : Bool := false
  snapSeq : Dword := 0
  rcnt : Ring := {}
  rtrace : Ring := {}
  revt : Ring := {}
  trEn : BitVec 4 := 0
  trN : Tab (BitVec 5) := []
  trKinds : Tab (BitVec 5) := []
  force : BitVec 4 := 0
  slots : Tab NumSlot := []
  nsel : BitVec 12 := 0
  nlatch : NumSlot := {}
  log : List EventRec := []
  logFull : Bool := false
  seq : Dword := 0
  hiSeq : Word := 0
  lsel : BitVec 13 := 0
  lrec : List Byte := []
deriving DecidableEq, Repr

/-! ## Host, management, security (R415-R444) -/

/-- A mailbox reply or a notification: the header of Table 17.3 and its payload. -/
structure Msg where
  opcode : BitVec 16
  tag : Word
  part : Byte
  status : Byte
  payload : List Byte
deriving DecidableEq, Repr

/-- One PCIe function's BAR4 state (R420); `req` is its request buffer. -/
structure FnSt where
  req : Tab Byte := []
  busy : Bool := false
  resp : Bool := false
  overrun : Bool := false
  linkwait : Bool := false
  reply : Option Msg := none
  ntail : Nat := 0
  nhead : Nat := 0
  ring : Tab Msg := []
  waiting : List Msg := []
  win : Addr := 0
  log2 : BitVec 3 := 0
  denied : BitVec 16 := 0
  rdata : List Byte := []
  rpoison : Bool := false
  msix0 : Nat := 0
  msix1 : Nat := 0
deriving DecidableEq, Repr

/-- What a pending proposal concerns (R426). -/
inductive Proposal where
  | comb (s : Nat)
  | lane (p : Nat) (c : Nat) (d : Dir)
  | replace (q : Nat)
  | numerics (q : Nat) (step : Dword)
deriving DecidableEq, Repr

/-- A proposal: its deadline and, once decided or expired, its end. -/
structure Decision where
  ident : Word
  what : Proposal
  deadline : Dword
  answered : Bool := false
  expired : Bool := false
deriving DecidableEq, Repr

/-- An outgoing management message (R431-R434, R438). -/
structure MctpMsg where
  binding : Binding
  typ : Byte
  body : List Byte
deriving DecidableEq, Repr

/-- A firmware copy in flash (R434, R435). [DESIGN CHOICE, assumption 11] -/
structure FwCopy where
  sigOk : Bool := true
  svn : BitVec 6 := 0
  ver : BitVec 16 := 0
  hash : List Byte := []
deriving DecidableEq, Repr

/-- The stages of an SPDM connection on one binding (R438). -/
structure Spdm where
  version : Bool := false
  caps : Bool := false
  algs : Bool := false
  handshake : Bool := false
  session : Bool := false
deriving DecidableEq, Repr

/-- Host link, mailbox, management and security state. `spareFor` gives the slot of the standby that takes every rank of a lost module, by
its coordinate (R326), and `slowLeaves` marks a module that has declared itself under cause 5 (R347). [DESIGN CHOICE, assumption 11] -/
structure HostSt where
  linkUp : Bool := false
  fns : Tab FnSt := []
  decisions : List Decision := []
  nextDecision : Word := 1
  eidPcie : Byte := 0
  eidI2c : Byte := 0
  mctpOut : List MctpMsg := []
  spdm : Tab Spdm := []
  copyA : FwCopy := {}
  copyB : FwCopy := {}
  activeB : Bool := false
  nextB : Bool := false
  fuseSvn : BitVec 6 := 0
  revoked : BitVec 2 := 0
  secStat : BitVec 2 := 0
  auth : Bool := false
  romVer : BitVec 16 := 0
  serial : Dword := 0
  meas : Tab (List Byte) := []
  msel : BitVec 6 := 0
  mval : List Byte := []
  journals : List Journal := []
  nextResync : Word := 1
  vacating : Option (BitVec 3) := none
  spareFor : Tab Nat := []
  slowLeaves : Bool := false
deriving DecidableEq, Repr

/-! ## The module -/

/-- The whole state. `free` numbers the free values the steps have read (Config.lean). `pending` is the queue of
commands that wait, first in, first out; `deadPhys` lists the physical engines that have retired or failed their self-test, as
256 times the kind code plus the physical ID. [DESIGN CHOICE, assumption 9] -/
structure State where
  pending : List Instr := []
  free : Nat := 0
  partCnt : Nat := 1
  parts : Tab Partn := []
  engs : Tab Engine := []
  engMaps : Tab EngMap := []
  deadPhys : List Nat := []
  engFlt : BitVec 4 := 0
  sems : Tab Sem := []
  watches : Tab Watch := []
  sync : SyncRegs := {}
  txl : Tab TxLane := []
  rxl : Tab RxLane := []
  ports : Tab PortSt := []
  islands : Tab Island := []
  combs : Tab Comb := []
  router : Router := {}
  mem : MemSt := {}
  power : Power := {}
  clk : Clock := {}
  boot : Boot := {}
  obs : Obs := {}
  host : HostSt := {}
deriving DecidableEq, Repr

/-- Why a step stops with a fault. -/
inductive Fault where
  /-- An engine-issue command whose form the manual calls illegal (R47, R55, R66-R77, R79: the loader refuses every
  such stream, so no loaded stream issues it). Raised by the meanings of the engine instructions. SAFE: the manual
  gives the form no effect, and the model stops. -/
  | illegalForm
deriving DecidableEq, Repr

/-- Why a command has no meaning. -/
inductive Refusal where
  /-- The command's meaning is not written. Raised by arms of Machine/Dispatch.lean only. SAFE: nothing is claimed. -/
  | notModelled (mnemonic : String)
deriving DecidableEq, Repr

/-- The answer of a meaning. -/
abbrev Out := Host.Outcome State Fault Refusal

/-- The module with no supply, before bring-up: every field at the reset value its structure names. -/
def State.reset : State := {}

end Sys2Proof.Machine
end

