-- ==== Sys2Proof/Machine/Tab.lean ====
section
/-!
DEFINITION. Machine/Tab.lean: reading and writing the sparse tables of the state. A key that is not listed holds the
default. `Tab.set` keeps keys rising; `Tab.setz` (the byte memory) also drops entries equal to zero.
-/

namespace Sys2Proof.Machine

/-- The value at key `i`; `d` where none is listed. -/
def Tab.get {β : Type} (d : β) : Tab β → Nat → β
  | [], _ => d
  | (k, v) :: r, i => if i < k then d else if i = k then v else Tab.get d r i

/-- The value at key `i`, if one is listed. -/
def Tab.find {β : Type} : Tab β → Nat → Option β
  | [], _ => none
  | (k, v) :: r, i => if i < k then none else if i = k then some v else Tab.find r i

/-- Write `v` at key `i`. -/
def Tab.set {β : Type} : Tab β → Nat → β → Tab β
  | [], i, v => [(i, v)]
  | (k, w) :: r, i, v =>
    if i < k then (i, v) :: (k, w) :: r
    else if i = k then (i, v) :: r
    else (k, w) :: Tab.set r i v

/-- Unlist every key that `p` accepts. -/
def Tab.drop {β : Type} (t : Tab β) (p : Nat → Bool) : Tab β := t.filter fun kv => !p kv.1

/-- Change every listed value. -/
def Tab.mapKV {β : Type} (t : Tab β) (f : Nat → β → β) : Tab β := t.map fun kv => (kv.1, f kv.1 kv.2)

/-- Keys strictly rise. -/
def Tab.rising {β : Type} : Tab β → Bool
  | [] => true
  | [_] => true
  | (k, _) :: (k', v') :: r => decide (k < k') && Tab.rising ((k', v') :: r)

/-- Write byte `v` at address `i` of a byte memory whose unlisted bytes read as zero: a zero is unlisted. [DESIGN CHOICE, assumption 10] -/
def Tab.setz : Tab Byte → Nat → Byte → Tab Byte
  | [], i, v => if v = 0 then [] else [(i, v)]
  | (k, w) :: r, i, v =>
    if i < k then (if v = 0 then (k, w) :: r else (i, v) :: (k, w) :: r)
    else if i = k then (if v = 0 then r else (i, v) :: r)
    else (k, w) :: Tab.setz r i v

/-- Write consecutive bytes from address `i`. -/
def Tab.setBytes : Tab Byte → Nat → List Byte → Tab Byte
  | t, _, [] => t
  | t, i, b :: bs => Tab.setBytes (t.setz i b) (i + 1) bs

/-- The canonical form of the byte memory: addresses strictly rising, no listed byte zero. -/
def Memory.wf (m : Tab Byte) : Bool := m.rising && m.all fun kv => kv.2 != 0

end Sys2Proof.Machine
end

