-- ==== Sys2Proof/Machine/Ops.lean ====
section
/-!
DEFINITION. Machine/Ops.lean: the named reads and writes of the state's parts, partition ranges (R16, R28, R29,
R159, R168), and the event log (R11, R406-R408).
-/

namespace Sys2Proof.Machine

/-! ## Parts of the state -/

def State.eng (s : State) (e : Nat) : Engine := s.engs.get {} e
def State.setEng (s : State) (e : Nat) (x : Engine) : State := { s with engs := s.engs.set e x }
def State.modEng (s : State) (e : Nat) (f : Engine → Engine) : State := s.setEng e (f (s.eng e))
def State.part (s : State) (q : Nat) : Partn := s.parts.get {} q
def State.setPart (s : State) (q : Nat) (x : Partn) : State := { s with parts := s.parts.set q x }
def State.modPart (s : State) (q : Nat) (f : Partn → Partn) : State := s.setPart q (f (s.part q))
def State.sem (s : State) (i : Nat) : Sem := s.sems.get {} i
def State.setSem (s : State) (i : Nat) (x : Sem) : State := { s with sems := s.sems.set i x }
def State.watch (s : State) (i : Nat) : Watch := s.watches.get {} i
def State.setWatch (s : State) (i : Nat) (x : Watch) : State := { s with watches := s.watches.set i x }
def State.port (s : State) (p : Nat) : PortSt := s.ports.get {} p
def State.setPort (s : State) (p : Nat) (x : PortSt) : State := { s with ports := s.ports.set p x }
def State.modPort (s : State) (p : Nat) (f : PortSt → PortSt) : State := s.setPort p (f (s.port p))
def State.fn (s : State) (f : Nat) : FnSt := s.host.fns.get {} f
def State.setFn (s : State) (f : Nat) (x : FnSt) : State :=
  { s with host := { s.host with fns := s.host.fns.set f x } }
def State.modFn (s : State) (f : Nat) (g : FnSt → FnSt) : State := s.setFn f (g (s.fn f))
def State.island (s : State) (e : Nat) : Island := s.islands.get {} e
def State.setIsland (s : State) (e : Nat) (x : Island) : State := { s with islands := s.islands.set e x }
def State.comb (s : State) (i : Nat) : Comb := s.combs.get {} i
def State.setComb (s : State) (i : Nat) (x : Comb) : State := { s with combs := s.combs.set i x }
def State.modComb (s : State) (i : Nat) (f : Comb → Comb) : State := s.setComb i (f (s.comb i))

/-- Lane tables are keyed by 20·port + colour. -/
def laneKey (p c : Nat) : Nat := 20 * p + c
def State.tx (s : State) (p c : Nat) : TxLane := s.txl.get {} (laneKey p c)
def State.setTx (s : State) (p c : Nat) (x : TxLane) : State := { s with txl := s.txl.set (laneKey p c) x }
def State.modTx (s : State) (p c : Nat) (f : TxLane → TxLane) : State := s.setTx p c (f (s.tx p c))
def State.rx (s : State) (p c : Nat) : RxLane := s.rxl.get {} (laneKey p c)
def State.setRx (s : State) (p c : Nat) (x : RxLane) : State := { s with rxl := s.rxl.set (laneKey p c) x }
def State.modRx (s : State) (p c : Nat) (f : RxLane → RxLane) : State := s.setRx p c (f (s.rx p c))

/-- Take the number of the next free value (Config.lean). [DESIGN CHOICE, assumption 9] -/
def State.takeFree (s : State) : Nat × State := (s.free, { s with free := s.free + 1 })

/-- REF ticks in one second (R5, notation: one tick is 6.4 ns). [DEDUCED, assumption 8] -/
def ticksPerSec : Nat := 156250000
/-- The REF tick count as a number. -/
def State.now (s : State) : Nat := s.clk.tick.toNat

/-! ## Engine indices (R84) -/

/-- First flat index of kind code `k`. -/
def kindBase (k : Nat) : Nat :=
  if k = 0 then 0 else if k = 1 then 128 else if k = 2 then 160 else if k = 3 then 164 else 168

/-- Logical engines of kind code `k` (Table 1.2). -/
def kindCount (k : Nat) : Nat :=
  if k = 0 then 128 else if k = 1 then 32 else if k = 2 then 4 else if k = 3 then 4 else 32

/-- The logical ID within its kind. -/
def logicalId (e : Nat) : Nat := e - kindBase (kindOf e).code

/-- The partition that holds flat engine `e` when the module is set to `n` partitions (R16). -/
def partOfEng (n e : Nat) : Nat := logicalId e / (kindCount (kindOf e).code / n)

/-- The flat indices of partition `q` of `n`. -/
def engsOf (n q : Nat) : List Nat := (List.range 200).filter fun e => partOfEng n e == q

/-- The partition of an engine at the present partition count. -/
def State.partOf (s : State) (e : Nat) : Nat := partOfEng s.partCnt e

/-- The engine map entry; before any retirement logical engine `e` is on the physical engine of its own ID. -/
def State.engMap (s : State) (e : Nat) : EngMap := s.engMaps.get ⟨BitVec.ofNat 8 (logicalId e), true⟩ e

/-! ## Ranges (R7, R28, R29, R159, R168) -/

def mib : Nat := 1048576
def gib : Nat := 1073741824
def peatBase : Nat := 0x100000000000
/-- 376 GiB: the DRAM that plans share (R168). -/
def dramPlan : Nat := 0x5E00000000
/-- The end of DRAM, retirement reserve included. -/
def dramEnd : Nat := 0x6000000000
def isDram (a : Nat) : Bool := decide (a < dramEnd)
def isPeat (a : Nat) : Bool := decide (peatBase ≤ a) && decide (a < peatBase + 1024 * mib)
def dramShare (n : Nat) : Nat := 376 * gib / n
def peatShare (n : Nat) : Nat := 960 * mib / n
def dramLo (n q : Nat) : Nat := q * dramShare n
def peatLo (n q : Nat) : Nat := peatBase + q * peatShare n

/-- The partition whose DRAM or plan space holds address `a` (R159, R168); none in a reserve or outside both memories. -/
def ownerOf (n a : Nat) : Option Nat :=
  if a < dramPlan then some (a / dramShare n)
  else if peatBase ≤ a ∧ a < peatBase + 960 * mib then some ((a - peatBase) / peatShare n)
  else none

/-- Whether every byte of [a, a + len) lies in partition `q`'s DRAM range or in its plan space. -/
def inPart (n q a len : Nat) : Bool :=
  (decide (dramLo n q ≤ a) && decide (a + len ≤ dramLo n (q + 1))) ||
  (decide (peatLo n q ≤ a) && decide (a + len ≤ peatLo n (q + 1)))

def semLo (n q : Nat) : Nat := q * 65536 / n
def watchLo (n q : Nat) : Nat := q * 4096 / n
/-- Semaphore index `i` lies in partition `q`'s share (R29). -/
def semIn (n q i : Nat) : Bool := decide (semLo n q ≤ i) && decide (i < semLo n (q + 1))
def watchIn (n q i : Nat) : Bool := decide (watchLo n q ≤ i) && decide (i < watchLo n (q + 1))
def heldCap (n : Nat) : Nat := 2048 / n

/-! ## Status bits -/

/-- Set bit `i` of a W1C status word. -/
def setBit {w : Nat} (x : BitVec w) (i : Nat) : BitVec w := x ||| BitVec.ofNat w (2 ^ i)

/-- W1C write (R8): each bit written as 1 is cleared. -/
def w1c {w : Nat} (x v : BitVec w) : BitVec w := x &&& ~~~v

/-- Saturating count in a register of `w` bits. -/
def satInc {w : Nat} (x : BitVec w) (n : Nat) : BitVec w := BitVec.ofNat w (satAdd x.toNat n (2 ^ w - 1))

def State.syncBit (s : State) (i : Nat) : State := { s with sync := { s.sync with stat := setBit s.sync.stat i } }
def State.routeBit (s : State) (i : Nat) : State := { s with router := { s.router with stat := setBit s.router.stat i } }
def State.pwrBit (s : State) (i : Nat) : State := { s with power := { s.power with stat := setBit s.power.stat i } }
def State.clkBit (s : State) (i : Nat) : State := { s with clk := { s.clk with stat := setBit s.clk.stat i } }
def State.modBit (s : State) (i : Nat) : State := { s with boot := { s.boot with stat := setBit s.boot.stat i } }
def State.eccBit (s : State) (i : Nat) : State := { s with mem := { s.mem with ecc := setBit s.mem.ecc i } }
def State.fltBit (s : State) (i : Nat) : State := { s with engFlt := setBit s.engFlt i }
/-- ROUTE_DROPCNT(k) counts one drop, saturating (R275). -/
def State.dropInc (s : State) (k : Nat) : State :=
  { s with router := { s.router with dropcnt := s.router.dropcnt.set k (satInc (s.router.dropcnt.get 0 k) 1) } }

/-- "At most once per second" for one key: whether an event may be logged now, and the state that remembers it.
[DESIGN CHOICE, assumption 7; DEDUCED, assumption 8] -/
def State.oncePerSec (s : State) (key : Nat) : Bool × State :=
  match s.router.rate.find key with
  | some t =>
    if s.now < t + ticksPerSec then (false, s)
    else (true, { s with router := { s.router with rate := s.router.rate.set key s.now } })
  | none => (true, { s with router := { s.router with rate := s.router.rate.set key s.now } })

/-! ## Event counters (R398) -/

def counterTop : Nat := 0xFFFFFFFFFFFF

/-- Counter `i` rises by `n` and saturates. -/
def State.bump (s : State) (i n : Nat) : State :=
  { s with obs := { s.obs with ctr := s.obs.ctr.set i (BitVec.ofNat 48 (min ((s.obs.ctr.get 0 i).toNat + n) counterTop)) } }

/-! ## The calendar value (R373) -/

/-- Bits [63:30] seconds, bits [29:0] nanoseconds. -/
def State.calendar (s : State) : Dword := BitVec.ofNat 64 (s.clk.sec.toNat * 2 ^ 30 + s.clk.ns.toNat)

end Sys2Proof.Machine
end

