-- ==== Sys2Proof/Machine/Mem.lean ====
section
/-!
DEFINITION. Machine/Mem.lean: the Peat and the DRAM behind each partition's cache carve-out (R159-R168), poison (R178)
and key draws (R181). The DRAM's encryption (R180) is transparent: bytes are held as the partition reads them.
-/

namespace Sys2Proof.Machine

/-! ## DRAM grains (R169, R399) -/

/-- The interleave of R169: the pseudo-channel of a DRAM address. -/
def pseudoChannel (a : Nat) : Nat :=
  let g := fld a 8 31
  (fld g 0 9) ^^^ (fld g 9 9) ^^^ (fld g 18 9) ^^^ (fld g 27 4)

/-- The stack of a DRAM address (R169). -/
def dramStack (a : Nat) : Nat := fld (pseudoChannel a) 6 3
/-- The channel within its stack (R169). -/
def dramChannel (a : Nat) : Nat := fld (pseudoChannel a) 1 5
/-- The memory controller reads or (`w`) writes the DRAM grain at `a`: counter 256 + 2s or 257 + 2s (R399). [DEDUCED, assumption 110] -/
def State.grain (s : State) (w : Bool) (a : Nat) : State :=
  let k := 2 * dramStack a + if w then 1 else 0
  { s with mem := { s.mem with grains := s.mem.grains.set k (BitVec.ofNat 48 (min ((s.mem.grains.get 0 k).toNat + 1) counterTop)) } }

/-! ## The carve-out (R162-R164) -/

def lineAddr (a : Nat) : Nat := a / 256 * 256

/-- Sets of partition `q`'s carve-out: its 256 B lines divided by 16 ways (R163). -/
def carveSets (mibs : Nat) : Nat := mibs * 4096 / 16

def cacheSet (mibs a : Nat) : Nat := (a / 256) % carveSets mibs

def State.lines (s : State) (q : Nat) : List CLine := s.mem.lines.get [] q

def State.setLines (s : State) (q : Nat) (l : List CLine) : State :=
  { s with mem := { s.mem with lines := s.mem.lines.set q l } }

def findLine (l : List CLine) (a : Nat) : Option CLine := l.find? fun x => x.addr == lineAddr a

/-- The byte that an access to module address `a` reads: from a carve-out line when one holds it, otherwise from
the memory; a byte never written reads as zero (R181 for DRAM; the model's choice for the Peat).
[DESIGN CHOICE, assumption 10; DESIGN CHOICE, assumption 13] -/
def State.readByte (s : State) (a : Nat) : Byte :=
  if a < dramPlan then
    match findLine (s.lines (a / dramShare s.partCnt)) a with
    | some x => x.data.getD (a % 256) 0
    | none => s.mem.mem.get 0 a
  else s.mem.mem.get 0 a

def State.readBytes (s : State) (a n : Nat) : List Byte := (List.range n).map fun i => s.readByte (a + i)

def State.rawBytes (s : State) (a n : Nat) : List Byte := (List.range n).map fun i => s.mem.mem.get 0 (a + i)

def State.setRaw (s : State) (a : Nat) (bs : List Byte) : State :=
  { s with mem := { s.mem with mem := s.mem.mem.setBytes a bs } }

/-- Write a dirty line back to DRAM. -/
def State.writeBack (s : State) (x : CLine) : State := if x.dirty then (s.setRaw x.addr x.data).grain true x.addr else s

/-- Replace the least recently used line of the set of `a` when its 16 ways are full (R163). [DEDUCED, assumption 14] -/
def State.evictFor (s : State) (q a : Nat) : State :=
  let m := (s.part q).carveMib.toNat
  let same := (s.lines q).filter fun x => cacheSet m x.addr == cacheSet m a
  if same.length < 16 then s
  else match same.getLast? with
    | none => s
    | some v => (s.writeBack v).setLines q ((s.lines q).filter fun x => x.addr != v.addr)

/-- Bring the line of `a` into the carve-out, or make it the most recently used one (HINT 1 of Table 7.2); `fill` says that it is
filled from DRAM, which a write of all its bytes spares. [DEDUCED, assumption 14] -/
def State.keepLine (s : State) (q a : Nat) (fill : Bool) : State :=
  if (s.part q).carveMib = 0 then s
  else match findLine (s.lines q) a with
    | some x => s.setLines q (x :: (s.lines q).filter fun y => y.addr != x.addr)
    | none =>
      let s1 := s.evictFor q a
      let s2 := if fill then s1.grain false (lineAddr a) else s1
      s2.setLines q (⟨lineAddr a, false, s2.rawBytes (lineAddr a) 256⟩ :: s2.lines q)

/-- Drop the line of `a` without write-back (HINT 2 of Table 7.2). -/
def State.dropLine (s : State) (q a : Nat) : State :=
  s.setLines q ((s.lines q).filter fun y => y.addr != lineAddr a)

/-- The 256 B lines that [a, a + n) touches. -/
def linesOf (a n : Nat) : List Nat :=
  if n = 0 then [] else (List.range ((a + n - 1) / 256 - a / 256 + 1)).map fun i => (a / 256 + i) * 256

/-- A carve-out line of partition `q` holds the grain at `l`. -/
def State.cached (s : State) (q l : Nat) : Bool := (findLine (s.lines q) l).isSome

/-- A read of the DRAM line at `l` with `hint`: a line serves it, or DRAM does, and the carve-out changes as Table 7.2 gives. -/
def State.touchLine (s : State) (q : Nat) (hint : BitVec 2) (l : Nat) : State :=
  if hint = 1 ∧ (s.part q).carveMib ≠ 0 then s.keepLine q l true
  else
    let s1 := if s.cached q l then s else s.grain false l
    if hint = 2 then s1.dropLine q l else s1

/-- What a DRAM read with `hint` does to the carve-out and to the grain counters (R399), after its bytes are taken. [DEDUCED, assumption 14] -/
def State.touchRead (s : State) (q : Nat) (hint : BitVec 2) (a n : Nat) : State :=
  if a < dramPlan then (linesOf a n).foldl (fun s l => s.touchLine q hint l) s else s

/-- Write one byte past the carve-out: into its line when one holds it, otherwise to the memory. -/
def State.writeByte (s : State) (a : Nat) (b : Byte) : State :=
  if a < dramPlan then
    let q := a / dramShare s.partCnt
    match findLine (s.lines q) a with
    | some x =>
      s.setLines q ((s.lines q).map fun y =>
        if y.addr = x.addr then { y with dirty := true, data := y.data.set (a % 256) b } else y)
    | none => { s with mem := { s.mem with mem := s.mem.mem.setz a b } }
  else { s with mem := { s.mem with mem := s.mem.mem.setz a b } }

def State.writeSeq (s : State) : Nat → List Byte → State
  | _, [] => s
  | a, b :: bs => (s.writeByte a b).writeSeq (a + 1) bs

/-! ## Poison (R178) -/

/-- The unit that poison marks: a 256 B DRAM grain or a 64 B Peat line. -/
def granule (a : Nat) : Nat := if isDram a then a / 256 * 256 else a / 64 * 64
def granLen (a : Nat) : Nat := if isDram a then 256 else 64

/-- The first poisoned granule that [a, a + n) meets. -/
def State.poisonIn (s : State) (a n : Nat) : Option Nat :=
  s.mem.poison.find? fun g => decide (g < a + n) && decide (a < g + granLen g)

/-- A write clears the poison of every granule that it covers whole (R178). -/
def State.clearCovered (s : State) (a n : Nat) : State :=
  { s with mem := { s.mem with poison := s.mem.poison.filter fun g => !(decide (a ≤ g) && decide (g + granLen g ≤ a + n)) } }

def State.clearPoison (s : State) (g : Nat) : State :=
  { s with mem := { s.mem with poison := s.mem.poison.filter fun x => x != g } }

def State.addPoison (s : State) (g : Nat) : State :=
  { s with mem := { s.mem with poison := if s.mem.poison.contains g then s.mem.poison else g :: s.mem.poison } }

/-- A write of [a, a + n) covers the whole line at `l`. -/
def wholeLine (a n l : Nat) : Bool := decide (a ≤ l) && decide (l + 256 ≤ a + n)

/-- What a DRAM write does at one line before its bytes land: HINT 1 allocates the line; without a line the grain is written, after a
read that merges a part of it (R164, R173). -/
def State.openLine (s : State) (q : Nat) (hint : BitVec 2) (a n l : Nat) : State :=
  let s1 := if hint = 1 then s.keepLine q l (!wholeLine a n l) else s
  if s1.cached q l then s1 else (if wholeLine a n l then s1 else s1.grain false l).grain true l

/-- Store bytes at module address `a` with a hint (R164). -/
def State.store (s : State) (q : Nat) (hint : BitVec 2) (a : Nat) (bs : List Byte) : State :=
  let s1 := if a < dramPlan then (linesOf a bs.length).foldl (fun s l => s.openLine q hint a bs.length l) s else s
  (s1.clearCovered a bs.length).writeSeq a bs

/-! ## Emptying and key draws (R167, R181) -/

/-- Write back and empty partition `q`'s carve-out (R167). [DESIGN CHOICE, assumption 77] -/
def State.flushCarve (s : State) (q : Nat) : State :=
  ((s.lines q).foldl State.writeBack s).setLines q []

def inSpan (a lo hi : Nat) : Bool := decide (lo ≤ a) && decide (a < hi)

/-- Forget every byte of [lo, hi): it reads as zero. [DESIGN CHOICE, assumption 10] -/
def State.zeroSpan (s : State) (lo hi : Nat) : State :=
  { s with mem := { s.mem with
      mem := s.mem.mem.drop fun a => inSpan a lo hi
      poison := s.mem.poison.filter fun g => !inSpan g lo hi } }

/-- A ring owned by partition `q` is disabled (R403). -/
def Ring.offIf (r : Ring) (q : Nat) : Ring := if r.part.toNat = q then { r with en := false } else r

def State.ringsOff (s : State) (q : Nat) : State :=
  { s with obs := { s.obs with rcnt := s.obs.rcnt.offIf q, rtrace := s.obs.rtrace.offIf q, revt := s.obs.revt.offIf q } }

/-- Draw new DRAM keys for partition `q`: every page becomes unwritten and reads as zero (R181), and every ring in
its DRAM is disabled (R403). [DESIGN CHOICE, assumption 13] -/
def State.drawKey (s : State) (q : Nat) : State :=
  let s1 := (s.setLines q []).zeroSpan (dramLo s.partCnt q) (dramLo s.partCnt (q + 1))
  (s1.modPart q fun x => { x with keyEpoch := x.keyEpoch + 1 }).ringsOff q

/-- Clear partition `q`'s Peat plan space (Table 15.2, partition reset). -/
def State.clearPeat (s : State) (q : Nat) : State :=
  s.zeroSpan (peatLo s.partCnt q) (peatLo s.partCnt (q + 1))

/-- Grain offset within the pseudo-channel (R169). -/
def grainOffset (a : Nat) : Nat := fld (fld a 8 31) 9 22
/-- Bank within the pseudo-channel (R170). -/
def dramBank (a : Nat) : Nat := (fld (grainOffset a) 2 4) ^^^ (fld (grainOffset a) 14 4)
/-- Row within the bank (R170). -/
def dramRow (a : Nat) : Nat := fld (grainOffset a) 6 16
/-- The 256 B column group of a row (R170). -/
def dramColumn (a : Nat) : Nat := fld (grainOffset a) 0 2
/-- The bank of a Peat address (R160). -/
def peatBank (a : Nat) : Nat :=
  let l := fld (a - peatBase) 6 24
  (fld l 0 9) ^^^ (fld l 9 9) ^^^ (fld l 18 6)
/-- The line within that bank (R160). -/
def peatLine (a : Nat) : Nat := fld (fld (a - peatBase) 6 24) 9 15

end Sys2Proof.Machine
end

