-- ==== Sys2Proof/Machine/Event.lean ====
section
/-!
DEFINITION. Machine/Event.lean: event records and the internal log (R11, R406-R408), rings in DRAM (R403),
notifications (R425), outgoing management messages.
-/

namespace Sys2Proof.Machine

/-! ## Event records (R406) -/

def EventRec.hasCont (r : EventRec) : Bool := decide (6 < r.args.length)

/-- Records an event takes in the log or in the event ring. -/
def EventRec.places (r : EventRec) : Nat := if r.hasCont then 2 else 1

/-- The 32-byte record of Table 16.7, with the LOST bit given. -/
def EventRec.bytes (r : EventRec) (lost : Bool) : List Byte :=
  leBytes 2 (r.code.toNat + r.part.toNat * 4096 + (if r.hasCont then 16384 else 0) + (if lost then 32768 else 0))
  ++ leBytes 8 r.seq.toNat ++ leBytes 8 r.tick.toNat ++ leBytes 8 r.cal.toNat ++ sub r.args 0 6

/-- The continuation record of R406. -/
def EventRec.contBytes (r : EventRec) (lost : Bool) : List Byte :=
  leBytes 2 (0xFFF + if lost then 32768 else 0) ++ sub (r.args.drop 6) 0 30

def logCap : Nat := 8192

/-- Keep the newest events whose records fit in the log; an event goes with its continuation (R408). -/
def trimLog : Nat → List EventRec → List EventRec
  | _, [] => []
  | room, r :: rs => if r.places ≤ room then r :: trimLog (room - r.places) rs else []

def logPlaces (l : List EventRec) : Nat := l.foldl (fun n r => n + r.places) 0

/-! ## Rings in DRAM (R403) -/

def Ring.full (r : Ring) : Bool := decide ((r.wr.toNat + 1) % r.size.toNat = r.rd.toNat)

def Ring.advance (r : Ring) : Ring := { r with wr := BitVec.ofNat 24 ((r.wr.toNat + 1) % r.size.toNat) }

/-- The ring has a place for each of `n` records, one after the other. -/
def Ring.takes : Nat → Ring → Bool
  | 0, _ => true
  | n + 1, r => r.size != 0 && !r.full && r.advance.takes n

/-- Write `recs` (given the LOST bit) to an enabled ring, all or none; a drop is counted and marks the next record. -/
def State.ringPut (s : State) (r : Ring) (recLen : Nat) (recs : Bool → List (List Byte)) : Ring × State :=
  if !r.en then (r, s)
  else
    let rs := recs r.lost
    if !r.takes rs.length then ({ r with drop := satInc r.drop rs.length, lost := true }, s)
    else
      let (r', s') := rs.foldl (fun (p : Ring × State) b =>
        (p.1.advance, p.2.store p.1.part.toNat 0 (p.1.base.toNat + recLen * p.1.wr.toNat) b)) (r, s)
      ({ r' with lost := false }, s')

/-- An event goes to the event ring with its continuation; after a drop the event's own record carries LOST, being the next written. -/
def State.evtPut (s : State) (e : EventRec) : State :=
  let (r, s1) := s.ringPut s.obs.revt 32 fun lost =>
    if e.hasCont then [e.bytes lost, e.contBytes false] else [e.bytes lost]
  { s1 with obs := { s1.obs with revt := r } }

/-- The classes whose events are also sent as PLDM events (R433). -/
def pldmClass (code : BitVec 12) : Bool :=
  let c := code.toNat / 256
  c == 1 || c == 2 || c == 9 || c == 0xA || c == 0xB

def State.mctpSend (s : State) (b : Binding) (typ : Byte) (body : List Byte) : State :=
  { s with host := { s.host with mctpOut := s.host.mctpOut ++ [⟨b, typ, body⟩] } }

/-- Log an event: stamp it with the next SEQ, the REF tick and the calendar (R11, R376), keep it in the internal log, where every record
since the log first filled shows LOST (R408), write it to the event ring when that is enabled, and send it as a PLDM event when its class asks for it.
[DEDUCED, assumption 31] -/
def State.log (s : State) (code : BitVec 12) (part : Nat) (args : List Byte) : State :=
  let lost := s.obs.logFull || decide (logCap < logPlaces s.obs.log + (if 6 < args.length then 2 else 1))
  let e : EventRec := ⟨code, BitVec.ofNat 2 part, lost, s.obs.seq, s.clk.tick, s.calendar, args⟩
  let s1 := { s with obs := { s.obs with log := trimLog logCap (e :: s.obs.log), logFull := lost, seq := s.obs.seq + 1 } }
  let s2 := s1.evtPut e
  if pldmClass code then s2.mctpSend .i2c 0x01 (e.bytes lost) else s2

/-! ## Argument widths (Table 16.8) -/

def a1 (n : Nat) : List Byte := leBytes 1 n
def a2 (n : Nat) : List Byte := leBytes 2 n
/-- A signed temperature in 1/16 °C. [DEDUCED, assumption 31] -/
def aT (t : BitVec 16) : List Byte := leBytes 2 t.toNat
def a3 (n : Nat) : List Byte := leBytes 3 n
/-- Any item that Table 16.8 does not name: 4 bytes, saturating. [DEDUCED, assumption 31] -/
def a4 (n : Nat) : List Byte := leBytes 4 (min n 0xFFFFFFFF)
/-- A 4-byte value that does not saturate: an FP32 word or a signed value. [DEDUCED, assumption 31] -/
def w4 (w : Word) : List Byte := leBytes 4 w.toNat
def a5 (n : Nat) : List Byte := leBytes 5 n
def a6 (n : Nat) : List Byte := leBytes 6 n
def a8 (n : Nat) : List Byte := leBytes 8 n

/-! ## Notifications (R425) -/

/-- Queue a notification for function `f`; NOTIFICATION_POST writes it to the ring. [DESIGN CHOICE, assumption 89] -/
def State.noteFn (s : State) (f : Nat) (op : BitVec 16) (part : Nat) (payload : List Byte) : State :=
  s.modFn f fun x => { x with waiting := x.waiting ++ [⟨op, 0, BitVec.ofNat 8 part, 0, payload⟩] }

/-- A partition notification goes to that partition's VF and to PF0. -/
def State.notePart (s : State) (q : Nat) (op : BitVec 16) (payload : List Byte) : State :=
  (s.noteFn (q + 1) op q payload).noteFn 0 op q payload

end Sys2Proof.Machine
end

