-- ==== Sys2Proof/Machine/Clock.lean ====
section
/-!
DEFINITION. Machine/Clock.lean: the passing of one REF tick (6.4 ns): the tick counter (R370), the calendar with its
slew (R373, R375), and the accounting of ticks spent waiting on other modules (R345).
-/

namespace Sys2Proof.Machine

/-- The calendar's smallest unit here is 2·10^−19 s, so that one tick of 6.4 ns at any whole slew in ppb is whole. -/
def calUnitsPerNs : Nat := 5000000000

/-- What one tick adds at slew `slew` ppb: 6.4 ns · (1 + slew·10^−9) (R375). -/
def calTick (slew : Word) : Nat := (32000000000 + 32 * slew.toInt).toNat

/-- The calendar moves on by `u` units (R373). [DESIGN CHOICE, assumption 2] -/
def Clock.addCal (c : Clock) (u : Nat) : Clock :=
  let t := c.calSub + u
  let ns := c.ns.toNat + t / calUnitsPerNs
  { c with
    calSub := t % calUnitsPerNs
    ns := BitVec.ofNat 30 (ns % 1000000000)
    sec := c.sec + BitVec.ofNat 34 (ns / 1000000000) }

/-- The counter counts REF edges, or the holdover's (R370). -/
def Clock.counting (c : Clock) : Bool := c.lock || c.hold

/-- An engine waits on a semaphore that other modules raise (R345). -/
def State.waitsRemote (s : State) (e : Nat) : Bool :=
  (s.eng e).run == .waiting && (s.sem (s.eng e).waitSem.toNat).remote

/-- One tick of partition `q`'s accounting. [DESIGN CHOICE, assumption 2] -/
def State.tickPart (s : State) (q : Nat) : State :=
  let p := s.part q
  if p.stat = .running ∨ p.stat = .stopping then
    let w := !p.issued && (engsOf s.partCnt q).any s.waitsRemote
    s.setPart q { p with issued := false, remoteWait := if w then p.remoteWait + 1 else p.remoteWait }
  else s

def hourTicks : Nat := 3600 * ticksPerSec

/-- A lit comb source ages (R246). [DESIGN CHOICE, assumption 2] -/
def Comb.tick (x : Comb) : Comb :=
  if x.st = .warm ∨ x.st = .service then
    if x.ageTicks + 1 < hourTicks then { x with ageTicks := x.ageTicks + 1 } else { x with ageTicks := 0, age := satInc x.age 1 }
  else x

/-- One REF tick passes. [DESIGN CHOICE, assumption 2] -/
def State.tickPasses (s : State) : State :=
  let c := s.clk.addCal (calTick s.clk.slew)
  let s1 := { s with combs := s.combs.mapKV (fun _ x => x.tick), clk := { c with tick := if s.clk.counting then c.tick + 1 else c.tick } }
  (List.range s.partCnt).foldl State.tickPart s1

end Sys2Proof.Machine
end

