-- ==== Sys2Proof/Machine/Fp.lean ====
section
/-!
DEFINITION. Machine/Fp.lean: exact values, the formats of Table 4.1 and the one rounding of R91, R92 and R121.
A value is held exactly (`Val`); an operation is the exact operation of R89 followed by one rounding.
-/

namespace Sys2Proof.Machine

/-- A number as the datapath sees it: NaN, a signed infinity, or (−1)^neg · m · 2^e; m = 0 is a signed zero. -/
inductive Val where
  | nan
  | inf (neg : Bool)
  | fin (neg : Bool) (m : Nat) (e : Int)
deriving DecidableEq, Repr

/-- Which encodings a format spends on infinities and NaNs (R85, R90). -/
inductive Specials where
  | ieee | e4m3 | none
deriving DecidableEq, Repr

/-- A floating-point format: significand bits, exponent of the smallest subnormal, largest exponent, width. -/
structure Flt where
  p : Nat
  qmin : Int
  emax : Int
  width : Nat
  sp : Specials := .ieee
deriving DecidableEq, Repr

def fp32 : Flt := { p := 24, qmin := -149, emax := 127, width := 32 }
def fp16 : Flt := { p := 11, qmin := -24, emax := 15, width := 16 }
def bf16 : Flt := { p := 8, qmin := -133, emax := 127, width := 16 }
def e4m3 : Flt := { p := 4, qmin := -9, emax := 8, width := 8, sp := .e4m3 }
def e5m2 : Flt := { p := 3, qmin := -16, emax := 15, width := 8 }
def e2m1 : Flt := { p := 2, qmin := -1, emax := 2, width := 4, sp := .none }
def af40 : Flt := { p := 29, qmin := -1050, emax := 1023, width := 40 }
/-- The FAST residue (R125): a 16-bit significand. Its own range never bounds it, so AF40's range serves. -/
def fast16 : Flt := { af40 with p := 16 }

def Flt.bias (f : Flt) : Int := 2 - f.qmin - f.p
def Flt.ebits (f : Flt) : Nat := f.width - f.p

/-! ## Reading a word -/

/-- The value of a word of format `f` (R85, R90). -/
def Flt.read (f : Flt) (w : Nat) : Val :=
  let neg := bitAt w (f.width - 1)
  let frac := fld w 0 (f.p - 1)
  let ex := fld w (f.p - 1) f.ebits
  let top := ex == 2 ^ f.ebits - 1
  if f.sp = .ieee ∧ top then (if frac = 0 then .inf neg else .nan)
  else if f.sp = .e4m3 ∧ top ∧ frac = 7 then .nan
  else if ex = 0 then .fin neg frac f.qmin
  else .fin neg (2 ^ (f.p - 1) + frac) (f.qmin + ex - 1)

/-! ## Rounding (R91, R121) -/

/-- `m` without its low `d` bits, to nearest, ties to even; an exact tie goes away from zero when `away` (R121). -/
def rneShift (m d : Nat) (away : Bool) : Nat :=
  if d = 0 then m
  else
    let q := m >>> d
    let r := m % 2 ^ d
    let half := 2 ^ (d - 1)
    if r > half then q + 1
    else if r = half then (if away || q % 2 == 1 then q + 1 else q)
    else q

/-- Round m·2^e to `p` bits and to multiples of 2^qmin. -/
def roundFin (p : Nat) (qmin : Int) (away : Bool) (m : Nat) (e : Int) : Nat × Int :=
  if m = 0 then (0, qmin)
  else
    let q := max (e + (Nat.log2 m + 1 : Nat) - p) qmin
    if q ≤ e then (m, e) else (rneShift m (q - e).toNat away, q)

/-- Round to an IEEE-style format: overflow of the rounded magnitude gives an infinity (R92, R99). -/
def Val.roundTo (f : Flt) (v : Val) (away : Bool := false) : Val :=
  match v with
  | .fin neg m e =>
    let r := roundFin f.p f.qmin away m e
    if r.1 ≠ 0 ∧ r.2 + (Nat.log2 r.1 : Nat) > f.emax then .inf neg else .fin neg r.1 r.2
  | v => v

/-- Canonical NaN (R88). -/
def Flt.canonNan (f : Flt) : Nat :=
  match f.sp with
  | .e4m3 => 0x7F
  | _ => (2 ^ f.ebits - 1) * 2 ^ (f.p - 1) + 2 ^ (f.p - 2)

/-- The word of a value that format `f` holds exactly. -/
def Flt.write (f : Flt) (v : Val) : Nat :=
  match v with
  | .nan => f.canonNan
  | .inf neg => neg.toNat * 2 ^ (f.width - 1) + (2 ^ f.ebits - 1) * 2 ^ (f.p - 1)
  | .fin neg m e =>
    let s := neg.toNat * 2 ^ (f.width - 1)
    if m = 0 then s
    else
      let l := Nat.log2 m
      let x := e + (l : Nat)
      if x < f.qmin + f.p - 1 then s + (if f.qmin ≤ e then m <<< (e - f.qmin).toNat else m >>> (f.qmin - e).toNat)
      else
        let sig := if l < f.p then m <<< (f.p - 1 - l) else m >>> (l + 1 - f.p)
        s + (x + f.bias).toNat * 2 ^ (f.p - 1) + (sig - 2 ^ (f.p - 1))

/-- Round and write. -/
def Flt.put (f : Flt) (v : Val) : Nat := f.write (v.roundTo f)

/-! ## Exact operations (R89) -/

def Val.neg : Val → Val
  | .nan => .nan
  | .inf s => .inf !s
  | .fin s m e => .fin (!s) m e

def Val.abs : Val → Val
  | .nan => .nan
  | .inf _ => .inf false
  | .fin _ m e => .fin false m e

def Val.isNan : Val → Bool
  | .nan => true
  | _ => false

def Val.finite : Val → Bool
  | .fin _ _ _ => true
  | _ => false

def Val.isZero : Val → Bool
  | .fin _ m _ => m == 0
  | _ => false

def Val.sign : Val → Bool
  | .nan => false
  | .inf s => s
  | .fin s _ _ => s

/-- The integer s·m·2^(e − q), for q ≤ e. -/
def scaleInt (neg : Bool) (m : Nat) (e q : Int) : Int :=
  let x : Nat := m <<< (e - q).toNat
  if neg then -(x : Int) else x

def ofInt (i : Int) (e : Int) (zeroNeg : Bool) : Val :=
  if i = 0 then .fin zeroNeg 0 0 else .fin (decide (i < 0)) i.natAbs e

def Val.add (a b : Val) : Val :=
  match a, b with
  | .nan, _ => .nan
  | _, .nan => .nan
  | .inf s, .inf t => if s = t then .inf s else .nan
  | .inf s, _ => .inf s
  | _, .inf t => .inf t
  | .fin s m e, .fin t n f =>
    if m = 0 ∧ n = 0 then .fin (s && t) 0 0
    else if m = 0 then .fin t n f
    else if n = 0 then .fin s m e
    else
      let q := min e f
      ofInt (scaleInt s m e q + scaleInt t n f q) q false

def Val.sub (a b : Val) : Val := a.add b.neg

def Val.mul (a b : Val) : Val :=
  match a, b with
  | .nan, _ => .nan
  | _, .nan => .nan
  | .inf s, .inf t => .inf (s != t)
  | .inf s, .fin t n _ => if n = 0 then .nan else .inf (s != t)
  | .fin s m _, .inf t => if m = 0 then .nan else .inf (s != t)
  | .fin s m e, .fin t n f => .fin (s != t) (m * n) (e + f)

def Val.fma (a b c : Val) : Val := (a.mul b).add c

/-- A quotient, exact but for a sticky lowest bit more than 128 places below its leading bit. -/
def Val.div (a b : Val) : Val :=
  match a, b with
  | .nan, _ => .nan
  | _, .nan => .nan
  | .inf _, .inf _ => .nan
  | .inf s, .fin t _ _ => .inf (s != t)
  | .fin s _ _, .inf t => .fin (s != t) 0 0
  | .fin s m e, .fin t n f =>
    if n = 0 then (if m = 0 then .nan else .inf (s != t))
    else if m = 0 then .fin (s != t) 0 0
    else
      let k := Nat.log2 n + 130
      let x := m <<< k
      .fin (s != t) (2 * (x / n) + (if x % n = 0 then 0 else 1)) (e - f - (k : Nat) - 1)

/-- ⌊√n⌋ by trying bits from position `i` down. -/
def isqrtFrom (n : Nat) : Nat → Nat → Nat
  | 0, r => if (r + 1) * (r + 1) ≤ n then r + 1 else r
  | i + 1, r =>
    let t := r + 2 ^ (i + 1)
    isqrtFrom n i (if t * t ≤ n then t else r)

def isqrt (n : Nat) : Nat := if n = 0 then 0 else isqrtFrom n (Nat.log2 n / 2 + 1) 0

/-- A square root, exact but for a sticky lowest bit more than 128 places below its leading bit. -/
def Val.sqrt (a : Val) : Val :=
  match a with
  | .nan => .nan
  | .inf s => if s then .nan else .inf false
  | .fin s m e =>
    if m = 0 then .fin s 0 0
    else if s then .nan
    else
      let k := if (e - 260) % 2 = 0 then 260 else 261
      let x := m <<< k
      let r := isqrt x
      .fin false (2 * r + (if r * r = x then 0 else 1)) ((e - (k : Nat)) / 2 - 1)

/-- a < b; false when either is NaN. -/
def Val.lt (a b : Val) : Bool :=
  match a, b with
  | .nan, _ => false
  | _, .nan => false
  | .inf s, .inf t => s && !t
  | .inf s, .fin _ _ _ => s
  | .fin _ _ _, .inf t => !t
  | .fin s m e, .fin t n f =>
    let q := min e f
    decide (scaleInt s m e q < scaleInt t n f q)

/-- R89: NaN when either operand is NaN; max(−0, +0) is +0. -/
def Val.max (a b : Val) : Val :=
  if a.isNan || b.isNan then .nan
  else if a.lt b then b else if b.lt a then a else if a.sign then b else a

/-- R89: NaN when either operand is NaN; min(−0, +0) is −0. -/
def Val.min (a b : Val) : Val :=
  if a.isNan || b.isNan then .nan
  else if a.lt b then a else if b.lt a then b else if a.sign then a else b

def Val.zero : Val := .fin false 0 0
def Val.one : Val := .fin false 1 0
def Val.ofNat (n : Nat) : Val := .fin false n 0
def Val.ofZ (i : Int) : Val := ofInt i 0 false

/-- One operation rounded into `f`. -/
def Val.rd (f : Flt) (v : Val) : Val := v.roundTo f

/-- Read and write AF40 and FP32 words. -/
def ofAf (w : AF40) : Val := af40.read w.toNat
def toAf (v : Val) : AF40 := BitVec.ofNat 40 (af40.put v)
def ofFp (w : Word) : Val := fp32.read w.toNat
def toFp (v : Val) : Word := BitVec.ofNat 32 (fp32.put v)

end Sys2Proof.Machine
end

