-- ==== Sys2Proof/Machine/Conv.lean ====
section
/-!
DEFINITION. Machine/Conv.lean: conversions between the formats of Table 3.6 (R91-R98, R102, R103), MX blocks, and the
census class of each converted element (R113).
-/

namespace Sys2Proof.Machine

/-- How one converted element counts (R113). -/
inductive Cls where
  | plain | nonfin | sat | zero
deriving DecidableEq, Repr

/-! ## Formats (R53, R54) -/

/-- Element bits of a format code (Table 3.6). -/
def fmtBits (f : Nat) : Nat :=
  if f = 0 then 32 else if f ≤ 2 then 16 else if f ≤ 6 then 8 else if f = 7 then 4 else if f = 8 then 8
  else if f = 9 then 4 else if f = 10 then 40 else if f = 11 then 24 else if f = 12 then 40 else 32

def fmtListed (f : Nat) : Bool := decide (f ≤ 0x0D)
def isMx (f : Nat) : Bool := f == 5 || f == 6 || f == 7
def isRfx (f : Nat) : Bool := f == 11 || f == 12
def isInt (f : Nat) : Bool := f == 8 || f == 9 || f == 13
def isFour (f : Nat) : Bool := f == 7 || f == 9
/-- Elements per shared scale or exponent (R54). -/
def blkLen (f : Nat) : Nat := if isMx f then 32 else if isRfx f then 256 else 1
/-- Bytes per entry of the scale or exponent array (R54). -/
def entBytes (f : Nat) : Nat := if isMx f then 1 else if isRfx f then 2 else 0
/-- Block bytes B of R54. -/
def blkBytes (f : Nat) : Nat := blkLen f * fmtBits f / 8

/-- The plain floating-point format of a code; MX codes give their element format. -/
def fltOf (f : Nat) : Option Flt :=
  if f = 0 then some fp32 else if f = 1 then some fp16 else if f = 2 then some bf16
  else if f = 3 ∨ f = 5 then some e4m3 else if f = 4 ∨ f = 6 then some e5m2
  else if f = 7 then some e2m1 else if f = 10 then some af40 else none

/-- Width of an integer or RFX element. -/
def intBits (f : Nat) : Nat := fmtBits f

/-! ## Reading elements -/

/-- An element's own value, before any shared scale (R85, R90, R98). -/
def eltVal (f bits : Nat) : Val :=
  match fltOf f with
  | some x => x.read bits
  | none => .ofZ (sgn (intBits f) bits)

/-- Apply a power of two. -/
def Val.scale (v : Val) (k : Int) : Val :=
  match v with
  | .fin s m e => .fin s m (e + k)
  | v => v

/-- An element under its block's scale or exponent entry (R97, R100, R103). -/
def eltScaled (f bits ent : Nat) : Val :=
  if isMx f then (if ent = 0xFF then .nan else (eltVal f bits).scale ((ent : Nat) - 127))
  else if isRfx f then
    if ent = 0x7FFF then .nan
    else
      let m := sgn (intBits f) bits
      if m = 0 then .zero else (Val.ofZ m).scale (sgn 16 ent - intBits f + 2)
  else eltVal f bits

/-! ## Writing elements (R91, R92, Table 4.2) -/

/-- m·2^e > n. -/
def finGt (m : Nat) (e : Int) (n : Nat) : Bool :=
  if 0 ≤ e then decide (n < m <<< e.toNat) else decide (n <<< (-e).toNat < m)

/-- The largest finite magnitude of a saturating float (R92). -/
def satMax (x : Flt) : Nat := if x = e4m3 then 448 else if x = e5m2 then 57344 else 6

/-- Convert into a saturating float: E4M3, E5M2 or E2M1. -/
def convSat (x : Flt) (v : Val) : Nat × Cls :=
  match v with
  | .nan => (x.canonNan, .nonfin)
  | .inf s => if x = e4m3 then (x.canonNan, .nonfin) else (x.write (.inf s), .nonfin)
  | .fin s m e =>
    if finGt m e (satMax x) then (x.write (.fin s (satMax x) 0), .sat)
    else
      let r := (Val.fin s m e).roundTo x
      (x.write r, if r.isZero then .zero else .plain)

/-- Convert into an IEEE-style float. -/
def convIeee (x : Flt) (v : Val) : Nat × Cls :=
  let r := v.roundTo x
  (x.write r, if r.isZero then .zero else if r.finite then .plain else .nonfin)

/-- Convert into a two's-complement integer of `n` bits. The largest finite magnitude is that of the end of the range on the value's own
side, 2^(n-1) below zero. [DEDUCED, assumption 112] -/
def convInt (n : Nat) (v : Val) : Nat × Cls :=
  match v with
  | .nan => (0, .nonfin)
  | .inf s => (if s then 2 ^ (n - 1) else 2 ^ (n - 1) - 1, .nonfin)
  | .fin s m e =>
    if finGt m e (if s then 2 ^ (n - 1) else 2 ^ (n - 1) - 1) then (if s then 2 ^ (n - 1) else 2 ^ (n - 1) - 1, .sat)
    else
      let r := if 0 ≤ e then m <<< e.toNat else rneShift m (-e).toNat false
      (if s then unsgn n (-(r : Int)) else r, if r = 0 then .zero else .plain)

/-- Convert one value into a format without a shared scale, or into an MX element whose scale is already taken out. -/
def convElt (f : Nat) (v : Val) : Nat × Cls :=
  match fltOf f with
  | some x => if x.width ≤ 8 then convSat x v else convIeee x v
  | none => convInt (intBits f) v

/-! ## MX blocks (R94-R97) -/

/-- The standard scale offset of R95. -/
def stdSofs (f : Nat) : Int := if f = 5 then -8 else if f = 6 then -15 else -2

/-- ⌊log2⌋ of the largest magnitude of a block, none when all are zero. -/
def blockExp (vs : List Val) : Option Int :=
  vs.foldl (fun a v =>
    match v with
    | .fin _ m e =>
      if m = 0 then a
      else
        let x := e + (Nat.log2 m : Nat)
        match a with
        | none => some x
        | some y => some (if y < x then x else y)
    | _ => a) none

/-- Encode a block of values: its scale code and its elements (R94, R96, R97). -/
def mxBlock (f : Nat) (sofs : Int) (vs : List Val) : Nat × List (Nat × Cls) :=
  if vs.any fun v => !v.finite then (0xFF, vs.map fun _ => (0, .nonfin))
  else match blockExp vs with
    | none => (0, vs.map fun v => convElt f v)
    | some e =>
      let s := max (-127) (min 127 (e + sofs))
      ((s + 127).toNat, vs.map fun v => convElt f (v.scale (-s)))

/-! ## Defined conversions (Table 4.3) -/

/-- Whether MOVE or VCVT defines a conversion from format `a` to format `b` (R93). -/
def convDefined (a b : Nat) : Bool :=
  if a == b then true
  else if isRfx b then false
  else if isRfx a then b == 10 || b == 0
  else if isFour a then b == 3 || b == 2 || b == 0 || b == 7 || b == 9
  else if isFour b then a == 0 || a == 2 || a == 1 || a == 10
  else true

/-- Counts of a list of classes: non-finite, saturated, zero, and the number of elements (R113). -/
def census (cs : List Cls) : Nat × Nat × Nat × Nat :=
  (cs.count .nonfin, cs.count .sat, cs.count .zero, cs.length)

end Sys2Proof.Machine
end

