-- ==== Sys2Proof/Machine/Elem.lean ====
section
/-!
DEFINITION. Machine/Elem.lean: the functions of R141 and the cosine of R149, correctly rounded. Each is enclosed between
two fixed-point numbers with `fxP` fraction bits; when both ends round to the same word, that word is the correctly
rounded result, and otherwise the result is the free value Config.elem.
-/

namespace Sys2Proof.Machine

/-- Fraction bits of the enclosures. [DESIGN CHOICE, assumption 18] -/
def fxP : Nat := 448
def fxOne : Nat := 2 ^ fxP

def mulLo (a b : Nat) : Nat := (a * b) >>> fxP
def mulHi (a b : Nat) : Nat := (a * b + (fxOne - 1)) >>> fxP
def ceilDiv (a b : Nat) : Nat := (a + (b - 1)) / b

/-- An enclosure of a non-negative number: lo ≤ x·2^fxP ≤ hi. -/
structure Enc where
  lo : Nat
  hi : Nat
deriving DecidableEq, Repr

/-- The first `n` terms of e^r, r < 2^−10, and a bound for the rest. -/
def expTerms : Nat → Nat → Enc → Enc → Enc → Enc
  | 0, _, _, _, s => ⟨s.lo, s.hi + 2⟩
  | n + 1, i, r, t, s =>
    let t' : Enc := ⟨mulLo t.lo r.lo / (i + 1), ceilDiv (mulHi t.hi r.hi) (i + 1)⟩
    expTerms n (i + 1) r t' ⟨s.lo + t'.lo, s.hi + t'.hi⟩

/-- Square `n` times. -/
def squarings : Nat → Enc → Enc
  | 0, x => x
  | n + 1, x => squarings n ⟨mulLo x.lo x.lo, mulHi x.hi x.hi⟩

/-- e^z for 0 ≤ z < 2^10. -/
def expEnc (z : Enc) : Enc :=
  let r : Enc := ⟨z.lo >>> 20, (z.hi + (2 ^ 20 - 1)) >>> 20⟩
  let one : Enc := ⟨fxOne, fxOne⟩
  squarings 20 (expTerms 50 0 r one one)

/-- 1 ÷ x. -/
def recEnc (x : Enc) : Enc := ⟨fxOne * fxOne / x.hi, ceilDiv (fxOne * fxOne) x.lo⟩

/-- a ÷ b. -/
def divEnc (a b : Enc) : Enc := ⟨a.lo * fxOne / b.hi, ceilDiv (a.hi * fxOne) b.lo⟩
def mulEnc (a b : Enc) : Enc := ⟨mulLo a.lo b.lo, mulHi a.hi b.hi⟩
def addEnc (a b : Enc) : Enc := ⟨a.lo + b.lo, a.hi + b.hi⟩
def ptEnc (a : Nat) : Enc := ⟨a, a⟩

/-- atanh z for z ≤ 1/3: Σ z^(2i+1) ÷ (2i+1). -/
def atanhTerms : Nat → Nat → Enc → Enc → Enc → Enc
  | 0, _, _, _, s => ⟨s.lo, s.hi + 2⟩
  | n + 1, i, z2, t, s =>
    let s' : Enc := ⟨s.lo + t.lo / (2 * i + 1), s.hi + ceilDiv t.hi (2 * i + 1)⟩
    atanhTerms n (i + 1) z2 (mulEnc t z2) s'

def atanhEnc (z : Enc) : Enc := atanhTerms 150 0 (mulEnc z z) z ⟨0, 0⟩

def ln2Enc : Enc :=
  let a := atanhEnc ⟨fxOne / 3, fxOne / 3 + 1⟩
  ⟨2 * a.lo, 2 * a.hi⟩

/-- arctan(1 ÷ n)·2^fxP within 300 units. -/
def atanInv : Nat → Nat → Nat → Nat → Int → Int
  | 0, _, _, _, s => s
  | k + 1, i, n, t, s =>
    atanInv k (i + 1) n (t / (n * n)) (if i % 2 = 0 then s + (t / (2 * i + 1) : Nat) else s - (t / (2 * i + 1) : Nat))

/-- π (Machin). -/
def piEnc : Enc :=
  let a := 16 * atanInv 120 0 5 (fxOne / 5) 0 - 4 * atanInv 120 0 239 (fxOne / 239) 0
  ⟨(a - 16000).toNat, (a + 16000).toNat⟩

/-- |v| in fixed point, for values whose lowest bit is at 2^−fxP or above. -/
def fixOf (v : Val) : Nat :=
  match v with
  | .fin _ m e => if 0 ≤ e + fxP then m <<< (e + fxP).toNat else m >>> (-(e + fxP)).toNat
  | _ => 0

/-- The rounded value of an enclosed magnitude, or the free value when the two ends round apart. [DESIGN CHOICE, assumption 18] -/
def decided (f : Flt) (code : Nat) (arg : Nat) (neg : Bool) (x : Enc) : Val :=
  let a := (Val.fin neg x.lo (-fxP)).roundTo f
  let b := (Val.fin neg x.hi (-fxP)).roundTo f
  if f.write a = f.write b then a else f.read (Config.elem code arg)

/-- The operand of a function as an argument of Config.elem: its FP32 word, or a number above every word where FP32 lacks the
value (a source that R139 widens exactly). [DESIGN CHOICE, assumption 18] -/
def argKey (v : Val) : Nat :=
  if (v.sub (v.roundTo fp32)).isZero then fp32.put v else 2 ^ 33 + 2 * fixOf v + (if v.sign then 1 else 0)

/-- A finite value has a magnitude above `n`. -/
def Val.big (v : Val) (n : Nat) : Bool :=
  match v with
  | .fin _ m e => finGt m e n
  | _ => true

/-- e^x (Table 6.1). -/
def fExp (x : Val) : Val :=
  match x with
  | .nan => .nan
  | .inf s => if s then .zero else .inf false
  | .fin s m _ =>
    if m = 0 then .one
    else if x.big 200 then (if s then .zero else .inf false)
    else
      let z := expEnc (ptEnc (fixOf x))
      decided fp32 0x10 (argKey x) false (if s then recEnc z else z)

/-- ln x (Table 6.1). -/
def fLog (x : Val) : Val :=
  match x with
  | .nan => .nan
  | .inf s => if s then .nan else .inf false
  | .fin s m e =>
    if m = 0 then .inf true
    else if s then .nan
    else
      let l := Nat.log2 m
      let k : Int := e + (l : Nat)
      let mm := if l ≤ fxP then m <<< (fxP - l) else m >>> (l - fxP)
      if mm = fxOne ∧ k = 0 then .zero
      else
        let a := atanhEnc (divEnc (ptEnc (mm - fxOne)) (ptEnc (mm + fxOne)))
        let lo : Int := 2 * (a.lo : Int) + (if 0 ≤ k then k * ln2Enc.lo else k * ln2Enc.hi)
        let hi : Int := 2 * (a.hi : Int) + (if 0 ≤ k then k * ln2Enc.hi else k * ln2Enc.lo)
        if 0 < lo then decided fp32 0x11 (argKey x) false ⟨lo.toNat, hi.toNat⟩
        else if hi < 0 then decided fp32 0x11 (argKey x) true ⟨(-hi).toNat, (-lo).toNat⟩
        else fp32.read (Config.elem 0x11 (argKey x))

/-- 1 ÷ √x (Table 6.1). -/
def fRsqrt (x : Val) : Val :=
  match x with
  | .nan => .nan
  | .inf s => if s then .nan else .zero
  | .fin s m e =>
    if m = 0 then .inf s
    else if s then .nan
    else
      let e' := if e % 2 = 0 then e else e - 1
      let m' := if e % 2 = 0 then m else 2 * m
      let k := Nat.log2 m' + 260
      let q := 2 ^ (2 * k) / m'
      let r := isqrt q
      (Val.fin false (2 * r + (if r * r * m' = 2 ^ (2 * k) then 0 else 1)) (-(e' / 2) - (k : Nat) - 1)).roundTo fp32

/-- 1 ÷ x. -/
def fRecip (x : Val) : Val := (Val.one.div x).roundTo fp32

/-- tanh x. -/
def fTanh (x : Val) : Val :=
  match x with
  | .nan => .nan
  | .inf s => .fin s 1 0
  | .fin s m _ =>
    if m = 0 then x
    else if x.big 100 then .fin s 1 0
    else
      let z := expEnc (ptEnc (2 * fixOf x))
      decided fp32 0x14 (argKey x) s ⟨(z.lo - fxOne) * fxOne / (z.lo + fxOne), ceilDiv ((z.hi - fxOne) * fxOne) (z.hi + fxOne)⟩

/-- 1 ÷ (1 + e^−z) for z ≥ 0, or 1 ÷ (1 + e^z) when `neg`. -/
def sigmoidEnc (z : Enc) (neg : Bool) : Enc :=
  let e := expEnc z
  if neg then recEnc (addEnc (ptEnc fxOne) e)
  else ⟨e.lo * fxOne / (e.lo + fxOne), ceilDiv (e.hi * fxOne) (e.hi + fxOne)⟩

/-- 1 ÷ (1 + e^−x). -/
def fSigmoid (x : Val) : Val :=
  match x with
  | .nan => .nan
  | .inf s => if s then .zero else .one
  | .fin s _ _ =>
    if x.big 200 then (if s then .zero else .one)
    else decided fp32 0x15 (argKey x) false (sigmoidEnc (ptEnc (fixOf x)) s)

/-- √(8 ÷ π). -/
def gcEnc : Enc := ⟨isqrt (8 * fxOne * fxOne * fxOne / piEnc.hi), isqrt (8 * fxOne * fxOne * fxOne / piEnc.lo) + 1⟩

/-- 2·√(2/π)·(a + 0.044715·a³) for a ≥ 0, so that GELU(x) is x ÷ (1 + e^−z). -/
def geluArg (a : Nat) : Enc :=
  let c := a * a * a
  let lo := a + c * 44715 / (1000000 * fxOne * fxOne)
  mulEnc gcEnc ⟨lo, lo + 1⟩

/-- GELU, tanh form. -/
def fGelu (x : Val) : Val :=
  match x with
  | .nan => .nan
  | .inf s => if s then .fin true 0 0 else .inf false
  | .fin s m _ =>
    if m = 0 then x
    else if x.big 16 then (if s then .fin true 0 0 else x.roundTo fp32)
    else
      let a := fixOf x
      decided fp32 0x16 (argKey x) s (mulEnc (ptEnc a) (sigmoidEnc (geluArg a) s))

/-- SiLU: x ÷ (1 + e^−x). -/
def fSilu (x : Val) : Val :=
  match x with
  | .nan => .nan
  | .inf s => if s then .fin true 0 0 else .inf false
  | .fin s m _ =>
    if m = 0 then x
    else if x.big 200 then (if s then .fin true 0 0 else x.roundTo fp32)
    else decided fp32 0x17 (argKey x) s (mulEnc (ptEnc (fixOf x)) (sigmoidEnc (ptEnc (fixOf x)) s))

/-- The functions 0x10-0x17 of R75 at an FP32 input. [DESIGN CHOICE, assumption 18] -/
def fApply (code : Nat) (x : Val) : Val :=
  if code = 0x10 then fExp x else if code = 0x11 then fLog x else if code = 0x12 then fRsqrt x
  else if code = 0x13 then fRecip x else if code = 0x14 then fTanh x else if code = 0x15 then fSigmoid x
  else if code = 0x16 then fGelu x else fSilu x

/-- Σ θ^(2k) ÷ (2k)! over even k, and over odd k. -/
def cosTerms : Nat → Nat → Enc → Enc → Enc → Enc → Enc × Enc
  | 0, _, _, _, ev, od => (⟨ev.lo, ev.hi + 2⟩, ⟨od.lo, od.hi + 2⟩)
  | n + 1, k, th2, t, ev, od =>
    let t1 := mulEnc t th2
    let d := (2 * k + 1) * (2 * k + 2)
    let t' : Enc := ⟨t1.lo / d, ceilDiv t1.hi d⟩
    if k % 2 = 0 then cosTerms n (k + 1) th2 t' (addEnc ev t) od
    else cosTerms n (k + 1) th2 t' ev (addEnc od t)

/-- cos(π·f) for 0 ≤ f ≤ 1, correctly rounded into AF40 (R149). [DESIGN CHOICE, assumption 18] -/
def fCosPi (f : Val) : Val :=
  let x := fixOf f
  if x = 0 then .one
  else if 2 * x = fxOne then .zero
  else
    let neg := decide (fxOne < 2 * x)
    let y := if neg then fxOne - x else x
    let th := mulEnc piEnc (ptEnc y)
    let r := cosTerms 60 0 (mulEnc th th) (ptEnc fxOne) ⟨0, 0⟩ ⟨0, 0⟩
    decided af40 0x20 (af40.put f) neg ⟨r.1.lo - r.2.hi, r.1.hi - r.2.lo⟩

end Sys2Proof.Machine
end

