-- ==== Sys2Proof/Machine/Fabric.lean ====
section
/-!
DEFINITION. Machine/Fabric.lean: coordinates and routes (R250, R256-R258), the packet's bytes and CRC (R247, Table 10.1),
the choice of a lane (R259, R260), credits (R262), and handing a packet to its lane as data frames (R218, R221, R249).
-/

namespace Sys2Proof.Machine

/-! ## Coordinates (R210, R250) -/

/-- The slot of the straps (Table 18.2): none on a board that is none of the carr's. -/
def Boot.slotOf (b : Boot) : Option Nat :=
  if b.brd = 4 then some (16 + b.pos.toNat) else if b.brd.toNat < 4 then some (b.brd.toNat + 4 * b.pos.toNat) else none

/-- Its number; 31 where the module has no slot. [DESIGN CHOICE, assumption 126] -/
def State.slot (s : State) : Nat := s.boot.slotOf.getD 31

def mkCoord (cx cy cz slot : Nat) : BitVec 17 := BitVec.ofNat 17 (cx * 16384 + cy * 2048 + cz * 32 + slot)
def cX (c : BitVec 17) : Nat := fld c.toNat 14 3
def cY (c : BitVec 17) : Nat := fld c.toNat 11 3
def cZ (c : BitVec 17) : Nat := fld c.toNat 5 6
def cSlot (c : BitVec 17) : Nat := fld c.toNat 0 5
/-- Slot at most 19 and cz at most 47, or the coordinate names no position (R250). -/
def coordNamed (c : BitVec 17) : Bool := decide (cSlot c ≤ 19) && decide (cZ c ≤ 47)

/-- This module's coordinate. -/
def State.coord (s : State) : BitVec 17 :=
  mkCoord s.router.cx.toNat s.router.cy.toNat s.router.cz.toNat s.slot

/-- The carr coordinate and the machine's extent on axis 0, 1 or 2. -/
def axisOf (c : BitVec 17) (a : Nat) : Nat := if a = 0 then cX c else if a = 1 then cY c else cZ c
def State.extent (s : State) (a : Nat) : Nat :=
  if a = 0 then s.router.ex.toNat else if a = 1 then s.router.ey.toNat else s.router.ez.toNat

def sameCarr (a b : BitVec 17) : Bool := cX a == cX b && cY a == cY b && cZ a == cZ b

/-! ## Planes and colours (Table 9.1, R213) -/

/-- Ports of plane set 0 inner, 1 X+, 2 X−, 3 Y+, 4 Y−, 5 Z+, 6 Z−. -/
def planePorts (pl : Nat) : List Nat :=
  if pl = 0 then List.range 16
  else if pl = 1 then [16, 17] else if pl = 2 then [18, 19] else if pl = 3 then [20, 21] else if pl = 4 then [22, 23]
  else if pl = 5 then [24, 25, 26, 27] else [28, 29, 30, 31]

/-- The plane set of a port. -/
def portPlane (p : Nat) : Nat :=
  if p < 16 then 0 else if p < 24 then 1 + (p - 16) / 2 else if p < 28 then 5 else 6

/-- The port that a port's light reaches at the far end (R210). -/
def pairedPort (p : Nat) : Nat :=
  if p < 16 then p
  else if p < 18 then p + 2 else if p < 20 then p - 2 else if p < 22 then p + 2 else if p < 24 then p - 2
  else if p < 28 then p + 4 else p - 4

/-- tx_colour(i, j) of R213. -/
def txColour (i j : Nat) : Nat := (j + 20 - i % 20) % 20
/-- rx_source(j, k) of R213. -/
def rxSource (j k : Nat) : Nat := (j + 20 - k % 20) % 20

/-! ## Routes (R256, R257, R258) -/

/-- The next hop: none ejects, otherwise a plane set and the slot it lands on. -/
def State.nextHop (s : State) (d : BitVec 17) (dirs : BitVec 3) : Option (Nat × Nat) :=
  let own := s.coord
  if cX own ≠ cX d then some (if bitAt dirs.toNat 0 then 2 else 1, cSlot d)
  else if cY own ≠ cY d then some (if bitAt dirs.toNat 1 then 4 else 3, cSlot d)
  else if cZ own ≠ cZ d then some (if bitAt dirs.toNat 2 then 6 else 5, cSlot d)
  else if s.slot = cSlot d then none
  else some (0, cSlot d)

/-- Travel in the negative direction on one axis of extent `ext` from `a` to `b`: the shorter way where the slice spans
the axis, otherwise the way that stays inside the slice of origin `org` (R257). -/
def dirNeg (ext span org a b : Nat) : Bool :=
  if ext ≤ span then decide ((b + ext - a) % ext > (a + ext - b) % ext)
  else decide ((b + ext - org) % ext < (a + ext - org) % ext)

/-- DIRS for a packet of partition `q`; firmware's packets treat every axis as spanned. -/
def State.dirsTo (s : State) (plan : Option Plan) (d : BitVec 17) : BitVec 3 :=
  let own := s.coord
  let o := match plan with | some p => p.origin | none => (0, 0, 0)
  let w := match plan with | some p => p.spans | none => (s.extent 0, s.extent 1, s.extent 2)
  let b (a sp og : Nat) : Nat :=
    if axisOf own a ≠ axisOf d a ∧ dirNeg (s.extent a) sp og (axisOf own a) (axisOf d a) then 2 ^ a else 0
  BitVec.ofNat 3 (b 0 w.1 o.1 + b 1 w.2.1 o.2.1 + b 2 w.2.2 o.2.2)

/-- HOPS and DL as the packet is sent on plane `pl` (Table 10.1, R258): an outer hop adds 1; DL is set by a hop across
the machine's edge, kept along one axis, and cleared by the first hop on a new axis. -/
def State.stampHop (s : State) (k : Packet) (pl : Nat) (inPlane : Nat) : Packet :=
  if pl = 0 then k
  else
    let a := (pl - 1) / 2
    let own := axisOf s.coord a
    let edge := if pl % 2 = 1 then decide (own + 1 = s.extent a) else decide (own = 0)
    let sameAxis := decide (inPlane ≠ 0) && (inPlane - 1) / 2 == a
    { k with hops := k.hops + 1, dl := edge || (sameAxis && k.dl) }

/-! ## The packet as bytes (Table 10.1) -/

end Sys2Proof.Machine

namespace Sys2Proof

open Machine

def Packet.headerNat (k : Packet) : Nat :=
  k.typ.toNat + k.vc.toNat * 2 ^ 4 + k.coord.toNat * 2 ^ 7 + k.hops.toNat * 2 ^ 8 + k.dl.toNat * 2 ^ 14
  + k.packv.toNat * 2 ^ 15 + k.dest.toNat * 2 ^ 16 + k.src.toNat * 2 ^ 36 + k.dcoord.toNat * 2 ^ 56
  + k.dirs.toNat * 2 ^ 73 + k.resv.toNat * 2 ^ 76 + k.gen.toNat * 2 ^ 80 + k.pseq.toNat * 2 ^ 96
  + k.pack.toNat * 2 ^ 112 + k.len.toNat * 2 ^ 128 + k.wfmt.toNat * 2 ^ 141 + k.addr.toNat * 2 ^ 144
  + k.chain.toNat * 2 ^ 192 + k.jobtag.toNat * 2 ^ 208 + k.hcrc.toNat * 2 ^ 224

/-- HCRC: CRC-32C over the header with HCRC taken as 0, and the payload. -/
def Packet.crc (k : Packet) : Word := crc32c (leBytes 32 { k with hcrc := 0 }.headerNat ++ k.payload)

def Packet.sealed (k : Packet) : Packet := { k with hcrc := k.crc }
def Packet.crcOk (k : Packet) : Bool := k.hcrc == k.crc
def Packet.bytes (k : Packet) : List Byte := leBytes 32 k.headerNat ++ k.payload

end Sys2Proof

namespace Sys2Proof.Machine

/-- Read a header of 32 bytes; the payload is empty until its bytes follow. -/
def headerOf (bs : List Byte) : Packet :=
  let n := fieldLE bs 0 32
  { typ := BitVec.ofNat 4 n, vc := BitVec.ofNat 3 (n >>> 4), coord := bitAt n 7, hops := BitVec.ofNat 6 (n >>> 8)
    dl := bitAt n 14, packv := bitAt n 15, dest := BitVec.ofNat 20 (n >>> 16), src := BitVec.ofNat 20 (n >>> 36)
    dcoord := BitVec.ofNat 17 (n >>> 56), dirs := BitVec.ofNat 3 (n >>> 73), resv := BitVec.ofNat 4 (n >>> 76)
    gen := BitVec.ofNat 16 (n >>> 80), pseq := BitVec.ofNat 16 (n >>> 96), pack := BitVec.ofNat 16 (n >>> 112)
    len := BitVec.ofNat 13 (n >>> 128), wfmt := BitVec.ofNat 3 (n >>> 141), addr := BitVec.ofNat 48 (n >>> 144)
    chain := BitVec.ofNat 16 (n >>> 192), jobtag := BitVec.ofNat 16 (n >>> 208), hcrc := BitVec.ofNat 32 (n >>> 224)
    payload := [] }

def blankPacket : Packet := headerOf []

/-! ## Frames on a transmit lane (R218, R221, R249) -/

/-- Cut a byte string into frame payloads of 315 bytes, the last filled with zeros. -/
def cutFrames : Nat → List Byte → List (List Byte)
  | 0, _ => []
  | n + 1, bs =>
    if bs.length ≤ 315 then [sub bs 0 315] else bs.take 315 :: cutFrames n (bs.drop 315)

/-- Frames whose first header begins at byte `o` of the first of them. -/
def framesAt (o : Nat) (bs : List Byte) : List Frame :=
  (cutFrames 16 bs).mapIdx fun i b => { fsn := 0, first := if i = 0 then BitVec.ofNat 9 o else 0x1FF, payload := b }

/-- The frames of one packet that begins a frame. -/
def framesOf (k : Packet) : List Frame := framesAt 0 k.bytes

/-- Lay a packet's bytes right behind those of the last frame that waits, where that is not full (R249): the frames that wait now, the
frames added, and the bytes taken of the last one, 0 for a full one. -/
def layBytes (queue : List Frame) (fill : Nat) (bs : List Byte) : List Frame × Nat × Nat :=
  match queue.getLast? with
  | some f =>
    if fill = 0 then (queue ++ framesAt 0 bs, (framesAt 0 bs).length, bs.length % 315)
    else
      let l := framesAt (if f.first = 0x1FF then fill else f.first.toNat) (f.payload.take fill ++ bs)
      (queue.dropLast ++ l, l.length - 1, (fill + bs.length) % 315)
  | none => (framesAt 0 bs, (framesAt 0 bs).length, bs.length % 315)

/-- The replay buffer of one lane (R221). -/
def replayCap : Nat := 192

/-- A lane carries traffic: up, not out of traffic, and not in a BUSY pause. -/
def TxLane.flows (l : TxLane) : Bool := l.st == .up && !l.outOfTraffic && l.locked && l.pausedBusy == none

/-- The colour back to the peer that is heard, or reached, on colour `c` (R213). -/
def backColour (c : Nat) : Nat := (20 - c % 20) % 20

/-- A lane that may carry frames: up, in traffic and locked (R228, R240). -/
def TxLane.carries (l : TxLane) : Bool := l.st == .up && !l.outOfTraffic && l.locked

/-- The transmit port that carries the acknowledgements of receive lane (p, c) (R223). -/
def State.ackLane (s : State) (p c : Nat) : Option Nat :=
  if (s.tx p (backColour c)).carries then some p
  else (planePorts (portPlane p)).find? fun r => (s.tx r (backColour c)).carries

/-- The ports whose acknowledgements ride on transmit lane (p, c), in increasing order. -/
def State.ackPorts (s : State) (p c : Nat) : List Nat :=
  (planePorts (portPlane p)).filter fun r => (s.rx r (backColour c)).st == .up && s.ackLane r (backColour c) == some p

/-- What ACK says of a receive lane: the frame it needs with a NAK, otherwise the latest frame accepted in order (R222). A frame whose
packet is not whole yet is not accepted (R264). -/
def RxLane.ackFsn (x : RxLane) : BitVec 16 :=
  if x.nakDue then x.expect else if x.asm.isEmpty then x.expect - 1 else x.asmFsn - 1

def nth (l : List Nat) (i : Nat) : Nat := if l.length = 0 then 0 else l.getD (i % l.length) 0

/-- A frame that names the acknowledgement of receive port `r`, lane `x` (R222, R223). -/
def RxLane.wire (x : RxLane) (r : Nat) (f : Frame) (idle : Bool) : Wire :=
  { fsn := f.fsn, ack := x.ackFsn, idle := idle, nak := x.nakDue, acksel := BitVec.ofNat 5 r, first := f.first
    busy := x.nakDue && x.nakBusy, payload := f.payload }

/-- A frame as transmit lane (p, c) puts it on the fibre, naming its acknowledgement in turn (R222, R223). -/
def State.ackOf (s : State) (p c : Nat) : Nat :=
  let ports := s.ackPorts p c
  if ports.isEmpty then p else nth ports (s.tx p c).ackTurn

/-! ## Alignment blocks (R219) -/

/-- The lane that the next block on transmit lane (p, c) reports on: the reverse lane of the port; where that is dark or retired, each
lane from the peer whose own reverse lane is not up, in turn. -/
def State.reportPort (s : State) (p c : Nat) : Nat :=
  let b := backColour c
  if (s.rx p b).st = .dark ∨ (s.rx p b).st = .retired then
    let l := (planePorts (portPlane p)).filter fun r => (s.rx r b).st == .up && (s.tx r c).st != .up
    if l.isEmpty then p else nth l (s.tx p c).rptTurn
  else p

/-- Lane (p, c) sends an alignment block with a STATE of Table 9.4; the lane reported on starts a new interval of counts.
[DESIGN CHOICE, assumption 122] -/
def State.sendBlock (s : State) (p c : Nat) (st : BitVec 2) : State :=
  let r := s.reportPort p c
  let x := s.rx r (backColour c)
  let b : AlignBlock :=
    { interval := (s.tx p c).interval, rptPort := ⟨r % 32, Nat.mod_lt _ (by decide)⟩, rptOma := x.oma
      rptCorr := BitVec.ofNat 16 (min 0xFFFF x.corrI), rptUnc := BitVec.ofNat 12 (min 0xFFF x.uncI), state := st }
  let s1 := { s with router := { s.router with aligns := s.router.aligns ++ [(p, c, (s.tx p c).out.length, b)] } }
  let s2 := s1.modTx p c fun l => { l with interval := l.interval + 1, since := 0, rptTurn := l.rptTurn + 1 }
  s2.modRx r (backColour c) fun l => { l with corrI := 0, uncI := 0 }

/-- Frames of one framing interval. -/
def framesPerBlock : Nat := 2048

/-- One frame goes on the fibre of transmit lane (p, c), with the acknowledgement of receive lane (r, back): a NAK is said once, one with
BUSY is counted, and the framing interval ends with its block. -/
def State.putFrame (s : State) (p c r : Nat) (f : Frame) (idle : Bool) : State :=
  let b := backColour c
  let x := s.rx r b
  let s1 := s.modTx p c fun l => { l with out := l.out ++ [x.wire r f idle], ackTurn := l.ackTurn + 1, since := l.since + 1 }
  let s2 := if x.nakDue then s1.setRx r b { x with nakDue := false } else s1
  let s3 := if x.nakDue && x.nakBusy then
      (s2.modPort r fun y => { y with busySent := satInc y.busySent 1 }).bump (8 * r + 7) 1
    else s2
  if framesPerBlock ≤ (s3.tx p c).since then s3.sendBlock p c 0 else s3

def State.emit (s : State) (p c : Nat) (f : Frame) (idle : Bool) : State := s.putFrame p c (s.ackOf p c) f idle

/-- Move queued frames onto the fibre while the lane flows and the replay buffer has room (R221). -/
def State.pumpLane (s : State) (p c : Nat) : Nat → State
  | 0 => s
  | n + 1 =>
    let l := s.tx p c
    if l.flows ∧ l.unacked.length < replayCap then
      match l.queue with
      | [] => s
      | f :: r =>
        if r.isEmpty ∧ s.router.cork ∧ l.fill ≠ 0 then s
        else
          let g := { f with fsn := l.nextFsn }
          ((s.emit p c g false).modTx p c fun l =>
            { l with queue := r, fill := if r.isEmpty then 0 else l.fill, unacked := l.unacked ++ [g], nextFsn := l.nextFsn + 1 }).pumpLane p c n
    else s

/-- Pump all that is queued. -/
def State.pump (s : State) (p c : Nat) : State := s.pumpLane p c (s.tx p c).queue.length

/-- Hand a packet to a lane: it is recorded as sent, counted, and its bytes follow those already queued (R249). -/
def State.onLane (s : State) (p c : Nat) (j : LaneJob) : State :=
  let k := j.pkt.sealed
  let s1 := (s.modTx p c fun l =>
    let x := layBytes l.queue l.fill k.bytes
    { l with queue := x.1, fill := x.2.2, held := l.held ++ [{ j with pkt := k, left := x.2.1 }] }).pump p c
  let s2 := (s1.modPort p fun x => { x with ptx := satInc x.ptx 1 }).bump (8 * p) 1
  { s2 with router := { s2.router with txq := s2.router.txq ++ [⟨p, c, k⟩] } }

/-- Packets that leave together lie back to back: a frame waits to be filled until the last of them is laid (R249). [DEDUCED, assumption 39] -/
def State.together (s : State) (f : State → State) : State :=
  if s.router.cork then f s
  else
    let s1 := f { s with router := { s.router with cork := true } }
    let s2 := { s1 with router := { s1.router with cork := false } }
    s2.txl.foldl (fun s kv => if kv.2.queue.isEmpty then s else s.pump (kv.1 / 20) (kv.1 % 20)) s2

/-! ## Credits (R262) -/

/-- The credits of a lane are kept by channel and dateline class (R262). [DEDUCED, assumption 40] -/
def creditKey (k : Packet) : Nat := 2 * k.vc.toNat + k.dl.toNat

/-- A packet that relays at the far end, or is multicast, needs a credit of its lane, VC and class. [DEDUCED, assumption 40] -/
def needsCredit (k : Packet) (landing : Bool) : Bool := k.typ == 1 || !landing

/-- Send on a chosen lane, or wait there for a credit. -/
def State.viaLane (s : State) (p c : Nat) (j : LaneJob) (landing : Bool) : State :=
  if needsCredit j.pkt landing then
    let n := (s.tx p c).credits.get 0 (creditKey j.pkt)
    if n = 0 then s.modTx p c fun l => { l with waitq := l.waitq ++ [j] }
    else (s.modTx p c fun l => { l with credits := l.credits.set (creditKey j.pkt) (n - 1) }).onLane p c j
  else s.onLane p c j

/-! ## The choice of a lane (R259, R260) -/

def pairKey (pl slot : Nat) : Nat := 32 * pl + slot

/-- The pair's lit transmit ports, in increasing order. -/
def State.litPorts (s : State) (pl c : Nat) : List Nat := (planePorts pl).filter fun p => (s.tx p c).lit

/-- Of those, the ports whose lane has neither retired nor gone out of traffic. -/
def State.livePorts (s : State) (pl c : Nat) : List Nat :=
  (s.litPorts pl c).filter fun p => (s.tx p c).st != .retired && !(s.tx p c).outOfTraffic

/-- Of those, the up lanes. -/
def State.upPorts (s : State) (pl c : Nat) : List Nat := (s.livePorts pl c).filter fun p => (s.tx p c).st == .up

/-- The default detour mates of slot `i` (R260). -/
def defaultMates (i : Nat) : List Nat := [1, 2, 3].map fun k => 4 * (i / 4) + (i + k) % 4

/-- Every receive lane from a carr-mate's slot is closed: the slot is fenced here (R242). -/
def State.fencedSlot (s : State) (j : Nat) : Bool :=
  (List.range 16).any fun p => (s.rx p (rxSource s.slot j)).st == .closed

/-- A usable detour mate of R260 for a hop on plane `pl` to slot `ds`. -/
def State.mateUsable (s : State) (pl ds m : Nat) : Bool :=
  (decide (pl ≠ 0) || m != ds) && m != s.slot && !s.fencedSlot m
  && !(s.upPorts 0 (txColour s.slot m)).isEmpty
  && (planePorts pl).any fun p => ((s.router.reports.get [] m).getD p 0).getLsbD (txColour m ds)

/-- What R260 answers for one packet of a pair. -/
inductive Lane where
  | direct (port : Nat)
  | detour (mate : Nat) (port : Nat)
  | noRoute
deriving DecidableEq, Repr

/-- The plan's detour table for a hop on plane `pl` to slot `ds`, or the default one (R260, Table 12.3). [DEDUCED, assumption 43] -/
def State.matesFor (s : State) (plan : Option Plan) (pl ds : Nat) : List Nat :=
  match plan with
  | none => defaultMates s.slot
  | some p =>
    if p.shape.detours.isEmpty then defaultMates s.slot
    else match p.shape.detours.find? fun e => e.plane == pl && cSlot (p.shape.ranks.getD e.rank 0) == ds with
      | some e => (e.mates.filter fun m => m != 0xFF).map BitVec.toNat
      | none => []

/-- Choose the lane of packet number `n` of the pair (R259, R260); the inner hop of a detour is dealt as a packet of the pair to the mate.
A pair without a lit lane has no route (R308). [DEDUCED, assumption 43] -/
def State.pickLane (s : State) (plan : Option Plan) (pl ds : Nat) : Lane :=
  let c := txColour s.slot ds
  let lit := (s.litPorts pl c).length
  let live := s.livePorts pl c
  let up := s.upPorts pl c
  let n := s.router.deal.get 0 (pairKey pl ds)
  let mates := (s.matesFor plan pl ds).filter fun m => s.mateUsable pl ds m
  let direct := if up.isEmpty then nth live n else nth up n
  if lit = 0 then .noRoute
  else if 15 * lit ≤ 16 * live.length ∧ ¬ live.isEmpty then .direct direct
  else if n % max lit 1 < live.length ∨ (mates.isEmpty ∧ ¬ live.isEmpty) then .direct direct
  else if mates.isEmpty then .noRoute
  else
    let m := nth mates (s.router.mateTurn.get 0 (pairKey pl ds))
    .detour m (nth (s.upPorts 0 (txColour s.slot m)) (s.router.deal.get 0 (pairKey 0 m)))

/-- Count one packet of a pair. [DEDUCED, assumption 43] -/
def State.dealt (s : State) (pl ds : Nat) : State :=
  { s with router := { s.router with deal := s.router.deal.set (pairKey pl ds) (s.router.deal.get 0 (pairKey pl ds) + 1) } }

/-- The turn of the detour mates of a pair moves on by one packet (R260). [DEDUCED, assumption 43] -/
def State.mateTurned (s : State) (pl ds : Nat) : State :=
  { s with router := { s.router with mateTurn := s.router.mateTurn.set (pairKey pl ds) (s.router.mateTurn.get 0 (pairKey pl ds) + 1) } }

/-- The pair takes direct lanes again where it re-stripes (R260): its detours are over. [DEDUCED, assumption 43] -/
def State.restriped (s : State) (pl ds : Nat) : State :=
  if s.router.detours.isEmpty then s
  else
    let c := txColour s.slot ds
    if 15 * (s.litPorts pl c).length ≤ 16 * (s.livePorts pl c).length then
      { s with router := { s.router with detours := s.router.detours.filter fun d => d.1 != pairKey pl ds } }
    else s

/-- The pair's packets go by mate `m` (R260): event 0x420 when that begins, and the turn goes on. [DEDUCED, assumption 43] -/
def State.turnedBy (s : State) (pl ds m : Nat) : State :=
  let s1 := if s.router.detours.contains (pairKey pl ds, m) then s
    else ({ s with router := { s.router with detours := s.router.detours ++ [(pairKey pl ds, m)] } }).log 0x420 0 (a1 pl ++ a1 ds ++ a4 m)
  (((s1.routeBit 5).dealt pl ds).dealt 0 m).mateTurned pl ds

/-- A packet as a detour takes it to the mate: DL is cleared where the next hop is the first on a new axis (R258). -/
def detourOf (k : Packet) (pl inPlane : Nat) : Packet :=
  if pl = 0 then k else { k with dl := k.dl && decide (inPlane ≠ 0) && (inPlane - 1) / 2 == (pl - 1) / 2 }

/-- The landing module of a hop on plane `pl` to slot `ds`. -/
def State.landing (s : State) (pl ds : Nat) : BitVec 17 :=
  let o := s.coord
  let step (v e : Nat) (up : Bool) : Nat := if up then (v + 1) % max e 1 else (v + max e 1 - 1) % max e 1
  if pl = 0 then mkCoord (cX o) (cY o) (cZ o) ds
  else if pl ≤ 2 then mkCoord (step (cX o) (s.extent 0) (pl == 1)) (cY o) (cZ o) ds
  else if pl ≤ 4 then mkCoord (cX o) (step (cY o) (s.extent 1) (pl == 3)) (cZ o) ds
  else mkCoord (cX o) (cY o) (step (cZ o) (s.extent 2) (pl == 5)) ds

/-! ## Firmware's packets (R251, Table 10.6) -/

/-- A MAINT packet of subtype `st` to coordinate `d`. -/
def State.maintPacket (s : State) (d : BitVec 17) (st : Nat) (body : List Byte) : Packet :=
  { blankPacket with
    typ := 5, vc := 4, coord := true, dcoord := d, dirs := s.dirsTo none d
    len := BitVec.ofNat 13 body.length, addr := BitVec.ofNat 48 st, payload := body }

/-- The lane that carries a MAINT packet of a pair that no SHAPE lights: the pair's next up lane, or the lowest port of its plane set, which
maintenance lights (R214). -/
def State.maintPort (s : State) (pl ds : Nat) : Nat :=
  let c := txColour s.slot ds
  let up := (planePorts pl).filter fun p => (s.tx p c).st == .up && !(s.tx p c).outOfTraffic
  if up.isEmpty then nth ((planePorts pl).filter fun p => (s.tx p c).st != .retired) 0 else nth up (s.router.deal.get 0 (pairKey pl ds))

/-- The detour table that a MAINT packet's hop follows: that of the first loaded plan that supplies one (R260). [DEDUCED, assumption 43] -/
def State.detourPlan (s : State) : Option Plan :=
  (List.range s.partCnt).findSome? fun q => (s.part q).plan.filter fun p => !p.shape.detours.isEmpty

/-- A MAINT packet's job on its hop to slot `ds` of plane `pl`: over the lanes that SHAPE lights, or by a detour, as R259 and R260 give, or on
a lane that maintenance lights; `lost` goes on where the pair has no route. -/
def State.maintHopOr (lost : State → State) (s : State) (pl ds : Nat) (j : LaneJob) : State :=
  let c := txColour s.slot ds
  let land := s.landing pl ds == j.orig.dcoord
  if (s.litPorts pl c).isEmpty then
    let p := s.maintPort pl ds
    let s1 := s.modTx p c fun l => if l.st = .dark then { l with st := .training } else l
    (s1.dealt pl ds).viaLane p c j land
  else match s.pickLane s.detourPlan pl ds with
    | .direct p => ((s.restriped pl ds).dealt pl ds).viaLane p c j land
    | .detour m p => (s.turnedBy pl ds m).viaLane p (txColour s.slot m) { j with pkt := detourOf j.orig pl j.inPlane } false
    | .noRoute => lost ((s.log 0x421 0 (a1 pl ++ a1 ds)).routeBit 6)

/-- Send a MAINT packet; one addressed to this module itself goes straight to firmware's input. -/
def State.maintOutOr (lost : State → State) (s : State) (k : Packet) (inPlane : Nat) : State :=
  match s.nextHop k.dcoord k.dirs with
  | none => { s with router := { s.router with maintRx := s.router.maintRx ++ [k] } }
  | some (pl, ds) => s.maintHopOr lost pl ds { orig := k, inPlane := inPlane, pkt := s.stampHop k pl inPlane }

/-! ## The carr steward (R327) -/

/-- A carr-mate in slot `j` is heard: a lane from it is up, or it has answered discovery and is not closed. -/
def State.mateHeard (s : State) (j : Nat) : Bool :=
  let c := rxSource s.slot j
  !s.fencedSlot j && (List.range 16).any fun p =>
    (s.rx p c).st == .up || (s.boot.disc.get 0 p).getLsbD c

/-- Live carr-mates, in increasing slot order. -/
def State.mates (s : State) : List Nat := (List.range 20).filter fun j => j != s.slot && s.mateHeard j

/-- The steward's slot as this module sees it: the lowest active slot that is neither fenced nor quarantined. -/
def State.stewardSlot (s : State) : Option Nat :=
  (List.range 16).find? fun j => if j = s.slot then !s.boot.quar else s.mateHeard j

def State.isSteward (s : State) : Bool := s.stewardSlot == some s.slot

def State.carrCoord (s : State) (slot : Nat) : BitVec 17 :=
  mkCoord s.router.cx.toNat s.router.cy.toNat s.router.cz.toNat slot

/-- The steward that answers for this module when it is itself lost: the next lowest. -/
def State.otherSteward (s : State) : Option Nat := (List.range 16).find? fun j => j != s.slot && s.mateHeard j

/-- Port 0 lanes to and from slot `j` stay lit: `j` is the steward, or this module is and `j` has answered (R331, R393); a quarantined
module keeps all of port 0 (R347). -/
def State.keepsMate (s : State) (j : Nat) : Bool :=
  j != s.slot && (s.boot.quar || s.stewardSlot == some j || (s.isSteward && (s.boot.disc.get 0 0).getLsbD (rxSource s.slot j)))

/-! ## ADMIT (R350) -/

def jobtagOf (p : Plan) : BitVec 16 := BitVec.ofNat 16 p.jobId.toNat

/-- The 16-byte common part of Table 13.6. [DEDUCED, assumption 57] -/
def admitHead (op part : Nat) (jobtag : BitVec 16) (rank : Nat) (coord : BitVec 17) : List Byte :=
  a1 op ++ a1 part ++ a2 jobtag.toNat ++ leBytes 4 rank ++ leBytes 4 coord.toNat ++ leBytes 4 0

end Sys2Proof.Machine
end

