-- ==== Sys2Proof/Machine/Phase.lean ====
section
/-!
DEFINITION. Machine/Phase.lean: event counters (R398-R400), operating points (R359-R362), and the beginning of a phase with
its lateness (R37, R40, R60).
-/

namespace Sys2Proof.Machine

/-! ## Counters (R398-R400) -/

/-- A counter selection: the unit in the low 8 bits, the event above them. -/
def selOf (unit ev : Nat) : BitVec 17 := BitVec.ofNat 17 (unit + 256 * ev)

/-- `n` events `ev` of unit `unit` reach every counter of partition `q`'s share that selects them. -/
def State.count (s : State) (q unit ev n : Nat) : State :=
  if n = 0 then s
  else (s.obs.selUse.filter fun kv => kv.2 == selOf unit ev
      && decide (512 + q * (3584 / s.partCnt) ≤ kv.1) && decide (kv.1 < 512 + (q + 1) * (3584 / s.partCnt))).foldl
    (fun s kv => s.bump kv.1 n) s

/-- An event of the partition as a whole. -/
def State.countPart (s : State) (q ev n : Nat) : State := s.count q 0xE0 ev n

/-- Accesses of partition `q` to DRAM grains: each counts as a hit or a miss of the carve-out (R400). -/
def State.countGrains (s : State) (q : Nat) (g : List Nat) : State :=
  if (s.part q).carveMib = 0 then s else g.foldl (fun s l => s.countPart q (if s.cached q l then 3 else 4) 1) s

/-- The DRAM grains of a run of bytes; a Peat run has none. -/
def grainsOf (a n : Nat) : List Nat := if isDram a then linesOf a n else []

/-! ## Operating points (R359-R361) -/

/-- FREQ codes of Table 14.3, in 25 MHz units. -/
def factoryFreq (i : Nat) : Nat :=
  if i = 0 then 0x18 else if i = 1 then 0x28 else if i = 2 then 0x30 else if i = 3 then 0x38 else if i = 4 then 0x40
  else if i = 5 then 0x48 else if i = 6 then 0x50 else 0x58

/-- The factory curve of R360 at the frequencies of Table 14.3; elsewhere the manual does not state it. [DESIGN CHOICE, assumption 19] -/
def vcodeOf (freq : Nat) : Nat :=
  if freq = 0x18 then 0x78 else if freq = 0x28 then 0x80 else if freq = 0x30 then 0x88 else if freq = 0x38 then 0x90
  else if freq = 0x40 then 0x98 else if freq = 0x48 then 0xA0 else if freq = 0x50 then 0xAA else if freq = 0x58 then 0xB8
  else Config.vcode freq

/-- PWR_OPTAB(i).FREQ and VALID. -/
def State.opFreqOf (s : State) (i : Nat) : Nat := (s.power.opFreq.get (BitVec.ofNat 8 (factoryFreq i)) i).toNat
def State.opValid (s : State) (i : Nat) : Bool := i == 0 || !s.power.opInvalid.get false i
def State.opMhz (s : State) (i : Nat) : Nat := 25 * s.opFreqOf i

/-- The profile's highest point and cap ceiling (Table 14.4). -/
def profileTop (p : BitVec 2) : Nat := if p = 0 then 7 else if p = 1 then 6 else 5
def profileCap (p : BitVec 2) : Nat := if p = 0 then 1500 else if p = 1 then 1350 else 1000

/-- The timeline entry of a running partition's current phase. -/
def State.phaseOf (s : State) (q : Nat) : Option PhaseEnt :=
  let p := s.part q
  if p.stat = .running ∨ p.stat = .stopping then
    match p.plan, p.phase with
    | some pl, some tag => pl.timeline.find? fun t => t.tag == tag
    | _, _ => none
  else none

/-- The current phases of the running partitions. -/
def State.phases (s : State) : List PhaseEnt := (List.range s.partCnt).filterMap s.phaseOf

/-- The lowest of a list, or `d` when it is empty. [DEDUCED, assumption 65] -/
def lowestOr (d : Nat) : List Nat → Nat
  | [] => d
  | x :: xs => xs.foldl min x

/-- The point of R362: the lowest phase point of the running partitions after the profile clamp; OP0 with none. [DEDUCED, assumption 65] -/
def State.wantedOp (s : State) : Nat := lowestOr 0 (s.phases.map fun t => min t.op (profileTop s.power.profile))

/-- A change to point `w` that starts at this tick. -/
def State.newChange (s : State) (w : Nat) (tag : BitVec 16) : OpChange :=
  ⟨w, s.power.opCur, tag, decide (s.power.opCur < w), 0⟩

/-- A boundary: where the point of R362 changes, a change begins, or waits for the one under way (R40, R362, Table 14.8). -/
def State.opBoundary (s : State) (tag : BitVec 16) : State :=
  let w := s.wantedOp
  if w = s.power.opWant then s
  else
    { s with power := { s.power with
        opWant := w, wantTag := tag
        chg := if s.power.chg.isSome then s.power.chg else if w = s.power.opCur then none else some (s.newChange w tag) } }

/-! ## Phases (R37, R60) -/

/-- PLAN_START of a tag. [DEDUCED, assumption 84] -/
def Plan.startOf (p : Plan) (tag : BitVec 16) : Nat :=
  match p.timeline.find? fun t => t.tag == tag with
  | some t => t.start
  | none => 0

/-- A PHASE with `tag` in step `step` is the first of its phase in the partition. [DEDUCED, assumption 84] -/
def Partn.newPhase (p : Partn) (pl : Plan) (tag : BitVec 16) (step : Dword) : Bool :=
  match p.phase with
  | none => true
  | some t => decide (p.phaseStep.toNat < step.toNat) || (p.phaseStep == step && decide (pl.startOf t < pl.startOf tag))

/-- The planned tick of a phase: the start tick, the whole steps since the first, and PLAN_START (R37). [DEDUCED, assumption 84] -/
def Partn.planned (p : Partn) (pl : Plan) (tag : BitVec 16) (step : Dword) : Int :=
  (p.startTick.toNat : Int) + ((step.toNat : Int) - p.first.toNat) * pl.stepTicks + pl.startOf tag

/-- The phase begins: its tick and lateness are noted, and its boundary may change the operating point. [DEDUCED, assumption 84] -/
def State.beginPhase (s : State) (q : Nat) (pl : Plan) (tag : BitVec 16) (step : Dword) : State :=
  let p := s.part q
  if p.newPhase pl tag step then
    let late := (s.now : Int) - p.planned pl tag step
    let s1 := s.setPart q { p with
      phase := some tag, phaseTick := s.clk.tick, phaseStep := step, lateness := late }
    let s2 := s1.countPart q 7 late.toNat
    let s3 := { s2 with power := { s2.power with capMissed := false } }
    s3.opBoundary tag
  else s

end Sys2Proof.Machine
end

