-- ==== Sys2Proof/Machine/Partn.lean ====
section
/-!
DEFINITION. Machine/Partn.lean: the sync unit's operations (R186-R204), stopping and
unloading a partition (R36, R167, R181, R190, R470), quarantine (R347) and "the module cannot continue" (R325 cause 1).
-/

namespace Sys2Proof.Machine

/-! ## Identity -/

/-- The rank of partition `q` on the fabric: its plan's SELF, or the rank of an admission under way; 0 without either. [DEDUCED, assumption 86] -/
def State.rankOf (s : State) (q : Nat) : Nat :=
  match (s.part q).plan with
  | some p => p.shape.self
  | none => (s.part q).spareRank

/-- The partition's own endpoint ID (R250, R303). [DEDUCED, assumption 86] -/
def State.endpointOf (s : State) (q : Nat) : Endpoint := BitVec.ofNat 20 (4 * s.rankOf q + q)

def epRank (e : Endpoint) : Nat := e.toNat / 4
def epPart (e : Endpoint) : Nat := e.toNat % 4

def rtKey (q rank : Nat) : Nat := q * 65536 + rank
def State.rankEnt (s : State) (q rank : Nat) : RankEnt := s.router.rtab.get {} (rtKey q rank)
def State.setRankEnt (s : State) (q rank : Nat) (e : RankEnt) : State :=
  { s with router := { s.router with rtab := s.router.rtab.set (rtKey q rank) e } }

def State.jobtag (s : State) (q : Nat) : BitVec 16 :=
  match (s.part q).plan with
  | some p => jobtagOf p
  | none => 0

def Partn.runs (p : Partn) : Bool := p.stat == .running || p.stat == .stopping

/-- The partition counts as running from its START on (R417), though its first tick may lie ahead. -/
def Partn.started (p : Partn) : Bool := p.stat != .idle

/-! ## Watches (R191) -/

/-- What a restart point saves (R80, R136, R152). -/
def Engine.snap (x : Engine) : Ckpt :=
  { pc := x.pc, g := x.g, a := x.a, t := x.t, loops := x.loops, tile0 := x.tile0, tile1 := x.tile1
    sumU := x.sumU, sumW := x.sumW, idxRange := x.idxRange, satCnt := x.satCnt, keptCnt := x.keptCnt, dropCnt := x.dropCnt, lap := x.lap }

/-- The engine resumes after its SWAIT: the SWAIT has completed, but for a completion signal it may carry. -/
def Engine.resumed (x : Engine) : Engine :=
  let y := { x with run := if x.rerunning then .rerun else .running, pc := x.pc + 1, waitLogged := false,
                    blockSwaits := x.blockSwaits + 1, waitCs := false, waitCsem := 0, waitEntry := none }
  let en : InFlight := x.waitEntry.getD { index := x.pc, opc := 0x10, cs := x.waitCs, csem := x.waitCsem }
  if x.waitCs then
    { y with inflight := y.inflight ++ [{ en with cs := true, csem := x.waitCsem, snap := some y.snap, swaits := y.blockSwaits }] }
  else if en.tagged then
    (if y.inflight.isEmpty then { y with traces := y.traces ++ [en] } else { y with inflight := y.inflight ++ [{ en with swaits := y.blockSwaits }] })
  else y

/-- A watch's engine waits in the SWAIT that armed it. -/
def State.waitsOn (s : State) (w e : Nat) : Bool :=
  (s.eng e).run == .waiting && (s.eng e).waitWatch.toNat == w

/-- The partition has begun the mirror UPDs of a step and not ended them (R336, R337). -/
def State.midMirror (s : State) (q : Nat) : Bool :=
  match (s.part q).plan with
  | none => false
  | some p =>
    match p.mirrors.map fun m => (s.eng m.1).mirrorRec.get ((s.part q).first - 1) m.2 with
    | [] => false
    | r :: rs => rs.any (fun x => x != r) || p.mirrors.any fun m => (s.eng m.1).inflight.any fun i => i.mirror.isSome

/-- The twin of a fenced rank has still to run mirror UPDs of engine `e` in the step whose mirror UPDs it has begun (R337). -/
def State.owesMirror (s : State) (e : Nat) : Bool :=
  let q := s.partOf e
  match (s.part q).plan with
  | none => false
  | some p =>
    let at_ (m : Nat × Nat) : Dword := (s.eng m.1).mirrorRec.get ((s.part q).first - 1) m.2
    let flying (m : Nat × Nat) : Bool := (s.eng m.1).inflight.any fun i => i.mirror == some m.2
    (s.part q).fencedRanks.contains p.shape.twin.toNat && s.midMirror q
    && p.mirrors.any fun m => m.1 == e && (flying m || p.mirrors.any fun n => flying n || decide ((at_ m).toInt < (at_ n).toInt))

/-- The recovery hold keeps engine `e` where it waits or stops; a Hummock of a fenced rank's twin ends its mirror UPDs first (R329, R337). -/
def State.holdsEng (s : State) (e : Nat) : Bool := (s.part (s.partOf e)).hold != .none && !s.owesMirror e

/-- Watch `w` fires: a waiting engine is woken and the watch returns to idle; otherwise it stays fired. In a recovery hold
an engine in SWAIT stays there (R329), and its watch stays fired. -/
def State.fire (s : State) (w : Nat) : State :=
  let x := s.watch w
  let e := x.owner.toNat
  let s1 := s.countPart (s.partOf e) 2 1
  if s.waitsOn w e ∧ !s.holdsEng e then
    (s1.setWatch w { x with st := .idle }).modEng e Engine.resumed
  else s1.setWatch w { x with st := .fired }

/-- The condition of an armed watch holds. -/
def State.watchHolds (s : State) (w : Nat) : Bool :=
  (s.watch w).st == .armed && decide ((s.watch w).thr ≤ (s.sem (s.watch w).sem.toNat).value.toInt)

/-- Test every armed watch that `p` selects, in index order. -/
def State.testWatches (s : State) (p : Nat → Watch → Bool) : State :=
  (s.watches.filter fun kv => p kv.1 kv.2).foldl (fun s kv => if s.watchHolds kv.1 then s.fire kv.1 else s) s

def State.testSem (s : State) (i : Nat) : State := s.testWatches fun _ w => w.sem.toNat == i

/-! ## Trace records (R404, R405) -/

/-- The five stamps of a tagged instruction, each no less than the one before it: an instruction without operands has operand-ready at
its issue, and a Sync or Control instruction its three execute stamps, but for the end of a SWAIT at its wake (R405). The cycles between
them are free values. [DESIGN CHOICE, assumption 24; DESIGN CHOICE, assumption 29] -/
def traceStamps (i : InFlight) (free : Nat) : List Nat :=
  let sync := decide (i.opc.toNat < 0x20)
  let issue := Config.stamp 0 free
  let ready := if i.bare || sync then issue else issue + Config.stamp 1 free
  let start := if sync then issue else ready + Config.stamp 2 free
  let stop := if sync && i.opc != 0x10 then issue else start + Config.stamp 3 free
  [issue, ready, start, stop, stop + Config.stamp 4 free]

/-- The record of Table 16.6. Its cycle stamps, the tick of the fetch before the issue, and the cache miss are free values: the model
keeps no cycles and no instruction cache. [DESIGN CHOICE, assumption 24; DESIGN CHOICE, assumption 29] -/
def traceBytes (e q : Nat) (i : InFlight) (free : Nat) (lost : Bool) : List Byte :=
  a1 e ++ a1 ((if Config.icacheMiss free then 1 else 0) + (if i.rerun then 2 else 0) + (if lost then 4 else 0)) ++ [i.opc] ++ a1 q
    ++ leBytes 3 i.index.toNat ++ a1 0 ++ a2 i.phase.toNat ++ leBytes 6 0 ++ a8 i.step.toNat ++ a8 (i.tick.toNat - Config.fetchLead free)
    ++ (traceStamps i free).flatMap (fun k => leBytes 4 k) ++ leBytes 12 0

/-- One record goes to the trace ring. -/
def State.traceOut (s : State) (e : Nat) (i : InFlight) : State :=
  let (n, s0) := s.takeFree
  let (r, s1) := s0.ringPut s0.obs.rtrace 64 fun lost => [traceBytes e (s.partOf e) i n lost]
  { s1 with obs := { s1.obs with rtrace := r } }

/-- The block is over without a fault: its records go out in retire order (R405). [DEDUCED, assumption 111] -/
def State.traceBlock (s : State) (e : Nat) : State :=
  match (s.eng e).traces with
  | [] => s
  | l => (l.foldl (fun s i => s.traceOut e i) s).modEng e fun x => { x with traces := [] }

/-! ## Lit lanes (R214, R307) -/

/-- The lanes of port `p` that the SHAPE of a running plan names, from START on (R417). [DEDUCED, assumption 98] -/
def State.shapeOf (s : State) (p : Nat) : BitVec 20 × BitVec 20 :=
  (List.range s.partCnt).foldl (fun a q =>
    match (s.part q).plan with
    | some pl =>
      let m := pl.shape.lanes.getD p (0, 0)
      if (s.part q).started then (a.1 ||| m.1, a.2 ||| m.2) else a
    | none => a) (0, 0)

/-- Every colour of a port but inner colour 0 (R214). [DESIGN CHOICE, assumption 117] -/
def openColours (p : Nat) : BitVec 20 := if p < 16 then 0xFFFFE else 0xFFFFF

/-- The lanes of port `p` that an admission under way names at this spare (R214, R332): those of the plan, and, while no image has
come to name the rank's peers, every colour. [DEDUCED, assumption 98; DESIGN CHOICE, assumption 117] -/
def State.spareLanes (s : State) (p : Nat) : BitVec 20 × BitVec 20 :=
  (List.range s.partCnt).foldl (fun a q =>
    if (s.part q).spare.isNone then a
    else match (s.part q).plan with
    | some pl =>
      let m := pl.shape.lanes.getD p (0, 0)
      (a.1 ||| m.1, a.2 ||| m.2)
    | none => (a.1 ||| openColours p, a.2 ||| openColours p)) (0, 0)

/-- A newly lit lane trains; one that nothing names goes dark. -/
def TxLane.relit (l : TxLane) (want keep : Bool) : TxLane :=
  if want then { l with lit := true, st := if l.st = .dark then .training else l.st }
  else { l with lit := false, st := if l.st = .retired ∨ keep then l.st else .dark }

/-- A drop filter goes dark: nothing more is heard on it, and its margin reads none (R245). -/
def RxLane.darkened (l : RxLane) : RxLane := { l with st := .dark, asm := [], restart := none, oma := 0x8000 }

/-- A closed filter stays parked (R242). -/
def RxLane.relit (l : RxLane) (want keep : Bool) : RxLane :=
  if l.st = .closed then { l with open_ := false }
  else if want then { l with open_ := true, st := if l.st = .dark then .training else l.st }
  else if l.st = .retired ∨ keep then { l with open_ := false }
  else { l.darkened with open_ := false }

/-- Light exactly the lanes that running plans and admissions name, and those of port 0 that maintenance keeps (R214, R307, R393).
[DEDUCED, assumption 98] -/
def State.relight (s : State) : State :=
  (List.range 32).foldl (fun s p =>
    let m := s.shapeOf p
    let n := s.spareLanes p
    (List.range 20).foldl (fun s c =>
      let w := m.1.getLsbD c || n.1.getLsbD c
      let r := m.2.getLsbD c || n.2.getLsbD c
      let s1 := if w || (s.tx p c).lit || (s.tx p c).st != .dark then
          s.modTx p c fun l => l.relit w (p == 0 && s.keepsMate ((s.slot + c) % 20)) else s
      if r || (s1.rx p c).open_ || (s1.rx p c).st != .dark then
        s1.modRx p c fun l => l.relit r (p == 0 && s.keepsMate (rxSource s.slot c)) else s1) s) s

/-! ## Stopping (R36, R190, R470) -/

/-- One step's total events of an engine (R470), logged when it issues instruction 0 again or its partition stops. -/
def State.stepEventsOf (s : State) (e : Nat) : State :=
  let x := s.eng e
  let q := s.partOf e
  let step := (x.g.get 0 31).toNat
  let s1 := if x.idxRange = 0 then s else s.log 0x610 q (a1 e ++ a8 step ++ a4 x.idxRange)
  let s2 := if x.satCnt = 0 then s1 else s1.log 0x630 q (a1 e ++ a8 step ++ a4 x.satCnt)
  let s3 := if x.keptCnt = 0 then s2 else s2.log 0x806 q (a8 step ++ a4 x.keptCnt)
  let s4 := if x.dropCnt = 0 then s3 else s3.log 0x820 q (a8 step ++ a4 x.dropCnt)
  s4

/-- They are logged once for the step, though a rerun ends it again (R470). -/
def State.stepEvents (s : State) (e : Nat) : State :=
  let x := s.eng e
  (if x.evStep = some (x.g.get 0 31) then s else s.stepEventsOf e).modEng e fun y =>
    { y with idxRange := 0, satCnt := 0, keptCnt := 0, dropCnt := 0, evStep := some (x.g.get 0 31) }

/-- An engine stops: it issues nothing more and its incomplete instructions are dropped. -/
def Engine.stopped (x : Engine) : Engine :=
  { x with run := if x.run = .retired then .retired else .idle, inflight := [], rinsts := [], mismatches := 0, rerunning := false,
           skipSwaits := 0, ckptBusy := false, hostAttempt := 0, hostPause := false, heldAtZero := false, census := [], traces := [], waitEntry := none }

def State.stopEngs (s : State) (q : Nat) : State :=
  (engsOf s.partCnt q).foldl (fun s e => ((s.stepEvents e).traceBlock e).modEng e Engine.stopped) s

/-- The partition goes idle with its plan loaded, and the lanes that no other running plan names go dark (R307).
[DEDUCED, assumption 65; DEDUCED, assumption 85; DEDUCED, assumption 98] -/
def State.toIdle (s : State) (q : Nat) : State :=
  let s0 := { s with mem := { s.mem with dlow := s.mem.dlow.drop fun i => i == q, plow := s.mem.plow.drop fun i => i == q } }
  (((s0.stopEngs q).modPart q fun p => { p with
    stat := .idle, hold := .none, drain := 0, resumeAt := none, goAt := none, tabAt := none, arrived := false, barStage := 0, barPeerSeq := []
    numDecision := none, norms := [], normAtt := 0, stopNow := false, phase := none, hreadyGot := 0, readyKept := []
    ringAttempt := [], heldAttempt := [], heldGot := [], arrivals := [], fencedRanks := [], pendingTab := [], recov := none, slowRanks := [], windows := [], planAt := [], decidedC := none }).opBoundary 0).relight

/-- The STOPPED notification of Table 17.6. -/
def State.noteStopped (s : State) (q cause : Nat) : State :=
  s.notePart q 0x82 (a1 cause ++ a8 (s.part q).lastCommit.toNat)

/-! ## Semaphore operations (R189, R190) -/

/-- Who signalled (Table 8.1). -/
structure Src where
  ep : Endpoint
  eng : Byte
  rmt : Bool
deriving DecidableEq, Repr

/-- −2^20 to 2^20 (R190). -/
def semRange (v : Int) : Bool := decide (-1048576 ≤ v) && decide (v ≤ 1048576)

/-- Record the operation and its new value (Table 8.1, R189). [DEDUCED, assumption 36] -/
def Sem.applied (x : Sem) (v : Int) (src : Src) (tick : Nat) : Sem :=
  { x with value := BitVec.ofInt 32 v, lastEp := src.ep, lastEng := src.eng, lastRmt := src.rmt,
           lastTick := BitVec.ofNat 22 (tick >>> 4) }

/-- A local engine as signaller. -/
def State.localSrc (s : State) (q e : Nat) : Src := ⟨s.endpointOf q, BitVec.ofNat 8 e, false⟩
/-- The link receive path as signaller (R197, R428). -/
def State.linkSrc (s : State) (q : Nat) : Src := ⟨s.endpointOf q, 0xFE, false⟩

/-! ## Resets of the sync unit (R204) -/

def Sem.toInit (x : Sem) : Sem := { x with value := BitVec.ofInt 32 x.init.toInt }

/-- Every allocated semaphore returns to INIT, and every watch to idle (R204, R424). [DEDUCED, assumption 92] -/
def State.syncInit (s : State) (q : Nat) : State :=
  { s with
    sems := s.sems.mapKV fun i (x : Sem) => if semIn s.partCnt q i && x.alloc then x.toInit else x
    watches := s.watches.mapKV fun i (x : Watch) => if watchIn s.partCnt q i && x.st != WatchSt.unalloc then { x with st := WatchSt.idle } else x }

/-- At a replay of `step` held signals are discarded too, but the host's for the steps that `keeps` says (R204, R440). -/
def State.syncReplay (s : State) (q : Nat) (keeps : Dword → Bool) : State :=
  (s.syncInit q).modPart q fun p => { p with heldQ := [], hsigs := p.hsigs.filter fun h => keeps h.step, qfull := false }

/-- A partition reset or UNLOAD clears entries, watches and held signals (R204); the sync epoch is 0 until the next START sets it.
[DESIGN CHOICE, assumption 115] -/
def State.syncClear (s : State) (q : Nat) : State :=
  let s1 := { s with sems := s.sems.drop (semIn s.partCnt q), watches := s.watches.drop (watchIn s.partCnt q) }
  s1.modPart q fun p => { p with heldQ := [], hsigs := [], qfull := false, heldPeak := 0, epoch := 0 }

/-! ## Unloading (R36, R167, R181, R204) -/

/-- The sync entries are cleared, and the plan is gone. -/
def State.dropPlan (s1 : State) (q : Nat) : State :=
  let s2 := (s1.syncClear q).modPart q fun p => { p with
    plan := none, stat := .idle, hold := .none, drain := 0, carveMib := 0, carveHost := false, peers := [], readyKept := []
    ringAttempt := [], heldAttempt := [], heldGot := [], norms := [], normAtt := 0, arrivals := [], ownSigs := [], phase := none, recov := none
    lastCommit := 0xFFFFFFFFFFFFFFFF, hreadyGot := 0, pendingTab := [], changes := 0, tabAt := none, resumeAt := none, goAt := none, arrived := false
    barStage := 0, barPeerSeq := [], numDecision := none, spare := none, spareFrom := none, fencedRanks := [], slowRanks := [], windows := [], planAt := []
    decidedC := none }
  let s3 := { s2 with host := { s2.host with meas := s2.host.meas.drop fun i => i == 16 + q } }
  ({ s3 with mem := { s3.mem with dlow := s3.mem.dlow.drop fun i => i == q, plow := s3.mem.plow.drop fun i => i == q } }).relight

/-- The carve-out is written back and emptied, new keys are drawn, and the plan is gone. -/
def State.unloadPart (s : State) (q : Nat) : State := (((s.stopEngs q).flushCarve q).drawKey q).dropPlan q

/-! ## Quarantine and self-declaration (R325, R347) -/

/-- Quarantine under a cause of MODCTL_QUAR: 1 to 6 a declaration of Table 13.2, 7 a FENCE of its own rank or STATE = 3 notices. -/
def State.quarantine (s : State) (cause : Nat) : State :=
  let s1 := (List.range s.partCnt).foldl (fun s q => (s.toIdle q).unloadPart q) { s with boot := { s.boot with quar := true } }
  let s2 := { s1 with
    txl := s1.txl.mapKV fun i (l : TxLane) => if i < 20 ∨ l.st = TxSt.retired then l else { l with st := TxSt.dark, lit := false } }
  let s3 := { s2 with
    boot := { s2.boot with quar := true, quarCause := BitVec.ofNat 3 cause, faultN := true }
    host := { s2.host with slowLeaves := false } }
  s3.log 0x920 0 (a1 cause)

/-- Declare this module's rank of partition `q` lost under `cause` (R325, R326): an ADMIT DECLARE to the steward. [DEDUCED, assumption 97] -/
def State.declareSelf (s : State) (cause q : Nat) : State :=
  match (s.part q).plan with
  | none => s
  | some p =>
    if !(s.part q).started then s
    else
      let s1 := match s.otherSteward with
        | some j => s.maintOutOr id (s.maintPacket (s.carrCoord j) 6 (admitHead 0x01 q (jobtagOf p) p.shape.self s.coord ++ a1 cause)) 0
        | none => s
      if p.shape.flags.getLsbD 0 ∧ cause ≠ 5 then
        (s1.log 0x9F1 q (a2 (jobtagOf p).toNat ++ a3 p.shape.self ++ a8 (s.part q).lastCommit.toNat)).noteStopped q 4
      else s1

/-- The module cannot continue: it declares every rank it serves lost under cause 1 and quarantines itself. -/
def State.cannotContinue (s : State) : State :=
  if s.boot.quar then s
  else ((List.range s.partCnt).foldl (fun s q => s.declareSelf 1 q) s).quarantine 1

/-! ## MAINT packets (R259, R260, R350) -/

/-- A MAINT packet's hop; a pair without a route is one that the module cannot continue without (R260, R325). [DEDUCED, assumption 43] -/
def State.maintHop (s : State) (pl ds : Nat) (j : LaneJob) : State := s.maintHopOr State.cannotContinue pl ds j

def State.maintOut (s : State) (k : Packet) (inPlane : Nat) : State := s.maintOutOr State.cannotContinue k inPlane

def State.maint (s : State) (d : BitVec 17) (st : Nat) (body : List Byte) : State :=
  s.maintOut (s.maintPacket d st body) 0

/-- Send an ADMIT packet of one OP to the module at `d`, with the head that Table 13.6 gives each. [DEDUCED, assumption 57] -/
def State.admitSend (s : State) (d : BitVec 17) (op part : Nat) (jobtag : BitVec 16) (rank : Nat) (coord : BitVec 17)
    (body : List Byte) : State :=
  s.maint d 6 (admitHead op part jobtag rank coord ++ body)

/-! ## The limit on retired lanes (R241), and stopping (R190) -/

def Dir.code : Dir → Nat
  | .tx => 0
  | .rx => 1

/-- Lit lanes of one direction in the shapes that run, and those of them that have retired. -/
def State.litLanes (s : State) (d : Dir) : List (Nat × Nat) :=
  (List.range 32).flatMap fun p =>
    let m := s.shapeOf p
    let x := match d with | .tx => m.1 | .rx => m.2
    ((List.range 20).filter fun c => x.getLsbD c).map fun c => (p, c)

def State.retiredLit (s : State) (d : Dir) : Nat :=
  ((s.litLanes d).filter fun x => match d with
    | .tx => (s.tx x.1 x.2).st == .retired
    | .rx => (s.rx x.1 x.2).st == .retired).length

/-- More than ⌊L ÷ 16⌋ of the lit lanes of one direction have retired (R241): event 0x306, and the module cannot continue. -/
def State.laneLimit (s : State) (d : Dir) : State :=
  if (s.litLanes d).length / 16 < s.retiredLit d then
    (s.log 0x306 0 (a1 (Dir.code d) ++ a4 (s.retiredLit d))).cannotContinue
  else s

/-- The limit in both directions, tested wherever the running shapes change. -/
def State.laneLimits (s : State) : State := (s.laneLimit .tx).laneLimit .rx

/-- The partition stops every engine at once and goes idle with its plan loaded (R190). -/
def State.stopPart (s : State) (q cause : Nat) : State := ((s.toIdle q).noteStopped q cause).laneLimits

/-- Add `n` to semaphore `i` of partition `q`, then `test` the watches on it. A result outside ±2^20 is not applied: event 0x710, and
the partition stops (R190). [DEDUCED, assumption 36] -/
def State.semAddWith (s : State) (q i : Nat) (n : Int) (src : Src) (test : State → State) : State :=
  let v := (s.sem i).value.toInt + n
  if semRange v then
    (test (s.setSem i ((s.sem i).applied v src s.now))).countPart q (if src.rmt then 1 else 0) 1
  else
    let s1 := s.log 0x710 q (a2 i ++ w4 (s.sem i).value ++ a3 src.ep.toNat ++ a1 src.eng.toNat)
    (s1.syncBit 0).stopPart q 1

/-- The operation of an instruction, a packet or the host: the watches on the semaphore are tested (R191). -/
def State.semAdd (s : State) (q i : Nat) (n : Int) (src : Src) : State := s.semAddWith q i n src fun s => s.testSem i

/-! ## A hop with its lane (R256, R259, R260) -/

/-- Put a job on its hop to slot `ds` of plane `pl`, under `plan`'s detours (R259, R260). -/
def State.hopOn (s : State) (plan : Option Plan) (q pl ds : Nat) (j : LaneJob) (landing : Bool) : State :=
  match s.pickLane plan pl ds with
  | .direct p => ((s.restriped pl ds).dealt pl ds).viaLane p (txColour s.slot ds) j landing
  | .detour m p => (s.turnedBy pl ds m).viaLane p (txColour s.slot m) { j with pkt := detourOf j.orig pl j.inPlane } false
  | .noRoute => ((s.log 0x421 q (a1 pl ++ a1 ds)).routeBit 6).cannotContinue

/-- Send packet `k` on its next hop; `inPlane` is the plane it arrived on (0 at its source) and `slot` the receive slot it occupies. -/
def State.hop (s : State) (plan : Option Plan) (q : Nat) (k : Packet) (inPlane : Nat) (slot : Option (Nat × Nat × Packet)) : State :=
  match s.nextHop k.dcoord k.dirs with
  | none => { s with router := { s.router with maintRx := s.router.maintRx ++ [k] } }
  | some (pl, ds) =>
    s.hopOn plan q pl ds { orig := k, inPlane := inPlane, pkt := s.stampHop k pl inPlane, slot := slot } (s.landing pl ds == k.dcoord)

/-- Send packet `k` of partition `q` on its next hop. -/
def State.sendHop (s : State) (q : Nat) (k : Packet) (inPlane : Nat) : State := s.hop (s.part q).plan q k inPlane none

/-! ## Injection (R193, R195, R253, R267) -/

/-- Serial-number order: a is not later than b (R193). -/
def serialLe (a b : BitVec 16) : Bool := decide ((b - a).toNat < 32768)

/-- The rank that `dest` names holds a place in partition `q`'s table (R253). -/
def State.destOk (s : State) (q : Nat) (dest : Endpoint) : Bool :=
  decide (epRank dest < 65536) && (s.rankEnt q (epRank dest)).valid

/-- Event 0x410 for an injection; it has no port, so the port item reads 0xFF. [DEDUCED, assumption 86] -/
def State.badRank (s : State) (q : Nat) (rank port : Nat) : State := (s.log 0x410 q (a3 rank ++ a1 q ++ a1 port)).routeBit 0

def State.peer (s : State) (q : Nat) (ep : Endpoint) : Peer := (s.part q).peers.get {} ep.toNat
def State.setPeer (s : State) (q : Nat) (ep : Endpoint) (x : Peer) : State :=
  s.modPart q fun p => { p with peers := p.peers.set ep.toNat x }

/-- The PACK field toward a peer: the watermark, and 0 while nothing of the peer has been committed (R195, R264, R267). [DEDUCED, assumption 41] -/
def Peer.pack (x : Peer) : BitVec 16 := if x.rxAny then x.rxMark else 0

/-- A packet of partition `q` to `dest`, resolved through its rank table and stamped with generation, job tag and the
watermark for the return traffic (R253, R267). [DEDUCED, assumption 41] -/
def State.packetTo (s : State) (q : Nat) (dest : Endpoint) (typ vc : Nat) (addr : Nat) (wfmt : Nat) (body : List Byte) : Packet :=
  let d := (s.rankEnt q (epRank dest)).coord
  { blankPacket with
    typ := BitVec.ofNat 4 typ, vc := BitVec.ofNat 3 vc, packv := (s.peer q dest).rxAny, dest := dest, src := s.endpointOf q, dcoord := d
    dirs := s.dirsTo (s.part q).plan d, gen := (s.rankEnt q (s.rankOf q)).gen, pack := (s.peer q dest).pack
    len := BitVec.ofNat 13 body.length, wfmt := BitVec.ofNat 3 wfmt, addr := BitVec.ofNat 48 addr, jobtag := s.jobtag q, payload := body }

/-- Packets beyond the last watermark received (R195). -/
def Peer.outstanding (x : Peer) : Nat := (x.txNext - x.txAcked - 1).toNat

/-- Number and send one packet to its peer. [DEDUCED, assumption 41] -/
def State.injectNow (s : State) (q : Nat) (k : Packet) : State :=
  let x := s.peer q k.dest
  let s1 := s.setPeer q k.dest { x with txNext := x.txNext + 1, txLast := if k.typ = 3 then x.txLast else x.txNext, ackDirty := false }
  let s2 := if k.typ = 2 then s1.modPart q fun p => { p with ownSigs := p.ownSigs ++ [(k.dest, x.txNext)] } else s1
  s2.sendHop q { k with pseq := x.txNext, packv := x.rxAny, pack := x.pack } 0

/-- Send waiting packets of one peer while its window of 8,192 has room. -/
def State.injectWaiting (s : State) (q : Nat) (ep : Endpoint) : Nat → State
  | 0 => s
  | n + 1 =>
    match (s.peer q ep).txWait with
    | [] => s
    | k :: r =>
      if (s.peer q ep).outstanding < 8192 then
        ((s.setPeer q ep { s.peer q ep with txWait := r }).injectNow q k).injectWaiting q ep n
      else s

/-- Inject a unicast packet that takes a per-peer number, or let it wait for the window. [DEDUCED, assumption 41] -/
def State.inject (s : State) (q : Nat) (k : Packet) : State :=
  let x := s.peer q k.dest
  if x.txWait.isEmpty ∧ x.outstanding < 8192 then s.injectNow q k
  else s.setPeer q k.dest { x with txWait := x.txWait ++ [k] }

/-- Inject a packet that takes no number, RING or MCAST traffic (R193); it carries the watermark as any packet does (R267).
[DEDUCED, assumption 41] -/
def State.injectRing (s : State) (q : Nat) (k : Packet) : State :=
  let x := s.peer q k.dest
  (if x.ackDirty && k.packv && k.typ != 1 then s.setPeer q k.dest { x with ackDirty := false } else s).sendHop q k 0

/-- Every packet but a PACK that has been sent to the peer has come back in its watermark (R193, R195). -/
def Peer.settled (x : Peer) : Bool := x.txWait.isEmpty && serialLe x.txLast x.txAcked

/-- Some packet of the partition still waits for a window. -/
def Partn.injecting (p : Partn) : Bool := p.peers.any fun kv => !kv.2.txWait.isEmpty

/-! ## Proposals (R426) -/

/-- A new proposal with its deadline in ticks from now (R426). -/
def State.propose (s : State) (what : Proposal) (ticks : Nat) : Word × State :=
  let d : Decision := { ident := s.host.nextDecision, what := what, deadline := s.clk.tick + BitVec.ofNat 64 ticks }
  (d.ident, { s with host := { s.host with decisions := s.host.decisions ++ [d], nextDecision := s.host.nextDecision + 1 } })

/-- The payload of PROPOSE (Table 17.6). -/
def State.proposal (s : State) (ident : Word) (fn ticks : Nat) (details : List Byte) : List Byte :=
  w4 ident ++ a1 fn ++ a8 (s.now + ticks) ++ details

end Sys2Proof.Machine
end

