-- ==== Sys2Proof/Machine/Ecc.lean ====
section
/-!
DEFINITION. Machine/Ecc.lean: memory errors (R175-R179, R182): what a corrected error, an uncorrectable one and an access
outside a partition's ranges leave behind.
-/

namespace Sys2Proof.Machine

def State.modMem (s : State) (f : MemSt → MemSt) : State := { s with mem := f s.mem }

/-- MEM_ERRADDR: address, kind and partition of the last error (R185). -/
def State.errAt (s : State) (kind a q : Nat) : State :=
  s.modMem fun m => { m with errAddr := BitVec.ofNat 48 a, errKind := BitVec.ofNat 4 kind, errPart := BitVec.ofNat 2 q }

/-- The partition whose range holds `a`; 0 in a reserve. -/
def State.holder (s : State) (a : Nat) : Nat := (ownerOf s.partCnt a).getD 0

/-- An uncorrectable error or a read of poison (R178): poison, event 0x530 or 0x531, counts and the error address. `src` holds the source
of R182 for a host's read. -/
def State.poisonRead (s : State) (q g : Nat) (src : List Byte) : State :=
  let d := isDram g
  let s1 := (((s.addPoison g).log (if d then 0x530 else 0x531) q (a6 g ++ a1 q ++ src)).eccBit (if d then 2 else 3)).errAt (if d then 2 else 4) g q
  s1.modMem fun m => if d then { m with ueDram := satInc m.ueDram 1 } else { m with uePeat := satInc m.uePeat 1 }

/-- A read meets the poisoned granule `g`: it is counted and told (R177, R178). [DEDUCED, assumption 75] -/
def State.uncorrectable (s : State) (q g : Nat) : State := s.poisonRead q g []

/-- Firmware reads bytes of partition `q` to pass them on: a poisoned granule is read again, and the module cannot continue where that
reads poison too (R178). [DESIGN CHOICE, assumption 21] -/
def State.onward (s : State) (q : Nat) (l : List (Nat × Nat)) : Nat → Bool × State
  | 0 => (true, s)
  | n + 1 =>
    match l.findSome? fun x => s.poisonIn x.1 x.2 with
    | none => (true, l.foldl (fun s x => s.touchRead q 0 x.1 x.2) s)
    | some g =>
      let s1 := (s.uncorrectable q g).takeFree.2
      if Config.rereadClean (g + s.free) then (s1.clearPoison g).onward q l n else (false, s1.cannotContinue)

/-- A read of runs of memory whose bytes firmware passes on: whether it came clean, and the state after (R178). [DESIGN CHOICE, assumption 21] -/
def State.readOnward (s : State) (q : Nat) (l : List (Nat × Nat)) : Bool × State := s.onward q l (s.mem.poison.length + 1)

/-- An access outside its partition is stopped (R182). [DEDUCED, assumption 75] -/
def State.fenceEvent (s : State) (q a src : Nat) : State :=
  (((s.log 0x550 q (a6 a ++ a1 q ++ a1 src)).eccBit 10).errAt 5 a q)

/-! ## The fault ladder (Table 7.4) -/

def dayTicks : Nat := 86400 * ticksPerSec
def reservePages : Nat := 131072

/-- Pages not yet taken from the retirement reserve. -/
def MemSt.pagesLeft (m : MemSt) : Nat := reservePages - m.pages.length

/-- Reserve pages promised to copies under way count as taken when the next one is chosen. -/
def MemSt.nextPage (m : MemSt) : Nat := m.pages.length + m.copies.length

/-- The grains of the row that holds grain address `a` (R169, R170). -/
def rowGrains (a : Nat) : List Nat :=
  let off := grainOffset a
  (List.range 4).map fun c =>
    let o := off / 4 * 4 + c
    let low := (pseudoChannel a) ^^^ (fld o 0 9) ^^^ (fld o 9 9) ^^^ (fld o 18 4)
    (o * 2 ^ 9 + low) * 256

/-- The pages that hold a grain of the row and are neither retired nor being copied. -/
def State.rowPages (s : State) (a : Nat) : List Nat :=
  (((rowGrains a).map fun g => g / 65536).eraseDups).filter fun p =>
    !(s.mem.pages.any fun x => x.1 == p) && !(s.mem.copies.any fun x => x.item == p)

/-- Begin retiring a page (R179); with no reserve page left the module cannot continue. -/
def State.retirePage (s : State) (q a : Nat) (p : Nat) : State :=
  if s.mem.nextPage < reservePages then
    s.modMem fun m => { m with copies := m.copies ++ [⟨true, p, m.nextPage⟩] }
  else (((s.log 0x513 q (a6 a)).eccBit 7)).cannotContinue

/-- A permanent DRAM error: spare its row, or retire the row's pages. [DEDUCED, assumption 75] -/
def State.dramPermanent (s : State) (q a : Nat) : State :=
  let key := pseudoChannel a * 16 + dramBank a
  if s.mem.rows.get 0 key < 4 then
    let s1 := (s.log 0x510 q (a4 (dramStack a) ++ a4 (dramChannel a) ++ a4 (dramBank a) ++ a4 (dramRow a))).eccBit 4
    s1.modMem fun m => { m with
      rows := m.rows.set key (m.rows.get 0 key + 1), stackRows := m.stackRows.set (dramStack a) (m.stackRows.get 0 (dramStack a) + 1) }
  else (s.rowPages a).foldl (fun s p => s.retirePage q a p) s

/-- The same grain or line corrected at the same place within 24 h (R177). [DEDUCED, assumption 75] -/
def State.seenBefore (s : State) (g bit : Nat) : Bool :=
  s.mem.ceSeen.any fun x => x.1 == g && x.2.1 == bit && decide (s.now ≤ x.2.2 + dayTicks)

def State.noteSeen (s : State) (g bit : Nat) : State :=
  s.modMem fun m => { m with ceSeen := (g, bit, s.now) :: m.ceSeen.filter fun x => !(x.1 == g && x.2.1 == bit) }

/-- At most one event per second since the tick noted. [DEDUCED, assumption 8] -/
def State.dueEvent (s : State) (last : Option Nat) : Bool :=
  match last with
  | some t => decide (t + ticksPerSec ≤ s.now)
  | none => true

/-- A corrected DRAM error at grain `g`, symbol `bit`. -/
def State.dramCorrected (s : State) (g bit : Nat) : State :=
  let q := s.holder g
  let k := dramStack g
  let s1 := ((s.modMem fun m => { m with dce := satInc m.dce 1 }).bump 278 1 |>.eccBit 0).errAt 1 g q
  let s2 := if s.dueEvent (s.mem.dceTick.find k) then
      (s1.log 0x501 q (a4 k ++ a6 g ++ a4 bit)).modMem fun m => { m with dceTick := m.dceTick.set k s.now }
    else s1
  if s.seenBefore g bit then s2.dramPermanent q g else s2.noteSeen g bit

/-- A corrected Peat error at line `g`, bit `bit`. -/
def State.peatCorrected (s : State) (g bit : Nat) : State :=
  let q := s.holder g
  let b := peatBank g
  let s1 := ((s.modMem fun m => { m with pce := satInc m.pce 1 }).bump 279 1 |>.eccBit 1).errAt 3 g q
  let s2 := if s.dueEvent s.mem.pceTick then
      (s1.log 0x502 q (a6 g ++ a4 bit)).modMem fun m => { m with pceTick := some s.now }
    else s1
  if s.seenBefore g bit then
    if s2.mem.spareLines.get 0 b < 64 then
      ((s2.log 0x520 q (a4 b ++ a4 (peatLine g))).eccBit 8).modMem fun m => { m with spareLines := m.spareLines.set b (m.spareLines.get 0 b + 1) }
    else ((s2.log 0x521 q (a4 b)).eccBit 9).cannotContinue
  else s2.noteSeen g bit

/-- What a scrubber meets at one word (R176-R178). -/
def State.scrubHit (s : State) (h : ScrubHit) : State :=
  let g := granule h.addr.toNat
  if h.uncorrectable then s.uncorrectable (s.holder g) g
  else if isDram g then s.dramCorrected g h.bit.toNat
  else s.peatCorrected g h.bit.toNat

/-- The DRAM patrol scrubber's pass: it meets DRAM words only (R176). [DEDUCED, assumption 75] -/
def execDramScrubPass (hits : List ScrubHit) (s : State) : Out :=
  .next ((hits.filter fun h => isDram h.addr.toNat).foldl State.scrubHit s)

/-- The Peat scrubber's pass (R176). [DEDUCED, assumption 75] -/
def execPeatScrubPass (hits : List ScrubHit) (s : State) : Out :=
  .next ((hits.filter fun h => isPeat h.addr.toNat).foldl State.scrubHit s)

/-- The oldest page copy ends (R179): the remap takes effect, event 0x511, and 0x512 once at 10 %. -/
def State.copyDone (s : State) : State :=
  match s.mem.copies with
  | [] => s
  | c :: r =>
    let q := s.holder (c.item * 65536)
    let s1 := s.modMem fun m => { m with copies := r, pages := m.pages ++ [(c.item, c.reserve)] }
    let s2 := (s1.log 0x511 q (a4 c.item ++ a4 c.reserve)).eccBit 5
    if s2.mem.pagesLeft ≤ 13107 ∧ !s2.mem.reserveLow then
      ((s2.log 0x512 q (a4 s2.mem.pagesLeft)).eccBit 6).modMem fun m => { m with reserveLow := true }
    else s2

/-- PAGE_RETIRE_COPY_DONE (R179). -/
def execPageRetireCopyDone (s : State) : Out := .next s.copyDone

end Sys2Proof.Machine
end

