-- ==== Sys2Proof/Machine/Operands.lean ====
section
/-!
DEFINITION. Machine/Operands.lean: every operand form of the engine instructions: registers (R47-R49), address
descriptors (R50, R51), tensor descriptors (R52, R54), reading and writing their elements, and recipes (R107-R111).
-/

namespace Sys2Proof.Machine

/-! ## Registers (R48, R49) -/

/-- Register k reads the iteration of the active loop that names it, and 0 when none does (R49). -/
def Engine.kVal (x : Engine) (k : Nat) : Nat :=
  match x.loops.find? fun l => l.k.toNat == k with
  | some l => l.iter.toNat
  | none => 0

/-- g0 reads as 0 (R48). -/
def Engine.gVal (x : Engine) (i : Nat) : Dword := if i = 0 then 0 else x.g.get 0 i
def Engine.aVal (x : Engine) (i : Nat) : BitVec 256 := x.a.get 0 i
def Engine.tVal (x : Engine) (i : Nat) : BitVec 256 := x.t.get 0 i
/-- The engine's step number (Table 3.3). -/
def Engine.step (x : Engine) : Dword := x.gVal 31

/-! ## Address descriptors (R50) -/

/-- Bytes [byte + n − 1 : byte] of a descriptor. -/
def dF (d : BitVec 256) (byte n : Nat) : Nat := fld d.toNat (8 * byte) (8 * n)

/-- A K byte's term. -/
def Engine.term (x : Engine) (k : Nat) (stride : Int) : Int := if k = 0xFF then 0 else (x.kVal (k % 8) : Int) * stride

/-- term0, under WRAP0 when that is 2-255. -/
def Engine.term0 (x : Engine) (k wrap : Nat) (stride : Int) : Int :=
  if k = 0xFF then 0
  else if 2 ≤ wrap then ((x.kVal (k % 8) % wrap : Nat) : Int) * stride
  else (x.kVal (k % 8) : Int) * stride

/-- The effective address, in signed 64-bit arithmetic. -/
def Engine.ea (x : Engine) (d : BitVec 256) : Nat :=
  unsgn 64 ((dF d 0 6 : Nat) + x.term0 (dF d 20 1) (dF d 7 1) (sgn 32 (dF d 8 4))
    + x.term (dF d 21 1) (sgn 32 (dF d 12 4)) + x.term (dF d 22 1) (sgn 32 (dF d 16 4)))

def descHint (d : BitVec 256) : BitVec 2 := BitVec.ofNat 2 (dF d 6 1)
def descHost (d : BitVec 256) : Bool := bitAt (dF d 6 1) 2

/-! ## Tensor descriptors (R52, R54) -/

/-- Resolve the tensor descriptor `d` at issue. -/
def Engine.resolve (x : Engine) (d : BitVec 256) : Tens :=
  let a := x.aVal (dF d 16 1 % 16)
  let sa := dF d 17 1
  { dim0 := dF d 0 2, dim1 := dF d 2 2, dim2 := dF d 4 2, fmt := BitVec.ofNat 8 (dF d 6 1), blkax := dF d 7 1 == 1
    pitch1 := dF d 8 4, pitch2 := dF d 12 4, ea := x.ea a, hint := descHint a, host := descHost a
    sea := if sa = 0xFF then none else some (x.ea (x.aVal (sa % 16)))
    shint := if sa = 0xFF then 0 else descHint (x.aVal (sa % 16))
    recipe := BitVec.ofNat 8 (dF d 18 1), tid := BitVec.ofNat 16 (dF d 20 2) }

/-- The tensor that a specifier names. -/
def Engine.tens (x : Engine) (spec : Byte) : Tens := x.resolve (x.tVal (specIdx spec % 16))

def Tens.code (t : Tens) : Nat := t.fmt.toNat
def Tens.count (t : Tens) : Nat := t.dim0 * t.dim1 * t.dim2
def Tens.rowBytes (t : Tens) : Nat := (t.dim0 * fmtBits t.code + 7) / 8
def Tens.rowAddr (t : Tens) (p r : Nat) : Nat := t.ea + p * t.pitch2 + r * t.pitch1

/-- (plane, row) pairs in linear order. -/
def Tens.rows (t : Tens) : List (Nat × Nat) :=
  (List.range t.dim2).flatMap fun p => (List.range t.dim1).map fun r => (p, r)

/-- The address of the scale or exponent entry of element (p, r, c) (R54). -/
def Tens.entAddr (t : Tens) (sea p r c : Nat) : Nat :=
  let e := entBytes t.code
  let b := blkBytes t.code
  if t.blkax then sea + (p * t.pitch2 / b + r / 32 * t.dim0) * e + c * e
  else sea + (p * t.pitch2 + r * t.pitch1) * e / b + c / blkLen t.code * e

/-- The byte runs that hold the scale or exponent entries. -/
def Tens.entRuns (t : Tens) : List (Nat × Nat) :=
  match t.sea with
  | none => []
  | some sea =>
    let e := entBytes t.code
    if e = 0 then []
    else if t.blkax then
      (List.range t.dim2).flatMap fun p => (List.range ((t.dim1 + 31) / 32)).map fun b => (t.entAddr sea p (32 * b) 0, t.dim0 * e)
    else t.rows.map fun pr => (t.entAddr sea pr.1 pr.2 0, (t.dim0 + blkLen t.code - 1) / blkLen t.code * e)

/-- Every byte run the tensor occupies, elements first. -/
def Tens.runs (t : Tens) : List (Nat × Nat) := (t.rows.map fun pr => (t.rowAddr pr.1 pr.2, t.rowBytes)) ++ t.entRuns

/-! ## Ranges (R79, R83 cause 3) -/

/-- [a, a + n) lies wholly inside one MEMMAP region of the plan. -/
def Plan.holds (p : Plan) (a n : Nat) : Bool :=
  p.regions.any fun r => decide (r.base ≤ a) && decide (a + n ≤ r.base + r.len)

/-- A host-space tensor has no module range; any other lies inside the plan's regions. -/
def Plan.tensOk (p : Plan) (t : Tens) : Bool := t.host || t.runs.all fun ab => p.holds ab.1 ab.2

/-! ## What an engine reads (R56) -/

/-- The newest pending write of the engine that covers address `a`. [DEDUCED, assumption 6] -/
def pendingByte (pend : List WriteRun) (host : Bool) (a : Nat) : Option Byte :=
  pend.foldl (fun o w =>
    if w.host == host && decide (w.addr ≤ a) && decide (a < w.addr + w.data.length) then some (w.data.getD (a - w.addr) 0)
    else o) none

def Engine.pend (x : Engine) : List WriteRun := x.inflight.flatMap fun i => i.writes

/-- The byte that engine `e` of partition `q` sees at `a`. [DEDUCED, assumption 6] -/
def State.seen (s : State) (q e : Nat) (host : Bool) (a : Nat) : Byte :=
  match pendingByte (s.eng e).pend host a with
  | some b => b
  | none => if host then Config.hostByte s.free q a else s.readByte a

def seenNat (rd : Nat → Byte) (a n : Nat) : Nat := leNat ((List.range n).map fun i => rd (a + i))

/-- The bits of element (p, r, c) (R52). -/
def Tens.bits (t : Tens) (rd : Nat → Byte) (p r c : Nat) : Nat :=
  let n := fmtBits t.code
  if n = 4 then
    let b := (rd (t.rowAddr p r + c / 2)).toNat
    if c % 2 = 0 then b % 16 else b / 16
  else seenNat rd (t.rowAddr p r + c * (n / 8)) (n / 8)

/-- The scale or exponent entry of element (p, r, c). -/
def Tens.ent (t : Tens) (rd : Nat → Byte) (p r c : Nat) : Nat :=
  match t.sea with
  | none => 0
  | some sea => seenNat rd (t.entAddr sea p r c) (entBytes t.code)

def Tens.val (t : Tens) (rd : Nat → Byte) (p r c : Nat) : Val := eltScaled t.code (t.bits rd p r c) (t.ent rd p r c)

def Tens.row (t : Tens) (rd : Nat → Byte) (p r : Nat) : List Val := (List.range t.dim0).map fun c => t.val rd p r c
def Tens.rowBits (t : Tens) (rd : Nat → Byte) (p r : Nat) : List Nat := (List.range t.dim0).map fun c => t.bits rd p r c
def Tens.allRows (t : Tens) (rd : Nat → Byte) : List (List Val) := t.rows.map fun pr => t.row rd pr.1 pr.2
def Tens.all (t : Tens) (rd : Nat → Byte) : List Val := (t.allRows rd).flatten

/-- A pending write of the engine covers the granule whole: once visible it clears the poison (R56, R178). -/
def Engine.covers (x : Engine) (g : Nat) : Bool :=
  x.pend.any fun w => !w.host && decide (w.addr ≤ g) && decide (g + granLen g ≤ w.addr + w.data.length)

/-- The first poisoned grain or line that engine `e` meets in [a, a + n). -/
def State.poisonFor (s : State) (e a n : Nat) : Option Nat :=
  s.mem.poison.find? fun g => decide (g < a + n) && decide (a < g + granLen g) && !(s.eng e).covers g

/-- The first poisoned grain or line that engine `e`'s read of the tensor meets (R178). -/
def State.poisonOf (s : State) (e : Nat) (t : Tens) : Option Nat :=
  if t.host then none else t.runs.findSome? fun ab => s.poisonFor e ab.1 ab.2

/-! ## What an engine writes -/

/-- Pack element bits into bytes; two 4-bit elements share a byte, and an odd last one keeps the other half (`old`). -/
def packBits (n : Nat) (old : Byte) : List Nat → List Byte
  | [] => []
  | a :: r =>
    if n = 4 then
      match r with
      | [] => [BitVec.ofNat 8 (a % 16 + old.toNat / 16 * 16)]
      | b :: r' => BitVec.ofNat 8 (a % 16 + b % 16 * 16) :: packBits n old r'
    else leBytes (n / 8) a ++ packBits n old r

def Tens.rowRun (t : Tens) (rd : Nat → Byte) (p r : Nat) (es : List Nat) : WriteRun :=
  let a := t.rowAddr p r
  ⟨a, t.hint, t.host, packBits (fmtBits t.code) (rd (a + t.rowBytes - 1)) es⟩

/-- Cut a list into pieces of `n`, with `fuel` pieces at most. -/
def cut {α : Type} (n : Nat) : Nat → List α → List (List α)
  | 0, _ => []
  | f + 1, l => if l.isEmpty then [] else l.take n :: cut n f (l.drop n)

/-- The writes of an instruction and the class of every element it converted (R113). -/
structure Emit where
  runs : List WriteRun := []
  cls : List Cls := []

def entRun (t : Tens) (a : Nat) (xs : List Nat) : WriteRun := ⟨a, t.shint, t.host, xs.map fun x => BitVec.ofNat 8 x⟩

/-- One row into an MX format with blocks along DIM0. -/
def Tens.emitMx0 (t : Tens) (rd : Nat → Byte) (sofs : Int) (p r : Nat) (vs : List Val) : Emit :=
  let bl := (cut 32 vs.length vs).map fun b => mxBlock t.code sofs b
  let es := bl.flatMap fun b => b.2
  { runs := [t.rowRun rd p r (es.map fun x => x.1)] ++
      (match t.sea with | some sea => [entRun t (t.entAddr sea p r 0) (bl.map fun b => b.1)] | none => [])
    cls := es.map fun x => x.2 }

/-- One plane into an MX format with blocks along DIM1. -/
def Tens.emitMx1 (t : Tens) (rd : Nat → Byte) (sofs : Int) (p : Nat) (rows : List (List Val)) : Emit :=
  let nb := (t.dim1 + 31) / 32
  let blocks := (List.range nb).map fun b => (List.range t.dim0).map fun c =>
    mxBlock t.code sofs (((rows.drop (32 * b)).take 32).map fun row => row.getD c .zero)
  let elt (r c : Nat) : Nat × Cls := (((blocks.getD (r / 32) []).getD c (0, [])).2).getD (r % 32) (0, .plain)
  let es := (List.range t.dim1).map fun r => (List.range t.dim0).map fun c => elt r c
  { runs := (es.mapIdx fun r row => t.rowRun rd p r (row.map fun x => x.1)) ++
      (match t.sea with
       | some sea => blocks.mapIdx fun b bs => entRun t (t.entAddr sea p (32 * b) 0) (bs.map fun x => x.1)
       | none => [])
    cls := es.flatten.map fun x => x.2 }

/-- One row into a format without a shared scale. -/
def Tens.emitRow (t : Tens) (rd : Nat → Byte) (p r : Nat) (vs : List Val) : Emit :=
  let es := vs.map fun v => convElt t.code v
  { runs := [t.rowRun rd p r (es.map fun x => x.1)], cls := es.map fun x => x.2 }

def Emit.join (l : List Emit) : Emit := ⟨l.flatMap fun e => e.runs, l.flatMap fun e => e.cls⟩

/-- Convert rows of values, in linear order, into the tensor (R91-R97). -/
def Tens.emit (t : Tens) (rd : Nat → Byte) (sofs : Int) (rows : List (List Val)) : Emit :=
  if isMx t.code then
    if t.blkax then Emit.join ((cut t.dim1 t.dim2 rows).mapIdx fun p rs => t.emitMx1 rd sofs p rs)
    else Emit.join ((t.rows.zip rows).map fun x => t.emitMx0 rd sofs x.1.1 x.1.2 x.2)
  else Emit.join ((t.rows.zip rows).map fun x => t.emitRow rd x.1.1 x.1.2 x.2)

/-- Write bits unconverted: rows of element bits, and the entry bytes of a same-format source when it has them. -/
def Tens.emitBits (t : Tens) (rd : Nat → Byte) (rows : List (List Nat)) : List WriteRun :=
  (t.rows.zip rows).map fun x => t.rowRun rd x.1.1 x.1.2 x.2

/-! ## Recipes (R94, R107-R111) -/

/-- The scale offset that a destination's recipe gives (R94 step 3). -/
def Plan.sofs (p : Plan) (recipe : Byte) (fmt : Nat) : Int :=
  let r := recipe.toNat
  if r = 0xFF ∨ r = 9 then stdSofs fmt
  else if r < 0x10 then (if p.preset = 2 ∧ fmt ≠ 7 then stdSofs fmt + 1 else stdSofs fmt)
  else match p.recipes[r - 0x10]? with
    | some e => e.sofs
    | none => stdSofs fmt

/-- The arrival format of a kind 8 recipe (R108, R109, R269); 0x05 where the bytes travel as they are. -/
def Plan.arrival (p : Plan) (recipe : Byte) : Nat :=
  let r := recipe.toNat
  if r = 8 then 2
  else if 0x10 ≤ r then
    match p.recipes[r - 0x10]? with
    | some e => if e.kind = 8 then e.aux.toNat else 5
    | none => 5
  else 5

end Sys2Proof.Machine
end

