-- ==== Sys2Proof/Machine/Legal.lean ====
section
/-!
DEFINITION. Machine/Legal.lean: which descriptors, shapes and formats an instruction admits (R50-R54, R66-R76, R93, R114,
R116, R126, R133, R139, R143, R145, R146, R148, R154, R279, R292). The loader refuses every stream that breaks them (R79); an
issue that breaks them is an illegal form.
-/

namespace Sys2Proof.Machine

/-! ## Address descriptors (R50, R51) -/

def kByteOk (k : Nat) : Bool := decide (k ≤ 7) || k == 0xFF

/-- The layout of Table 3.4. -/
def descOk (clv : Bool) (d : BitVec 256) : Bool :=
  let h := dF d 6 1
  decide (h % 4 ≤ 2) && decide (h < 8) && (clv || !bitAt h 2) && dF d 7 1 != 1
    && kByteOk (dF d 20 1) && kByteOk (dF d 21 1) && kByteOk (dF d 22 1) && dF d 23 9 == 0

/-- A descriptor that places elements keeps BASE and every stride at a multiple of 32 bytes. -/
def descElem (clv : Bool) (d : BitVec 256) : Bool :=
  descOk clv d && dF d 0 6 % 32 == 0 && dF d 8 4 % 32 == 0 && dF d 12 4 % 32 == 0 && dF d 16 4 % 32 == 0

/-! ## Tensor descriptors (R52-R54) -/

/-- The layout of Table 3.5; `bits` is the size of the elements that the memory holds (40 for the AF40 words behind an RRING
source), `b` the block bytes of R54; `write` and `ws` say whether the elements and the entries are written. -/
def tensLayout (x : Engine) (clv write ws : Bool) (d : BitVec 256) (bits b : Nat) : Bool :=
  let f := dF d 6 1
  let sa := dF d 17 1
  let needs := isMx f || isRfx f
  let e := x.aVal (dF d 16 1 % 16)
  let se := x.aVal (sa % 16)
  decide (1 ≤ dF d 0 2) && decide (1 ≤ dF d 2 2) && decide (1 ≤ dF d 4 2) && fmtListed f && decide (dF d 7 1 ≤ 1)
    && dF d 8 4 % 32 == 0 && dF d 12 4 % 32 == 0 && decide (dF d 0 2 * bits ≤ 8 * dF d 8 4)
    && decide (dF d 16 1 ≤ 15) && (if needs then decide (sa ≤ 15) else decide (sa ≤ 15) || sa == 0xFF)
    && dF d 19 1 == 0 && dF d 22 10 == 0
    && descElem clv e && !(write && descHint e == 2)
    && (!needs || (descOk clv se && !(ws && descHint se == 2) && dF d 8 4 % b == 0 && dF d 12 4 % b == 0
        && (if dF d 7 1 = 1 then dF d 2 2 % blkLen f == 0 else dF d 0 2 % blkLen f == 0)))
    && !(isRfx f && dF d 7 1 == 1)

/-- The tensor that `spec` names is laid out as Table 3.5 asks. -/
def Engine.tensLegal (x : Engine) (clv write : Bool) (spec : Byte) : Bool :=
  let d := x.tVal (specIdx spec % 16)
  let f := dF d 6 1
  tensLayout x clv write write d (fmtBits f) (blkBytes f)

/-- A source or destination in a format that is not a stored 4-bit weight and not RFX. -/
def plainFmt (f : Nat) : Bool := !isFour f && !isRfx f

/-- Legal as a source. -/
def Engine.src (x : Engine) (clv : Bool) (spec : Byte) : Bool := x.tensLegal clv false spec
/-- Legal as a destination. -/
def Engine.dst (x : Engine) (clv : Bool) (spec : Byte) : Bool := x.tensLegal clv true spec

def Tens.sameDims (a b : Tens) : Bool := a.dim0 == b.dim0 && a.dim1 == b.dim1 && a.dim2 == b.dim2
def Tens.transDims (a b : Tens) : Bool := a.dim0 == b.dim1 && a.dim1 == b.dim0 && a.dim2 == b.dim2
/-- Formats that may be transposed: 8 or 16 bits without a shared scale (R66). -/
def transFmt (f : Nat) : Bool := !isMx f && !isRfx f && (fmtBits f == 8 || fmtBits f == 16)

/-- MOVE and VCVT (R66, R93). -/
def moveFits (clv : Bool) (f : Fields) (x : Engine) : Bool :=
  let s := x.tens f.s1
  let d := x.tens f.d
  x.src clv f.s1 && x.dst clv f.d && convDefined s.code d.code
    && (if f.mod.getLsbD 0 then transFmt s.code && transFmt d.code && s.transDims d else s.sameDims d)

/-- GATHER and SCATTER (R67). A SCATTER that adds converts its sums, and nothing but RRING converts into RFX (R93). -/
def rowsFit (f : Fields) (x : Engine) (scatter : Bool) : Bool :=
  let s := x.tens f.s1
  let d := x.tens f.d
  let i := x.tens f.s2
  x.src true f.s1 && x.dst true f.d && x.src true f.s2 && i.code == 0x0D && s.dim0 == d.dim0
    && i.dim1 == (if scatter then s.dim1 else d.dim1) && !isFour s.code && !isFour d.code && convDefined s.code d.code
    && !(scatter && f.mod.getLsbD 0 && isRfx d.code)

/-- PUT (R68, R269). -/
def putFits (f : Fields) (x : Engine) : Bool := x.src true f.s1 && !isFour (x.tens f.s1).code && descOk true (x.aVal (specIdx f.d % 16)) && descHint (x.aVal (specIdx f.d % 16)) != 2

/-- DISPATCH (R69, R146, R147). -/
def dispatchFits (f : Fields) (x : Engine) : Bool :=
  let s := x.tens f.s1
  let d := x.tens f.d
  let r := x.tens f.s2
  let m := x.tens f.s3
  let n := if f.mod.getLsbD 0 then 2 else 1
  x.src true f.s1 && x.dst true f.d && x.src true f.s2 && x.dst true f.s3 && r.code == 0x0D && m.code == 0x0D
    && r.dim1 == s.dim1 && decide (n ≤ r.dim0) && s.dim0 == d.dim0 && decide (d.dim2 ≤ m.dim0)
    && (m.dim1 == 1 || decide (n ≤ m.dim0)) && !isFour s.code && !isFour d.code && convDefined s.code d.code

/-- The tile that MOD[6] names. -/
def Engine.tile (x : Engine) (i : Bool) : Tile := if i then x.tile1 else x.tile0

/-- The formats that pair in an MMA (R70), and the mode each pairing admits (R71). -/
def fp8Family (f : Nat) : Bool := f == 3 || f == 4 || f == 5 || f == 6
def mmaPair (a b mode : Nat) : Bool :=
  (fp8Family a && (fp8Family b || isFour b) && decide (mode ≤ 1)) || (a == 2 && b == 2 && mode == 0)
    || (a == 1 && b == 1 && mode == 0) || (a == 8 && b == 8 && mode == 2)

/-- The tile mode of MOD[1:0] (R71). -/
def modeOf (m : Nat) : TileMode := if m = 1 then .fast else if m = 2 then .int32 else .af40

/-- ZE asks this MMA to overwrite the tile (R70). -/
def Engine.zeroing (x : Engine) (f : Fields) : Bool := f.mod.getLsbD 2 && x.kVal (f.modF 3 3) == 0

/-- Operand shapes of MMA and MMAX (R70, R114). -/
def operandsFit (a b : Tens) : Bool :=
  a.dim2 == 1 && b.dim2 == 1 && decide (a.dim1 ≤ 32) && decide (b.dim1 ≤ 32) && a.dim0 == b.dim0 && a.dim0 % 32 == 0
    && decide (32 * a.dim0 * (fmtBits a.code + fmtBits b.code) ≤ 8 * 131072)
    && !(isMx a.code && a.blkax) && !(isMx b.code && b.blkax)

/-- A 32 × 32 tile tensor of format `fmt`. -/
def tileTensor (t : Tens) (fmt : Nat) : Bool := t.dim0 == 32 && t.dim1 == 32 && t.dim2 == 1 && t.code == fmt

/-- The spill tensor of a fast MMA (R126). -/
def spillTensor (t : Tens) : Bool :=
  t.code == 0x0A && t.dim0 == 32 && t.dim1 == 32 && t.dim2 == 2 && t.pitch1 == 160 && t.pitch2 == 5120

/-- MMA (R70, R71, R116, R126). [DEDUCED, assumption 99] -/
def mmaFits (f : Fields) (x : Engine) : Bool :=
  let a := x.tens f.s1
  let b := x.tens f.s2
  let m := f.modF 0 2
  x.src false f.s1 && x.src false f.s2 && operandsFit a b && mmaPair a.code b.code m
    && (m != 1 || (x.dst false f.s3 && spillTensor (x.tens f.s3)))
    && (x.zeroing f || (x.tile (f.mod.getLsbD 6)).mode == modeOf m)

/-- MMAX (R72, R119). [DEDUCED, assumption 99] -/
def mmaxFits (f : Fields) (x : Engine) : Bool :=
  x.src false f.s1 && x.src false f.s2 && operandsFit (x.tens f.s1) (x.tens f.s2)
    && (x.tens f.s1).code == 0 && (x.tens f.s2).code == 0
    && (x.zeroing f || (x.tile (f.mod.getLsbD 6)).mode == .af40)

/-- The format a tile of a mode spills to (Table 5.1). -/
def spillFmt (m : TileMode) : Nat := match m with | .int32 => 0x0D | _ => 0x0A

/-- ACCSP and ACCCB (R73, R116). -/
def spillFits (f : Fields) (x : Engine) (spec : Byte) (write : Bool) : Bool :=
  let t := x.tile (f.mod.getLsbD 6)
  x.tensLegal false write spec && tileTensor (x.tens spec) (spillFmt t.mode) && t.mode != .fast

/-- ACCRS (R73, R116): its tensor has the spill format of the tile's mode. [DEDUCED, assumption 99] -/
def accrsFits (f : Fields) (x : Engine) : Bool :=
  x.src false f.s1 && tileTensor (x.tens f.s1) (spillFmt (x.tile (f.mod.getLsbD 6)).mode)

/-- EPI (R74, R93, R116, R133). [DEDUCED, assumption 101] -/
def epiFits (f : Fields) (x : Engine) : Bool :=
  let d := x.tens f.d
  let t := x.tile (f.mod.getLsbD 6)
  let bias := x.tens f.s1
  x.dst false f.d && plainFmt d.code && t.mode != .fast && d.dim2 == 1
    && (isNo f.s1 || (x.src false f.s1 && bias.code == 0 && bias.dim1 == 1 && bias.dim2 == 1 && decide (min d.dim0 32 ≤ bias.dim0)))
    && (d.code != 0x0D || (t.mode == .int32 && isNo f.s1 && isNo f.s2 && decide (f.modF 0 4 ≤ 1)))

/-- A source of VOP: a g register, or a tensor of the given shape. -/
def vopSrc (x : Engine) (spec : Byte) (shape : Tens → Bool) : Bool :=
  isG spec || (x.src false spec && plainFmt (x.tens spec).code && shape (x.tens spec))

/-- VOP (R75, R139, R143). -/
def vopFits (f : Fields) (x : Engine) : Bool :=
  let d := x.tens f.d
  let n := (vopArity f.mod.toNat).getD 0
  let row (t : Tens) : Bool := t.dim0 == d.dim0 && t.dim1 == 1 && t.dim2 == 1
  let like (t : Tens) : Bool := t.sameDims d
  let norm := decide (0x31 ≤ f.mod.toNat)
  x.dst false f.d && plainFmt d.code && vopSrc x f.s1 like
    && (decide (n < 2) || vopSrc x f.s2 (if norm then row else like))
    && (decide (n < 3) || vopSrc x f.s3 (if norm then row else like))

/-- VRED (R75, R142): D holds one element per reduced line. [DEDUCED, assumption 103] -/
def vredFits (f : Fields) (x : Engine) : Bool :=
  let s := x.tens f.s1
  let d := x.tens f.d
  x.src false f.s1 && x.dst false f.d && plainFmt s.code && plainFmt d.code
    && d.count == (if f.mod.getLsbD 2 then s.dim0 * s.dim2 else s.dim1 * s.dim2)

/-- VRNG (R76, R145). -/
def vrngFits (f : Fields) (x : Engine) : Bool :=
  x.dst false f.d && (x.tens f.d).code == (if f.mod.getLsbD 0 then 8 else 0)

/-- RRING (R279): S1 places AF40 words, 5 bytes per element, with an exponent per 256. -/
def rringFits (f : Fields) (x : Engine) : Bool :=
  let d := x.tVal (specIdx f.s1 % 16)
  let s := x.tens f.s1
  tensLayout x false false (!f.mod.getLsbD 0) d 40 1280 && isRfx s.code
    && (!f.mod.getLsbD 0 || (x.dst false f.d && (x.tens f.d).fmt == s.fmt))

def oneAf40 (t : Tens) : Bool := t.code == 0x0A && t.count == 1

/-- RNORM (R292): the local and the global form. -/
def rnormFits (f : Fields) (x : Engine) : Bool :=
  let s := x.tens f.s1
  x.src false f.s1 && x.dst false f.d && oneAf40 (x.tens f.d)
    && (if isRfx s.code then f.immF 0 16 == 0xFFFF else s.code == 0x0A && decide (s.count ≤ 16) && f.immF 0 16 != 0xFFFF)

/-! ## The optimiser recipe (R148, Table 6.3) -/

structure UpdRecipe where
  alg : Nat
  flags : Nat
  sched : Nat
  lr : Word
  lrMin : Word
  beta1 : Word
  beta2 : Word
  eps : Word
  wd : Word
  clip : Word
  gscale : Word
  t0 : Nat
  warm : Nat
  decay : Nat
deriving DecidableEq, Repr

/-- Read the 64 bytes of a recipe. -/
def recipeOf (lo hi : Nat) : UpdRecipe :=
  let n := lo + hi * 2 ^ 256
  let w (b : Nat) : Word := BitVec.ofNat 32 (fld n (8 * b) 32)
  { alg := fld n 0 8, flags := fld n 8 8, sched := fld n 16 8, lr := w 4, lrMin := w 8, beta1 := w 12, beta2 := w 16
    eps := w 20, wd := w 24, clip := w 28, gscale := w 32, t0 := fld n 288 64, warm := fld n 352 32, decay := fld n 384 32 }

/-- A finite FP32 word that is not negative; −0 counts as 0. -/
def nonNeg (w : Word) : Bool := (ofFp w).finite && !(ofFp w).lt .zero

/-- The ranges of Table 6.3. -/
def recipeLegal (lo hi : Nat) : Bool :=
  let n := lo + hi * 2 ^ 256
  let r := recipeOf lo hi
  let unit (w : Word) : Bool := nonNeg w && (ofFp w).lt .one
  decide (1 ≤ r.alg) && decide (r.alg ≤ 4) && decide (r.flags < 8) && decide (r.sched ≤ 3) && fld n 24 8 == 0
    && fld n 416 96 == 0
    && (!bitAt r.flags 0 || r.alg == 3) && (!bitAt r.flags 1 || decide (r.alg ≤ 2))
    && nonNeg r.lr && nonNeg r.lrMin && !(ofFp r.lr).lt (ofFp r.lrMin) && unit r.beta1
    && (r.alg == 3 || unit r.beta2) && (decide (3 ≤ r.alg) || (nonNeg r.eps && Val.zero.lt (ofFp r.eps)))
    && nonNeg r.wd && nonNeg r.clip && nonNeg r.gscale && Val.zero.lt (ofFp r.gscale)
    && (r.sched != 3 || decide (1 ≤ r.warm)) && (!(r.sched == 1 || r.sched == 2) || decide (1 ≤ r.decay))

/-- No two byte runs of the tensors meet. -/
def Tens.apart (a b : Tens) : Bool :=
  a.runs.all fun x => b.runs.all fun y => decide (x.1 + x.2 ≤ y.1) || decide (y.1 + y.2 ≤ x.1)

/-- The t register that a UPD's IMM[15:8] names, as a specifier. -/
def normSpec (f : Fields) : Byte := BitVec.ofNat 8 (0x80 + f.immF 8 4)

/-- UPD (R148). -/
def updFits (f : Fields) (x : Engine) (konst : Nat → Nat) : Bool :=
  let i := f.immF 0 8
  let r := recipeOf (konst (2 * i)) (konst (2 * i + 1))
  let d := x.tens f.d
  let g := x.tens f.s1
  let m := x.tens f.s2
  let v := x.tens f.s3
  let adam := decide (r.alg ≤ 2)
  recipeLegal (konst (2 * i)) (konst (2 * i + 1)) && x.src false (normSpec f) && oneAf40 (x.tens (normSpec f))
    && x.dst false f.d && d.code == 0 && x.src false f.s1 && isRfx g.code
    && x.dst false f.s2 && m.code == (if bitAt r.flags 2 then 2 else 0)
    && (if adam then isT f.s3 && x.dst false f.s3 && v.code == 0 && v.count == d.count else isNo f.s3)
    && g.count == d.count && m.count == d.count
    && d.apart g && d.apart m && g.apart m && (!adam || (d.apart v && g.apart v && m.apart v))

/-! ## The threshold entry (R154, Table 6.5) -/

def thrWord (c i : Nat) : Word := BitVec.ofNat 32 (fld c (32 * i) 32)

/-- Not NaN and not negative. -/
def thrOk (w : Word) : Bool := !(ofFp w).isNan && !(ofFp w).lt .zero

/-- NWATCH (R154). -/
def nwatchFits (f : Fields) (x : Engine) (clv : Bool) (konst : Nat → Nat) : Bool :=
  let c := konst (f.immF 0 16)
  x.src clv f.s1 && !isFour (x.tens f.s1).code && (isNo f.s2 || (x.src clv f.s2 && !isFour (x.tens f.s2).code))
    && thrOk (thrWord c 0) && thrOk (thrWord c 1) && thrOk (thrWord c 2) && thrOk (thrWord c 3) && fld c 160 96 == 0

/-! ## All of them -/

/-- The descriptors, shapes, formats, tile modes and constants that the instruction meets at issue are legal. [DEDUCED, assumption 4] -/
def opFits (op : Op) (k : Kind) (f : Fields) (x : Engine) (konst : Nat → Nat) : Bool :=
  let clv := k == .clv
  match op with
  | .move => moveFits true f x
  | .gather => rowsFit f x false
  | .scatter => rowsFit f x true
  | .put => putFits f x
  | .dispatch => dispatchFits f x
  | .mma => mmaFits f x
  | .mmax => mmaxFits f x
  | .accsp => spillFits f x f.d true
  | .accrs => accrsFits f x
  | .acccb => spillFits f x f.s1 false
  | .epi => epiFits f x
  | .vop => vopFits f x
  | .vred => vredFits f x
  | .vrng => vrngFits f x
  | .vcvt => moveFits false f x
  | .rring => rringFits f x
  | .rnorm => rnormFits f x
  | .upd => updFits f x konst
  | .nwatch => nwatchFits f x clv konst
  | .nop | .halt | .loop | .endl | .jmp | .phase | .setr | .swait | .sadd | .ssub | .ssig | .swatch | .commit => true

end Sys2Proof.Machine
end

