-- ==== Sys2Proof/Machine/Engine.lean ====
section
/-!
DEFINITION. Machine/Engine.lean: how an engine issues an instruction (R2, R46, R55, R56), completes one (R56), saves a
checkpoint (R80), faults, reruns and retires (R81-R83, R174, R178), and is sampled by the trace (R404, R405).
-/

namespace Sys2Proof.Machine

/-! ## The placed stream (R44) -/

/-- The plan of the partition that holds engine `e`, and the engine's stream in it. -/
def State.streamOf (s : State) (e : Nat) : Option (Plan × StreamInfo) :=
  match (s.part (s.partOf e)).plan with
  | none => none
  | some p => (p.streams.find? fun x => x.eng == e).map fun x => (p, x)

/-- The 128-bit word at instruction index `i`, as it stands in the Peat (R6, R44, R46). [DESIGN CHOICE, assumption 5] -/
def State.insnAt (s : State) (x : StreamInfo) (i : Nat) : Nat := leNat (s.readBytes (x.insnAt + 16 * i) 16)

/-- The 32-byte constant entry `i` (R44, R61). -/
def State.constAt (s : State) (x : StreamInfo) (i : Nat) : Nat := leNat (s.readBytes (x.constAt + 32 * i) 32)

/-- Constant entry `i` of engine `e`'s stream; 0 without a stream. -/
def State.konst (s : State) (e i : Nat) : Nat :=
  match s.streamOf e with
  | some (_, x) => s.constAt x i
  | none => 0

/-! ## Restart points (R80) -/

/-- The instruction at index `pc` is a restart point. -/
def isRestart (pc : Nat) (op : Op) (f : Fields) : Bool :=
  pc == 0 || f.cs || match op with
    | .phase | .sadd | .ssub | .ssig | .commit => true
    | .nop => f.mod.getLsbD 0
    | _ => false

/-! ## Sampled trace (R404, R405) -/

/-- One step of the Galois LFSR with polynomial x^32 + x^22 + x^2 + x + 1 (R404). -/
def lfsrStep (l : Word) : Word := if l.getLsbD 0 then (l >>> 1) ^^^ 0x80200003#32 else l >>> 1

/-- TRACE_CFG names the engine's kind in its partition (R412). -/
def State.traced (s : State) (e : Nat) : Bool :=
  let q := s.partOf e
  s.obs.trEn.getLsbD q && (s.obs.trKinds.get 0x1F q).getLsbD (kindOf e).code

/-- After its step the LFSR tags the instruction: its low N bits are 0. -/
def State.tagged (s : State) (e : Nat) : Bool :=
  s.traced e && (s.eng e).lfsr.toNat % 2 ^ (s.obs.trN.get 0x10 (s.partOf e)).toNat == 0

/-- A tagged instruction has retired: its record waits for the end of its block, since a block that faults writes none (R404).
[DEDUCED, assumption 111] -/
def State.tracePut (s : State) (e : Nat) (i : InFlight) : State :=
  if i.tagged then
    s.modEng e fun x => { x with traces := x.traces ++ [{ i with writes := [], census := [], snap := none, prog := none, chunks := [] }] }
  else s

/-! ## Issue (R2, R56) -/

/-- The COMMIT that waits in the commit barrier, if the engine has issued one. -/
def Engine.barrierEntry (x : Engine) : Option InFlight := x.inflight.find? fun i => i.wait == .barrier

/-- Conditions under which an engine may issue the instruction `op f` now: its partition runs, its plan names it, it is
running or rerunning, its stream holds exactly this word at its next index, and nothing holds it there: the copy of its
last checkpoint (R80), its own COMMIT in the barrier, whose re-base what follows it in the stream must see (R56, R201), a droop burst (R363), the recovery hold (R329), a drain (R272), a stop (R36, Table 3.11), a pause
between host attempts (R174). [DESIGN CHOICE, assumption 5] -/
def State.issuing (s : State) (e : Nat) (op : Op) (f : Fields) : Option Plan :=
  let x := s.eng e
  let p := s.part (s.partOf e)
  match s.streamOf e with
  | none => none
  | some (pl, st) =>
    if p.runs ∧ (x.run = .running ∨ x.run = .rerun) ∧ x.hostPause = false
      ∧ x.pc.toNat < st.insnCnt ∧ s.insnAt st x.pc.toNat = encodeInsn op f
      ∧ ¬ (isRestart x.pc.toNat op f ∧ x.ckptBusy)
      ∧ x.barrierEntry.isNone
      ∧ ¬ (s.power.burst ∧ (kindOf e).code ≤ 1)
      ∧ ¬ (x.heldAtZero ∧ s.holdsEng e)
      ∧ ¬ (p.drain ≠ 0 ∧ x.pc = 0 ∧ p.drainStep.toNat < p.epoch.toNat)
      ∧ ¬ (p.stopNow ∧ (x.pc = 0 ∨ p.lastCommit.toInt < x.step.toInt))
    then some pl else none

/-- Instruction 0 issues again: the last pass's events are logged, and g31 rises (R48, R470). -/
def State.newPass (s : State) (e : Nat) : State :=
  if (s.eng e).lap then
    (s.stepEvents e).modEng e fun x => { x with lap := false, g := x.g.set 31 (x.step + 1), updSkipped := false }
  else s

/-- What every issue does: a new pass may begin, the partition's waiting account ends (R345), the counter counts (R400), the LFSR
steps, and a Sync instruction ends the reuse of operands (R118). -/
def State.noteIssue (s0 : State) (e : Nat) (op : Op) : State :=
  let s := s0.newPass e
  let s1 := (s.modPart (s.partOf e) fun p => { p with issued := true }).count (s.partOf e) e 0 1
  let s2 := if s.traced e then s1.modEng e fun x => { x with lfsr := lfsrStep x.lfsr } else s1
  if op.code / 16 = 1 then s2.modEng e fun x => { x with opA := none, opB := none } else s2

/-- Every earlier instruction of the engine has completed (R189). [DESIGN CHOICE, assumption 5] -/
def quiet (e : Nat) (s : State) : Bool := (s.eng e).inflight.isEmpty

/-- The instruction has a source operand: a register or a tensor that it reads (R405); the t register of a UPD's IMM is one.
[DEDUCED, assumption 111] -/
def hasSource (op : Op) (f : Fields) : Bool :=
  decide (0x20 ≤ op.code) && (!isNo f.s1 || !isNo f.s2 || !isNo f.s3)

/-- A fresh in-flight entry for the instruction at the engine's index. -/
def State.entry (s : State) (e : Nat) (op : Op) (f : Fields) : InFlight :=
  let x := s.eng e
  { index := x.pc, opc := BitVec.ofNat 8 op.code, cs := f.cs, csem := f.csem, tagged := s.tagged e, bare := !hasSource op f, tick := s.clk.tick
    step := x.step, phase := x.phaseTag, rerun := x.rerunning }

/-! ## Checkpoints (R80) -/

/-- Add a tensor's census counts to its slot (R153, R157). -/
def addCounts (a b : Nat × Nat × Nat × Nat) : Nat × Nat × Nat × Nat :=
  (a.1 + b.1, a.2.1 + b.2.1, a.2.2.1 + b.2.2.1, a.2.2.2 + b.2.2.2)

def numSlot (n q : Nat) (tid : BitVec 16) : Nat := q * (4096 / n) + tid.toNat

/-- `n` SWAITs of the block now lie before its checkpoint. -/
def Engine.past (x : Engine) (n : Nat) : Engine :=
  { x with blockSwaits := x.blockSwaits - n, inflight := x.inflight.map fun i => { i with swaits := i.swaits - n } }

/-- In a census step (R156) the counts of an attempt that completed reach the numerics watch. -/
def State.flushCensus (s : State) (e : Nat) : State :=
  let q := s.partOf e
  let l := (s.eng e).census
  let s1 := if (s.part q).censusNow then
      { s with obs := { s.obs with slots := l.foldl (fun t c =>
          let i := numSlot s.partCnt q c.1
          let y := t.get {} i
          t.set i { y with cur := addCounts y.cur c.2 }) s.obs.slots } }
    else s
  s1.modEng e fun x => { x with census := [] }

/-- A restart point completes: its checkpoint is saved by a background copy, and a rerun that got here has succeeded. In
the recovery hold the engine stops here (R329). `n` of the block's SWAITs lie before it. The block's trace records go out (R404). -/
def State.saveCkpt (s : State) (e : Nat) (c : Ckpt) (n : Nat) : State :=
  let held := s.holdsEng e
  ((s.traceBlock e).modEng e fun x => { x.past n with
    ckpt := c, ckptBusy := true, skipSwaits := 0, rerunning := false, hostAttempt := 0
    run := if x.run = .rerun then .running else x.run, heldAtZero := held }).flushCensus e

/-- A UPD that completes leaves its progress in the checkpoint, so that no rerun applies it again (R152). -/
def State.progress (s : State) (e : Nat) (c : Ckpt) (n : Nat) : State :=
  (s.modEng e fun x => { x.past n with ckpt := c }).flushCensus e

/-! ## After an issue -/

/-- An instruction with nothing to write or wait for is done at once, unless an earlier one is still under way and it
must mark a restart point or write a trace record after it (R56). `en` is its entry and `restart` says whether it is a
restart point; the engine's registers already show its effect. -/
def State.done (s : State) (e : Nat) (en : InFlight) (restart : Bool) : State :=
  let x := s.eng e
  if x.inflight.isEmpty then
    let s1 := s.tracePut e en
    if restart then s1.saveCkpt e x.snap x.blockSwaits else s1
  else if restart ∨ en.tagged then
    s.modEng e fun x => { x with
      inflight := x.inflight ++ [{ en with swaits := x.blockSwaits, snap := if restart then some x.snap else none }] }
  else s

/-- An instruction that writes, waits or signals becomes in-flight; the engine's index moves on. -/
def State.launch (s : State) (e : Nat) (en : InFlight) (restart : Bool) : State :=
  s.modEng e fun x =>
    let y := { x with pc := x.pc + 1 }
    { y with inflight := y.inflight ++ [{ en with
        swaits := y.blockSwaits, snap := if restart then some y.snap else none
        prog := if en.opc = 0x60 then some y.snap else none }] }

/-- The common end of an instruction that the engine itself carries out: it launches with its writes. -/
def State.launchWith (s : State) (e : Nat) (op : Op) (f : Fields) (ws : List WriteRun)
    (cs : List (BitVec 16 × Nat × Nat × Nat × Nat)) : State :=
  s.launch e { s.entry e op f with writes := ws, census := cs } (isRestart (s.eng e).pc.toNat op f)

/-- The common end of an instruction without writes, waits or CS: the index moves on and it is done. -/
def State.passOn (s : State) (e : Nat) (op : Op) (f : Fields) : State :=
  let en := s.entry e op f
  let r := isRestart (s.eng e).pc.toNat op f
  (s.modEng e fun x => { x with pc := x.pc + 1 }).done e en r

/-! ## Traffic counters (R399, R400) -/

/-- Engine `e` reads (`w` false) or writes a run of module bytes: Peat bytes count events 6 and 7; each DRAM grain counts as
Culvert event 16 or 17, and as a hit or a miss of the partition's carve-out. -/
def State.countRun (s : State) (e : Nat) (w : Bool) (a n : Nat) : State :=
  let q := s.partOf e
  let k := if w then 1 else 0
  if isDram a then
    let g := linesOf a n
    let s1 := s.countGrains q g
    if (kindOf e).code = 4 then s1.count q e (16 + k) g.length else s1
  else s.count q e (6 + k) n

/-- A run of bytes cut at multiples of 512 (R173: PCIe requests of at most 512 B, in increasing address). [DEDUCED, assumption 83] -/
def hostPieces : Nat → Nat → List Byte → List (Nat × List Byte)
  | 0, _, _ => []
  | n + 1, a, bs =>
    if bs.isEmpty then [] else (a, bs.take (512 - a % 512)) :: hostPieces n (a + (512 - a % 512)) (bs.drop (512 - a % 512))

/-- PCIe requests that a transfer of [a, a + n) takes. -/
def hostReqs (a n : Nat) : Nat := if n = 0 then 0 else (a + n - 1) / 512 - a / 512 + 1

/-- One run of bytes becomes visible: in module memory, or at the host (R50, R56, R164, R173). -/
def State.putRun (s : State) (e : Nat) (w : WriteRun) : State :=
  let q := s.partOf e
  if w.host then
    let s1 := s.modMem fun m => { m with
      hostOut := m.hostOut ++ (hostPieces w.data.length w.addr w.data).map fun x => (q, x.1, x.2) }
    if (kindOf e).code = 4 then s1.count q e 19 (hostReqs w.addr w.data.length) else s1
  else (s.countRun e true w.addr w.data.length).store q w.hint w.addr w.data

/-! ## Reruns (R81-R83, R152, R174, R178) -/

/-- The chunks of the UPD at the head of the engine's instructions that are complete when the engine faults are written, and the
checkpoint records them; how many, the model leaves free (R152, R158). [DESIGN CHOICE, assumption 9] -/
def State.keepChunks (s : State) (e : Nat) : State :=
  match (s.eng e).inflight with
  | [] => s
  | i :: _ =>
    if i.wait = .turn ∧ !i.chunks.isEmpty then
      let done := i.chunks.take (Config.chunksDone s.free % (i.chunks.length + 1))
      let s1 := ((done.flatMap fun c => c.runs).foldl (fun s w => s.putRun e w) s).takeFree.2
      match done.getLast? with
      | none => s1
      | some c => s1.modEng e fun x => { x with ckpt := { x.ckpt with upd := c.prog } }
    else s

/-- Where a rerun starts: after a COMMIT that waits in the commit barrier, which is issued only when everything before it
has completed; otherwise at the last checkpoint. With the SWAITs that lie before that place. -/
def Engine.base (x : Engine) : Ckpt × Nat :=
  match x.barrierEntry with
  | some i => (i.snap.getD x.ckpt, i.swaits)
  | none => (x.ckpt, 0)

/-- Constants that an instruction fetches. -/
def opConsts (op : Op) (f : Fields) : List Nat :=
  match op with
  | .setr => [f.immF 0 24]
  | .upd => [2 * f.immF 0 8, 2 * f.immF 0 8 + 1]
  | .nwatch => [f.immF 0 16]
  | _ => []

/-- LOOP opens a loop (R58). -/
def Engine.openLoop (x : Engine) (k last : Nat) : Engine :=
  { x with pc := x.pc + 1, loops := ⟨BitVec.ofNat 3 k, 0, BitVec.ofNat 24 last, x.pc + 1⟩ :: x.loops }

/-- ENDL where only the indices of a path matter: a loop that goes on runs once more at most. -/
def Engine.lastLoop (x : Engine) : Engine :=
  match x.loops with
  | [] => { x with pc := x.pc + 1 }
  | l :: r => if l.iter.toNat < l.last.toNat then { x with pc := l.start, loops := { l with iter := l.last } :: r } else { x with pc := x.pc + 1, loops := r }

/-- The instructions of the block that begins at `x` (R80), by index, with the constants that they fetch, as the image holds them. -/
def State.blockCode (s : State) (a : Nat) (cnt : Nat) : Nat → Engine → List (Nat × List Nat)
  | 0, _ => []
  | n + 1, x =>
    let i := x.pc.toNat
    if cnt ≤ i then []
    else match decodeInsn (leNat (s.readBytes (a + 16 * i) 16)) with
      | none => [(i, [])]
      | some (op, f) =>
        if isRestart i op f ∨ op = Op.halt then [(i, opConsts op f)]
        else (i, opConsts op f) :: s.blockCode a cnt n (match op with
          | .loop => x.openLoop (specIdx f.d) (f.immF 0 24)
          | .endl => x.lastLoop
          | .jmp => { x with pc := BitVec.ofNat 24 (f.immF 0 24) }
          | _ => { x with pc := x.pc + 1 })

/-- The bytes [64k, 64k + 64) of an array of `n` bytes that lies in the image at `a` and is placed at `b`, or what of them it has. -/
def lineRun (a n k : Nat) : Nat × Nat := (a + 64 * k, min 64 (n - 64 * k))

/-- One 64 B line of a placed array takes its bytes from the image. -/
def State.reloadLine (s : State) (q a b n k : Nat) : State :=
  let m := (lineRun a n k).2
  s.store q 0 (b + 64 * k) (s.readBytes (a + 64 * k) m ++ s.readBytes (b + 64 * k + m) (64 - m))

/-- Firmware reloads the instructions and constants of the block from the DRAM copy of the image, in whole lines of the Peat (R81).
[DESIGN CHOICE, assumption 21] -/
def State.reload (s : State) (e : Nat) : State :=
  match s.streamOf e with
  | none => s
  | some (pl, st) =>
    let q := s.partOf e
    let c := (s.eng e).base.1
    let a := pl.imgAt + st.imgInsn
    let b := pl.imgAt + st.imgConst
    let code := s.blockCode a st.insnCnt (256 * st.insnCnt) { pc := c.pc, loops := c.loops }
    let ins := (code.map fun x => x.1 / 4).eraseDups
    let kon := (code.flatMap fun x => x.2.map fun k => k / 2).eraseDups
    let reads := (ins.map (lineRun a (16 * st.insnCnt))) ++ kon.map (lineRun b (32 * st.constCnt))
    match reads.findSome? fun x => s.poisonIn x.1 x.2 with
    | some g => (s.uncorrectable q g).cannotContinue
    | none =>
      let s1 := reads.foldl (fun s x => s.touchRead q 0 x.1 x.2) s
      let s2 := ins.foldl (fun s k => s.reloadLine q a st.insnAt (16 * st.insnCnt) k) s1
      kon.foldl (fun s k => s.reloadLine q b st.constAt (32 * st.constCnt) k) s2

/-- The engine restored to the start of its block, its rerun counted (ENG_RETRY); ENG_STAT.PHASE goes on naming the last PHASE issued (R84). A block that faults for the first time counts
toward R82, unless a host request failed, for which no engine retires (R174); `now` is none then. -/
def Engine.restored (x : Engine) (now : Option Nat) : Engine :=
  let (c, n) := x.base
  { x with
    run := .rerun, pc := c.pc, lap := c.lap, g := c.g, a := c.a, t := c.t, loops := c.loops
    tile0 := c.tile0, tile1 := c.tile1, sumU := c.sumU, sumW := c.sumW
    idxRange := c.idxRange, satCnt := c.satCnt, keptCnt := c.keptCnt, dropCnt := c.dropCnt
    inflight := x.inflight.filter fun i => i.wait == .barrier, census := [], rerunning := true, ckptBusy := false
    skipSwaits := x.blockSwaits - n + x.skipSwaits, blockSwaits := n, waitCs := false, waitLogged := false
    opA := none, opB := none, traces := [], waitEntry := none, retries := satInc x.retries 1
    faultTicks := match now with
      | some t => if x.rerunning then x.faultTicks else (t :: x.faultTicks).take 4
      | none => x.faultTicks }

/-- Spares of each kind (Table 1.2). -/
def spareTotal (k : Nat) : Nat := if k = 0 then 8 else if k = 1 then 2 else if k = 2 then 1 else if k = 3 then 1 else 2

/-- Physical engine `p` of kind `k` is neither dead nor behind a logical engine. [DESIGN CHOICE, assumption 15] -/
def State.physFree (s : State) (k p : Nat) : Bool :=
  !s.deadPhys.contains (256 * k + p)
  && !(s.engMaps.any fun kv => (kindOf kv.1).code == k && kv.2.valid && kv.2.phys.toNat == p)

/-- Spares of kind code `k` not yet mapped in (ENG_INV of R84), by physical ID: they follow the kind's logical IDs. -/
def State.sparesLeft (s : State) (k : Nat) : List Nat :=
  ((List.range (spareTotal k)).map fun i => kindCount k + i).filter fun p => s.physFree k p

/-- An engine with no spare left retires during a load (R34): the load completes where its check 0x04 has run. [DEDUCED, assumption 32] -/
def State.loadLosesEng (s : State) (q e : Nat) : State :=
  let b := Config.checked s.free
  s.takeFree.2.modPart q fun x => { x with
    loading := x.loading.map fun j => if j.ran8 || j.ran4 || b then { j with ran4 := true, engs := e :: j.engs } else j }

/-- Retire the physical engine behind `e` (R82). A spare takes its place and resumes from the last checkpoint; with none
left the module cannot continue. A retirement starts a census (R156). [DESIGN CHOICE, assumption 15; DEDUCED, assumption 30] -/
def State.retireEng (s : State) (e : Nat) : State :=
  let q := s.partOf e
  let k := (kindOf e).code
  match s.sparesLeft k with
  | [] =>
    let s1 := ((s.log 0x602 q (a1 e)).fltBit 3).log 0xB02 q (a1 4 ++ a4 0)
    let s2 := ({ s1 with engMaps := s1.engMaps.set e { s1.engMap e with valid := false } }).modEng e fun x =>
      { x with run := .retired, inflight := [] }
    if (s2.part q).loading.isSome then s2.loadLosesEng q e else s2.cannotContinue
  | n :: _ =>
    let old := (s.engMap e).phys.toNat
    let s1 := ((s.log 0x601 q (a1 e ++ a4 old ++ a4 n)).fltBit 2).log 0xB02 q (a1 4 ++ a4 0)
    let s2 := { s1 with deadPhys := (256 * k + old) :: s1.deadPhys, engMaps := s1.engMaps.set e ⟨BitVec.ofNat 8 n, true⟩ }
    (s2.modPart q fun p => { p with censusLeft := 16 }).modEng e fun x => { x with faultTicks := [] }

/-- Four blocks faulted within one second. -/
def Engine.worn (x : Engine) (now : Nat) : Bool :=
  match x.faultTicks with
  | [_, _, _, t] => decide (now < t + ticksPerSec)
  | _ => false

/-- The engine's block faults: log, reload its code, restore the checkpoint and run it again (R81); retire the engine when its rerun
faults or when it has faulted in 4 blocks within 1 s, unless the cause is a host request (R174). -/
def State.rerunBlock (s : State) (e idx cause : Nat) : State :=
  let q := s.partOf e
  let again := (s.eng e).rerunning
  let s1 := ((s.log 0x600 q (a1 e ++ a4 idx ++ a1 cause)).fltBit 1).count q e 5 1
  let s2 := ((s1.keepChunks e).reload e).modEng e fun x => x.restored (if cause = 4 then none else some s.now)
  if cause ≠ 4 ∧ (again ∨ (s2.eng e).worn s.now) then s2.retireEng e else s2

/-- The index of the oldest instruction not yet completed (ENG_PC). -/
def Engine.oldest (x : Engine) : Nat :=
  match x.inflight with
  | i :: _ => i.index.toNat
  | [] => x.pc.toNat

/-- A host-space request failed (R174): attempts 1-8 of the block at intervals of 1 ms. -/
def State.hostFault (s : State) (e idx : Nat) : State :=
  let n := (s.eng e).hostAttempt + 1
  let s1 := s.log 0x560 (s.partOf e) (a4 (logicalId e) ++ a1 n)
  if 8 ≤ n then s1.cannotContinue
  else (s1.rerunBlock e idx 4).modEng e fun x => { x with hostAttempt := n, hostPause := true }

/-- A poisoned read (R178): the rerun reads it cleanly, and the poison is cleared, or the module cannot continue. [DESIGN CHOICE, assumption 21] -/
def State.poisonFault (s : State) (e idx g : Nat) : State :=
  let q := s.partOf e
  let s1 := s.uncorrectable q g
  if (s.eng e).rerunning then s1.cannotContinue
  else
    let s2 := if Config.rereadClean (g + s.free) then s1.clearPoison g else s1
    (s2.takeFree).2.rerunBlock e idx 5

/-- A fault of the engine's block under `cause` of R83; `addr` is the address of a poisoned read, or of an access outside the proven
range, which event 0x550 reports where it lies outside the partition (R182). -/
def State.faultBlock (s : State) (e idx cause addr : Nat) : State :=
  let q := s.partOf e
  if cause = 4 then s.hostFault e idx
  else if cause = 5 then s.poisonFault e idx (granule addr)
  else (if cause = 3 ∧ !inPart s.partCnt q addr 1 then s.fenceEvent q addr e else s).rerunBlock e idx cause

/-! ## Issuing (R2, R56, R178) -/

/-- A poisoned Peat line that holds the engine's next instruction or a constant of it. -/
def State.fetchPoison (s : State) (e : Nat) (op : Op) (f : Fields) : Option Nat :=
  match s.streamOf e with
  | none => none
  | some (_, st) =>
    (s.poisonIn (st.insnAt + 16 * (s.eng e).pc.toNat) 16).or ((opConsts op f).findSome? fun i => s.poisonIn (st.constAt + 32 * i) 32)

/-- An uncorrectable instruction or constant (R83 cause 1, R178): the rerun finds it reloaded from the image, or the module cannot
continue. [DESIGN CHOICE, assumption 21] -/
def State.fetchFault (s : State) (e g : Nat) : State :=
  let s1 := s.uncorrectable (s.partOf e) g
  if (s.eng e).rerunning then s1.cannotContinue else s1.rerunBlock e (s.eng e).pc.toNat 1

/-- Issue `op f` on engine `e` and go on as `k` says. A form that the manual calls illegal is in no loaded stream: fault.
An instruction that the engine cannot issue now leaves the state as it is.
[DESIGN CHOICE, assumption 3; DEDUCED, assumption 4; DESIGN CHOICE, assumption 5] -/
def issueIf (ok : State → Bool) (op : Op) (e : Eng) (f : Fields) (s : State) (k : Plan → State → State) : Out :=
  if legalForm e.val op f then
    match s.issuing e.val op f with
    | none => .next s
    | some p =>
      match s.fetchPoison e.val op f with
      | some g => .next (s.fetchFault e.val g)
      | none =>
      if opFits op (kindOf e.val) f (s.eng e.val) (s.konst e.val) then
        if ok s then .next (k p (s.noteIssue e.val op)) else .next s
      else .fault .illegalForm
  else .fault .illegalForm

/-- An issue under no further condition. [DESIGN CHOICE, assumption 5] -/
def issue (op : Op) (e : Eng) (f : Fields) (s : State) (k : Plan → State → State) : Out :=
  issueIf (fun _ => true) op e f s k

/-- A run of a tensor is read, in the counters and then in the carve-out (Table 7.2). -/
def State.readRun (s : State) (e : Nat) (hint : BitVec 2) (ab : Nat × Nat) : State :=
  (s.countRun e false ab.1 ab.2).touchRead (s.partOf e) hint ab.1 ab.2

/-- A read of a tensor, run by run; host space takes PCIe requests of at most 512 B (R173). -/
def State.readTens (s : State) (e : Nat) (t : Tens) : State :=
  if t.host then (if (kindOf e).code = 4 then s.count (s.partOf e) e 19 (t.runs.foldl (fun n ab => n + hostReqs ab.1 ab.2) 0) else s)
  else
    let s1 := t.rows.foldl (fun s pr => s.readRun e t.hint (t.rowAddr pr.1 pr.2, t.rowBytes)) s
    t.entRuns.foldl (fun s ab => s.readRun e t.shint ab) s1

/-! ## Tensors of an instruction -/

/-- A descriptor outside its proven range (R83 cause 3); what lies outside the partition is reported too (R182). -/
def State.rangeFault (s : State) (e : Nat) (runs : List (Nat × Nat)) : State :=
  let q := s.partOf e
  (match runs.find? fun (ab : Nat × Nat) => !inPart s.partCnt q ab.1 ab.2 with
   | some ab => s.fenceEvent q ab.1 e
   | none => s).rerunBlock e (s.eng e).pc.toNat 3

/-- The checks of an instruction that reads `srcs` and writes `dsts`. Outside the plan's regions: fault cause 3, and event 0x550
outside the partition (R182). A poisoned source: fault cause 5. Host space with the PCIe link down: a failed host request (R174,
R419). Otherwise it goes on. [DEDUCED, assumption 14] -/
def State.withChecked (s : State) (e : Nat) (p : Plan) (srcs dsts : List Tens) (k : State → State) : State :=
  let idx := (s.eng e).pc.toNat
  if (srcs ++ dsts).all p.tensOk then
    if ((srcs ++ dsts).any fun t => t.host) && !s.host.linkUp then s.hostFault e idx
    else match srcs.findSome? (s.poisonOf e) with
    | some g => s.poisonFault e idx g
    | none => k s
  else s.rangeFault e (((srcs ++ dsts).filter fun t => !t.host).flatMap fun t => t.runs)

/-- An instruction that reads its sources at issue: the reads are served first, and leave their mark after (Table 7.2). [DEDUCED, assumption 14] -/
def State.withTensors (s : State) (e : Nat) (p : Plan) (srcs dsts : List Tens) (k : State → State) : State :=
  s.withChecked e p srcs dsts fun s => srcs.foldl (fun s t => s.readTens e t) (k s)

/-- What engine `e` reads at an address of tensor `t`'s space. -/
def State.rdOf (s : State) (e : Nat) (t : Tens) (a : Nat) : Byte := s.seen (s.partOf e) e t.host a

/-- Census counts of the elements converted into a tensor that carries a TID (R113, R157). -/
def tidCensus (t : Tens) (cls : List Cls) : List (BitVec 16 × Nat × Nat × Nat × Nat) :=
  if t.tid = 0 then [] else [(t.tid, census cls)]

/-- A host-space read takes a fresh free value. -/
def State.hostTurn (s : State) (ts : List Tens) : State := if ts.any fun t => t.host then s.takeFree.2 else s

end Sys2Proof.Machine
end

