-- ==== Sys2Proof/Machine/Control.lean ====
section
/-!
DEFINITION. Machine/Control.lean: the Control family (R58-R62): NOP, HALT, LOOP, ENDL, JMP, PHASE, SETR.
-/

namespace Sys2Proof.Machine

/-- A Control instruction changes the engine's own state by `g` and is done (R56). -/
def State.control (s : State) (e : Nat) (op : Op) (f : Fields) (g : Engine → Engine) : State :=
  let en := s.entry e op f
  let r := isRestart (s.eng e).pc.toNat op f
  (s.modEng e g).done e en r

/-- NOP (R62). -/
def execNop (e : Eng) (f : Fields) (s : State) : Out :=
  issue .nop e f s fun _ s => s.control e .nop f fun x => { x with pc := x.pc + 1 }

/-- The partition's engines have all come to their end under a STOP (R36). [DEDUCED, assumption 85] -/
def State.allParked (s : State) (q : Nat) : Bool :=
  (engsOf s.partCnt q).all fun e =>
    let x := s.eng e
    x.inflight.isEmpty && (x.run == .idle || x.run == .halted || x.run == .retired || x.pc == 0
      || decide ((s.part q).lastCommit.toInt < x.step.toInt))

/-- A stop whose barrier has completed ends when every engine is parked: the partition goes idle with its plan loaded. [DEDUCED, assumption 85] -/
def State.stopIfParked (s : State) (q : Nat) : State :=
  if (s.part q).stopNow ∧ s.allParked q then s.stopPart q 0 else s

/-- HALT (R59): the last block of the stream ends with it. -/
def execHalt (e : Eng) (f : Fields) (s : State) : Out :=
  issue .halt e f s fun _ s =>
    ((s.control e .halt f fun x => { x with pc := x.pc + 1, run := .halted }).traceBlock e).stopIfParked (s.partOf e)

/-- LOOP (R58). -/
def execLoop (e : Eng) (f : Fields) (s : State) : Out :=
  issue .loop e f s fun _ s => s.control e .loop f fun x => x.openLoop (specIdx f.d) (f.immF 0 24)

/-- ENDL iterates the innermost loop, or closes it and falls through (R58). -/
def Engine.closeLoop (x : Engine) : Engine :=
  match x.loops with
  | [] => { x with pc := x.pc + 1 }
  | l :: r =>
    if l.iter.toNat < l.last.toNat then { x with pc := l.start, loops := { l with iter := l.iter + 1 } :: r }
    else { x with pc := x.pc + 1, loops := r }

/-- ENDL (R58). -/
def execEndl (e : Eng) (f : Fields) (s : State) : Out :=
  issue .endl e f s fun _ s => s.control e .endl f Engine.closeLoop

/-- The engine goes on at index `t`; a jump to index 0 ends its pass (R48). -/
def Engine.jump (x : Engine) (t : Nat) : Engine := { x with pc := BitVec.ofNat 24 t, lap := decide (t = 0) || x.lap }

/-- JMP (R59). -/
def execJmp (e : Eng) (f : Fields) (s : State) : Out :=
  issue .jmp e f s fun _ s => (s.control e .jmp f fun x => x.jump (f.immF 0 24)).stopIfParked (s.partOf e)

/-- PHASE (R60): the engine's tag; the first of a partition begins the phase. -/
def execPhase (e : Eng) (f : Fields) (s : State) : Out :=
  issue .phase e f s fun pl s =>
    let q := s.partOf e
    let tag := BitVec.ofNat 16 (f.immF 0 16)
    let step := (s.eng e).step
    (s.control e .phase f fun x => { x with pc := x.pc + 1, phaseTag := tag }).beginPhase q pl tag step

/-- Load constant `c` into the register that `d` names (R61). -/
def Engine.load (x : Engine) (d : Byte) (c : Nat) : Engine :=
  let y := { x with pc := x.pc + 1 }
  if specFile d = 0 then { y with g := y.g.set (specIdx d) (BitVec.ofNat 64 c) }
  else if specFile d = 1 then { y with a := y.a.set (specIdx d) (BitVec.ofNat 256 c) }
  else { y with t := y.t.set (specIdx d) (BitVec.ofNat 256 c) }

/-- SETR (R61). -/
def execSetr (e : Eng) (f : Fields) (s : State) : Out :=
  issue .setr e f s fun _ s => s.control e .setr f fun x => x.load f.d (s.konst e (f.immF 0 24))

end Sys2Proof.Machine
end

