-- ==== Sys2Proof/Machine/Sync.lean ====
section
/-!
DEFINITION. Machine/Sync.lean: the Sync family (R63, R64, R189, R191, R193): SWAIT, SWATCH, SADD, SSUB, SSIG.
-/

namespace Sys2Proof.Machine

/-- The threshold of R64: N + k[KIDX]·KM when KE = 1, N when KE = 0. -/
def Engine.threshold (x : Engine) (f : Fields) : Int :=
  sgn 32 (f.immF 32 32) + if f.mod.getLsbD 3 then (x.kVal (f.modF 0 3) : Int) * f.s1.toNat else 0

def syncSem (f : Fields) : Nat := f.immF 0 16
def syncWatch (f : Fields) : Nat := f.immF 16 12

/-- The engine notes the semaphore and watch of its SWAIT (ENG_WAIT). -/
def Engine.names (x : Engine) (f : Fields) : Engine :=
  { x with waitSem := BitVec.ofNat 16 (syncSem f), waitWatch := BitVec.ofNat 12 (syncWatch f) }

/-- A Sync instruction that is complete at issue: with CS it still delivers its signal in stream order. -/
def State.syncDone (s : State) (e : Nat) (op : Op) (f : Fields) : State :=
  if f.cs then s.launchWith e op f [] [] else s.passOn e op f

/-- A SWAIT completes; its block counts it (R81). -/
def State.waitDone (s : State) (e : Nat) (f : Fields) : State :=
  (s.modEng e fun x => { x with blockSwaits := x.blockSwaits + 1 }).syncDone e .swait f

/-- The watch is fired with this semaphore and threshold. -/
def Watch.reports (w : Watch) (sem : Nat) (thr : Int) : Bool := w.st == .fired && w.sem.toNat == sem && decide (w.thr = thr)

/-- Arm a watch (R191). -/
def State.arm (s : State) (w sem : Nat) (thr : Int) : State :=
  s.setWatch w { s.watch w with st := .armed, sem := BitVec.ofNat 16 sem, thr := thr }

/-- SWAIT (R191): a rerun's counted SWAITs complete without a test (R81); a fired watch with the same condition, or a value
at or above the threshold, completes; otherwise the watch is armed and the engine waits. -/
def State.swait (s : State) (e : Nat) (f : Fields) : State :=
  let x := s.eng e
  let thr := x.threshold f
  let s1 := s.modEng e fun x => x.names f
  if 0 < x.skipSwaits then
    (s1.modEng e fun x => { x with skipSwaits := x.skipSwaits - 1 }).waitDone e f
  else if (s.watch (syncWatch f)).reports (syncSem f) thr ∨ thr ≤ (s.sem (syncSem f)).value.toInt then
    (s1.setWatch (syncWatch f) { s.watch (syncWatch f) with st := .idle }).waitDone e f
  else
    (s1.arm (syncWatch f) (syncSem f) thr).modEng e fun x => { x with
      run := .waiting, waitThr := thr, waitLogged := false, waitCs := f.cs, waitCsem := f.csem
      waitEntry := if s.tagged e then some (s.entry e .swait f) else none }

/-- SWAIT (R191). -/
def execSwait (e : Eng) (f : Fields) (s : State) : Out :=
  issue .swait e f s fun _ s => s.swait e f

/-- SWATCH (R191): the watch is armed, tested in the same cycle, and the engine continues. -/
def execSwatch (e : Eng) (f : Fields) (s : State) : Out :=
  issue .swatch e f s fun _ s =>
    let w := syncWatch f
    let s1 := s.arm w (syncSem f) ((s.eng e).threshold f)
    (s1.testWatches fun i _ => i == w).syncDone e .swatch f

/-- The completion signal of an instruction that completes at issue with nothing before it. -/
def State.signalCs (s : State) (e : Nat) (f : Fields) : State :=
  let q := s.partOf e
  if f.cs ∧ (s.part q).runs then s.semAdd q f.csem.toNat 1 (s.localSrc q e) else s

/-- SADD and SSUB add `n` to the local semaphore (R189). -/
def State.localAdd (s : State) (e : Nat) (op : Op) (f : Fields) (n : Int) : State :=
  let q := s.partOf e
  ((s.passOn e op f).semAdd q (f.immF 0 16) n (s.localSrc q e)).signalCs e f

/-- SADD (R189). -/
def execSadd (e : Eng) (f : Fields) (s : State) : Out :=
  issueIf (quiet e) .sadd e f s fun _ s => s.localAdd e .sadd f (f.immF 32 32 : Nat)

/-- SSUB (R189). -/
def execSsub (e : Eng) (f : Fields) (s : State) : Out :=
  issueIf (quiet e) .ssub e f s fun _ s => s.localAdd e .ssub f (-(f.immF 32 32 : Nat))

/-- The address field of a SIGNAL packet: semaphore, n and the sender's epoch bits (Table 10.1, R199). -/
def signalAddr (sem n : Nat) (epoch : Dword) : Nat := sem + n * 2 ^ 16 + epoch.toNat % 4 * 2 ^ 32

/-- SSIG sends its numbered SIGNAL (R193); a rank not valid at injection faults the block (R253). -/
def State.ssig (s : State) (e : Nat) (f : Fields) : State :=
  let q := s.partOf e
  let dest : Endpoint := BitVec.ofNat 20 (f.immF 16 20)
  if s.destOk q dest then
    let k := s.packetTo q dest 2 0 (signalAddr (f.immF 0 16) (f.immF 36 16) (s.part q).epoch) 0 []
    ((s.passOn e .ssig f).inject q k).signalCs e f
  else (s.badRank q (epRank dest) 0xFF).rerunBlock e (s.eng e).pc.toNat 6

/-- SSIG (R193): numbered after every packet of earlier instructions. -/
def execSsig (e : Eng) (f : Fields) (s : State) : Out :=
  issueIf (fun s => quiet e s && !(s.part (s.partOf e)).injecting) .ssig e f s fun _ s => s.ssig e f

end Sys2Proof.Machine
end

