-- ==== Sys2Proof/Machine/Move.lean ====
section
/-!
DEFINITION. Machine/Move.lean: the Move family of the Culverts (R66-R69, R146, R147, R269, R270): MOVE, GATHER, SCATTER, PUT,
DISPATCH.
-/

namespace Sys2Proof.Machine

/-! ## Rows (R67) -/

/-- What a destination row receives: a source row's bits and entries unchanged, values to convert, or zeros. -/
inductive RowSrc where
  | raw (bits ents : List Nat)
  | vals (vs : List Val)
  | zeros

/-- Rows pass between the tensors without conversion. -/
def Tens.sameLayout (s d : Tens) : Bool := s.fmt == d.fmt && ((entBytes s.code == 0) || (!s.blkax && !d.blkax))

/-- Blocks along a row of a tensor with BLKAX = 0. -/
def Tens.rowBlocks (t : Tens) : Nat := (t.dim0 + blkLen t.code - 1) / blkLen t.code

def Tens.rowEnts (t : Tens) (rd : Nat → Byte) (p r : Nat) : List Nat :=
  if entBytes t.code = 0 then [] else (List.range t.rowBlocks).map fun b => t.ent rd p r (b * blkLen t.code)

/-- Source row (p, r) as destination `d` receives it. -/
def Tens.rowSrc (s d : Tens) (rd : Nat → Byte) (p r : Nat) : RowSrc :=
  if s.sameLayout d then .raw (s.rowBits rd p r) (s.rowEnts rd p r) else .vals (s.row rd p r)

/-- Write row (p, r) of `d` as bits and entries. -/
def Tens.rawRow (d : Tens) (rd : Nat → Byte) (p r : Nat) (bits ents : List Nat) : Emit :=
  { runs := d.rowRun rd p r bits ::
      (match d.sea with
       | some sea => if ents.isEmpty then [] else [⟨d.entAddr sea p r 0, d.shint, d.host, ents.flatMap fun e => leBytes (entBytes d.code) e⟩]
       | none => []) }

/-- Write row (p, r) of a destination whose blocks, if any, lie along the row. -/
def Tens.writeRow (d : Tens) (rd : Nat → Byte) (sofs : Int) (p r : Nat) (src : RowSrc) : Emit :=
  match src with
  | .raw bits ents => d.rawRow rd p r bits ents
  | .zeros => d.rawRow rd p r (List.replicate d.dim0 0) (List.replicate (if entBytes d.code = 0 then 0 else d.rowBlocks) 0)
  | .vals vs => if isMx d.code then d.emitMx0 rd sofs p r vs else d.emitRow rd p r vs

/-- A row source as values. -/
def RowSrc.toVals (src : RowSrc) (d : Tens) : List Val :=
  match src with
  | .vals vs => vs
  | .zeros => List.replicate d.dim0 .zero
  | .raw bits _ => bits.map fun b => eltVal d.code b

/-- The 32 rows of one block row of `d`, as a tensor of its own. -/
def Tens.blockRow (d : Tens) (p b : Nat) : Tens :=
  { d with dim1 := min 32 (d.dim1 - 32 * b), dim2 := 1, ea := d.rowAddr p (32 * b), sea := d.sea.map fun sea => d.entAddr sea p (32 * b) 0 }

/-- Write the rows of plane `p` that `rowsOf` names. With blocks along DIM1, a block that meets a named row is encoded anew
from its 32 rows. -/
def Tens.writeRows (d : Tens) (rd : Nat → Byte) (sofs : Int) (p : Nat) (rowsOf : Nat → Option RowSrc) : Emit :=
  if isMx d.code && d.blkax then
    Emit.join ((List.range ((d.dim1 + 31) / 32)).map fun b =>
      let rs := (List.range (min 32 (d.dim1 - 32 * b))).map fun i => 32 * b + i
      if rs.any fun r => (rowsOf r).isSome then
        (d.blockRow p b).emitMx1 rd sofs 0 (rs.map fun r =>
          match rowsOf r with
          | some src => src.toVals d
          | none => d.row rd p r)
      else {})
  else
    Emit.join ((List.range d.dim1).map fun r =>
      match rowsOf r with
      | some src => d.writeRow rd sofs p r src
      | none => {})

/-- What an instruction writes that gives each row of D a source of its own, or none (R67, R69). [DEDUCED, assumption 82] -/
def Tens.writePlanes (d : Tens) (rd : Nat → Byte) (sofs : Int) (rowsOf : Nat → Nat → Option RowSrc) : Emit :=
  Emit.join ((List.range d.dim2).map fun p => d.writeRows rd sofs p (rowsOf p))

/-- The instruction launches with an emission into `d`. -/
def State.launchEmit (s : State) (e : Nat) (op : Op) (f : Fields) (d : Tens) (em : Emit) : State :=
  s.launchWith e op f em.runs (tidCensus d em.cls)

/-! ## MOVE (R66) -/

/-- Rows of values or bits with DIM0 and DIM1 exchanged. -/
def Tens.transRows {α : Type} (d : Tens) (get : Nat → Nat → Nat → α) : List (List α) :=
  d.rows.map fun pr => (List.range d.dim0).map fun c => get pr.1 c pr.2

/-- VCVT computes every element: it widens to the compute format, to which an AF40 source rounds, and rounds once into D's format, also
where the two formats are the same (R139). -/
def vcvtEmit (s d : Tens) (rs rd : Nat → Byte) (sofs : Int) (tr : Bool) : Emit :=
  let v (p r c : Nat) : Val := let x := s.val rs p r c; if s.code = 0x0A then x.roundTo fp32 else x
  d.emit rd sofs (if tr then d.transRows v else s.rows.map fun pr => (List.range s.dim0).map fun c => v pr.1 pr.2 c)

/-- Copy or convert tensor `s` into `d`; `tr` transposes. A Sedge (`sdg`) computes, but for a copy between RFX tensors of one format,
which no rule rounds. -/
def moveEmit (sdg : Bool) (s d : Tens) (rs rd : Nat → Byte) (sofs : Int) (tr : Bool) : Emit :=
  if sdg ∧ !isRfx d.code then vcvtEmit s d rs rd sofs tr
  else if tr then
    if s.fmt = d.fmt then { runs := d.emitBits rd (d.transRows fun p r c => s.bits rs p r c) }
    else d.emit rd sofs (d.transRows fun p r c => s.val rs p r c)
  else if s.fmt = d.fmt ∧ (entBytes s.code = 0 ∨ s.blkax = d.blkax) then
    { runs := d.emitBits rd (s.rows.map fun pr => s.rowBits rs pr.1 pr.2) ++
        (s.entRuns.zip d.entRuns).map fun x => ⟨x.2.1, d.shint, d.host, (List.range x.1.2).map fun i => rs (x.1.1 + i)⟩ }
  else d.emit rd sofs (s.allRows rs)

/-- MOVE and VCVT on engine `e`. -/
def State.moveOn (s : State) (e : Nat) (p : Plan) (op : Op) (f : Fields) : State :=
  let src := (s.eng e).tens f.s1
  let d := (s.eng e).tens f.d
  s.withTensors e p [src] [d] fun s =>
    let em := moveEmit (op == .vcvt) src d (s.rdOf e src) (s.rdOf e d) (p.sofs d.recipe d.code) (f.mod.getLsbD 0)
    (s.launchEmit e op f d em).hostTurn [src]

/-- MOVE (R66). -/
def execMove (e : Eng) (f : Fields) (s : State) : Out := issue .move e f s fun p s => s.moveOn e p .move f

/-! ## GATHER and SCATTER (R67) -/

/-- Index `i` of the index tensor: element 0 of its row i. -/
def Tens.index (t : Tens) (rd : Nat → Byte) (i : Nat) : Int := sgn 32 (t.bits rd 0 i 0)

def inRows (n : Nat) (i : Int) : Bool := decide (0 ≤ i) && decide (i < (n : Int))

/-- Indices of the first `n` rows that lie outside 0 to `m` − 1. [DESIGN CHOICE, assumption 22] -/
def Tens.badIndices (t : Tens) (rd : Nat → Byte) (n m : Nat) : Nat :=
  ((List.range n).filter fun i => !inRows m (t.index rd i)).length

/-- A row of a plane that the source lacks: no value is stated. [DESIGN CHOICE, assumption 22] -/
def missingRow (d : Tens) (p r : Nat) : RowSrc :=
  let bit (k c : Nat) : Nat := Config.missing (d.rowAddr p r) (2 * c + k)
  .raw ((List.range d.dim0).map fun c => bit 0 c % 2 ^ fmtBits d.code)
    (if entBytes d.code = 0 then [] else (List.range d.rowBlocks).map fun b => bit 1 b % 256 ^ entBytes d.code)

/-- Count indices out of range. -/
def State.addIdx (s : State) (e n : Nat) : State := s.modEng e fun x => { x with idxRange := x.idxRange + n }

/-- GATHER (R67). [DESIGN CHOICE, assumption 22] -/
def execGather (e : Eng) (f : Fields) (s : State) : Out :=
  issue .gather e f s fun p s =>
    let src := (s.eng e).tens f.s1
    let d := (s.eng e).tens f.d
    let ix := (s.eng e).tens f.s2
    s.withTensors e p [src, ix] [d] fun s =>
      let ri := s.rdOf e ix
      let rs := s.rdOf e src
      let em := d.writePlanes (s.rdOf e d) (p.sofs d.recipe d.code) fun pl r =>
        let i := ix.index ri r
        some (if !inRows src.dim1 i then .zeros
              else if src.dim2 ≤ pl then missingRow d pl r
              else src.rowSrc d rs pl i.toNat)
      ((s.launchEmit e .gather f d em).addIdx e (ix.badIndices ri d.dim1 src.dim1)).hostTurn [src, ix]

/-- FP32 addition, element by element. [DEDUCED, assumption 82] -/
def addRows (a b : List Val) : List Val := List.zipWith (fun x y => ((x.rd fp32).add (y.rd fp32)).roundTo fp32) a b

/-- What row `r` of D's plane `p` becomes under a SCATTER: source rows that name it, in increasing order. [DEDUCED, assumption 82] -/
def scatterRow (src d ix : Tens) (rs rd ri : Nat → Byte) (add : Bool) (p r : Nat) : Option RowSrc :=
  let hits := (List.range src.dim1).filter fun i => decide (ix.index ri i = (r : Int))
  if src.dim2 ≤ p then none
  else match hits.getLast? with
    | none => none
    | some i =>
      if add then some (.vals (hits.foldl (fun acc i => addRows acc (src.row rs p i)) (d.row rd p r)))
      else some (src.rowSrc d rs p i)

/-- The rows of D that a SCATTER reads, as tensors of their own: those that it adds to, and the other rows of a block along
DIM1 that it encodes anew. -/
def scatterReads (src d ix : Tens) (ri : Nat → Byte) (add : Bool) : List Tens :=
  let hit (r : Nat) : Bool := (List.range src.dim1).any fun i => decide (ix.index ri i = (r : Int))
  let planes := List.range (min src.dim2 d.dim2)
  if isMx d.code && d.blkax then
    planes.flatMap fun p => ((List.range ((d.dim1 + 31) / 32)).filter fun b =>
      (List.range (min 32 (d.dim1 - 32 * b))).any fun i => hit (32 * b + i)).map (d.blockRow p)
  else if add then planes.flatMap fun p => ((List.range d.dim1).filter hit).map fun r =>
    { d with dim1 := 1, dim2 := 1, ea := d.rowAddr p r, sea := d.sea.map fun sea => d.entAddr sea p r 0 }
  else []

/-- SCATTER (R67). -/
def execScatter (e : Eng) (f : Fields) (s : State) : Out :=
  issue .scatter e f s fun p s =>
    let src := (s.eng e).tens f.s1
    let d := (s.eng e).tens f.d
    let ix := (s.eng e).tens f.s2
    let add := f.mod.getLsbD 0
    s.withTensors e p [src, ix] [d] fun s => s.withTensors e p (scatterReads src d ix (s.rdOf e ix) add) [] fun s =>
      let em := d.writePlanes (s.rdOf e d) (p.sofs d.recipe d.code)
        (scatterRow src d ix (s.rdOf e src) (s.rdOf e d) (s.rdOf e ix) add)
      ((s.launchEmit e .scatter f d em).addIdx e (ix.badIndices (s.rdOf e ix) src.dim1 d.dim1)).hostTurn [src, ix, d]

/-! ## PUT (R68, R269, R270) -/

/-- WFMT of an arrival format: 0 when the bytes travel as they are. -/
def wfmtOf (arrival : Nat) : Nat := if arrival = 0 then 1 else if arrival = 1 then 2 else if arrival = 2 then 3 else 0

/-- Join a run to the one before it when it begins where that one ends. [DEDUCED, assumption 83] -/
def mergeRuns : List (Nat × Nat) → List (Nat × Nat)
  | [] => []
  | (a, n) :: r =>
    match mergeRuns r with
    | (b, m) :: r' => if a + n = b then (a, n + m) :: r' else (a, n) :: (b, m) :: r'
    | [] => [(a, n)]

/-- Cut a run of `n` units into (offset, length) pieces of at most `k`. -/
def pieces (n k : Nat) : List (Nat × Nat) := (List.range ((n + k - 1) / k)).map fun i => (i * k, min k (n - i * k))

/-- The address that lies as far from `base` as `a` lies from `ea`. [DEDUCED, assumption 83] -/
def shifted (base a ea : Nat) : Nat := unsgn 48 ((base : Int) + a - ea)

/-- Plain packets: the tensor's bytes as they are, at most 4,096 per packet. [DEDUCED, assumption 83] -/
def plainPackets (t : Tens) (rd : Nat → Byte) (base : Nat) : List (Nat × List Byte) :=
  (mergeRuns t.runs).flatMap fun ab =>
    (pieces ab.2 4096).map fun on => (shifted base (ab.1 + on.1) t.ea, (List.range on.2).map fun i => rd (ab.1 + on.1 + i))

/-- The MX blocks of a tensor in linear order: the address of each block's elements, and its scale byte and elements. The elements
of a block along DIM1 do not lie side by side, and the receiver writes a block's elements side by side (R269): these blocks take
places one after another, in the order of their entries. [DEDUCED, assumption 83] -/
def Tens.mxBlocks (t : Tens) (rd : Nat → Byte) : List (Nat × List Byte) :=
  if t.blkax then
    let nb := (t.dim1 + 31) / 32
    (List.range t.dim2).flatMap fun p => (List.range nb).flatMap fun b => (List.range t.dim0).map fun c =>
      (t.ea + 32 * ((p * nb + b) * t.dim0 + c),
        BitVec.ofNat 8 (t.ent rd p (32 * b) c) :: (List.range 32).map fun i => BitVec.ofNat 8 (t.bits rd p (32 * b + i) c))
  else t.rows.flatMap fun pr => (List.range (t.dim0 / 32)).map fun b =>
    (t.rowAddr pr.1 pr.2 + 32 * b,
      BitVec.ofNat 8 (t.ent rd pr.1 pr.2 (32 * b)) :: (List.range 32).map fun i => rd (t.rowAddr pr.1 pr.2 + 32 * b + i))

/-- Gather contiguous blocks, at most 124 to a packet: (first address, blocks, bytes), newest first. -/
def packBlocks (acc : List (Nat × Nat × List Byte)) (b : Nat × List Byte) : List (Nat × Nat × List Byte) :=
  match acc with
  | (a, n, bs) :: r => if a + 32 * n = b.1 ∧ n < 124 then (a, n + 1, bs ++ b.2) :: r else (b.1, 1, b.2) :: acc
  | [] => [(b.1, 1, b.2)]

/-- Widening packets: whole blocks, each landing at its source offset times the arrival element's size. [DEDUCED, assumption 83] -/
def widePackets (t : Tens) (rd : Nat → Byte) (base wide : Nat) : List (Nat × List Byte) :=
  ((t.mxBlocks rd).foldl packBlocks []).reverse.map fun x =>
    (unsgn 48 ((base : Int) + ((x.1 : Int) - t.ea) * wide), x.2.2)

/-- The payloads of a PUT, with WFMT. [DEDUCED, assumption 83] -/
def putPayloads (p : Plan) (t : Tens) (rd : Nat → Byte) (base : Nat) : Nat × List (Nat × List Byte) :=
  let w := if t.code = 5 then wfmtOf (p.arrival t.recipe) else 0
  if w = 0 then (0, plainPackets t rd base) else (w, widePackets t rd base (if w = 1 then 4 else 2))

/-- The endpoint of partition `q` at module `d`, or the module's own where its table names none there. [DEDUCED, assumption 41] -/
def State.endpointAt (s : State) (q : Nat) (d : BitVec 17) : Endpoint :=
  match (s.part q).plan.bind fun p => (List.range p.shape.ranks.length).find? fun r => (s.rankEnt q r).valid && (s.rankEnt q r).coord == d with
  | some r => BitVec.ofNat 20 (4 * r + q)
  | none => s.endpointOf q

/-- A multicast packet for the chain's next module (R270, R271); it carries the watermark for the peer there (R267). [DEDUCED, assumption 41] -/
def State.mcastPacket (s : State) (q : Nat) (next : BitVec 17) (vc chain wfmt addr : Nat) (body : List Byte) : Packet :=
  { s.packetTo q (s.endpointAt q next) 1 vc addr wfmt body with
    dcoord := next, dirs := s.dirsTo (s.part q).plan next, chain := BitVec.ofNat 16 chain }

/-- Send the packets of a PUT: to one endpoint, or along a chain. -/
def State.putSend (s : State) (q : Nat) (f : Fields) (w : Nat) (ps : List (Nat × List Byte)) : State :=
  let vc := f.modF 0 3
  if f.modF 3 4 = 0 then
    s.together fun s => ps.foldl (fun s ab => s.inject q (s.packetTo q (BitVec.ofNat 20 (f.immF 0 20)) 0 vc ab.1 w ab.2)) s
  else
    match (s.part q).plan with
    | none => s
    | some p =>
      match p.shape.chains.find? fun c => c.index.toNat == f.immF 0 16 with
      | none => s
      | some c =>
        if c.next = 0xFFFFFFFF then s
        else s.together fun s => ps.foldl (fun s ab => s.injectRing q (s.mcastPacket q (BitVec.ofNat 17 c.next.toNat) vc (f.immF 0 16) w ab.1 ab.2)) s

/-- PUT (R68): its source is read at issue; a rank not valid at injection faults the block (R253). -/
def State.put (s : State) (e : Nat) (p : Plan) (f : Fields) : State :=
  let q := s.partOf e
  let t := (s.eng e).tens f.s1
  let base := (s.eng e).ea ((s.eng e).aVal (specIdx f.d % 16))
  let dest : Endpoint := BitVec.ofNat 20 (f.immF 0 20)
  if f.modF 3 4 = 0 ∧ !s.destOk q dest then
    (s.badRank q (epRank dest) 0xFF).rerunBlock e (s.eng e).pc.toNat 6
  else
    s.withTensors e p [t] [] fun s =>
      let (w, ps) := putPayloads p t (s.rdOf e t) base
      let s1 := (s.launchWith e .put f [] []).putSend q f w ps
      (s1.count q e 18 ps.length).hostTurn [t]

/-- PUT (R68). -/
def execPut (e : Eng) (f : Fields) (s : State) : Out := issue .put e f s fun p s => s.put e p f

/-! ## DISPATCH (R146, R147) -/

/-- Filling of the expert buffers: rows placed per expert (slot order), drops per expert, choices out of range, and where
each (token, choice) went. -/
structure Fill where
  placed : List (Nat × Nat × Nat) := []
  used : Tab Nat := []
  dropped : Tab Nat := []
  outside : Nat := 0
  slots : List ((Nat × Nat) × Int) := []

/-- Place choice `j` of token `i`, expert `x`, of `n` experts with capacity `cap`. [DEDUCED, assumption 82] -/
def Fill.choose (a : Fill) (n cap i j : Nat) (x : Int) : Fill :=
  if !inRows n x then { a with outside := a.outside + 1, slots := ((i, j), -1) :: a.slots }
  else
    let k := x.toNat
    let u := a.used.get 0 k
    if u < cap then
      { a with placed := (k, u, i) :: a.placed, used := a.used.set k (u + 1), slots := ((i, j), (u : Int)) :: a.slots }
    else { a with dropped := a.dropped.set k (a.dropped.get 0 k + 1), slots := ((i, j), -1) :: a.slots }

/-- Pass `j` over all tokens, in increasing token index. -/
def Fill.pass (a : Fill) (rt : Tens) (rd : Nat → Byte) (tokens n cap j : Nat) : Fill :=
  (List.range tokens).foldl (fun a i => a.choose n cap i j (sgn 32 (rt.bits rd 0 i j))) a

/-- Both passes (R146). -/
def fillOf (rt : Tens) (rd : Nat → Byte) (tokens n cap : Nat) (top2 : Bool) : Fill :=
  let a := Fill.pass {} rt rd tokens n cap 0
  if top2 then a.pass rt rd tokens n cap 1 else a

def Fill.total (a : Fill) : Nat := a.dropped.foldl (fun n kv => n + kv.2) 0

/-- The counts row and the slot map of S3 (R147). -/
def Fill.report (a : Fill) (m : Tens) (rd : Nat → Byte) (experts tokens choices : Nat) : List WriteRun :=
  m.rowRun rd 0 0 ((List.range m.dim0).map fun x => if x < experts then a.dropped.get 0 x else 0) ::
  (List.range (min tokens (m.dim1 - 1))).map fun i =>
    ⟨m.rowAddr 0 (1 + i), m.hint, m.host, (List.range choices).flatMap fun j =>
      leBytes 4 (match a.slots.find? fun e => e.1 == (i, j) with | some e => unsgn 32 e.2 | none => unsgn 32 (-1))⟩

/-- DISPATCH (R69, R146, R147). [DEDUCED, assumption 82] -/
def execDispatch (e : Eng) (f : Fields) (s : State) : Out :=
  issue .dispatch e f s fun p s =>
    let src := (s.eng e).tens f.s1
    let d := (s.eng e).tens f.d
    let rt := (s.eng e).tens f.s2
    let m := (s.eng e).tens f.s3
    let top2 := f.mod.getLsbD 0
    s.withTensors e p [src, rt] [d, m] fun s =>
      let a := fillOf rt (s.rdOf e rt) src.dim1 d.dim2 d.dim1 top2
      let em := d.writePlanes (s.rdOf e d) (p.sofs d.recipe d.code) fun x r =>
        match a.placed.find? fun t => t.1 == x && t.2.1 == r with
        | some t => some (src.rowSrc d (s.rdOf e src) 0 t.2.2)
        | none => some .zeros
      let rep := a.report m (s.rdOf e m) d.dim2 src.dim1 (if top2 then 2 else 1)
      let s1 := s.launchWith e .dispatch f (em.runs ++ rep) (tidCensus d em.cls)
      ((s1.modEng e fun x => { x with dropCnt := x.dropCnt + a.total + a.outside }).addIdx e a.outside).hostTurn [src, rt]

end Sys2Proof.Machine
end

