-- ==== Sys2Proof/Machine/Matrix.lean ====
section
/-!
DEFINITION. Machine/Matrix.lean: the Matrix family of the Tussocks (R70-R74, R98, R105, R106, R114-R133): MMA, MMAX, ACCSP,
ACCRS, ACCCB, EPI.
-/

namespace Sys2Proof.Machine

/-! ## Operands (R98, R105) -/

/-- An operand element: its value, and its unbiased exponent (1 − bias for a subnormal). -/
structure Elt where
  v : Val
  x : Int

def zeroElt : Elt := ⟨.zero, 0⟩

/-- A word of a floating-point format as an operand element. -/
def Flt.elt (f : Flt) (w : Nat) : Elt :=
  let v := f.read w
  ⟨v, match v with | .fin _ _ e => e + f.p - 1 | _ => 0⟩

/-- The feeder's view of an element: 4-bit weights are expanded to E4M3 (R98). -/
def eltOf (f bits : Nat) : Elt :=
  if f = 7 then e4m3.elt (e4m3.put (e2m1.read bits))
  else if f = 9 then e4m3.elt (e4m3.put (.ofZ (sgn 4 bits)))
  else match fltOf f with
    | some x => x.elt bits
    | none => ⟨.ofZ (sgn (intBits f) bits), 0⟩

/-- One row of an operand: its elements, and per group of 32 the exponent X − 127 of its block, none where X is 0xFF. -/
structure OpRow where
  elts : List Elt
  scales : List (Option Int)

/-- Row `i` of an operand; rows at or beyond DIM1 read as zero (R114). -/
def Tens.opRow (t : Tens) (rd : Nat → Byte) (i : Nat) : OpRow :=
  let ng := t.dim0 / 32
  if i < t.dim1 then
    { elts := (List.range t.dim0).map fun k => eltOf t.code (t.bits rd 0 i k)
      scales := (List.range ng).map fun g =>
        if isMx t.code then (let e := t.ent rd 0 i (32 * g); if e = 0xFF then none else some ((e : Int) - 127)) else some 0 }
  else { elts := List.replicate t.dim0 zeroElt, scales := List.replicate ng (some 0) }

/-- Piece `k` (0 hi, 1 mid, 2 lo) of an FP32 value, a BF16 value cut off below BF16's smallest subnormal (R105). -/
def splitPiece (w k : Nat) : Elt :=
  match fp32.read w with
  | .fin s m e =>
    let m' := fld m (16 - 8 * k) 8
    let e' := e + (16 - 8 * k : Nat)
    if e' < -133 then bf16.elt (bf16.write (.fin s (m' >>> (-133 - e').toNat) (-133)))
    else bf16.elt (bf16.write (.fin s m' e'))
  | v => if k = 0 then bf16.elt (bf16.write v) else zeroElt

/-! ## Group sums (R120-R123) -/

/-- A product and expo(p). -/
def prodOf (a b : Elt) : Val × Int := (a.v.mul b.v, a.x + b.x)

/-- A finite value cut toward zero to a multiple of 2^q, in units of 2^q, and whether bits were dropped. -/
def cutTo (v : Val) (q : Int) : Int × Bool :=
  match v with
  | .fin s m e =>
    if q ≤ e then (scaleInt s m e q, false)
    else
      let d := (q - e).toNat
      let t := m >>> d
      (if s then -(t : Int) else t, decide (m % 2 ^ d ≠ 0))
  | _ => (0, false)

def nonZero (v : Val) : Bool := v.finite && !v.isZero

/-- emax: the largest expo(p) of the non-zero finite products. -/
def emaxOf (ps : List (Val × Int)) : Option Int :=
  ps.foldl (fun a p => if nonZero p.1 then (match a with | none => some p.2 | some y => some (if y < p.2 then p.2 else y)) else a) none

/-- The sum of one group and its sticky bit: `drop` is 47, or 23 in FAST mode; `sc` is xa + xb, none for a NaN block. -/
def groupSum (drop : Int) (ps : List (Val × Int)) (sc : Option Int) : Val × Bool :=
  match sc with
  | none => (.nan, false)
  | some k =>
    if ps.any fun p => p.1.isNan then (.nan, false)
    else
      let pos := ps.any fun p => p.1 == .inf false
      let neg := ps.any fun p => p.1 == .inf true
      if pos && neg then (.nan, false)
      else if pos then (.inf false, false)
      else if neg then (.inf true, false)
      else match emaxOf ps with
        | none => (.fin (ps.all fun p => p.1.sign) 0 0, false)
        | some emax =>
          let q := emax - drop
          let ts := ps.map fun p => cutTo p.1 q
          ((ofInt (ts.foldl (fun a t => a + t.1) 0) q false).scale k, ts.any fun t => t.2)

/-- acc + w rounded once into the accumulator (R121); with no accumulator value present, w alone. -/
def addGroup (f : Flt) (acc : Option Val) (w : Val × Bool) : Val :=
  match acc with
  | none => w.1.roundTo f w.2
  | some a => (a.add w.1).roundTo f w.2

def scaleSum (a b : Option Int) : Option Int :=
  match a, b with
  | some x, some y => some (x + y)
  | _, _ => none

/-- One cell over all groups of an MMA: the new value and the set of groups with sticky = 1, as bits. -/
def mmaCell (f : Flt) (drop : Int) (a b : OpRow) (init : Option Val) : Option Val × Nat :=
  (List.range a.scales.length).foldl (fun acc g =>
    let ps := List.zipWith prodOf ((a.elts.drop (32 * g)).take 32) ((b.elts.drop (32 * g)).take 32)
    let w := groupSum drop ps (scaleSum ((a.scales[g]?).getD none) ((b.scales[g]?).getD none))
    (some (addGroup f acc.1 w), if w.2 then acc.2 ||| 2 ^ g else acc.2)) (init, 0)

/-- The passes of Table 4.5, as pairs of pieces. [DEDUCED, assumption 88] -/
def splitPasses (three : Bool) : List (Nat × Nat) :=
  if three then [(0, 0), (0, 1), (1, 0), (0, 2), (1, 1), (2, 0)] else [(0, 0), (0, 1), (1, 0)]

/-- The products of one pass over one group; in every pass but hi·hi a product with a zero piece is absent (R105). [DEDUCED, assumption 88] -/
def passProducts (a b : List Nat) (pq : Nat × Nat) : List (Val × Int) :=
  let es := List.zipWith (fun x y => (splitPiece x pq.1, splitPiece y pq.2)) a b
  (if pq = (0, 0) then es else es.filter fun e => !e.1.v.isZero && !e.2.v.isZero).map fun e => prodOf e.1 e.2

/-- One cell over all groups of an MMAX (R119). [DEDUCED, assumption 88] -/
def mmaxCell (three : Bool) (a b : List Nat) (init : Option Val) : Option Val × Nat :=
  (List.range (a.length / 32)).foldl (fun acc g =>
    (splitPasses three).foldl (fun acc pq =>
      let ps := passProducts ((a.drop (32 * g)).take 32) ((b.drop (32 * g)).take 32) pq
      if ps.isEmpty then acc
      else
        let w := groupSum 47 ps (some 0)
        (some (addGroup af40 acc.1 w), if w.2 then acc.2 ||| 2 ^ g else acc.2)) acc) (init, 0)

/-- Saturate at the ends of INT32; the flag says that it did (R128). -/
def satInt (i : Int) : Int × Bool :=
  if i < -2147483648 then (-2147483648, true) else if 2147483647 < i then (2147483647, true) else (i, false)

/-- One INT32 cell over all groups: the new value and the number of saturating adds. -/
def intCell (a b : List Int) (init : Int) : Int × Nat :=
  (List.range (a.length / 32)).foldl (fun acc g =>
    let w := (List.zipWith (fun x y => x * y) ((a.drop (32 * g)).take 32) ((b.drop (32 * g)).take 32)).foldl (fun x y => x + y) 0
    let r := satInt (acc.1 + w)
    (r.1, if r.2 then acc.2 + 1 else acc.2)) (init, 0)

/-! ## Tiles (R115) -/

def Tile.word (t : Tile) (i j : Nat) : AF40 := t.cells.get 0 (32 * i + j)
def Tile.val (t : Tile) (i j : Nat) : Val := ofAf (t.word i j)
def Tile.int (t : Tile) (i j : Nat) : Int := sgn 32 (t.word i j).toNat

/-- The cells (i, j), by cell number. -/
def cellsOf : List (Nat × Nat) := (List.range 32).flatMap fun i => (List.range 32).map fun j => (i, j)

/-- The table of a full tile; cells of word 0 are unlisted. -/
def tileOf (ws : List AF40) : Tab AF40 := (ws.mapIdx fun n w => (n, w)).filter fun kv => kv.2 != 0

def intWord (i : Int) : AF40 := BitVec.ofNat 40 (unsgn 32 i)

def Engine.setTile (x : Engine) (i : Bool) (t : Tile) : Engine := if i then { x with tile1 := t } else { x with tile0 := t }

/-- Bits set in a number, over its low `n` bits. -/
def bitsSet (n v : Nat) : Nat := ((List.range n).filter fun i => bitAt v i).length

/-! ## Forced spills (R126) -/

/-- Plane `h` of a spill tensor, as a 32 × 32 tensor. -/
def Tens.half (t : Tens) (h : Nat) : Tens := { t with dim2 := 1, ea := t.ea + h * t.pitch2 }

/-- Write a 32 × 32 tile of words. -/
def Tens.tileRuns (t : Tens) (ws : Nat → Nat → Nat) : List WriteRun :=
  (List.range 32).map fun r =>
    ⟨t.rowAddr 0 r, t.hint, t.host, (List.range 32).flatMap fun c => leBytes (fmtBits t.code / 8) (ws r c)⟩

/-- The half that the next forced spill reads: none for the first. -/
def Tile.spillReads (t : Tile) : List Tens := if t.spills = 0 then [] else [t.spill.half ((t.spills + 1) % 2)]

/-- The running totals of forced spill number `spills`: the other half, or 0 for the first, plus the residue. -/
def Tile.totals (t : Tile) (rd : Nat → Byte) (r c : Nat) : Val :=
  let old : Val := if t.spills = 0 then .zero else ofAf (BitVec.ofNat 40 ((t.spill.half ((t.spills + 1) % 2)).bits rd 0 r c))
  old.add (t.val r c)

/-- Forced spill number `spills` writes the totals, rounded once; then the residue and the group count are zero. -/
def Tile.forceSpill (t : Tile) (rd : Nat → Byte) : Tile × List WriteRun :=
  ({ t with cells := [], groups := 0, spills := t.spills + 1 },
    (t.spill.half (t.spills % 2)).tileRuns fun r c => (toAf (t.totals rd r c)).toNat)

/-- What the roundings of a forced spill report (R113). -/
def Tile.spillCensus (t : Tile) (rd : Nat → Byte) : List (BitVec 16 × Nat × Nat × Nat × Nat) :=
  tidCensus t.spill (cellsOf.map fun ij => (convElt 0x0A (t.totals rd ij.1 ij.2)).2)

/-! ## MMA and MMAX (R70-R72) -/

/-- Two operands that the feeder serves as one (R118). -/
def Tens.sameOperand (a b : Tens) : Bool :=
  a.ea == b.ea && a.dim0 == b.dim0 && a.dim1 == b.dim1 && a.pitch1 == b.pitch1 && a.fmt == b.fmt && a.sea == b.sea

/-- The operand stands in the buffer. -/
def servedBy (o : Option Tens) (t : Tens) : Bool :=
  match o with
  | some y => y.sameOperand t
  | none => false

/-- The operands that the buffer serves, and those that are read from the Peat. -/
def Engine.served (x : Engine) (a b : Tens) : List Tens × List Tens :=
  ((if servedBy x.opA a then [a] else []) ++ (if servedBy x.opB b then [b] else []),
    (if servedBy x.opA a then [] else [a]) ++ (if servedBy x.opB b then [] else [b]))

/-- The MMA of the fast mode must spill before it adds (R126). [DEDUCED, assumption 100] -/
def Engine.spillDue (x : Engine) (f : Fields) : Bool :=
  f.modF 0 2 == 1 && !x.zeroing f && decide (128 < (x.tile (f.mod.getLsbD 6)).groups + (x.tens f.s1).dim0 / 32)

/-- The tile as the MMA finds it: cleared by ZE, entering its mode; it spills to the S3 of this MMA. [DEDUCED, assumption 100] -/
def Engine.tileFor (x : Engine) (f : Fields) (m : TileMode) (spill : Tens) : Tile :=
  let t := x.tile (f.mod.getLsbD 6)
  if x.zeroing f then { mode := m, spill := spill } else { t with mode := m, spill := spill }

/-- The sums of an MMA over tile `t`: new cells, the groups with sticky bits, and the saturating adds. -/
def mmaSums (t : Tile) (a b : Tens) (rd : Nat → Byte) (zero : Bool) : Tab AF40 × Nat × Nat :=
  if t.mode = .int32 then
    let row (x : Tens) (i : Nat) : List Int :=
      (List.range x.dim0).map fun k => if i < x.dim1 then sgn 8 (x.bits rd 0 i k) else 0
    let ra := (List.range 32).map fun i => row a i
    let rb := (List.range 32).map fun i => row b i
    let cs := cellsOf.map fun ij => intCell (ra.getD ij.1 []) (rb.getD ij.2 []) (if zero then 0 else t.int ij.1 ij.2)
    (tileOf (cs.map fun c => intWord c.1), 0, cs.foldl (fun n c => n + c.2) 0)
  else
    let fast := t.mode == .fast
    let ra := (List.range 32).map fun i => a.opRow rd i
    let rb := (List.range 32).map fun i => b.opRow rd i
    let cs := cellsOf.map fun ij =>
      mmaCell (if fast then fast16 else af40) (if fast then 23 else 47) (ra.getD ij.1 ⟨[], []⟩) (rb.getD ij.2 ⟨[], []⟩)
        (if zero then none else some (t.val ij.1 ij.2))
    (tileOf (cs.map fun c => toAf (c.1.getD .zero)), cs.foldl (fun n c => n ||| c.2) 0, 0)

/-- The end of a matrix instruction on tile `i`: it launches when it spilled or carries CS, and is done otherwise. -/
def State.matrixDone (s : State) (e : Nat) (op : Op) (f : Fields) (ws : List WriteRun)
    (cs : List (BitVec 16 × Nat × Nat × Nat × Nat)) : State :=
  if ws.isEmpty && !f.cs then s.passOn e op f
  else s.launch e { s.entry e op f with writes := ws, census := cs } (isRestart (s.eng e).pc.toNat op f || !ws.isEmpty)

/-- MMA over its operands (R114-R128). -/
def State.mma (s : State) (e : Nat) (p : Plan) (f : Fields) : State :=
  let x := s.eng e
  let q := s.partOf e
  let a := x.tens f.s1
  let b := x.tens f.s2
  let m := modeOf (f.modF 0 2)
  let sp := if f.modF 0 2 = 1 then x.tens f.s3 else {}
  let due := x.spillDue f
  let ng := a.dim0 / 32
  let t0 := x.tileFor f m sp
  let sv := x.served a b
  s.withTensors e p (sv.2 ++ if due then t0.spillReads else []) (sv.1 ++ if f.modF 0 2 = 1 then [sp] else []) fun s =>
    let rd := s.rdOf e a
    let (t1, ws) := if due then t0.forceSpill rd else (t0, [])
    let zero := x.zeroing f
    let (cells, sticky, sat) := mmaSums t1 a b rd zero
    let t2 := { t1 with cells := cells, groups := if m = .fast then t1.groups + ng else 0 }
    let s1 := s.modEng e fun x =>
      { x.setTile (f.mod.getLsbD 6) t2 with satCnt := x.satCnt + sat, opA := some a, opB := some b }
    let s2 := (((s1.count q e 16 ng).count q e 17 (bitsSet ng sticky)).count q e 18 (if due then 1 else 0)).count q e 19 sv.1.length
    s2.matrixDone e .mma f ws (if due then t0.spillCensus rd else [])

/-- MMA (R70): one that spills is a restart point and waits for the last checkpoint's copy (R80, R127). -/
def execMma (e : Eng) (f : Fields) (s : State) : Out :=
  issueIf (fun s => !((s.eng e).spillDue f && (s.eng e).ckptBusy)) .mma e f s fun p s => s.mma e p f

/-- The sums of an MMAX over tile `t`: new cells, and the groups with sticky bits. -/
def mmaxSums (t : Tile) (a b : Tens) (rd : Nat → Byte) (three zero : Bool) : Tab AF40 × Nat :=
  let row (y : Tens) (i : Nat) : List Nat := (List.range y.dim0).map fun k => if i < y.dim1 then y.bits rd 0 i k else 0
  let ra := (List.range 32).map fun i => row a i
  let rb := (List.range 32).map fun i => row b i
  let cs := cellsOf.map fun ij =>
    mmaxCell three (ra.getD ij.1 []) (rb.getD ij.2 []) (if zero then none else some (t.val ij.1 ij.2))
  (tileOf (cs.map fun c => toAf (c.1.getD .zero)), cs.foldl (fun n c => n ||| c.2) 0)

/-- MMAX over its operands (R119). -/
def State.mmax (s : State) (e : Nat) (p : Plan) (f : Fields) : State :=
  let x := s.eng e
  let q := s.partOf e
  let a := x.tens f.s1
  let b := x.tens f.s2
  let three := f.modF 0 2 == 1
  let ng := a.dim0 / 32
  let sv := x.served a b
  s.withTensors e p sv.2 sv.1 fun s =>
    let rd := s.rdOf e a
    let t := x.tileFor f .af40 {}
    let (cells, sticky) := mmaxSums t a b rd three (x.zeroing f)
    let t1 := { t with cells := cells }
    let s1 := s.modEng e fun x => { x.setTile (f.mod.getLsbD 6) t1 with opA := some a, opB := some b }
    let s2 := ((s1.count q e 16 (ng * (splitPasses three).length)).count q e 17 (bitsSet ng sticky)).count
      q e 19 sv.1.length
    s2.matrixDone e .mmax f [] []

/-- MMAX (R72). -/
def execMmax (e : Eng) (f : Fields) (s : State) : Out := issue .mmax e f s fun p s => s.mmax e p f

/-! ## ACCSP, ACCRS, ACCCB (R73, R129, R130) -/

/-- ACCSP (R73): the tile's words unchanged. -/
def execAccsp (e : Eng) (f : Fields) (s : State) : Out :=
  issue .accsp e f s fun p s =>
    let d := (s.eng e).tens f.d
    let t := (s.eng e).tile (f.mod.getLsbD 6)
    s.withTensors e p [] [d] fun s => s.launchWith e .accsp f (d.tileRuns fun r c => (t.word r c).toNat) []

/-- Bytes with some writes laid over them. -/
def overRuns (ws : List WriteRun) (rd : Nat → Byte) (a : Nat) : Byte :=
  match pendingByte ws false a with
  | some b => b
  | none => rd a

/-- An ACCRS into a FAST tile with groups pending spills first (R126). [DEDUCED, assumption 100] -/
def Engine.accrsSpills (x : Engine) (f : Fields) : Bool :=
  let t := x.tile (f.mod.getLsbD 6)
  t.mode == .fast && decide (0 < t.groups)

/-- ACCRS (R73): after any forced spill, the tensor's words unchanged. -/
def State.accrs (s : State) (e : Nat) (p : Plan) (f : Fields) : State :=
  let x := s.eng e
  let t := x.tile (f.mod.getLsbD 6)
  let src := x.tens f.s1
  let due := x.accrsSpills f
  s.withTensors e p (src :: if due then t.spillReads else []) (if due then [t.spill] else []) fun s =>
    let rd := s.rdOf e src
    let ws := if due then (t.forceSpill rd).2 else []
    let cells := tileOf (cellsOf.map fun ij => BitVec.ofNat 40 (src.bits (overRuns ws rd) 0 ij.1 ij.2))
    let t1 : Tile := { mode := if src.code = 0x0D then .int32 else .af40, cells := cells }
    ((s.modEng e fun x => x.setTile (f.mod.getLsbD 6) t1).count (s.partOf e) e 18 (if due then 1 else 0)).matrixDone e .accrs f ws
      (if due then t.spillCensus rd else [])

/-- ACCRS (R73). -/
def execAccrs (e : Eng) (f : Fields) (s : State) : Out :=
  issueIf (fun s => !((s.eng e).accrsSpills f && (s.eng e).ckptBusy)) .accrs e f s fun p s => s.accrs e p f

/-- The partial tile of partner `j`, from 1: the first lies at EA(S1), the pitch is 5,120 bytes (R73). [DEDUCED, assumption 81] -/
def Tens.partner (t : Tens) (j : Nat) : Tens := { t with ea := t.ea + (j - 1) * 5120 }

/-- One cell after its partners, in increasing j, one rounding each (R130); the number of saturating adds. -/
def combineCell (int : Bool) (own : AF40) (ps : List AF40) : AF40 × Nat :=
  ps.foldl (fun acc w =>
    if int then
      let r := satInt (sgn 32 acc.1.toNat + sgn 32 w.toNat)
      (intWord r.1, if r.2 then acc.2 + 1 else acc.2)
    else (toAf ((ofAf acc.1).add (ofAf w)), acc.2)) (own, 0)

/-- ACCCB (R73, R130). [DEDUCED, assumption 81] -/
def State.acccb (s : State) (e : Nat) (p : Plan) (f : Fields) : State :=
  let x := s.eng e
  let t := x.tile (f.mod.getLsbD 6)
  let ts := (List.range (f.immF 0 2)).map fun j => (x.tens f.s1).partner (j + 1)
  s.withTensors e p ts [] fun s =>
    let rd := s.rdOf e (x.tens f.s1)
    let cs := cellsOf.map fun ij =>
      combineCell (t.mode == .int32) (t.word ij.1 ij.2) (ts.map fun y => BitVec.ofNat 40 (y.bits rd 0 ij.1 ij.2))
    (s.modEng e fun x =>
      { x.setTile (f.mod.getLsbD 6) { t with cells := tileOf (cs.map fun c => c.1) } with
        satCnt := x.satCnt + cs.foldl (fun n c => n + c.2) 0 }).matrixDone e .acccb f [] []

/-- ACCCB (R130). -/
def execAcccb (e : Eng) (f : Fields) (s : State) : Out := issue .acccb e f s fun p s => s.acccb e p f

/-! ## EPI (R74, R133) -/

/-- max(v, +0), NaN propagating (R89). -/
def relu (v : Val) : Val := v.max .zero

/-- Stage 4 of Table 5.4. -/
def activate (code : Nat) (v : Val) : Val :=
  if code = 1 then relu v
  else if code = 4 then ((relu v).mul (relu v)).roundTo af40
  else if code = 2 then fApply 0x16 (v.roundTo fp32)
  else if code = 3 then fApply 0x17 (v.roundTo fp32)
  else if code = 5 then fApply 0x15 (v.roundTo fp32)
  else v

/-- Stages 1 to 4 for one cell. -/
def epiCell (cell : Val) (scale bias : Option Word) (act : Nat) : Val :=
  let v1 := cell.roundTo af40
  let v2 := match scale with | some w => (v1.mul (ofFp w)).roundTo af40 | none => v1
  let v3 := match bias with | some w => (v2.add (ofFp w)).roundTo af40 | none => v2
  activate act v3

/-- The value of a tile's cell. -/
def Tile.cellVal (t : Tile) (i j : Nat) : Val := if t.mode = .int32 then .ofZ (t.int i j) else t.val i j

/-- The part of D that an EPI writes: the cells of the tile that D covers. -/
def Engine.epiTens (x : Engine) (f : Fields) : Tens :=
  { x.tens f.d with dim0 := min (x.tens f.d).dim0 32, dim1 := min (x.tens f.d).dim1 32 }

/-- Element (i, j) of an EPI into `d`, with the bias row's bytes `rb` (R133). -/
def Engine.epiVal (x : Engine) (f : Fields) (d : Tens) (rb : Nat → Byte) (i j : Nat) : Val :=
  let t := x.tile (f.mod.getLsbD 6)
  let scale := if isNo f.s2 then none else some ((x.gVal (specIdx f.s2)).setWidth 32)
  let bias := if isNo f.s1 then none else some (BitVec.ofNat 32 ((x.tens f.s1).bits rb 0 0 j))
  if d.code = 0x0D then (if f.modF 0 4 = 1 then relu (t.cellVal i j) else t.cellVal i j)
  else epiCell (t.cellVal i j) scale bias (f.modF 0 4)

/-- EPI (R133). [DEDUCED, assumption 81] -/
def State.epi (s : State) (e : Nat) (p : Plan) (f : Fields) : State :=
  let x := s.eng e
  let d := x.epiTens f
  let bias := x.tens f.s1
  s.withTensors e p (if isNo f.s1 then [] else [bias]) [d] fun s =>
    let em := d.emit (s.rdOf e d) (p.sofs d.recipe d.code)
      ((List.range d.dim1).map fun i => (List.range d.dim0).map (x.epiVal f d (s.rdOf e bias) i))
    s.launchEmit e .epi f d em

/-- EPI (R133). -/
def execEpi (e : Eng) (f : Fields) (s : State) : Out := issue .epi e f s fun p s => s.epi e p f

end Sys2Proof.Machine
end

