-- ==== Sys2Proof/Machine/Vector.lean ====
section
/-!
DEFINITION. Machine/Vector.lean: the Vector family of the Sedges (R75, R76, R139-R145): VOP, VRED, VRNG, VCVT.
-/

namespace Sys2Proof.Machine

/-! ## Sums (R142) -/

/-- acc + v, or acc + v² as one fused operation, rounded once into AF40. -/
def accum (sq : Bool) (acc v : Val) : Val := (acc.add (if sq then v.mul v else v)).roundTo af40

/-- Elements c of a row with c mod 64 = j, in increasing c. -/
def strided (j : Nat) (vs : List Val) : List Val := (vs.mapIdx fun c v => (c, v)).filterMap fun cv => if cv.1 % 64 = j then some cv.2 else none

/-- Add adjacent pairs. -/
def pairUp : List Val → List Val
  | a :: b :: r => (a.add b).roundTo af40 :: pairUp r
  | l => l

/-- `n` levels of the binary tree. -/
def treeSum : Nat → List Val → List Val
  | 0, l => l
  | n + 1, l => treeSum n (pairUp l)

/-- A sum along DIM0: 64 partials, then six levels of the tree (R142). -/
def sumRow (sq : Bool) (vs : List Val) : Val :=
  (treeSum 6 ((List.range 64).map fun j => (strided j vs).foldl (accum sq) .zero)).headD .zero

/-- A sum along DIM1, in increasing r from +0. -/
def sumCol (sq : Bool) (vs : List Val) : Val := vs.foldl (accum sq) .zero

/-- The maximum or minimum of a line (R89). -/
def lineMax (vs : List Val) : Val := match vs with | [] => .nan | v :: r => r.foldl Val.max v
def lineMin (vs : List Val) : Val := match vs with | [] => .nan | v :: r => r.foldl Val.min v

/-! ## VOP (R75, R139-R143) -/

/-- The functions 0x00-0x08, before the rounding of the compute format. -/
def vopExact (m : Nat) (a b c : Val) : Val :=
  if m = 0 then a else if m = 1 then a.add b else if m = 2 then a.sub b else if m = 3 then a.mul b
  else if m = 4 then a.fma b c else if m = 5 then a.max b else if m = 6 then a.min b else if m = 7 then a.abs else a.neg

/-- An elementwise function in compute format `cf`. -/
def vopElt (cf : Flt) (m : Nat) (a b c : Val) : Val :=
  if m ≤ 8 then (vopExact m a b c).roundTo cf else fApply m a

def fp (v : Val) : Val := v.roundTo fp32

/-- Softmax of a row (0x30). -/
def softmax (xs : List Val) : List Val :=
  if xs.all fun v => v == .inf true then xs.map fun _ => .zero
  else if xs.any fun v => v.isNan || v == .inf false then xs.map fun _ => .nan
  else
    let m := lineMax xs
    let es := xs.map fun x => fExp (fp (x.sub m))
    let r := fRecip (fp (sumRow false es))
    es.map fun e => fp (e.mul r)

/-- Layer normalisation of a row (0x31). -/
def layerNorm (eps : Val) (xs gain bias : List Val) : List Val :=
  let n := Val.ofNat xs.length
  let mu := fp (((sumRow false xs).div n).roundTo af40)
  let ds := xs.map fun x => fp (x.sub mu)
  let var := fp (((sumRow true ds).div n).roundTo af40)
  let r := fRsqrt (fp (var.add eps))
  List.zipWith (fun d gb => fp ((fp (d.mul r)).fma gb.1 gb.2)) ds (gain.zip bias)

/-- RMS normalisation of a row (0x32). -/
def rmsNorm (eps : Val) (xs gain : List Val) : List Val :=
  let q := fp (((sumRow true xs).div (Val.ofNat xs.length)).roundTo af40)
  let r := fRsqrt (fp (q.add eps))
  List.zipWith (fun x g => fp ((fp (x.mul r)).mul g)) xs gain

/-- A source's value at element (p, r, c): a broadcast scalar, a tensor of D's shape, or a row vector. -/
def vopVal (x : Engine) (rd : Nat → Byte) (spec : Byte) (row : Bool) (p r c : Nat) : Val :=
  if isG spec then ofFp ((x.gVal (specIdx spec)).setWidth 32)
  else if row then (x.tens spec).val rd 0 0 c
  else (x.tens spec).val rd p r c

/-- The rows of VOP's result, in linear order. -/
def vopRows (x : Engine) (rd : Nat → Byte) (f : Fields) (d : Tens) : List (List Val) :=
  let m := f.mod.toNat
  let has (spec : Byte) : Bool := isT spec && (x.tens spec).code == 0x0A
  let cf := if m ≤ 8 ∧ (d.code = 0x0A ∨ has f.s1 ∨ has f.s2 ∨ has f.s3) then af40 else fp32
  let eps := ofFp (BitVec.ofNat 32 (f.immF 0 32))
  -- An AF40 source rounds to FP32 where the compute format is FP32; every other source is kept exactly (R139).
  let src (spec : Byte) (row : Bool) (p r c : Nat) : Val :=
    let v := vopVal x rd spec row p r c
    if has spec ∧ cf = fp32 then fp v else v
  let line (spec : Byte) (row : Bool) (p r : Nat) : List Val := (List.range d.dim0).map fun c => src spec row p r c
  d.rows.map fun pr =>
    if m = 0x30 then softmax (line f.s1 false pr.1 pr.2)
    else if m = 0x31 then layerNorm eps (line f.s1 false pr.1 pr.2) (line f.s2 true pr.1 pr.2) (line f.s3 true pr.1 pr.2)
    else if m = 0x32 then rmsNorm eps (line f.s1 false pr.1 pr.2) (line f.s2 true pr.1 pr.2)
    else (List.range d.dim0).map fun c =>
      let opt (spec : Byte) : Val := if isNo spec then .zero else src spec false pr.1 pr.2 c
      vopElt cf m (src f.s1 false pr.1 pr.2 c) (opt f.s2) (opt f.s3)

/-- The tensors among the sources. -/
def Engine.vopTens (x : Engine) (f : Fields) : List Tens := ([f.s1, f.s2, f.s3].filter isT).map x.tens

/-- VOP (R139). -/
def execVop (e : Eng) (f : Fields) (s : State) : Out :=
  issue .vop e f s fun p s =>
    let x := s.eng e
    let d := x.tens f.d
    s.withTensors e p (x.vopTens f) [d] fun s =>
      let rd := s.rdOf e d
      let em := d.emit rd (p.sofs d.recipe d.code) (vopRows x rd f d)
      (s.launchEmit e .vop f d em).count (s.partOf e) e 16 d.count

/-! ## VRED (R75, R142) -/

/-- One reduced line. -/
def redLine (op : Nat) (along1 : Bool) (vs : List Val) : Val :=
  if op = 1 then lineMax vs else if op = 2 then lineMin vs
  else if along1 then sumCol (op == 3) vs else sumRow (op == 3) vs

/-- The results in linear order: one per row, or one per column of each plane. -/
def redAll (src : Tens) (rd : Nat → Byte) (op : Nat) (along1 : Bool) : List Val :=
  let v (p r c : Nat) : Val := if src.code = 0x0A then fp (src.val rd p r c) else src.val rd p r c
  if along1 then
    (List.range src.dim2).flatMap fun p => (List.range src.dim0).map fun c =>
      redLine op true ((List.range src.dim1).map fun r => v p r c)
  else src.rows.map fun pr => redLine op false ((List.range src.dim0).map fun c => v pr.1 pr.2 c)

/-- VRED (R142). -/
def execVred (e : Eng) (f : Fields) (s : State) : Out :=
  issue .vred e f s fun p s =>
    let x := s.eng e
    let src := x.tens f.s1
    let d := x.tens f.d
    s.withTensors e p [src] [d] fun s =>
      let rd := s.rdOf e d
      let em := d.emit rd (p.sofs d.recipe d.code) (cut d.dim0 (d.dim1 * d.dim2) (redAll src rd (f.modF 0 2) (f.mod.getLsbD 2)))
      (s.launchEmit e .vred f d em).count (s.partOf e) e 16 d.count

/-! ## VRNG (R76, R144, R145) -/

def mul32hi (a b : Nat) : Nat := a * b / 2 ^ 32
def mul32lo (a b : Nat) : Nat := a * b % 2 ^ 32

/-- One round of Philox-4×32. -/
def philoxRound (k0 k1 : Nat) (c : Nat × Nat × Nat × Nat) : Nat × Nat × Nat × Nat :=
  (mul32hi 0xCD9E8D57 c.2.2.1 ^^^ c.2.1 ^^^ k0, mul32lo 0xCD9E8D57 c.2.2.1,
   mul32hi 0xD2511F53 c.1 ^^^ c.2.2.2 ^^^ k1, mul32lo 0xD2511F53 c.1)

/-- `n` rounds, the key raised after each. -/
def philox : Nat → Nat → Nat → Nat × Nat × Nat × Nat → Nat × Nat × Nat × Nat
  | 0, _, _, c => c
  | n + 1, k0, k1, c => philox n ((k0 + 0x9E3779B9) % 2 ^ 32) ((k1 + 0xBB67AE85) % 2 ^ 32) (philoxRound k0 k1 c)

/-- Element `i`'s word: the first output word of Philox-4×32-10 (R144). -/
def rngWord (seed step : Dword) (imm : BitVec 64) (i : Nat) : Nat :=
  let n := (step.toNat * 2 ^ 64 + imm.toNat + i) % 2 ^ 128
  (philox 10 (fld seed.toNat 0 32) (fld seed.toNat 32 32) (fld n 0 32, fld n 32 32, fld n 64 32, fld n 96 32)).1

/-- T = ⌊p · 2^32⌋ for p in [0, 1], and whether p had to be replaced (R145). -/
def keepThreshold (p : Word) : Nat × Bool :=
  match ofFp p with
  | .nan => (0, true)
  | .inf s => (if s then 0 else 2 ^ 32, true)
  | .fin s m e =>
    if s && m != 0 then (0, true)
    else if Val.one.lt (.fin s m e) then (2 ^ 32, true)
    else
      let k := e + 32
      (if 0 ≤ k then m <<< k.toNat else m >>> (-k).toNat, false)

/-- Element bits: u in FP32, or the INT8 keep mask. -/
def rngBits (mask : Bool) (t x : Nat) : Nat :=
  if mask then (if x < t then 1 else 0) else fp32.put (.fin false (2 * (x >>> 9) + 1) (-24))

/-- Event 0x811, at most once per step. -/
def State.rngEvent (s : State) (e : Nat) (bad : Bool) (p : Word) : State :=
  let x := s.eng e
  if bad ∧ x.rngStep ≠ some x.step then
    (s.log 0x811 (s.partOf e) (a8 x.step.toNat ++ w4 p)).modEng e fun x => { x with rngStep := some x.step }
  else s

/-- VRNG (R76). -/
def execVrng (e : Eng) (f : Fields) (s : State) : Out :=
  issue .vrng e f s fun p s =>
    let x := s.eng e
    let d := x.tens f.d
    let mask := f.mod.getLsbD 0
    let pr : Word := (x.gVal (specIdx f.s2)).setWidth 32
    let (t, bad) := keepThreshold pr
    s.withTensors e p [] [d] fun s =>
      let ws := (List.range d.count).map fun i => rngBits mask t (rngWord (x.gVal 30) x.step f.imm i)
      let s1 := s.launchWith e .vrng f (d.emitBits (s.rdOf e d) (cut d.dim0 (d.dim1 * d.dim2) ws)) []
      ((s1.count (s.partOf e) e 16 d.count).count (s.partOf e) e 17 d.count).rngEvent e (mask && bad) pr

/-! ## VCVT (R75) -/

/-- VCVT (R75). -/
def execVcvt (e : Eng) (f : Fields) (s : State) : Out :=
  issue .vcvt e f s fun p s => (s.moveOn e p .vcvt f).count (s.partOf e) e 16 ((s.eng e).tens f.d).count

end Sys2Proof.Machine
end

