-- ==== Sys2Proof/Machine/Update.lean ====
section
/-!
DEFINITION. Machine/Update.lean: the Update family of the Hummocks and the numerics watch (R148-R158, R294, R295, R336): UPD,
COMMIT, NWATCH.
-/

namespace Sys2Proof.Machine

def af (v : Val) : Val := v.roundTo af40

/-! ## The scalars of R149 -/

/-- Right-to-left binary powers in AF40, each multiply rounded; `n` bits of the exponent are looked at. [DEDUCED, assumption 102] -/
def afPow : Nat → Val → Nat → Val → Val
  | 0, _, _, acc => acc
  | n + 1, b, t, acc => afPow n (af (b.mul b)) (t / 2) (if t % 2 = 1 then af (acc.mul b) else acc)

/-- t of R149: at least 1. -/
def schedT (step : Dword) (t0 : Nat) : Nat := (max 1 (wrap64 ((step.toNat : Int) - t0 + 1))).toNat

/-- Table 6.4 in AF40, rounded once to FP32. -/
def schedule (r : UpdRecipe) (t : Nat) : Val :=
  let lr := ofFp r.lr
  let lo := ofFp r.lrMin
  let tv := af (.ofNat t)
  let wv := af (.ofNat r.warm)
  let span := af (lr.sub lo)
  let f := Val.min .one (af ((af (tv.sub wv)).div (af (.ofNat r.decay))))
  let half : Val := .fin false 1 (-1)
  fp (if r.sched = 0 then lr
      else if t ≤ r.warm then af ((af (lr.mul tv)).div wv)
      else if r.sched = 1 then af (lr.sub (af (span.mul f)))
      else if r.sched = 2 then af (lo.add (af ((af (half.mul span)).mul (af (Val.one.add (fCosPi f))))))
      else af (lr.mul (af (af (wv.div tv)).sqrt)))

/-- What every element of one UPD shares. -/
structure UpdScal where
  cs : Val
  lr : Val
  ob1 : Val
  ob2 : Val
  bc : Option (Val × Val)

def updScal (r : UpdRecipe) (s : Val) (step : Dword) : UpdScal :=
  let n := fp s.sqrt
  let clip := ofFp r.clip
  let c := if Val.zero.lt clip && clip.lt n then fp (clip.div n) else .one
  let t := schedT step r.t0
  let b1 := ofFp r.beta1
  let b2 := ofFp r.beta2
  { cs := fp (c.mul (ofFp r.gscale)), lr := schedule r t, ob1 := fp (Val.one.sub b1), ob2 := fp (Val.one.sub b2)
    bc := if bitAt r.flags 1 then some (fp (Val.one.sub (afPow 64 b1 t .one)), fp (Val.one.sub (afPow 64 b2 t .one))) else none }

/-! ## One element (R149) -/

/-- The sign of a value; the sign of a zero is +0. -/
def signOf (v : Val) : Val :=
  match v with
  | .nan => .nan
  | .inf n => .fin n 1 0
  | .fin n m _ => if m = 0 then .zero else .fin n 1 0

/-- The direction r of AdamW, with the new moments. -/
def adam (r : UpdRecipe) (k : UpdScal) (wd g w m v : Val) : Val × Val × Val :=
  let m' := fp ((ofFp r.beta1).fma m (fp (k.ob1.mul g)))
  let v' := fp ((ofFp r.beta2).fma v (fp ((fp (k.ob2.mul g)).mul g)))
  let (mh, vh) := match k.bc with
    | some (b1, b2) => (fp (m'.div b1), fp (v'.div b2))
    | none => (m', v')
  let q := fp (mh.div (fp ((fp vh.sqrt).add (ofFp r.eps))))
  (fp (wd.fma w q), m', v')

/-- The new w, m, v and the update u of one element; `g0` is its gradient in AF40. -/
def updElt (r : UpdRecipe) (k : UpdScal) (g0 w m v : Val) : Val × Val × Val × Val :=
  let g := fp (g0.mul k.cs)
  let wd := ofFp r.wd
  let b1 := ofFp r.beta1
  let (d, m', v') :=
    if r.alg = 1 then adam r k wd g w m v
    else if r.alg = 2 then adam r k .zero (fp (wd.fma w g)) w m v
    else if r.alg = 3 then
      let g' := fp (wd.fma w g)
      let m' := fp (b1.fma m g')
      (if bitAt r.flags 0 then fp (b1.fma m' g') else m', m', v)
    else
      (fp (wd.fma w (signOf (fp (b1.fma m (fp (k.ob1.mul g)))))), fp ((ofFp r.beta2).fma m (fp (k.ob2.mul g))), v)
  let u := fp (k.lr.mul d)
  (fp (w.sub u), m', v', u)

/-- One updated element: its bits and the class of its first moment, or the old bits when a result is not finite (R151). -/
structure UpdRes where
  w : Nat
  m : Nat
  v : Nat
  u : Val
  cls : Cls
  kept : Bool

/-- Run one element; `mf` is the format of the first moment. A moment counts as it is written. -/
def updOne (r : UpdRecipe) (k : UpdScal) (mf : Nat) (g : Val) (w m v : Nat) : UpdRes :=
  let (w', m', v', u) := updElt r k (af g) (fp32.read w) (eltVal mf m) (fp32.read v)
  let (mb, c) := convElt mf m'
  if w'.finite && (eltVal mf mb).finite && (r.alg ≥ 3 || v'.finite) then ⟨fp32.put w', mb, fp32.put v', u, c, false⟩
  else ⟨w, m, v, .zero, .plain, true⟩

/-! ## UPD (R148-R152, R336) -/

def Tens.allBits (t : Tens) (rd : Nat → Byte) : List Nat := t.rows.flatMap fun pr => t.rowBits rd pr.1 pr.2

/-- The pieces of rows that hold the `n` elements from linear place `lo` on: row, first column, columns. -/
def Tens.pieces (t : Tens) (lo n : Nat) : List (Nat × Nat × Nat) :=
  if n = 0 then []
  else (List.range ((lo + n - 1) / t.dim0 - lo / t.dim0 + 1)).map fun i =>
    let r := lo / t.dim0 + i
    let c := if i = 0 then lo % t.dim0 else 0
    (r, c, min t.dim0 (lo + n - r * t.dim0) - c)

/-- Bits of whole-byte elements from linear place `lo` on, written into the tensor. -/
def Tens.putBits (t : Tens) (lo : Nat) (bs : List Nat) : List WriteRun :=
  let b := fmtBits t.code / 8
  (t.pieces lo bs.length).map fun x =>
    ⟨t.rowAddr (x.1 / t.dim1) (x.1 % t.dim1) + b * x.2.1, t.hint, t.host,
      ((bs.drop (x.1 * t.dim0 + x.2.1 - lo)).take x.2.2).flatMap (leBytes b)⟩

/-- D lies in a MIRROR region (Table 13.3, R336). [DEDUCED, assumption 50] -/
def Plan.isMirror (p : Plan) (a : Nat) : Bool :=
  p.regions.any fun r => r.use == 0x21 && decide (r.base ≤ a) && decide (a < r.base + r.len)

/-- A UPD of partition `q` waits until its mirror stream has finished (R338). -/
def State.mirrorStreamOpen (s : State) (q : Nat) : Bool :=
  s.host.journals.any fun j => j.sender && j.jobtag == s.jobtag q
    && (if j.mirror then j.open_ else j.start && !s.host.journals.any fun m => m.sender && m.mirror && m.resync == j.resync)

/-- Host-assisted numerics (Table 2.9). -/
def Plan.hostNumerics (p : Plan) : Bool := p.ctrl.mode.getLsbD 4

/-- The barrier tree's entry of a plan (R277). -/
def Plan.barrier (p : Plan) : Option RingEnt := p.shape.rings.find? fun r => r.isTree && r.barrier

/-- This module is the barrier tree's root. -/
def Plan.isRoot (p : Plan) : Bool :=
  match p.barrier with
  | some r => r.pred == 0xFFFFFFFF
  | none => false

/-- The deadline of the numerics function: 60 s (Table 2.7). -/
def numTicks : Nat := 60 * ticksPerSec

/-- The partition waits for the host, which breaks its count of slow steps (R345); the root asks it whether to skip or to stop, once per
step (R426). [DEDUCED, assumption 87] -/
def State.askNumerics (s : State) (q : Nat) (p : Plan) (step : Dword) : State :=
  let s := s.modPart q fun x => { x with slowBreak := true }
  if p.isRoot ∧ (s.part q).numDecision.isNone then
    let (d, s1) := s.propose (.numerics q step) numTicks
    (s1.notePart q 0x81 (s1.proposal d 4 numTicks (a8 step.toNat))).modPart q fun x => { x with numDecision := some d }
  else s

/-- A UPD that finds s not finite writes nothing (R150), with event 0x810. A step of its own is skipped, and the steps after it are
census steps (R156); under host-assisted numerics it waits for the answer. [DEDUCED, assumption 50; DEDUCED, assumption 87] -/
def State.updSkip (s : State) (e : Nat) (p : Plan) (f : Fields) (sBits : Nat) (mirror : Option Nat) : State :=
  let q := s.partOf e
  let step := (s.eng e).step
  let s2 := (s.log 0x810 q (a8 step.toNat ++ a5 sBits)).modEng e fun x => { x with updSkipped := true }
  let en := { s2.entry e .upd f with mirror := mirror }
  let r := isRestart (s.eng e).pc.toNat .upd f
  if mirror.isSome then s2.launch e en r
  else
    let s3 := s2.modPart q fun x => { x with skipStep := some step, censusLeft := 16 }
    if p.hostNumerics then
      match (s3.part q).numAnswer with
      | some (n, _) => if n = step then s3.launch e en r else (s3.launch e { en with wait := .numerics } r).askNumerics q p step
      | none => (s3.launch e { en with wait := .numerics } r).askNumerics q p step
    else s3.launch e en r

/-- Elements of a chunk (R152). -/
def chunkLen : Nat := 4096

/-- The 64 partial sums of squares of R142 after the elements of one more chunk. -/
def laneAdd (acc : List AF40) (vs : List Val) : List AF40 :=
  (List.range 64).map fun j => toAf ((strided j vs).foldl (accum true) (ofAf (acc.getD j 0)))

/-- The sum that the 64 partial sums give. -/
def laneTotal (acc : List AF40) : Val := (treeSum 6 ((List.range 64).map fun j => ofAf (acc.getD j 0))).headD .zero

/-- One chunk from linear place `lo` on, after the progress `p`: results with the old weights. An element kept unchanged counts as one
non-finite among the elements of D's TID, and as one of them (R151, R157). [DEDUCED, assumption 113] -/
def updChunk (d m v : Tens) (adam : Bool) (lo : Nat) (p : UpdProg) (rs : List (UpdRes × Nat)) : UpdChunk :=
  let kept := rs.countP fun t => t.1.kept
  { runs := d.putBits lo (rs.map fun t => t.1.w) ++ m.putBits lo (rs.map fun t => t.1.m)
      ++ if adam then v.putBits lo (rs.map fun t => t.1.v) else []
    prog :=
      { chunks := p.chunks + 1
        laneU := laneAdd p.laneU (rs.map fun t => t.1.u)
        laneW := laneAdd p.laneW (rs.map fun t => fp32.read t.2)
        kept := p.kept + kept
        census := p.census ++ (if d.tid = 0 ∨ kept = 0 then [] else [(d.tid, kept, 0, 0, kept)])
          ++ if m.code = 2 then tidCensus m ((rs.filter fun t => !t.1.kept).map fun t => t.1.cls) else [] } }

/-- The chunks that follow the progress `p`, in increasing linear order. -/
def updChunks (d m v : Tens) (adam : Bool) : UpdProg → List (List (UpdRes × Nat)) → List UpdChunk
  | _, [] => []
  | p, rs :: l =>
    let c := updChunk d m v adam (chunkLen * p.chunks) p rs
    c :: updChunks d m v adam c.prog l

/-- Every element's result, with its old weight, in linear order. -/
def State.updResults (s : State) (e : Nat) (f : Fields) (r : UpdRecipe) (sv : Val) : List (UpdRes × Nat) :=
  let x := s.eng e
  let m := x.tens f.s2
  let rd := s.rdOf e (x.tens f.d)
  let k := updScal r sv x.step
  let ws := (x.tens f.d).allBits rd
  let vs := if r.alg ≤ 2 then (x.tens f.s3).allBits rd else ws.map fun _ => 0
  (((x.tens f.s1).all rd).zip (ws.zip ((m.allBits rd).zip vs))).map fun t => (updOne r k m.code t.1 t.2.1 t.2.2.1 t.2.2.2, t.2.1)

/-- Where the engine's next UPD begins: after the chunks that its checkpoint records (R152). -/
def Engine.updFrom (x : Engine) : UpdProg := if x.inflight.any fun i => i.opc == 0x60 then {} else x.ckpt.upd

/-- UPD over its operands (R149, R151, R152). -/
def State.updRun (s : State) (e : Nat) (f : Fields) (r : UpdRecipe) (sv : Val) (mirror : Option Nat) : State :=
  let q := s.partOf e
  let x := s.eng e
  let p := x.updFrom
  let rs := s.updResults e f r sv
  let cs := updChunks (x.tens f.d) (x.tens f.s2) (x.tens f.s3) (decide (r.alg ≤ 2)) p ((cut chunkLen rs.length rs).drop p.chunks)
  let z := ((cs.getLast?).map fun c => c.prog).getD p
  let s1 := s.modEng e fun x => { x with
    updSkipped := false, keptCnt := x.keptCnt + z.kept
    sumU := toAf (af ((ofAf x.sumU).add (laneTotal z.laneU))), sumW := toAf (af ((ofAf x.sumW).add (laneTotal z.laneW))) }
  let en := { s1.entry e .upd f with writes := cs.flatMap fun c => c.runs, census := z.census, chunks := cs, mirror := mirror }
  ((s1.launch e en (isRestart x.pc.toNat .upd f)).count q e 16 (rs.length - chunkLen * p.chunks - (z.kept - p.kept))).count
    q e 17 (z.kept - p.kept)

/-- UPD. -/
def State.upd (s : State) (e : Nat) (p : Plan) (f : Fields) : State :=
  let x := s.eng e
  let d := x.tens f.d
  let i := f.immF 0 8
  let r := recipeOf (s.konst e (2 * i)) (s.konst e (2 * i + 1))
  let st := x.tens (normSpec f)
  let vs := if r.alg ≤ 2 then [x.tens f.s3] else []
  s.withTensors e p ([d, x.tens f.s1, x.tens f.s2, st] ++ vs) ([d, x.tens f.s2] ++ vs) fun s =>
    let sBits := st.bits (s.rdOf e st) 0 0 0
    let sv := af40.read sBits
    let mirror := if p.isMirror d.ea then some d.ea else none
    let s := if mirror.isNone then s.modEng e fun x => { x with updIssued := true } else s
    if mirror.isSome ∧ x.mirrorRec.find d.ea = some x.step then s.launchWith e .upd f [] []
    else if sv.finite then s.updRun e f r sv mirror
    else s.updSkip e p f sBits mirror

/-- A mirror UPD of a step that the partition has not committed: it waits for its partner's commit, which the barrier joins (R18, R23).
[DEDUCED, assumption 50] -/
def State.mirrorEarly (s : State) (e : Nat) (f : Fields) : Bool :=
  let q := s.partOf e
  let x := s.eng e
  match (s.part q).plan with
  | some p => p.isMirror (x.tens f.d).ea && decide ((s.part q).epoch.toNat ≤ x.step.toNat)
  | none => false

/-- UPD (R148). -/
def execUpd (e : Eng) (f : Fields) (s : State) : Out :=
  issueIf (fun s => !s.mirrorStreamOpen (s.partOf e) && !s.mirrorEarly e f) .upd e f s fun p s => s.upd e p f

/-! ## COMMIT (R295) -/

/-- COMMIT waits in the commit barrier. It issues after everything before it has completed, and not while the supply's
throttle holds (R354). A spare that rebuilds a step whose barrier lies behind it issues none (R330). -/
def execCommit (e : Eng) (f : Fields) (s : State) : Out :=
  issueIf (fun s => quiet e s && !s.power.throttle) .commit e f s fun _ s =>
    if (s.eng e).step.toNat < (s.part (s.partOf e)).epoch.toNat then s.passOn e .commit f
    else
    (s.launch e { s.entry e .commit f with wait := .barrier } true).modPart (s.partOf e) fun x =>
      { x with barSem := BitVec.ofNat 16 (f.immF 0 16) }

/-! ## NWATCH (R154-R156) -/

/-- ρ of R155. -/
def ratioOf (u w : Val) : Val :=
  if w.isZero then (if u.isZero then .zero else if Val.zero.lt u then .inf false else .nan)
  else fp (af (af (u.div w)).sqrt)

/-- The sum of squares of a tensor over its linear order. -/
def squares (t : Tens) (rd : Nat → Byte) : AF40 := toAf (sumRow true ((t.all rd).map af))

def State.modSlot (s : State) (i : Nat) (g : NumSlot → NumSlot) : State :=
  { s with obs := { s.obs with slots := s.obs.slots.set i (g (s.obs.slots.get {} i)) } }

/-- Report the two sums in the slot of `tid` and compare ρ with RATIO_HI and RATIO_LO (Table 6.5). -/
def State.report (s : State) (q : Nat) (tid : BitVec 16) (step : Dword) (u w : AF40) (entry : Nat) : State :=
  let i := numSlot s.partCnt q tid
  let rho := ratioOf (ofAf u) (ofAf w)
  let old := s.obs.slots.get {} i
  let hi := (ofFp (thrWord entry 0)).lt rho
  let lo := rho.lt (ofFp (thrWord entry 1))
  let args := a2 tid.toNat ++ a8 step.toNat ++ w4 (toFp rho)
  let s1 := if hi && !old.hiDone then s.log 0x801 q args else s
  let s2 := if lo && !old.loDone then s1.log 0x802 q args else s1
  s2.modSlot i fun y => { y with pend := some (toFp rho, u, w), hiDone := y.hiDone || hi, loDone := y.loDone || lo }

/-- The ratio part of NWATCH. -/
def State.nwatchRatio (s : State) (e : Nat) (f : Fields) (entry : Nat) : State :=
  let q := s.partOf e
  let x := s.eng e
  let t := x.tens f.s1
  let (u, w) := if isNo f.s2 then (x.sumU, x.sumW) else (squares (x.tens f.s2) (s.rdOf e (x.tens f.s2)), squares t (s.rdOf e t))
  let s1 := if isNo f.s2 then s.modEng e fun x => { x with sumU := 0, sumW := 0 } else s
  if (s.part q).skipStep = some x.step ∨ x.updSkipped ∨ t.tid = 0 then s1 else s1.report q t.tid x.step u w entry

/-- NWATCH over its operands: it binds S1's TID in a census step, and reports a ratio. [DEDUCED, assumption 87] -/
def State.nwatch (s : State) (e : Nat) (f : Fields) : State :=
  let q := s.partOf e
  let t := (s.eng e).tens f.s1
  let entry := s.konst e (f.immF 0 16)
  let s1 := if f.mod.getLsbD 0 && (s.part q).censusNow && t.tid != 0 then
      s.modSlot (numSlot s.partCnt q t.tid) fun y => { y with bound := some (BitVec.ofNat 160 entry) } else s
  let s2 := if f.mod.getLsbD 1 then s1.nwatchRatio e f entry else s1
  if f.cs then s2.launchWith e .nwatch f [] [] else s2.passOn e .nwatch f

/-- NWATCH waits for a UPD in flight (Table 6.7). [DESIGN CHOICE, assumption 5] -/
def noUpd (e : Nat) (s : State) : Bool := (s.eng e).inflight.all fun i => i.opc != 0x60

/-- NWATCH (R154). -/
def execNwatch (e : Eng) (f : Fields) (s : State) : Out :=
  issueIf (noUpd e) .nwatch e f s fun p s =>
    if isT f.s2 then s.withTensors e p [(s.eng e).tens f.s2, (s.eng e).tens f.s1] [] fun s => s.nwatch e f
    else s.nwatch e f

end Sys2Proof.Machine
end

