-- ==== Sys2Proof/Machine/Reduction.lean ====
section
/-!
DEFINITION. Machine/Reduction.lean: the Reduction family of the Meres (R276-R293, R472): RRING with its exponent and reduce
passes, RNORM with its trees, and what a RING packet does to an open instance.
-/

namespace Sys2Proof.Machine

/-! ## Blocks (R100, R276, R279) -/

/-- Place (p, r, c) of the first element of block `i` of a tensor whose rows hold whole blocks. -/
def Tens.blkPlace (t : Tens) (i : Nat) : Nat × Nat × Nat :=
  let per := t.dim0 / 256
  (i / per / t.dim1, i / per % t.dim1, 256 * (i % per))

def Tens.nblk (t : Tens) : Nat := t.count / 256

/-- Address of block `i` at `n` bytes per element. -/
def Tens.blkAddr (t : Tens) (n i : Nat) : Nat :=
  let (p, r, c) := t.blkPlace i
  t.rowAddr p r + n * c

/-- Address of block `i`'s exponent where R54 applies with block bytes `b`. -/
def Tens.expAddr (t : Tens) (b i : Nat) : Nat :=
  let (p, r, c) := t.blkPlace i
  t.sea.getD 0 + (p * t.pitch2 + r * t.pitch1) * 2 / b + c / 256 * 2

/-- Bytes of an element of an RFX format. -/
def Tens.eltBytes (t : Tens) : Nat := fmtBits t.code / 8

/-- The AF40 words of block `i` behind S1. -/
def State.blockWords (s : State) (t : Tens) (i : Nat) : List Val :=
  (List.range 256).map fun k => af40.read (leNat (s.readBytes (t.blkAddr 5 i + 5 * k) 5))

/-- S1's exponent of block `i`. -/
def State.expOf (s : State) (t : Tens) (i : Nat) : Nat := leNat (s.readBytes (t.expAddr 1280 i) 2)

/-! ## Exponents (R101, R103, R281) -/

/-- What a contributor reports for a block. -/
def contrib (vs : List Val) : Int :=
  if vs.any fun v => !v.finite then 32767
  else match blockExp vs with
    | none => -32768
    | some e => e + 1

/-- E = max(c) + h, with its two exceptions. -/
def agreeExp (m : Int) (l : Nat) : Int := if m = 32767 ∨ m = -32768 then m else m + clog2 l

/-- One value rounded into RFX of width `w` at agreed exponent `x` (R101, R282). -/
def rfxRound (w : Nat) (x : Int) (v : Val) : Int :=
  if x = 32767 then 0
  else match v with
    | .fin s m e =>
      let k := e - (x - w + 2)
      let n : Nat := if 0 ≤ k then m <<< k.toNat else rneShift m (-k).toNat false
      if s then -(n : Int) else n
    | _ => 0

/-- The module's own contribution to block `i`. -/
def State.ownBlock (s : State) (t : Tens) (i : Nat) : List Int :=
  (s.blockWords t i).map (rfxRound (fmtBits t.code) (sgn 16 (s.expOf t i)))

/-! ## Segments and roles (R278) -/

def segStart (n l j : Nat) : Nat := j * (n / l) + min j (n % l)
def segLen (n l j : Nat) : Nat := n / l + if j < n % l then 1 else 0
/-- The segment of block `j` of the range. -/
def segOf (n l j : Nat) : Nat :=
  let q := n / l
  let r := n % l
  if j < r * (q + 1) then j / (q + 1) else r + (j - r * (q + 1)) / q
/-- (p − 1 − s) mod L. -/
def roleOf (l p s : Nat) : Nat := (p + 2 * l - 1 - s) % l

/-! ## Payloads (R284, Table 11.4) -/

def residue (m : Int) : Nat := (m % 127).toNat

/-- The residues of blocks, packed as a packet carries them (R283, R285). [DEDUCED, assumption 47] -/
def residueField (ms : List Int) : List Byte :=
  leBytes 224 ((ms.mapIdx fun i m => residue m * 2 ^ (7 * i)).foldl (· + ·) 0)

/-- The words of a block, each of `w` bits, least significant byte first. [DEDUCED, assumption 47] -/
def blockBytes (w : Nat) (ms : List Int) : List Byte := ms.flatMap fun m => leBytes (w / 8) (unsgn w m)

/-- n blocks of elements, then n residue fields. [DEDUCED, assumption 47] -/
def sumBody (w : Nat) (bs : List (List Int)) : List Byte :=
  (bs.flatMap fun b => blockBytes w b) ++ bs.flatMap fun b => residueField b

/-- Block `i` of `n` in such a body: its elements and whether every residue agrees. -/
def bodyBlock (w n : Nat) (bs : List Byte) (i : Nat) : List Int × Bool :=
  let b := 32 * w
  let el := sub bs (b * i) b
  let rs := fieldLE bs (b * n + 224 * i) 224
  let ms := (List.range 256).map fun k => sgn w (fieldLE el (w / 8 * k) (w / 8))
  (ms, (ms.mapIdx fun k m => fld rs (7 * k) 7 == residue m).all fun x => x)

/-- Blocks per packet at most. -/
def packMax (w : Nat) : Nat := if w = 24 then 4 else 2

/-! ## Instances (R280) -/

abbrev RKey := BitVec 16 × Bool × Word

def RInst.key (i : RInst) : RKey := (i.ring, i.reduce, i.first)

def State.inst (s : State) (e : Nat) (k : RKey) : Option RInst := (s.eng e).rinsts.find? fun i => i.key == k

def State.setInst (s : State) (e : Nat) (i : RInst) : State :=
  s.modEng e fun x => { x with rinsts := x.rinsts.map fun j => if j.key == i.key then i else j }

/-- The Meres of partition `q`. -/
def meresOf (n q : Nat) : List Nat := (engsOf n q).filter fun e => (kindOf e).code == 3

/-- An instance of partition `q` that `ok` accepts, with its Mere. -/
def State.findInst (s : State) (q : Nat) (ok : RInst → Bool) : Option (Nat × RInst) :=
  (meresOf s.partCnt q).findSome? fun e => ((s.eng e).rinsts.find? ok).map fun i => (e, i)

def RInst.holds (i : RInst) (b : Nat) : Bool := decide (i.first.toNat ≤ b) && decide (b < i.first.toNat + i.nblk)

def State.ringEnt (s : State) (q : Nat) (ring : BitVec 16) : Option RingEnt :=
  match (s.part q).plan with
  | some p => p.shape.rings.find? fun r => !r.isTree && r.index == ring.toNat
  | none => none

def State.treeEnt (s : State) (q : Nat) (tree : Nat) : Option RingEnt :=
  match (s.part q).plan with
  | some p => p.shape.rings.find? fun r => r.isTree && r.index == tree
  | none => none

def State.twinOff (s : State) (q : Nat) : Bool :=
  match (s.part q).plan with
  | some p => p.shape.flags.getLsbD 0
  | none => true

/-! ## Sending (R284) -/

/-- The ADDR field of a RING packet (Table 11.3). [DEDUCED, assumption 47] -/
def ringAddr (ring : BitVec 16) (kind : Nat) (att : BitVec 2) (block : Nat) : Nat :=
  ring.toNat % 2048 + kind * 2 ^ 11 + att.toNat * 2 ^ 14 + block * 2 ^ 16

/-- A RING packet to endpoint `to`; an endpoint whose rank is not valid is answered as R253 gives. -/
def State.ringSend (s : State) (q : Nat) (dst : Word) (ring : BitVec 16) (kind : Nat) (att : BitVec 2) (block : Nat)
    (body : List Byte) : State :=
  let ep : Endpoint := BitVec.ofNat 20 dst.toNat
  if s.destOk q ep then s.injectRing q (s.packetTo q ep 4 1 (ringAddr ring kind att block) 0 body)
  else s.badRank q (epRank ep) 0xFF

/-- A packet of an instance to SUCC: it waits until SUCC has announced the match (R280, R283). -/
def State.ringOut (s : State) (q e : Nat) (k : RKey) (r : RingEnt) (kind block : Nat) (body : List Byte) : State :=
  match s.inst e k with
  | none => s
  | some i =>
    if i.succReady then s.ringSend q r.succ i.ring kind i.attempt block body
    else s.setInst e { i with outq := i.outq ++ [(kind, block, body)] }

/-- The instance of the partition with this key. -/
def State.ringInstAt (s : State) (q : Nat) (k : RKey) : Option RInst := (s.findInst q fun i => i.key == k).map fun x => x.2

/-- READY to PRED, with the instance's attempt: this module has issued it (R280, R284). [DEDUCED, assumption 48] -/
def State.sendReady (s : State) (q : Nat) (r : RingEnt) (k : RKey) : State :=
  s.ringSend q r.pred k.1 5 (match s.ringInstAt q k with | some i => i.attempt | none => 0) k.2.2.toNat (leBytes 8 k.2.1.toNat)

/-- RETRY with a new attempt and the detector's position (R286). -/
def State.sendRetry (s : State) (q : Nat) (dst : Word) (ring : BitVec 16) (first : Nat) (att : BitVec 2) (pos : Nat) : State :=
  s.ringSend q dst ring 7 att first (leBytes 8 (att.toNat + pos * 2 ^ 16))

/-! ## Completion (R281, R283) -/

/-- Every block has its agreed E; or every send is made, every partial added, and every HELD packet acknowledged. -/
def RInst.full (i : RInst) (r : RingEnt) : Bool :=
  let bs := (List.range i.nblk).map fun k => (k, i.first.toNat + k)
  if i.reduce then
    i.sent0 && i.outq.isEmpty && (bs.all fun kb => (decide (1 < r.l) && segOf i.nblk r.l kb.1 == (r.pos + r.l - 1) % r.l) || i.added.get false kb.2)
      && i.heldQueued.isEmpty && i.hackWait.all fun kv => !kv.2
  else bs.all fun kb => (i.agreed.find kb.2).isSome

/-- The instruction that waits for instance `k` may complete. -/
def Engine.ringDone (x : Engine) (k : RKey) (cs : List (BitVec 16 × Nat × Nat × Nat × Nat)) : Engine :=
  { x with inflight := x.inflight.map fun i =>
      match i.wait with
      | .ring a b c => if (a, b, c) = k then { i with wait := .turn, census := cs } else i
      | _ => i }

/-- Byte runs of S1's exponent entries. -/
def Tens.expRuns (t : Tens) : List (Nat × Nat) := (List.range t.nblk).map fun i => (t.expAddr 1280 i, 2)

/-- S1's AF40 words as a tensor of their own. -/
def Tens.words (t : Tens) : Tens := { t with fmt := 0x0A, sea := none }

/-- What a value's rounding into RFX reports (R103, R113). -/
def rfxCls (w : Nat) (x : Int) (v : Val) : Cls := if x = 32767 then .nonfin else if rfxRound w x v = 0 then .zero else .plain

/-- A reduce pass rounds every block of its range once, under the TID of D (R113, R282). -/
def State.ringCensus (s : State) (i : RInst) : List (BitVec 16 × Nat × Nat × Nat × Nat) :=
  if i.reduce then
    tidCensus i.d ((List.range i.nblk).flatMap fun b => (s.blockWords i.s1 b).map (rfxCls (fmtBits i.s1.code) (sgn 16 (s.expOf i.s1 b))))
  else []

/-- The instance is complete; its reads of S1, and in a reduce pass of the agreed exponents, leave their mark with the last of them
(Table 7.2). -/
def State.ringCheck (s : State) (q e : Nat) (k : RKey) : State :=
  match s.inst e k, s.ringEnt q k.1 with
  | some i, some r =>
    if !i.done && i.full r then
      let s1 := (s.setInst e { i with done := true }).readTens e i.s1.words
      let s2 := if i.reduce then i.s1.expRuns.foldl (fun s ab => s.readRun e i.s1.shint ab) s1 else s1
      s2.modEng e fun x => x.ringDone k (s.ringCensus i)
    else s
  | _, _ => s

/-! ## The exponent pass (R281) -/

/-- Write block `b`'s agreed exponent into S1's array. -/
def State.putExp (s : State) (q e : Nat) (k : RKey) (b : Nat) (x : Int) : State :=
  match s.inst e k with
  | none => s
  | some i =>
    let a := i.s1.expAddr 1280 (b - i.first.toNat)
    let v := unsgn 16 x
    ((s.store q i.s1.shint a (leBytes 2 v)).countRun e true a 2).setInst e { i with agreed := i.agreed.set b (BitVec.ofNat 16 v) }

/-- The blocks of the instance that lie at `b`, b + L, … -/
def RInst.strideFrom (i : RInst) (l b : Nat) : List Nat :=
  ((List.range i.nblk).map fun k => i.first.toNat + k).filter fun x => decide (b ≤ x) && x % l == b % l

/-- The payload of an exponent packet: 16 bits each (R281). [DEDUCED, assumption 47] -/
def expBody (xs : List Int) : List Byte := xs.flatMap fun x => leBytes 2 (unsgn 16 x)

/-- Send one exponent packet per 2,048 blocks of a stride. -/
def State.sendExp (s : State) (q e : Nat) (i : RInst) (r : RingEnt) (kind : Nat) (xs : List (Nat × Int)) : State :=
  s.together fun s => (cut 2048 xs.length xs).foldl (fun s c =>
    match c with
    | [] => s
    | (b, _) :: _ => s.ringOut q e i.key r kind b (expBody (c.map fun x => x.2))) s

/-- Each block's first contribution starts at position (b + 1) mod L; a ring of one module agrees at once. -/
def State.expStart (s : State) (q e : Nat) (i : RInst) (r : RingEnt) : State :=
  let own (b : Nat) : Int := contrib (s.blockWords i.s1 (b - i.first.toNat))
  if r.l ≤ 1 then
    (i.strideFrom 1 i.first.toNat).foldl (fun s b => s.putExp q e i.key b (agreeExp (own b) 1)) s
  else
    let mine := ((List.range i.nblk).map fun k => i.first.toNat + k).filter fun b => (b + 1) % r.l == r.pos
    s.sendExp q e i r 0 (mine.map fun b => (b, own b))

/-- EXP_UP and EXP_DOWN at an open instance. -/
def State.expIn (s : State) (q e : Nat) (i : RInst) (r : RingEnt) (down : Bool) (b : Nat) (xs : List Int) : State :=
  let bs := ((List.range xs.length).map fun n => b + n * r.l).zip xs
  let bs := bs.filter fun x => i.holds x.1
  let closer := b % r.l
  if down then
    let s1 := bs.foldl (fun s x => s.putExp q e i.key x.1 x.2) s
    (if (r.pos + 1) % r.l = closer then s1 else s1.sendExp q e i r 1 bs).ringCheck q e i.key
  else
    let ms := bs.map fun x => (x.1, max x.2 (contrib (s.blockWords i.s1 (x.1 - i.first.toNat))))
    if r.pos = closer then
      let es := ms.map fun x => (x.1, agreeExp x.2 r.l)
      let s1 := es.foldl (fun s x => s.putExp q e i.key x.1 x.2) s
      (s1.sendExp q e i r 1 es).ringCheck q e i.key
    else s.sendExp q e i r 0 ms

/-! ## Delivery (R289, R290) -/

/-- Commits of the partition since START. -/
def Partn.commits (p : Partn) : Nat := (p.epoch - p.first).toNat

/-- The twin's HREADY for this step has arrived. -/
def Partn.heldOpen (p : Partn) : Bool := decide (p.commits < p.hreadyGot)

/-- Index in D of step block `b`. -/
def RInst.ownIdx (i : RInst) (r : RingEnt) (b : Nat) : Nat := b - i.first.toNat - segStart i.nblk r.l r.pos

/-- The HELD packet for `n` blocks from `b`, read back from D. -/
def State.sendHeld (s : State) (q : Nat) (i : RInst) (r : RingEnt) (b n : Nat) : State :=
  let d := i.d
  let w := fmtBits d.code
  let j := i.ownIdx r b
  let a := d.blkAddr d.eltBytes j
  let x := d.expAddr (blkBytes d.code) j
  let ms := (List.range n).map fun k =>
    let bs := s.readBytes (a + 32 * w * k) (32 * w)
    (List.range 256).map fun m => sgn w (fieldLE bs (w / 8 * m) (w / 8))
  s.ringSend q r.twin i.ring 3 i.attempt b
    (leBytes 8 (unsgn 64 ((a : Int) - r.ownBase)) ++ leBytes 8 (unsgn 64 ((x : Int) - r.ownBase))
      ++ sub (s.readBytes x (2 * n)) 0 (roundUp (2 * n) 8) ++ sumBody w ms)

/-- The runs of D that such a packet is formed from. -/
def RInst.heldRuns (i : RInst) (r : RingEnt) (b n : Nat) : List (Nat × Nat) :=
  let j := i.ownIdx r b
  [(i.d.blkAddr i.d.eltBytes j, 32 * fmtBits i.d.code * n), (i.d.expAddr (blkBytes i.d.code) j, 2 * n)]

/-- Send the HELD packets that wait, once HREADY allows it. -/
def State.pumpHeld (s : State) (q e : Nat) (k : RKey) : State :=
  if (s.part q).heldOpen then
    match s.inst e k, s.ringEnt q k.1 with
    | some i, some r =>
      let s1 := s.setInst e { i with heldQueued := [], hackWait := i.heldQueued.foldl (fun t x => t.set x.1 true) i.hackWait }
      s1.together fun s => i.heldQueued.foldl (fun s x => s.sendHeld q i r x.1 x.2) s
    | _, _ => s
  else s

/-- Block `b + m` of D stands right after the `m` blocks from `b`, elements and exponents. -/
def heldNext (d : Tens) (b m : Nat) : Bool :=
  d.blkAddr d.eltBytes (b + m) == d.blkAddr d.eltBytes b + 256 * d.eltBytes * m
    && d.expAddr (blkBytes d.code) (b + m) == d.expAddr (blkBytes d.code) b + 2 * m

/-- Join blocks that lie side by side in D, elements and exponents, at most `top` to a packet; the last group of the list
grows at its end. -/
def heldGroups (d : Tens) (top : Nat) (bs : List Nat) : List (Nat × Nat) :=
  bs.foldl (fun g b =>
    match g.getLast? with
    | some (c, m) => if b = c + m ∧ m < top ∧ heldNext d c m then g.dropLast ++ [(c, m + 1)] else g ++ [(b, 1)]
    | none => [(b, 1)]) []

/-- Write closed blocks to D with their exponents, and queue them for the twin. -/
def State.closeBlocks (s : State) (q e : Nat) (i : RInst) (r : RingEnt) (bs : List (Nat × List Int)) : State :=
  let d := i.d
  let w := fmtBits d.code
  let s1 := bs.foldl (fun s x =>
    let j := i.ownIdx r x.1
    let a := d.blkAddr d.eltBytes j
    let xa := d.expAddr (blkBytes d.code) j
    (((s.store q d.hint a (blockBytes w x.2)).countRun e true a (32 * w)).store q d.shint xa
      (leBytes 2 (s.expOf i.s1 (x.1 - i.first.toNat)))).countRun e true xa 2) s
  let idx := bs.map fun x => i.ownIdx r x.1
  let base := i.first.toNat + segStart i.nblk r.l r.pos
  let held := if s.twinOff q then [] else (heldGroups d (packMax w) idx).map fun g => (base + g.1, g.2)
  let i1 := { i with added := bs.foldl (fun t x => t.set x.1 true) i.added, heldQueued := i.heldQueued ++ held }
  (s1.setInst e i1).pumpHeld q e i.key

/-! ## The reduce pass (R282, R283) -/

/-- Send blocks on to SUCC as SUM packets. -/
def State.sendSums (s : State) (q e : Nat) (i : RInst) (r : RingEnt) (bs : List (Nat × List Int)) : State :=
  let w := fmtBits i.s1.code
  (cut (packMax w) bs.length bs).foldl (fun s c =>
    match c with
    | [] => s
    | (b, _) :: _ => s.ringOut q e i.key r 2 b (sumBody w (c.map fun x => x.2))) s

/-- Round 0: send the own contribution to the segment this module starts; a ring of one module closes its range at once. -/
def State.sumStart (s : State) (q e : Nat) (i : RInst) (r : RingEnt) : State :=
  let own (sg : Nat) : List (Nat × List Int) := (List.range (segLen i.nblk r.l sg)).map fun k =>
    let j := segStart i.nblk r.l sg + k
    (i.first.toNat + j, s.ownBlock i.s1 j)
  if r.l ≤ 1 then s.closeBlocks q e i r (own 0) else s.sendSums q e i r (own ((r.pos + r.l - 1) % r.l))

/-! ## Faults of an instance (R178, R253, R285-R288, R472) -/

/-- What can go wrong in an open instance beside an incoming residue: a poisoned read, an address outside the proven range, a
destination whose rank is not valid, one of the Mere's own residue checks, any other fault. -/
inductive RFault where
  | poison (g : Nat)
  | range (a : Nat)
  | rank (ep : Endpoint)
  | check (n : Nat)
  | other
deriving DecidableEq, Repr

/-- Two runs that the Mere reads for block `b` of the range: its AF40 words, and in a reduce pass its exponent. -/
def RInst.reads (i : RInst) (b : Nat) : List (Nat × Nat) :=
  let j := b - i.first.toNat
  (i.s1.blkAddr 5 j, 1280) :: if i.reduce then [(i.s1.expAddr 1280 j, 2)] else []

/-- Everything that the instance reads and writes. -/
def RInst.allRuns (i : RInst) : List (Nat × Nat) := i.s1.words.runs ++ i.s1.expRuns ++ if i.reduce then i.d.runs else []

/-- An instance that cannot run: a descriptor outside the plan's regions, or a member or a twin without a valid rank. -/
def State.ringUnfit (s : State) (q : Nat) (i : RInst) (r : RingEnt) : Option RFault :=
  match (s.part q).plan with
  | none => none
  | some p =>
    match i.allRuns.find? fun ab => !p.holds ab.1 ab.2 with
    | some ab => some (.range ab.1)
    | none =>
      let ends := (if r.l ≤ 1 then [] else [r.pred, r.succ]) ++ if i.reduce && !s.twinOff q then [r.twin] else []
      ((ends.map fun w => (BitVec.ofNat 20 w.toNat : Endpoint)).find? fun ep => !s.destOk q ep).map .rank

/-- The first poisoned granule among the runs that blocks need. -/
def State.ringPoison (s : State) (i : RInst) (bs : List Nat) : Option RFault :=
  (bs.findSome? fun b => (i.reads b).findSome? fun ab => s.poisonIn ab.1 ab.2).map .poison

/-- The instance starts again under attempt `a`. -/
def RInst.again (i : RInst) (a : BitVec 2) : RInst :=
  { i with
    attempt := a, sent0 := false, agreed := if i.reduce then i.agreed else [], added := [], hackWait := [], heldQueued := [], outq := [], done := false }

/-- Raise the attempt, forward the notice to SUCC once, and restart the instance as `start` says. -/
def State.raiseWith (start : State → RKey → State) (s : State) (q e : Nat) (k : RKey) (a : BitVec 2) (pos : Nat) : State :=
  match s.inst e k, s.ringEnt q k.1 with
  | some i, some r =>
    let s1 := (s.setInst e (i.again a)).count q e 18 1
    let s2 := if r.l ≤ 1 then s1 else s1.sendRetry q r.succ k.1 k.2.2.toNat a pos
    start s2 k
  | _, _ => s

/-- A spare that takes over an engine at work goes on from the last checkpoint (R82). -/
def Engine.takenOver (x : Engine) : Engine := if x.run = .running ∨ x.run = .waiting ∨ x.run = .rerun then x.restored none else x

/-- A second mismatch of one Mere within one step retires its engine, and the spare resumes from the last checkpoint (R82, R287). -/
def State.countMismatch (s : State) (q e : Nat) (ring : BitVec 16) : State :=
  let s1 := s.modEng e fun x => { x with mismatches := x.mismatches + 1 }
  if (s1.eng e).mismatches = 2 then
    ((s1.log 0x651 q (a4 (logicalId e) ++ a4 ring.toNat ++ a4 ((s1.sparesLeft 3).length - 1))).modEng e Engine.takenOver).retireEng e
  else s1

/-- A Mere of the ring detects a fault in an instance: the bucket retry. A fault in attempt 3 ends it; only a residue mismatch counts
toward R287. [DEDUCED, assumption 49] -/
def State.detectWith (start : State → RKey → State) (s : State) (q e : Nat) (k : RKey) (block check : Nat) : State :=
  match s.inst e k, s.ringEnt q k.1 with
  | some i, some r =>
    if i.attempt = 3 then (s.log 0x652 q (a4 k.1.toNat ++ a4 k.2.2.toNat)).cannotContinue
    else
      let a := i.attempt + 1
      let s1 := s.log 0x650 q (a4 k.1.toNat ++ a4 block ++ a1 a.toNat ++ a4 check)
      (if check = 0 then s1 else s1.countMismatch q e k.1).raiseWith start q e k a r.pos
  | _, _ => s

/-- The index of the RRING that opened instance `k`. -/
def Engine.ringIdx (x : Engine) (k : RKey) : Nat :=
  match x.inflight.find? fun i => i.wait == .ring k.1 k.2.1 k.2.2 with
  | some i => i.index.toNat
  | none => x.oldest

/-- A fault of an instance takes the bucket retry after what its own rule gives: the mark and the event of a poisoned read (R178), the
event of an access outside the partition (R182), events 0x410 and 0x600 for a rank (R253). A retry that reads poison again cannot
continue. [DESIGN CHOICE, assumption 21; DEDUCED, assumption 49] -/
def State.ringFaultWith (start : State → RKey → State) (s : State) (q e : Nat) (k : RKey) (block : Nat) : RFault → State
  | .poison g =>
    let s1 := s.uncorrectable q g
    match s1.inst e k with
    | none => s1
    | some i =>
      if i.faulted then s1.cannotContinue
      else
        let s2 := (if Config.rereadClean (g + s.free) then s1.clearPoison g else s1).takeFree.2
        (s2.setInst e { i with faulted := true }).detectWith start q e k block 0
  | .range a => (if inPart s.partCnt q a 1 then s else s.fenceEvent q a e).detectWith start q e k block 0
  | .rank ep =>
    ((s.badRank q (epRank ep) 0xFF).log 0x600 q (a1 e ++ a4 ((s.eng e).ringIdx k) ++ a1 6)).detectWith start q e k block 0
  | .check n => s.detectWith start q e k block n
  | .other => s.detectWith start q e k block 0

/-- Blocks whose own contribution an instance sends first. -/
def RInst.firstBlocks (i : RInst) (r : RingEnt) : List Nat :=
  let all := (List.range i.nblk).map fun j => i.first.toNat + j
  if r.l ≤ 1 then all
  else if i.reduce then all.filter fun b => segOf i.nblk r.l (b - i.first.toNat) == (r.pos + r.l - 1) % r.l
  else all.filter fun b => (b + 1) % r.l == r.pos

/-- The instance makes the sends that it may make now: SUCC must have announced the match, but for a ring of one module. Each fault
raises the attempt, and there are 4. -/
def State.startFor : Nat → State → Nat → Nat → RKey → State
  | 0, s, _, _, _ => s
  | n + 1, s, q, e, k =>
    match s.inst e k, s.ringEnt q k.1 with
    | some i, some r =>
      let again (s : State) (k : RKey) : State := s.startFor n q e k
      if i.sent0 then s
      else match s.ringUnfit q i r with
        | some t => s.ringFaultWith again q e k i.first.toNat t
        | none =>
          if ¬ (i.succReady ∨ r.l ≤ 1) then s
          else match s.ringPoison i (i.firstBlocks r) with
            | some t => s.ringFaultWith again q e k i.first.toNat t
            | none =>
              let i1 := { i with sent0 := true }
              let s1 := s.setInst e i1
              (if i.reduce then s1.sumStart q e i1 r else s1.expStart q e i1 r).ringCheck q e k
    | _, _ => s

def State.ringStart (s : State) (q e : Nat) (k : RKey) : State := s.startFor 5 q e k

def State.raiseTo (s : State) (q e : Nat) (k : RKey) (a : BitVec 2) (pos : Nat) : State :=
  s.raiseWith (fun s k => s.ringStart q e k) q e k a pos

def State.detect (s : State) (q e : Nat) (k : RKey) (block check : Nat) : State :=
  s.detectWith (fun s k => s.ringStart q e k) q e k block check

def State.ringFault (s : State) (q e : Nat) (k : RKey) (block : Nat) (t : RFault) : State :=
  s.ringFaultWith (fun s k => s.ringStart q e k) q e k block t

/-- SUCC has announced the match: what waits for it goes out, and the instance starts (R280). -/
def State.succIn (s : State) (q e : Nat) (k : RKey) : State :=
  match s.inst e k, s.ringEnt q k.1 with
  | some i, some r =>
    let s1 := s.setInst e { i with succReady := true, outq := [] }
    ((s1.together fun s =>
      (i.outq.foldl (fun s x => s.ringSend q r.succ i.ring x.1 i.attempt x.2.1 x.2.2) s).ringStart q e k).ringCheck q e k)
  | _, _ => s

/-- Go on with blocks that an instance has received, unless it reads poison for them. -/
def State.withBlocks (s : State) (q e : Nat) (i : RInst) (bs : List Nat) (go : State → State) : State :=
  match s.ringPoison i bs with
  | some t => s.ringFault q e i.key (bs.headD 0) t
  | none => go s

/-! ## SUM (R283, R285) -/

/-- SUM at an open instance of the same attempt; blocks that it does not expect are dropped. [DEDUCED, assumption 49] -/
def State.sumIn (s : State) (q e : Nat) (i : RInst) (r : RingEnt) (b : Nat) (bs : List Byte) : State :=
  let w := fmtBits i.s1.code
  let n := bs.length / (32 * w + 224)
  let js := (List.range n).map fun m => b + m
  let sg := segOf i.nblk r.l (b - i.first.toNat)
  let ok := decide (n * (32 * w + 224) = bs.length) && decide (1 ≤ n) && decide (2 ≤ r.l)
    && (js.all fun x => i.holds x && segOf i.nblk r.l (x - i.first.toNat) == sg && !i.added.get false x) && roleOf r.l r.pos sg != 0
  if !ok then s
  else
    let ins := js.mapIdx fun m x => (x, bodyBlock w n bs m)
    let s1 := s.count q e 17 n
    match ins.find? fun x => !x.2.2 with
    | some x => s1.detect q e i.key x.1 1
    | none =>
      s1.withBlocks q e i js fun s1 =>
      let tot := ins.map fun x => (x.1, List.zipWith (· + ·) x.2.1 (s.ownBlock i.s1 (x.1 - i.first.toNat)))
      let s2 := s1.count q e 16 1
      if roleOf r.l r.pos sg = r.l - 1 then (s2.closeBlocks q e i r tot).ringCheck q e i.key
      else
        let i1 := { i with added := js.foldl (fun t x => t.set x true) i.added }
        ((s2.setInst e i1).sendSums q e i1 r tot).ringCheck q e i.key

/-! ## RRING (R279, R280) -/

/-- Issue an instance: READY goes to PRED, and a READY kept from SUCC or a recorded attempt is taken up. An instance that the
step has already run is not run again by a rerun of its block; one that an earlier step has left takes its place up. [DEDUCED, assumption 49] -/
def State.openInst (s0 : State) (q e : Nat) (r : RingEnt) (i : RInst) : State :=
  let s := s0.modEng e fun x => { x with rinsts := x.rinsts.filter fun j => j.key != i.key || j.step == i.step }
  match s.inst e i.key with
  | some j => if j.done then s.modEng e fun x => x.ringDone i.key (s.ringCensus j) else s
  | none =>
    let p := s.part q
    let kept := p.readyKept.contains i.key
    let att := match p.ringAttempt.find? fun x => x.1 == i.key with
      | some x => x.2
      | none => 0
    let s1 := s.setPart q { p with readyKept := p.readyKept.erase i.key, ringAttempt := p.ringAttempt.filter fun x => x.1 != i.key }
    let s2 := s1.modEng e fun x => { x with rinsts := x.rinsts ++ [{ i with succReady := kept, attempt := att }] }
    (if r.l ≤ 1 then s2 else s2.sendReady q r i.key).ringStart q e i.key

/-- RRING over its operands: a fault that it meets is one of its instance (R286). -/
def State.rring (s : State) (e : Nat) (f : Fields) : State :=
  let q := s.partOf e
  let x := s.eng e
  let s1 := x.tens f.s1
  let d := x.tens f.d
  let ring := BitVec.ofNat 16 (f.immF 0 16)
  let reduce := f.mod.getLsbD 0
  let first := BitVec.ofNat 32 (f.immF 16 32)
  match s.ringEnt q ring with
  | none => s
  | some r =>
    let en := { s.entry e .rring f with wait := .ring ring reduce first }
    (s.launch e en (isRestart x.pc.toNat .rring f)).openInst q e r
      { ring := ring, reduce := reduce, first := first, step := x.step, nblk := s1.nblk, s1 := s1, d := if reduce then d else {} }

/-- Instances of a Mere that are in flight. -/
def Engine.openInsts (x : Engine) : Nat := x.rinsts.countP fun i => !i.done

/-- Bytes that an open instance has still to write: the agreed exponents, or D with its exponents. -/
def RInst.outRuns (i : RInst) : List (Nat × Nat) := if i.reduce then i.d.runs else i.s1.expRuns

def runsMeet (a b : List (Nat × Nat)) : Bool :=
  a.any fun x => b.any fun y => decide (x.1 < y.1 + y.2) && decide (y.1 < x.1 + x.2)

/-- An earlier instruction of the Mere has still to write some of these bytes: an open instance, or a global RNORM (R56). [DEDUCED, assumption 6] -/
def State.unwritten (s : State) (e : Nat) (runs : List (Nat × Nat)) : Bool :=
  ((s.eng e).rinsts.any fun i => !i.done && runsMeet i.outRuns runs)
    || (s.part (s.partOf e)).norms.any fun kv => kv.2.waiting && kv.2.eng == e && runsMeet kv.2.d.runs runs

/-- The instance of the same ring, pass and first block that an earlier step has opened is still open: packets could not tell
the two apart. [DEDUCED, assumption 49] -/
def Engine.sameOpen (x : Engine) (k : RKey) : Bool := x.rinsts.any fun i => i.key == k && !i.done && i.step != x.step

/-- An RRING may issue: no fifth instance (R280), no open instance of the same name from an earlier step, and the exponents that
a reduce pass reads are written (R56, R282). [DEDUCED, assumption 6] -/
def State.rringFree (s : State) (e : Nat) (f : Fields) : Bool :=
  let x := s.eng e
  decide (x.openInsts < 4) && !x.sameOpen (BitVec.ofNat 16 (f.immF 0 16), f.mod.getLsbD 0, BitVec.ofNat 32 (f.immF 16 32))
    && !(f.mod.getLsbD 0 && s.unwritten e (x.tens f.s1).expRuns)

/-- RRING (R279). [DESIGN CHOICE, assumption 5] -/
def execRring (e : Eng) (f : Fields) (s : State) : Out :=
  issueIf (fun s => s.rringFree e f) .rring e f s fun _ s => s.rring e f

/-! ## RNORM (R292, R293) -/

def State.normNode (s : State) (q t : Nat) : NormNode := (s.part q).norms.get {} t
def State.setNorm (s : State) (q t : Nat) (n : NormNode) : State := s.modPart q fun p => { p with norms := p.norms.set t n }

/-- A NORM packet: the value in bits [39:0], its direction in bit [40]. -/
def normBody (v : AF40) (down : Bool) : List Byte := leBytes 8 (v.toNat + if down then 2 ^ 40 else 0)

/-- A NORM packet of the node, in the partition's ATTEMPT (R343); a rank that is not valid is a fault of the block that holds the node's RNORM (R253). -/
def State.normSend (s : State) (q t : Nat) (dst : Word) (v : AF40) (down : Bool) : State :=
  let s1 := s.ringSend q dst (BitVec.ofNat 16 t) 6 (s.part q).normAtt 0 (normBody v down)
  let n := s.normNode q t
  if s.destOk q (BitVec.ofNat 20 dst.toNat) || !n.waiting then s1 else s1.rerunBlock n.eng (s.eng n.eng).oldest 6

/-- The RNORM that waits for tree `t` has its result to write. -/
def Engine.normDone (x : Engine) (t : BitVec 16) (run : WriteRun) (cs : List (BitVec 16 × Nat × Nat × Nat × Nat)) : Engine :=
  let w : WaitFor := .norm t
  { x with inflight := x.inflight.map fun i => if i.wait = w then { i with wait := .turn, writes := [run], census := cs } else i }

/-- What the rounding of a sum of squares into its AF40 word reports (R113). -/
def normCensus (d : Tens) (v : AF40) : List (BitVec 16 × Nat × Nat × Nat × Nat) := tidCensus d [(convElt 0x0A (ofAf v)).2]

/-- The tree's result reaches this node: it is written to D and goes on to the children. -/
def State.normDown (s : State) (q t : Nat) (r : RingEnt) (v : AF40) : State :=
  let n := s.normNode q t
  let s1 := s.setNorm q t { n with result := some v, waiting := false }
  let run : WriteRun := ⟨n.d.ea, n.d.hint, n.d.host, leBytes 5 v.toNat⟩
  let s2 := if n.waiting then
      s1.modEng n.eng fun x => x.normDone (BitVec.ofNat 16 t) run (normCensus n.d v)
    else s1
  r.children.foldl (fun s c => s.normSend q t c.1 v true) s2

/-- The node forms v once its own sum and every child's value are there, and sends it up; at the root it is s. -/
def State.normGo (s : State) (q t : Nat) (r : RingEnt) : State :=
  let n := s.normNode q t
  match n.own with
  | none => s
  | some o =>
    let ups := (List.range r.children.length).map fun i => n.ups.find i
    if ups.all Option.isSome then
      let v := ups.foldl (fun v u => toAf (af ((ofAf v).add (ofAf (u.getD 0))))) o
      let s1 := s.setNorm q t { n with own := none, ups := [] }
      if r.pred = 0xFFFFFFFF then s1.normDown q t r v
      else s1.normSend q t r.pred v false
    else s

/-- The sum of squares of an RFX tensor: every row under R142, the rows added to D in order. -/
def normLocal (t : Tens) (rd : Nat → Byte) (d : AF40) : AF40 :=
  toAf ((t.allRows rd).foldl (fun acc row => af (acc.add (sumRow true (row.map af)))) (ofAf d))

/-- The partition is a spare that rebuilds `step`, whose s came with its partner stream (R330). -/
def State.rebuilds (s : State) (q : Nat) (step : Dword) : Bool :=
  let p := s.part q
  p.spareC == step && p.spareTwinMstep != p.spareC && decide (step.toInt < p.epoch.toInt)

/-- RNORM over its operands. A global one of a step that a spare rebuilds finds s of that step in D, and writes it again (R26, R330). -/
def State.rnorm (s : State) (e : Nat) (p : Plan) (f : Fields) : State :=
  let q := s.partOf e
  let t := (s.eng e).tens f.s1
  let d := (s.eng e).tens f.d
  if isRfx t.code then
    s.withTensors e p [t, d] [d] fun s =>
      let v := normLocal t (s.rdOf e t) (BitVec.ofNat 40 (d.bits (s.rdOf e d) 0 0 0))
      s.launchWith e .rnorm f [⟨d.ea, d.hint, d.host, leBytes 5 v.toNat⟩] (normCensus d v)
  else
    let tree := f.immF 0 16
    if s.rebuilds q (s.eng e).step then
      s.withTensors e p [t, d] [d] fun s =>
        s.launchWith e .rnorm f [⟨d.ea, d.hint, d.host, leBytes 5 (d.bits (s.rdOf e d) 0 0 0)⟩] []
    else match s.treeEnt q tree with
    | none => s
    | some r =>
      s.withTensors e p [t] [d] fun s =>
        let v := toAf ((t.all (s.rdOf e t)).foldl (fun a x => af (a.add x)) .zero)
        let s1 := s.launch e { s.entry e .rnorm f with wait := .norm (BitVec.ofNat 16 tree) } (isRestart (s.eng e).pc.toNat .rnorm f)
        (s1.setNorm q tree { s1.normNode q tree with own := some v, kept := some v, step := (s1.eng e).step, waiting := true, eng := e, d := d }).normGo q tree r

/-- A reduce pass of the partition is still open: a bucket of the step is not reduced yet. [DEDUCED, assumption 6] -/
def State.reducing (s : State) (q : Nat) : Bool := (s.findInst q fun i => i.reduce && !i.done).isSome

/-- RNORM may issue: the bytes that earlier instructions of the Mere write for it are there (R56); a global one begins when the
module's last bucket is reduced (R18, R22). [DEDUCED, assumption 6] -/
def State.rnormFree (s : State) (e : Nat) (f : Fields) : Bool :=
  !s.unwritten e (((s.eng e).tens f.s1).runs ++ ((s.eng e).tens f.d).runs) && (f.immF 0 16 == 0xFFFF || !s.reducing (s.partOf e))

/-- RNORM (R292). [DESIGN CHOICE, assumption 5] -/
def execRnorm (e : Eng) (f : Fields) (s : State) : Out :=
  issueIf (fun s => s.rnormFree e f) .rnorm e f s fun p s => s.rnorm e p f

/-! ## HREADY (R290, R336) -/

/-- MSTEP: the step that every mirror UPD of the partition has reached. [DEDUCED, assumption 50] -/
def State.mstep (s : State) (q : Nat) : Dword :=
  let p := s.part q
  match p.plan with
  | none => p.first - 1
  | some pl =>
    let rec1 (m : Nat × Nat) : Dword := (s.eng m.1).mirrorRec.get (p.first - 1) m.2
    match pl.mirrors with
    | [] => p.lastCommit
    | m :: ms => ms.foldl (fun a x => if decide ((rec1 x).toInt < a.toInt) then rec1 x else a) (rec1 m)

/-- The twin's endpoint. -/
def State.twinEp (s : State) (q : Nat) : Option Word :=
  match (s.part q).plan with
  | some p => if p.shape.flags.getLsbD 0 then none else some (BitVec.ofNat 32 (4 * p.shape.twin.toNat + q))
  | none => none

/-- The twin sends HREADY to its partner: a READY of the reduce pass with BLOCK 0xFFFF_FFFF. R290 names no ring for it, so the RING
field is a free value. From now on its held region
awaits the next step's blocks, in their attempt 0. [DESIGN CHOICE, assumption 91] -/
def State.sendHready (s : State) (q : Nat) : State :=
  match s.twinEp q with
  | none => s
  | some t => (s.takeFree.2.ringSend q t (Config.hreadyRing s.free) 5 0 0xFFFFFFFF (leBytes 8 1)).modPart q fun p => { p with heldGot := [], heldAttempt := [] }

end Sys2Proof.Machine
end

