-- ==== Sys2Proof/Machine/Happen.lean ====
section
/-!
DEFINITION. Machine/Happen.lean: what happens to engines beside their issues (R56, R65, R80-R83, R174, R178, R286):
INSTRUCTION_COMPLETE, CHECKPOINT_SAVED, BLOCK_FAULT, WAIT_LIMIT_EXCEEDED, CULVERT_HOST_RETRY.
-/

namespace Sys2Proof.Machine

/-- A mirror UPD that completes advances its record, and HREADY goes out when MSTEP reaches its step (R336). [DEDUCED, assumption 50] -/
def State.mirrorDone (s : State) (e : Nat) (i : InFlight) : State :=
  match i.mirror with
  | none => s
  | some a =>
    let q := s.partOf e
    let s1 := s.modEng e fun x => { x with mirrorRec := x.mirrorRec.set a i.step }
    if s1.mstep q = i.step ∧ s.mstep q ≠ i.step then s1.sendHready q else s1

/-- The completed instruction's checkpoint, or the progress of a UPD. -/
def State.keepState (s : State) (e : Nat) (i : InFlight) : State :=
  match i.snap, i.prog with
  | some c, _ => s.saveCkpt e c i.swaits
  | none, some c => s.progress e c i.swaits
  | none, none => s

/-- The oldest instruction in flight completes: its writes become visible, it is traced, its restart point is kept, and its
completion signal is delivered (R46, R56, R80, R405). The signal of a COMMIT meets no watch: the re-base of the same cycle tests them
(R201). [DEDUCED, assumption 6] -/
def State.complete (s : State) (e : Nat) (i : InFlight) : State :=
  let q := s.partOf e
  let s1 := i.writes.foldl (fun s w => s.putRun e w) s
  let s2 := s1.modEng e fun x => { x with inflight := x.inflight.tail, census := x.census ++ i.census }
  let s3 := ((s2.mirrorDone e i).tracePut e i).keepState e i
  if i.cs ∧ (s3.part q).runs then
    if i.wait = .barrier then s3.semAddWith q i.csem.toNat 1 (s3.localSrc q e) id else s3.semAdd q i.csem.toNat 1 (s3.localSrc q e)
  else s3

/-- The oldest instruction of engine `e` that may complete: it waits for nothing but its turn, a restart point waits for the copy of
the last checkpoint (R80), and the packets of a PUT have all been injected (R193). [DESIGN CHOICE, assumption 28] -/
def State.ready (s : State) (e : Nat) : Option InFlight :=
  match (s.eng e).inflight with
  | [] => none
  | i :: _ =>
    if i.wait == .turn && !(i.snap.isSome && (s.eng e).ckptBusy) && !(i.opc == 0x23 && (s.part (s.partOf e)).injecting) then some i else none

/-- INSTRUCTION_COMPLETE (R56). [DESIGN CHOICE, assumption 28] -/
def execInstructionComplete (e : Eng) (s : State) : Out :=
  match s.ready e with
  | none => .next s
  | some i => .next ((s.complete e i).stopIfParked (s.partOf e))

/-- CHECKPOINT_SAVED (R80): the background copy is finished, and the next restart point may issue. [DESIGN CHOICE, assumption 28] -/
def execCheckpointSaved (e : Eng) (s : State) : Out :=
  .next (s.modEng e fun x => { x with ckptBusy := false })

/-- A Mere's instance that is still open. -/
def Engine.openRing (x : Engine) : Option RInst := x.rinsts.find? fun i => !i.done

/-- An engine that has instructions of its own to lose can fault. [DESIGN CHOICE, assumption 28] -/
def Engine.faultable (x : Engine) : Bool := x.run == .running || x.run == .waiting || x.run == .rerun || !x.inflight.isEmpty

/-- What a fault of `cause` of R83 is to an open instance, and the block it names: a datapath error is one of the Mere's own checks of
R285 (2 its own rounded elements, 3 a sum, 4 a block written to D), which and where left free. [DESIGN CHOICE, assumption 105] -/
def State.ringCause (s : State) (i : RInst) (cause addr : Nat) : RFault × Nat :=
  let v := Config.ringCheck s.free
  if cause = 2 ∧ i.reduce then (.check (2 + v % 3), i.first.toNat + v / 3 % max i.nblk 1)
  else (if cause = 3 then .range addr else if cause = 5 then .poison (granule addr) else .other, i.first.toNat)

/-- BLOCK_FAULT (R81): causes 1, 2, 3, 4 and 5 of R83. A fault during an open RRING takes the bucket retry (R286). [DESIGN CHOICE, assumption 28] -/
def execBlockFault (e : Eng) (cause : Byte) (addr : Addr) (s : State) : Out :=
  let x := s.eng e
  let q := s.partOf e
  if (s.part q).runs ∧ x.faultable ∧ 1 ≤ cause.toNat ∧ cause.toNat ≤ 5 then
    match (if (kindOf e).code = 3 then x.openRing else none) with
    | some i =>
      let (t, b) := s.ringCause i cause.toNat addr.toNat
      .next (s.takeFree.2.ringFault q e i.key b t)
    | none => .next (s.faultBlock e x.oldest cause.toNat addr.toNat)
  else .next s

/-- ENG_WAITLIM of a partition; 0 turns the check off. [DESIGN CHOICE, assumption 7] -/
def execWaitLimitExceeded (e : Eng) (s : State) : Out :=
  let x := s.eng e
  let q := s.partOf e
  if x.run = .waiting ∧ x.waitLogged = false ∧ (s.part q).waitlim ≠ 0 then
    .next (((s.log 0x640 q (a1 e ++ a2 x.waitSem.toNat ++ w4 (s.sem x.waitSem.toNat).value ++ w4 (BitVec.ofInt 32 x.waitThr))).fltBit
      0).modEng e fun x => { x with waitLogged := true })
  else .next s

/-- CULVERT_HOST_RETRY (R174): the pause before the next attempt is over. -/
def execCulvertHostRetry (e : Eng) (s : State) : Out :=
  .next (s.modEng e fun x => { x with hostPause := false })

end Sys2Proof.Machine
end

