-- ==== Sys2Proof/Machine/Barrier.lean ====
section
/-!
DEFINITION. Machine/Barrier.lean: remote signals and their order (R194-R198, R202), the commit barrier with its re-base
(R200-R203, R295, R345), the census (R156, R157), numerics answers (R150), and the sync store's scrubber (R205).
-/

namespace Sys2Proof.Machine

/-! ## Watermarks (R193-R195) -/

/-- Raise the watermark over every number already committed. -/
def Peer.settle : Nat → Peer → Peer
  | 0, x => x
  | n + 1, x =>
    if x.rxAbove.contains (x.rxMark + 1) then
      Peer.settle n { x with rxMark := x.rxMark + 1, rxAny := true, ackDirty := true, rxAbove := x.rxAbove.filter fun s => s != x.rxMark + 1 }
    else x

/-- Number `seq` has been committed already. -/
def Peer.has (x : Peer) (seq : BitVec 16) : Bool := serialLe seq x.rxMark || x.rxAbove.contains seq

/-- Number `seq` is committed or applied. -/
def Peer.commit (x : Peer) (seq : BitVec 16) : Peer :=
  if x.has seq then x
  else Peer.settle (x.rxAbove.length + 1) { x with rxAbove := seq :: x.rxAbove }

/-- A PACK's number is committed; that alone owes the peer no watermark (R193, R267). [DEDUCED, assumption 41] -/
def Peer.commitPack (x : Peer) (seq : BitVec 16) : Peer :=
  let y := x.commit seq
  { y with ackDirty := x.ackDirty || (!x.has seq && !(y.rxMark == x.rxMark || y.rxMark == seq)) }

/-- Every lower number has been committed. -/
def Peer.allBelow (x : Peer) (seq : BitVec 16) : Bool := x.rxMark + 1 == seq

def State.rxCommit (s : State) (q : Nat) (ep : Endpoint) (seq : BitVec 16) : State :=
  s.setPeer q ep ((s.peer q ep).commit seq)

/-! ## Remote adds (R196) -/

def State.remoteOk (s : State) (q i : Nat) : Bool :=
  semIn s.partCnt q i && (s.sem i).alloc && (s.sem i).remote

/-- Add to a REMOTE semaphore for another module, or refuse: event 0x720. -/
def State.remoteAdd (s : State) (q : Nat) (sender : Endpoint) (i n : Nat) : State :=
  if s.remoteOk q i then s.semAdd q i n ⟨sender, 0xFE, true⟩
  else (s.log 0x720 q (a3 sender.toNat ++ a2 i)).syncBit 3

/-! ## The commit barrier's signals (R295) -/

def Partn.barNode (p : Partn) : Option RingEnt :=
  match p.plan with
  | some pl => pl.barrier
  | none => none

/-- Send a barrier SIGNAL of +1; it is exempt from R200. Answers its number. -/
def State.barSignal (s : State) (q : Nat) (dst : Word) (sem : Nat) : (Endpoint × BitVec 16) × State :=
  let ep : Endpoint := BitVec.ofNat 20 dst.toNat
  let x := s.peer q ep
  let seq := x.txNext + BitVec.ofNat 16 x.txWait.length
  let own := (s.part q).ownSigs
  let s1 := if s.destOk q ep then s.inject q (s.packetTo q ep 2 0 (signalAddr sem 1 (s.part q).epoch) 0 []) else s.badRank q (epRank ep) 0xFF
  ((ep, seq), s1.modPart q fun p => { p with ownSigs := own })

def State.barSem (s : State) (q : Nat) : Int := (s.sem (s.part q).barSem.toNat).value.toInt

/-- Step 4: release every child. -/
def State.barRelease (s : State) (q : Nat) (r : RingEnt) : State :=
  let t := r.children.foldl (fun (a : List (Endpoint × BitVec 16) × State) c =>
    let (x, s1) := a.2.barSignal q c.1 c.2.toNat
    (a.1 ++ [x], s1)) ([], s)
  t.2.modPart q fun p => { p with barStage := 5, barPeerSeq := t.1 }

/-- Steps 2 to 4 as far as they can go now. -/
def State.barGo (s : State) (q : Nat) : State :=
  let p := s.part q
  match p.barNode with
  | none => s
  | some r =>
    let n : Int := r.children.length
    let s1 :=
      if p.arrived ∧ p.barStage = 1 ∧ n ≤ s.barSem q then
        if r.pred = 0xFFFFFFFF then s.barRelease q r
        else (s.barSignal q r.pred r.psem.toNat).2.modPart q fun p => { p with barStage := 3 }
      else s
    if (s1.part q).barStage = 3 ∧ n + 1 ≤ s1.barSem q then s1.barRelease q r else s1

/-! ## Release of a signal (R194, R202) -/

/-- A signal whose turn has come: applied, deferred to the next epoch, or dropped. [DESIGN CHOICE, assumption 37; DEDUCED, assumption 93] -/
def State.releaseSig (s : State) (q : Nat) (h : HeldSig) : State :=
  let ep := (s.part q).epoch
  let d := (h.epochBits.toNat + 4 - ep.toNat % 4) % 4
  if d = 0 then ((s.remoteAdd q h.sender h.sem.toNat h.n.toNat).rxCommit q h.sender h.seq).barGo q
  else if d = 1 then
    s.modPart q fun p => { p with
      heldQ := p.heldQ ++ [{ h with deferred := true }]
      heldPeak := BitVec.ofNat 12 (max p.heldPeak.toNat (p.heldQ.length + 1)) }
  else
    ((s.log 0x721 q (a3 h.sender.toNat ++ a2 h.sem.toNat ++ a1 h.epochBits.toNat ++ a1 (ep.toNat % 4))).syncBit 4).rxCommit q h.sender h.seq

/-- SSIG_RELEASE (R194): the held signal `seq` of `sender`, once every lower number has been committed. [DESIGN CHOICE, assumption 37] -/
def execSsigRelease (q : Part) (sender : Endpoint) (seq : BitVec 16) (s : State) : Out :=
  let p := s.part q
  match p.heldQ.find? fun h => h.sender == sender && h.seq == seq && !h.deferred with
  | none => .next s
  | some h =>
    if (s.peer q sender).allBelow seq then
      .next ((s.setPart q { p with heldQ := p.heldQ.erase h }).releaseSig q h)
    else .next s

/-! ## Arrival (R200, R295 step 1) -/

/-- The Hummocks that the plan names. -/
def Plan.hummocks (p : Plan) : List Nat := (p.streams.map fun x => x.eng).filter fun e => (kindOf e).code == 2

/-- Every SSIG that the partition has issued has been injected and applied, as the watermarks show. -/
def State.sigsApplied (s : State) (q : Nat) : Bool :=
  ((s.part q).ownSigs.all fun x => serialLe x.2 (s.peer q x.1).txAcked)
    && (s.part q).peers.all fun kv => kv.2.txWait.all fun k => k.typ != 2

/-- BARRIER_ARRIVE (R295 step 1). -/
def execBarrierArrive (q : Part) (s : State) : Out :=
  let p := s.part q
  match p.plan with
  | none => .next s
  | some pl =>
    if p.runs ∧ !p.arrived ∧ (pl.hummocks.all fun e => (s.eng e).barrierEntry.isSome) ∧ s.sigsApplied q then
      .next ((s.setPart q { p with arrived := true, barStage := 1, ownSigs := [] }).barGo q)
    else .next s

/-! ## The census (R156, R157) -/

/-- The share of `n` in `total` as an FP32 value. [DEDUCED, assumption 87] -/
def shareOf (n total : Nat) : Val := if total = 0 then .zero else fp ((Val.ofNat n).div (Val.ofNat total))

/-- Evaluate one bound slot (Table 6.5). -/
def State.evalSlot (s : State) (q i : Nat) (y : NumSlot) : State :=
  match y.bound with
  | none => s
  | some b =>
    let tid := i - q * (4096 / s.partCnt)
    let step := (s.part q).epoch.toNat
    let (nf, sat, z, n) := y.cur
    let zs := shareOf z n
    let ss := shareOf sat n
    let head := a2 tid ++ a8 step
    let s1 := if (ofFp (thrWord b.toNat 2)).lt zs then s.log 0x803 q (head ++ w4 (toFp zs)) else s
    let s2 := if (ofFp (thrWord b.toNat 3)).lt ss then s1.log 0x804 q (head ++ w4 (toFp ss)) else s1
    if fld b.toNat 128 32 < nf then s2.log 0x805 q (head ++ a4 nf) else s2

/-- A slot at its commit: ratio figures stand (R413), census counts become the last census, and once-per-step marks clear. [DEDUCED, assumption 87] -/
def NumSlot.commit (y : NumSlot) (census : Bool) (step : Dword) : NumSlot :=
  let y1 := match y.pend with
    | some (r, u, w) => { y with rho := r, sumU := u, sumW := w, step := step, pend := none }
    | none => y
  let y2 := if census ∧ (y.bound.isSome ∨ y.cur ≠ (0, 0, 0, 0)) then { y1 with last := y.cur, step := step } else y1
  { y2 with cur := (0, 0, 0, 0), bound := none, hiDone := false, loDone := false }

/-- The watch at the commit of a step. [DEDUCED, assumption 87] -/
def State.censusCommit (s : State) (q : Nat) : State :=
  let p := s.part q
  let mine := s.obs.slots.filter fun kv => kv.1 / (4096 / s.partCnt) == q
  let s1 := if p.censusNow then mine.foldl (fun s kv => s.evalSlot q kv.1 kv.2) s else s
  { s1 with obs := { s1.obs with slots := s1.obs.slots.mapKV fun i y =>
      if i / (4096 / s.partCnt) = q then y.commit p.censusNow p.epoch else y } }

/-- A step begins: is it a census step (R156)? -/
def State.censusBegin (s : State) (q : Nat) : State :=
  s.modPart q fun p => { p with censusNow := decide (0 < p.censusLeft) || s.obs.force.getLsbD q, censusLeft := p.censusLeft - 1 }

/-! ## Completion (R201-R203, R295 steps 5 and 6) -/

/-- Re-base one semaphore. -/
def Sem.rebase (x : Sem) : Sem := { x with value := BitVec.ofInt 32 (x.value.toInt - x.incr.toInt) }

/-- The allocated semaphores of partition `q`. -/
def State.allocated (s : State) (q : Nat) : List (Nat × Sem) := s.sems.filter fun kv => semIn s.partCnt q kv.1 && kv.2.alloc

/-- Subtract INCR from every allocated semaphore, raise the epoch, and test every armed watch (R201). -/
def State.rebase (s : State) (q : Nat) : State :=
  let s1 := { s with sems := s.sems.mapKV fun i (x : Sem) => if semIn s.partCnt q i && x.alloc then x.rebase else x }
  let s2 := s1.modPart q fun p => { p with lastCommit := p.epoch, epoch := p.epoch + 1 }
  s2.testWatches fun w _ => watchIn s.partCnt q w

/-- Semaphores that differ from INIT after the re-base (R203). -/
def State.mismatches (s : State) (q : Nat) : List (Nat × Sem) :=
  (s.allocated q).filter fun kv => kv.2.rebase.value != BitVec.ofInt 32 kv.2.init.toInt

/-- Event 0x712 for each, from the values before the re-base; then the module cannot continue. -/
def State.reportMismatch (s : State) (q : Nat) (l : List (Nat × Sem)) : State :=
  if l.isEmpty then s
  else ((l.foldl (fun s kv =>
    s.log 0x712 q (a2 kv.1 ++ w4 kv.2.value ++ w4 (BitVec.ofInt 32 (kv.2.init.toInt + kv.2.incr.toInt)))) s).syncBit 2).cannotContinue

/-- HSIGs that are applied. -/
def State.addHsigs (s : State) (q : Nat) (l : List HeldHsig) : State :=
  l.foldl (fun s h => s.semAdd q h.sem.toNat h.n.toNat (s.linkSrc q)) s

/-- The HSIGs held for the step of the epoch are applied (R428, R440). -/
def State.hsigsNow (s : State) (q : Nat) : State :=
  let p := s.part q
  (s.setPart q { p with hsigs := p.hsigs.filter fun h => h.step != p.epoch }).addHsigs q (p.hsigs.filter fun h => h.step == p.epoch)

/-- Deferred signals apply in the cycle after the re-base (R202), and held HSIGs of the new epoch (R428). [DEDUCED, assumption 93] -/
def State.applyDeferred (s : State) (q : Nat) : State :=
  let p := s.part q
  let d := p.heldQ.filter fun h => h.deferred
  let hs := p.hsigs.filter fun h => h.step == p.epoch
  let s1 := s.setPart q { p with heldQ := p.heldQ.filter fun h => !h.deferred, hsigs := p.hsigs.filter fun h => h.step != p.epoch }
  let s2 := d.foldl (fun s h => (s.remoteAdd q h.sender h.sem.toNat h.n.toNat).rxCommit q h.sender h.seq) s1
  s2.addHsigs q hs

/-- Every COMMIT of the partition completes and delivers its CS. -/
def State.commitsDone (s : State) (q : Nat) : State :=
  (engsOf s.partCnt q).foldl (fun s e =>
    match (s.eng e).inflight with
    | i :: _ => if i.wait == .barrier then s.complete e i else s
    | [] => s) s

/-- What step `c` leaves behind at an engine: its instances are no longer retriable (R286), mismatch counts, and no UPD issued
since. Instances that the engine has issued for a later step stay. [DEDUCED, assumption 49] -/
def Engine.stepDone (c : Dword) (x : Engine) : Engine :=
  { x with rinsts := x.rinsts.filter fun i => decide (c.toInt < i.step.toInt), mismatches := 0, updIssued := false }

/-- The barrier's bookkeeping is over; results of the committed step's trees are no longer current. A twin commits no step before its
mirror stream has ended (R338), so the windows of ranks that are not fenced now are closed (R344). [DESIGN CHOICE, assumption 118] -/
def Partn.stepDone (p : Partn) : Partn :=
  { p with arrived := false, barStage := 0, barPeerSeq := [], numDecision := none, qfull := false, normAtt := 0
           norms := p.norms.mapKV fun _ (n0 : NormNode) =>
             let n : NormNode := if p.normAtt = 0 then n0 else { n0 with ups := n0.early, early := [] }
             if p.lastCommit.toInt < n.step.toInt then n else { n with result := none, kept := none }
           stopNow := p.stat == .stopping, windows := p.windows.filter p.fencedRanks.contains }

/-- Slow-module thresholds (R345): the plan's under expert control, else 2.00 % and 64 steps. -/
def Control.slow (c : Control) : Nat × Nat :=
  (if c.slowPct = 0 then 200 else c.slowPct, if c.slowSteps = 0 then 64 else c.slowSteps)

/-- The step that ends now is judged for own lateness (R345); a slow module declares every rank it serves (R326). [DEDUCED, assumption 97] -/
def State.judgeStep (s : State) (q : Nat) (pl : Plan) : State :=
  let p := s.part q
  let own := s.now - p.stepTick.toNat - pl.stepTicks - p.remoteWait
  let (pct, steps) := pl.ctrl.slow
  let tooSlow := decide (pct * pl.stepTicks < own * 10000) && !p.slowBreak
  let run := if tooSlow then p.slowRun + 1 else 0
  let sum := if tooSlow then p.slowSum + own else 0
  let s1 := s.setPart q { p with
    stepTick := s.clk.tick, remoteWait := 0, slowBreak := false, slowRun := if run = steps then 0 else run, slowSum := if run = steps then 0 else sum }
  if run = steps then
    let s2 := (List.range s1.partCnt).foldl (fun s i => s.declareSelf 5 i) (s1.log 0x910 q (a3 pl.shape.self ++ a4 steps ++ a4 (sum / steps)))
    { s2 with host := { s2.host with slowLeaves := true } }
  else s1

/-- The commit barrier of the partition completes. [DEDUCED, assumption 85] -/
def State.commitStep (s : State) (q : Nat) (pl : Plan) : State :=
  let bad := (s.commitsDone q).mismatches q
  let s0 := (((s.censusCommit q).commitsDone q).rebase q).countPart q 8 1
  let pd := s0.part q
  let s1 := if pd.drain = 1 ∧ pd.drainStep = pd.lastCommit then s0.log 0x450 q (a2 (jobtagOf pl).toNat ++ a8 pd.drainStep.toNat) else s0
  if (s1.part q).runs then
    let s2 := (engsOf s1.partCnt q).foldl (fun s e => s.modEng e (Engine.stepDone (s1.part q).lastCommit)) (s1.modPart q Partn.stepDone)
    let s3 := (((s2.applyDeferred q).censusBegin q).judgeStep q pl).reportMismatch q bad
    s3.stopIfParked q
  else s1

/-- COMMIT_BARRIER_COMPLETE: step 5 holds, each child's watermark showing its release. -/
def execCommitBarrierComplete (q : Part) (s : State) : Out :=
  let s1 := s.barGo q
  let p := s1.part q
  match p.plan with
  | none => .next s
  | some pl =>
    if p.arrived ∧ p.barStage = 5 ∧ p.barPeerSeq.all (fun x => serialLe x.2 (s1.peer q x.1).txAcked) then
      .next (s1.commitStep q pl)
    else .next s1

/-! ## Numerics answers (R150, R158) -/

/-- The Hummocks whose UPD waits for the answer. -/
def State.askers (s : State) (q : Nat) (step : Dword) : List Nat :=
  (engsOf s.partCnt q).filter fun e => (s.eng e).inflight.any fun i => i.wait == .numerics && i.step == step

/-- Answer 1 skips the step; answer 2 stops the partition, the step uncommitted. -/
def State.numericsAnswer (s : State) (q : Nat) (step : Dword) (stop : Bool) : State :=
  let l := s.askers q step
  if stop then (l.foldl (fun s _ => s.log 0x812 q (a8 step.toNat)) s).stopPart q 2
  else l.foldl (fun s e => s.modEng e fun x => { x with
    inflight := x.inflight.map fun i => if i.wait == .numerics && i.step == step then { i with wait := .turn } else i }) s

/-! ## The sync store's scrubber (R205) -/

def State.syncCorrected (s : State) (w : Word) : State :=
  let s1 := { s with sync := { s.sync with ceCnt := satInc s.sync.ceCnt 1 } }
  if s.dueEvent s.sync.ceTick then
    let s2 := (s1.log 0x740 0 (a6 w.toNat)).syncBit 6
    { s2 with sync := { s2.sync with ceTick := some s.now } }
  else s1

/-- SYNC_SCRUB (R205). -/
def execSyncScrub (corrected uncorrectable : List Word) (s : State) : Out :=
  let s1 := corrected.foldl State.syncCorrected s
  .next (match uncorrectable with
    | [] => s1
    | _ => ((uncorrectable.foldl (fun s w => s.log 0x741 0 (a6 w.toNat)) s1).syncBit 7).cannotContinue)

end Sys2Proof.Machine
end

