-- ==== Sys2Proof/Machine/Code.lean ====
section
/-!
DEFINITION. Machine/Code.lean: the lane code RS(272,257) over GF(2^10) (R218), the bits of Tables 9.3 and 9.4 as its symbols, and the
scrambler that a lane's bits pass (R218, R219).
-/

namespace Sys2Proof.Machine

/-! ## GF(2^10), field polynomial x^10 + x^3 + 1 -/

/-- Multiply by x. -/
def gfTwice (a : Nat) : Nat := let y := 2 * a; if 1024 ≤ y then y ^^^ 0x409 else y

/-- The sum over the top `n` bits of `b`, most significant first. -/
def gfMulFrom (a b : Nat) : Nat → Nat → Nat
  | 0, acc => acc
  | n + 1, acc => gfMulFrom a b n (if bitAt b n then gfTwice acc ^^^ a else gfTwice acc)

def gfMul (a b : Nat) : Nat := if a = 0 then 0 else if b = 0 then 0 else gfMulFrom a b 10 0

def gfPow (a : Nat) : Nat → Nat
  | 0 => 1
  | n + 1 => gfMul a (gfPow a n)

/-- α^n, α being the root x of the field polynomial. -/
def alphaPow (n : Nat) : Nat := (List.range (n % 1023)).foldl (fun x _ => gfTwice x) 1

/-- The inverse is the power 1022, by squaring: 1022 = 2·511. -/
def gfInv (a : Nat) : Nat :=
  let (_, r) := (List.range 9).foldl (fun (p : Nat × Nat) _ => let q := gfMul p.1 p.1; (q, gfMul p.2 q)) (a, 1)
  r

/-- The value at `x` of a polynomial, lowest coefficient first. -/
def polyAt (x : Nat) : List Nat → Nat
  | [] => 0
  | c :: cs => c ^^^ gfMul x (polyAt x cs)

def polyAdd : List Nat → List Nat → List Nat
  | [], q => q
  | p, [] => p
  | a :: p, b :: q => (a ^^^ b) :: polyAdd p q

def polyScale (k : Nat) (p : List Nat) : List Nat := p.map (gfMul k)

/-- The product of two polynomials. -/
def polyMul : List Nat → List Nat → List Nat
  | [], _ => []
  | a :: p, q => polyAdd (polyScale a q) (0 :: polyMul p q)

/-! ## RS(272,257) -/

def rsLen : Nat := 272
def rsParity : Nat := 15

/-- The generator with roots α^0 to α^14, lowest coefficient first. -/
def rsGen : List Nat := (List.range rsParity).foldl (fun g i => polyMul g [alphaPow i, 1]) [1]

/-- One step of the division by the generator: `r` holds the remainder, highest coefficient first. -/
def rsStep (g : List Nat) (r : List Nat) (d : Nat) : List Nat :=
  let k := d ^^^ r.headD 0
  List.zipWith (fun a b => a ^^^ gfMul k b) (r.drop 1 ++ [0]) g

/-- Systematic encoding: the data symbols, then the 15 check symbols. -/
def rsEncode (data : List Nat) : List Nat :=
  let g := (rsGen.take rsParity).reverse
  data ++ data.foldl (rsStep g) (List.replicate rsParity 0)

/-- Syndrome j of a word whose first symbol is the coefficient of x^271. -/
def syndrome (w : List Nat) (j : Nat) : Nat :=
  let x := alphaPow j
  w.foldl (fun acc c => gfMul acc x ^^^ c) 0

def syndromes (w : List Nat) : List Nat := (List.range rsParity).map (syndrome w)

/-- The search for the error locator: the locator so far, the one before its last change, its length, that change's
discrepancy, and the steps since. -/
structure BmState where
  c : List Nat := [1]
  b : List Nat := [1]
  l : Nat := 0
  d : Nat := 1
  m : Nat := 1

/-- One syndrome of the search. -/
def bmStep (ss : List Nat) (st : BmState) (n : Nat) : BmState :=
  let d := (List.range (st.l + 1)).foldl (fun acc i => acc ^^^ gfMul (st.c.getD i 0) (ss.getD (n - i) 0)) 0
  if d = 0 then { st with m := st.m + 1 }
  else
    let c' := polyAdd st.c (List.replicate st.m 0 ++ polyScale (gfMul d (gfInv st.d)) st.b)
    if 2 * st.l ≤ n then { c := c', b := st.c, l := n + 1 - st.l, d := d, m := 1 }
    else { st with c := c', m := st.m + 1 }

/-- The formal derivative in characteristic 2. -/
def polyDeriv (p : List Nat) : List Nat := (p.drop 1).mapIdx fun i c => if i % 2 = 0 then c else 0

/-- The error at degree `i`, given the locator and the evaluator. -/
def errorAt (loc ev : List Nat) (i : Nat) : Nat :=
  let y := alphaPow (1023 - i)
  if polyAt y loc = 0 then gfMul (gfMul (alphaPow i) (polyAt y ev)) (gfInv (polyAt y (polyDeriv loc))) else 0

/-- Decode one word of 272 symbols: the corrected word and the number of symbols corrected, at most 7; none where no codeword
lies within 7 symbols. -/
def rsDecode (w : List Nat) : Option (List Nat × Nat) :=
  let ss := syndromes w
  if ss.all fun x => x == 0 then some (w, 0)
  else
    let st := (List.range rsParity).foldl (bmStep ss) {}
    let ev := (polyMul ss st.c).take rsParity
    let w' := w.mapIdx fun k x => x ^^^ errorAt st.c ev (rsLen - 1 - k)
    let n := (w.zip w').countP fun p => p.1 != p.2
    if n ≤ 7 ∧ (syndromes w').all (fun x => x == 0) then some (w', n) else none

/-! ## Frame bits (R218, Table 9.3) -/

/-- Ten bits with their order turned round: a group's first bit is its symbol's most significant bit. -/
def turn10 (v : Nat) : Nat := (List.range 10).foldl (fun acc i => 2 * acc + (if bitAt v i then 1 else 0)) 0

/-- The 2,570 data bits of a codeword as one number, bit 0 first. -/
def bitsOfSymbols (w : List Nat) : Nat := (w.take 257).foldr (fun x acc => turn10 x + 1024 * acc) 0

def symbolsOfBits : Nat → Nat → List Nat
  | 0, _ => []
  | n + 1, v => turn10 (v % 1024) :: symbolsOfBits n (v / 1024)

/-- The fields of Table 9.3. -/
def wireOfBits (v : Nat) : Wire :=
  { fsn := BitVec.ofNat 16 v, ack := BitVec.ofNat 16 (v >>> 16), idle := bitAt v 32, nak := bitAt v 33
    acksel := BitVec.ofNat 5 (v >>> 34), first := BitVec.ofNat 9 (v >>> 39), busy := bitAt v 48
    payload := leBytes 315 (v >>> 50) }

/-- The bits of a frame's word, in the fields of Table 9.3. [DEDUCED, assumption 39] -/
def Wire.bits (w : Wire) : Nat :=
  w.fsn.toNat + w.ack.toNat * 2 ^ 16 + w.idle.toNat * 2 ^ 32 + w.nak.toNat * 2 ^ 33 + w.acksel.toNat * 2 ^ 34
    + w.first.toNat * 2 ^ 39 + w.busy.toNat * 2 ^ 48 + leNat (sub w.payload 0 315) * 2 ^ 50

/-- The codeword of a frame, before the scrambler. -/
def Wire.codeword (w : Wire) : List (BitVec 10) := (rsEncode (symbolsOfBits 257 w.bits)).map (BitVec.ofNat 10)

/-- A received codeword: the frame and the symbols corrected; none where it cannot be corrected. [DEDUCED, assumption 39] -/
def decodeFrame (cw : List (BitVec 10)) : Option (Wire × Nat) :=
  (rsDecode (cw.map BitVec.toNat)).map fun p => (wireOfBits (bitsOfSymbols p.1), p.2)

/-! ## A lane's bits (R218, R219) -/

/-- The 16-bit word 0x5A3C repeated eight times (Table 9.4). -/
def markerBits : Nat := leNat ((List.replicate 8 [(0x3C : Byte), 0x5A]).flatten)

end Sys2Proof.Machine

namespace Sys2Proof

open Machine

/-- The data bits of Table 9.4. -/
def AlignBlock.bits (b : AlignBlock) : Nat :=
  markerBits + b.interval.toNat * 2 ^ 128 + b.rptPort.val * 2 ^ 160 + b.rptOma.toNat * 2 ^ 165 + b.rptCorr.toNat * 2 ^ 181
    + b.rptUnc.toNat * 2 ^ 197 + b.state.toNat * 2 ^ 209

/-- The codeword of an alignment block. -/
def AlignBlock.codeword (b : AlignBlock) : List (BitVec 10) := (rsEncode (symbolsOfBits 257 b.bits)).map (BitVec.ofNat 10)

end Sys2Proof

namespace Sys2Proof.Machine

/-- The bits of a codeword in the order of the lane: each symbol's most significant bit first. -/
def symbolBits (w : List (BitVec 10)) : List Bool := w.flatMap fun x => (List.range 10).map fun i => x.getLsbD (9 - i)

/-- What the polynomial x^58 + x^39 + 1 adds to a bit: bit k of `h` is the bit that the lane carried k + 1 places before. -/
def scramblerTap (h : BitVec 58) : Bool := h.getLsbD 38 ^^ h.getLsbD 57

/-- The last 58 bits of the lane after one more. -/
def scramblerNext (h : BitVec 58) (b : Bool) : BitVec 58 := (h <<< 1) ||| (if b then 1 else 0)

/-- The self-synchronous scrambler: the lane's bits, and its last 58 after them. -/
def scramble (h : BitVec 58) : List Bool → List Bool × BitVec 58
  | [] => ([], h)
  | b :: bs =>
    let o := b ^^ scramblerTap h
    let r := scramble (scramblerNext h o) bs
    (o :: r.1, r.2)

/-- The receiver's side of it, which needs nothing but the lane's own bits. -/
def descramble (h : BitVec 58) : List Bool → List Bool
  | [] => []
  | o :: os => (o ^^ scramblerTap h) :: descramble (scramblerNext h o) os

/-- The codewords that transmit lane (p, c) has sent, alignment blocks marked, in order. -/
def State.laneWords (s : State) (p c : Nat) : List (Bool × List (BitVec 10)) :=
  let out := (s.tx p c).out
  (List.range (out.length + 1)).flatMap fun i =>
    ((s.router.aligns.filter fun a => a.1 == p && a.2.1 == c && a.2.2.1 == i).map fun a => (true, a.2.2.2.codeword))
      ++ ((out.drop i).take 1).map fun w => (false, w.codeword)

/-- Codewords as the lane carries them: the marker of an alignment block does not pass the scrambler. [DEDUCED, assumption 39] -/
def lineBits (h : BitVec 58) : List (Bool × List (BitVec 10)) → List Bool
  | [] => []
  | (a, w) :: l =>
    let bs := symbolBits w
    let m := if a then 128 else 0
    let r := scramble h (bs.drop m)
    bs.take m ++ r.1 ++ lineBits r.2 l

/-- Every bit that transmit lane (p, c) has sent, from a scrambler that held `h`. -/
def State.laneBits (s : State) (h : BitVec 58) (p c : Nat) : List Bool := lineBits h (s.laneWords p c)

end Sys2Proof.Machine
end

