-- ==== Sys2Proof/Machine/Port.lean ====
section
/-!
DEFINITION. Machine/Port.lean: what a packet must be to pass a receive port (R251, R257, R265), the port's pool of slots and the
credits it grants (R248, R261-R263), dropping, and relaying (R256, R264, R271, R471).
-/

namespace Sys2Proof.Machine

/-! ## Malformed packets (R265, R269, Table 10.2) -/

/-- VC allowed for a TYPE. A LINK packet rides none, so its field is a reserved one. -/
def vcOk (typ vc : Nat) : Bool :=
  if typ = 0 then vc == 2 || vc == 3 || vc == 5
  else if typ = 1 then vc == 2 || vc == 3
  else if typ = 2 ∨ typ = 3 then vc == 0
  else if typ = 4 then vc == 1
  else if typ = 5 then vc == 4
  else vc == 0

/-- A payload that widens on arrival is 1 to 124 whole MX blocks of 33 B (R269). -/
def wideLenOk (n : Nat) : Bool := n % 33 == 0 && decide (1 ≤ n / 33) && decide (n / 33 ≤ 124)

end Sys2Proof.Machine

namespace Sys2Proof

open Machine

/-- A reserved bit is set (R265). A PACK packet's PSEQ is not looked at: R193 both numbers VC0 and gives a PACK no commit. -/
def Packet.reservedSet (k : Packet) : Bool :=
  let t := k.typ.toNat
  if t = 6 then
    k.vc != 0 || k.coord || k.hops != 0 || k.dl || k.packv || k.dest != 0 || k.src != 0 || k.dcoord != 0 || k.dirs != 0
      || k.resv != 0 || k.gen != 0 || k.pseq != 0 || k.pack != 0 || k.wfmt != 0 || k.jobtag != 0
  else
    k.resv != 0 || ((t == 1 || t == 4 || t == 5) && k.pseq != 0) || (!k.packv && k.pack != 0)
      || (t == 3 && k.addr != 0) || (t == 2 && Nat.ble (2 ^ 34) k.addr.toNat) || (t == 5 && Nat.ble 256 k.addr.toNat)
      || (t != 1 && k.chain != 0) || (t == 5 && (k.src != 0 || k.gen != 0 || k.jobtag != 0)) || (k.coord && k.dest != 0)

/-- A whole packet that R265 drops. [DEDUCED, assumption 79] -/
def Packet.malformed (k : Packet) : Bool :=
  let t := k.typ.toNat
  Nat.ble 7 t || Nat.ble 4 k.wfmt.toNat || !vcOk t k.vc.toNat || ((t == 2 || t == 3 || t == 6) && k.len != 0)
    || (Nat.ble 2 t && k.wfmt != 0) || (k.wfmt != 0 && !wideLenOk k.len.toNat) || k.reservedSet

/-- The packet ends here and takes no credit: it names this module and is neither multicast nor a LINK (R263). -/
def Packet.ejectsAt (k : Packet) (c : BitVec 17) : Bool := k.typ != 1 && k.typ != 6 && k.dcoord == c

/-- It waits in a small slot (R261). -/
def Packet.isSmall (k : Packet) : Bool := k.typ == 2 || k.typ == 3

end Sys2Proof

namespace Sys2Proof.Machine

/-! ## The pool of a receive port (R261-R263) -/

/-- Packets of the pool, and credits granted and not yet used, of one VC and class. -/
def State.classUse (s : State) (p v d : Nat) : Nat :=
  let x := s.port p
  (x.slots.filter fun e => !e.2.ejectsAt s.coord && creditKey e.2 == 2 * v + d).length
    + x.granted.foldl (fun n kv => if kv.1 % 16 = 2 * v + d then n + kv.2 else n) 0

/-- Packets that end here and whose payload is still coming in on port `p`: each has its slot from its header on (R263). -/
def State.capturing (s : State) (p : Nat) : Nat :=
  (List.range 20).countP fun c =>
    let bs := (s.rx p c).asm
    Nat.ble 32 bs.length && (headerOf (bs.take 32)).ejectsAt s.coord && !(headerOf (bs.take 32)).isSmall

/-- Small slots of one TYPE and class that are taken: SIGNAL and PACK have 8 each per class (Table 10.3). -/
def State.smallUse (s : State) (p typ d : Nat) : Nat :=
  ((s.port p).small.filter fun e => e.2.typ.toNat == typ && e.2.dl.toNat == d).length

/-- Credits of VC0 given and not yet used, each of which may bring a SIGNAL or a PACK. -/
def State.smallGrants (s : State) (p d : Nat) : Nat :=
  (s.port p).granted.foldl (fun n kv => if kv.1 % 16 = d then n + kv.2 else n) 0

/-- Shared slots taken: every ejecting packet, and all but one of each class (Table 10.3). -/
def State.sharedUse (s : State) (p : Nat) : Nat :=
  ((s.port p).slots.filter fun e => e.2.ejectsAt s.coord).length + s.capturing p
    + ([1, 2, 3, 4, 5].flatMap fun v => [s.classUse p v 0, s.classUse p v 1]).foldl (fun n u => n + (u - 1)) 0

def sharedSlots : Nat := 72
def smallSlots : Nat := 8

/-- A SIGNAL for a partition whose share of the held queue is full: it waits where it arrived, and the lane's other traffic flows on (R198).
[DEDUCED, assumption 40] -/
def State.sigWithheld (s : State) (k : Packet) : Bool :=
  let q := epPart k.dest
  k.typ == 2 && (s.part q).plan.isSome && Nat.ble (heldCap s.partCnt) (s.part q).heldQ.length

/-- A free unreserved slot for an ejecting packet, or a small slot of its TYPE and class (R263). -/
def State.ejectRoom (s : State) (p : Nat) (k : Packet) : Bool :=
  if k.isSmall then s.sigWithheld k || decide (s.smallUse p k.typ.toNat k.dl.toNat + s.smallGrants p k.dl.toNat < smallSlots)
  else decide (s.sharedUse p < sharedSlots)

/-- Shared slots that a lane's first credits leave to ejecting packets. [DEDUCED, assumption 40] -/
def keptForEject : Nat := 8

/-- One more credit of a class may be granted: its own reserve is free, or a shared slot is, beyond `kept` of them. A VC0 credit needs a
slot of either TYPE, and a lane's first one leaves one of each to ejecting packets. [DEDUCED, assumption 40] -/
def State.grantRoom (s : State) (p v d kept : Nat) : Bool :=
  if v = 0 then decide (max (s.smallUse p 2 d) (s.smallUse p 3 d) + s.smallGrants p d + min kept 1 < smallSlots)
  else s.classUse p v d == 0 || decide (s.sharedUse p < sharedSlots - kept)

/-- The LINK packet that returns `credits` (a list of credit keys) to lane (port, colour) of its receiver (R248). [DEDUCED, assumption 40] -/
def linkPacket (port colour : Nat) (credits : List Nat) : Packet :=
  { blankPacket with
    typ := 6, chain := BitVec.ofNat 16 (port + 32 * colour)
    addr := BitVec.ofNat 48 (credits.foldl (fun n k => n + 2 ^ (4 * k)) 0) }

/-- Send a LINK packet back to the sender of receive lane (p, c), on the lane that R223 chooses. -/
def State.linkOut (s : State) (p c : Nat) (credits : List Nat) : State :=
  match s.ackLane p c with
  | none => s
  | some r =>
    let k := linkPacket (pairedPort p) c credits
    s.onLane r (backColour c) { orig := k, inPlane := 0, pkt := k }

/-- Grant lane (p, c) a credit of every class of which it has none and for which there is room; one LINK packet carries them.
[DEDUCED, assumption 40] -/
def State.grantLane (s : State) (p c : Nat) : State :=
  if (s.rx p c).st == .up ∧ (s.ackLane p c).isSome then
    let (s1, ks) := (List.range 12).foldl (fun (a : State × List Nat) k =>
      if (a.1.port p).granted.get 0 (16 * c + k) = 0 ∧ a.1.grantRoom p (k / 2) (k % 2) keptForEject then
        (a.1.modPort p fun x => { x with granted := x.granted.set (16 * c + k) 1 }, a.2 ++ [k])
      else a) (s, [])
    if ks.isEmpty then s else s1.linkOut p c ks
  else s

/-- Every lane of the port is given the credits that its pool has room for (R262). [DEDUCED, assumption 40] -/
def State.grantAll (s : State) (p : Nat) : State := (List.range 20).foldl (fun s c => s.grantLane p c) s

/-- A slot of class `k` has freed: the first lane without a credit of the class receives it (R262). -/
def State.grantFreed (s : State) (p k : Nat) : State :=
  if s.grantRoom p (k / 2) (k % 2) 0 then
    match (List.range 20).find? fun c => (s.rx p c).st == .up && (s.ackLane p c).isSome && (s.port p).granted.get 0 (16 * c + k) == 0 with
    | some c => (s.modPort p fun x => { x with granted := x.granted.set (16 * c + k) 1 }).linkOut p c [k]
    | none => s
  else s

/-- A whole packet takes its slot; a packet that needed a credit uses it up. -/
def State.takeSlot (s : State) (p c : Nat) (k : Packet) : State :=
  let needs := !k.ejectsAt s.coord
  (s.bump (8 * p + 1) 1).modPort p fun x =>
    let g := x.granted.get 0 (16 * c + creditKey k)
    let y := { x with
      prx := satInc x.prx 1
      granted := if needs then x.granted.set (16 * c + creditKey k) (g - 1) else x.granted
      slots := if k.isSmall then x.slots else x.slots ++ [(c, k)]
      small := if k.isSmall then x.small ++ [(c, k)] else x.small }
    { y with peak := BitVec.ofNat 7 (max x.peak.toNat (min y.slots.length 82)) }

/-- The slot of a packet frees; credits it made room for are granted (R262). -/
def State.freeSlot (s : State) (p c : Nat) (k : Packet) : State :=
  let x := s.port p
  if x.slots.contains (c, k) ∨ x.small.contains (c, k) then
    let s1 := s.modPort p fun x => { x with slots := x.slots.erase (c, k), small := x.small.erase (c, k) }
    (if k.ejectsAt s.coord then s1 else s1.grantFreed p (creditKey k)).grantAll p
  else { s with router := { s.router with maintRx := s.router.maintRx.erase k } }

/-- A packet command finds its packet in the pool, or in the loop to this module itself, or sees it arrive whole now. -/
def State.arrived (s : State) (p c : Nat) (k : Packet) : State :=
  let x := s.port p
  if x.slots.contains (c, k) ∨ x.small.contains (c, k) ∨ s.router.maintRx.contains k then s
  else (s.modPort p fun x => { x with prx := satInc x.prx 1 }).bump (8 * p + 1) 1

/-! ## Dropping (R275) -/

/-- A packet that arrived on port `p` is dropped for reason `r` of ROUTE_DROPCNT, with ROUTE_STAT bit `b`. [DESIGN CHOICE, assumption 80] -/
def State.dropIn (s : State) (p c : Nat) (k : Packet) (r b : Nat) : State :=
  ((((s.freeSlot p c k).modPort p fun x => { x with pdrop := satInc x.pdrop 1 }).dropInc r).routeBit b)

/-- Drop, with an event at most once per second for `key`. -/
def State.dropRated (s : State) (p c : Nat) (k : Packet) (r b key : Nat) (log : State → State) : State :=
  let (now, s1) := (s.dropIn p c k r b).oncePerSec key
  if now then log s1 else s1

/-- Keys of the once-per-second limits, by event and sender. -/
def rateKey (code ep : Nat) : Nat := code * 1048576 + ep

/-! ## Credits that come back (R248) -/

/-- Send the packets of a lane that now hold a credit, in order. -/
def State.serveWait (s : State) (p c : Nat) : State :=
  let w := (s.tx p c).waitq
  let s0 := s.modTx p c fun l => { l with waitq := [] }
  w.foldl (fun s j => s.viaLane p c j false) s0

/-- The credits that a LINK packet returns, added to the lane it names; waiting packets leave. [DEDUCED, assumption 40] -/
def State.linkIn (s : State) (k : Packet) : State :=
  let p := fld k.chain.toNat 0 5
  let c := fld k.chain.toNat 5 5
  if c < 20 then
    (s.modTx p c fun l => { l with
      credits := (List.range 12).foldl (fun t i =>
        let n := fld k.addr.toNat (4 * i) 4
        if n = 0 then t else t.set i (t.get 0 i + n)) l.credits }).serveWait p c
  else s

/-! ## Relaying (R256, R264, R471) -/

/-- The Peat address of pool slot `i` of receive port `p` (R261). -/
def poolAddr (p i : Nat) : Nat := peatBase + 0x3E580000 + 343168 * p + 4160 * i

/-- The relay reads its slot: one that stays uncorrectable on a second reading is event 0x440 (Table 10.5). -/
def State.slotCheck (s : State) (p c : Nat) (k : Packet) : Option State :=
  match (s.port p).slots.findIdx? fun e => e == (c, k) with
  | none => none
  | some i =>
    match s.poisonIn (poolAddr p i) 4160 with
    | none => none
    | some g =>
      if Config.rereadClean (g + s.free) then none
      else some (((s.dropIn p c k 7 8).log 0x440 0 (a1 p ++ a4 i)).cannotContinue)

/-- Go on with a packet read from the receive slot that it occupies, where it occupies one and the slot reads (Table 10.5). -/
def State.fromSlot (s : State) (slot : Option (Nat × Nat × Packet)) (go : State → State) : State :=
  match slot.bind fun x => s.slotCheck x.1 x.2.1 x.2.2 with
  | some s1 => s1
  | none => go s

/-- A packet received on port `p` is forwarded (ROUTE_PRELAY). -/
def State.relayed (s : State) (p : Nat) : State :=
  (s.modPort p fun x => { x with prelay := satInc x.prelay 1 }).bump (8 * p + 2) 1

/-- The loaded plan whose job tag a packet carries, with its partition. -/
def State.planByTag (s : State) (tag : BitVec 16) : Option (Nat × Plan) :=
  (List.range s.partCnt).findSome? fun q =>
    match (s.part q).plan with
    | some p => if jobtagOf p == tag then some (q, p) else none
    | none => none

/-- Send a packet that this module only passes on, keeping its receive slot until the last frame is acknowledged (R262). -/
def State.passPacket (s : State) (k : Packet) (inPlane : Nat) (slot : Option (Nat × Nat × Packet)) : State :=
  if k.typ = 5 then
    match s.nextHop k.dcoord k.dirs with
    | none => { s with router := { s.router with maintRx := s.router.maintRx ++ [k] } }
    | some (pl, ds) => s.maintHop pl ds { orig := k, inPlane := inPlane, pkt := s.stampHop k pl inPlane, slot := slot }
  else
    match s.planByTag k.jobtag with
    | some (q, p) => s.hop (some p) q k inPlane slot
    | none => s.hop none 0 k inPlane slot

/-- A packet that came in on an inner plane and is not for this module has been detoured: it takes a direct lane of its pair, or
waits in its slot for the first that comes up (R471). Its sender has cleared DL where the hop's axis is new (R258). -/
def State.passDetoured (s : State) (k : Packet) (slot : Option (Nat × Nat × Packet)) : State :=
  match s.nextHop k.dcoord k.dirs with
  | none => s
  | some (pl, ds) =>
    let j : LaneJob := { orig := k, inPlane := 0, pkt := s.stampHop k pl pl, slot := slot, turned := true }
    let up := s.upPorts pl (txColour s.slot ds)
    if up.isEmpty then
      { s with router := { s.router with relayq := s.router.relayq ++ [⟨BitVec.ofNat 3 pl, BitVec.ofNat 5 ds, j⟩] } }
    else
      (s.dealt pl ds).viaLane (nth up (s.router.deal.get 0 (pairKey pl ds))) (txColour s.slot ds) j (s.landing pl ds == k.dcoord)

/-- A whole packet for another module leaves on its next hop. -/
def State.relay (s : State) (p c : Nat) (k : Packet) : State :=
  s.fromSlot (some (p, c, k)) fun s =>
    if p < 16 then (s.relayed p).passDetoured k (some (p, c, k)) else (s.relayed p).passPacket k (portPlane p) (some (p, c, k))

/-- Packets that wait for the pair of lane (p, c) leave on it. -/
def State.serveRelay (s : State) (p c : Nat) : State :=
  let pl := portPlane p
  let mine (w : RelayWait) : Bool := w.plane.toNat == pl && txColour s.slot w.slot.toNat == c
  let go := s.router.relayq.filter mine
  let s1 := { s with router := { s.router with relayq := s.router.relayq.filter fun w => !mine w } }
  go.foldl (fun s w => s.fromSlot w.job.slot fun s => (s.dealt pl w.slot.toNat).viaLane p c w.job (s.landing pl w.slot.toNat == w.job.pkt.dcoord)) s1

end Sys2Proof.Machine
end

