-- ==== Sys2Proof/Machine/Lanes.lean ====
section
/-!
DEFINITION. Machine/Lanes.lean: lane faults, retraining and retirement (R238-R241), frames, acknowledgement and retry (R218-R223,
R264-R266), alignment blocks (R219, R224, R347), and the commands on lanes.
-/

namespace Sys2Proof.Machine

/-- Set a W1C bit of LODE_STAT: 0 RETIRE, 1 RETRY, 2 LOCKLOSS, 3 CLOSED, 4 LOS (R245). -/
def State.lodeBit (s : State) (p i : Nat) : State := s.modPort p fun x => { x with stat := setBit x.stat i }

/-- Some loaded plan puts the function of MODE bit `i` in host-assisted mode (R41, R467). [DEDUCED, assumption 44] -/
def State.hostMode (s : State) (i : Nat) : Bool :=
  (List.range s.partCnt).any fun q =>
    match (s.part q).plan with
    | some p => p.ctrl.mode.getLsbD i
    | none => false

def allLanes : List (Nat × Nat) := (List.range 32).flatMap fun p => (List.range 20).map fun c => (p, c)

/-! ## Time spent declining frames (R266) -/

/-- Ticks of the last second in which the port declined frames (R266). -/
def State.declinedTicks (s : State) (p : Nat) : Nat :=
  let x := s.port p
  let from_ := s.now - ticksPerSec
  x.declines.foldl (fun n d => n + (d.2 - max d.1 from_)) (match x.declineSince with | some t => s.now - max t from_ | none => 0)

/-- More than 1 ms of the last second: event 0x460, and the count begins again. [DEDUCED, assumption 8] -/
def State.declineCheck (s : State) (p : Nat) : State :=
  let n := s.declinedTicks p
  if 156250 < n then
    ((s.modPort p fun x => { x with declines := [], declineSince := x.declineSince.map fun _ => s.now }).log 0x460 0
      (a1 p ++ a4 (n * 32 / 5000))).routeBit 9
  else s

/-- Lane (p, c) declines no more; the port's span ends with its last lane. -/
def State.undecline (s : State) (p c : Nat) : State :=
  if (s.rx p c).declining then
    let s1 := s.modRx p c fun x => { x with declining := false }
    if (List.range 20).any fun c => (s1.rx p c).declining then s1
    else
      (s1.modPort p fun x => { x with
        declines := (match x.declineSince with | some t => [(t, s.now)] | none => []) ++ x.declines.filter fun d => s.now < d.2 + ticksPerSec
        declineSince := none }).declineCheck p
  else s

/-- A shared relay has to go on: a packet whose lane is lost goes out whole on the next lane (Table 10.5); a LINK packet takes
the lane that R223 now chooses. -/
def State.rehop (s : State) (p c : Nat) (j : LaneJob) : State :=
  if j.gone then s
  else if j.orig.typ = 6 then
    match s.ackLane p (backColour c) with
    | some r => s.onLane r c j
    | none => s
  else s.fromSlot j.slot fun s => if j.turned then s.passDetoured j.orig j.slot else s.passPacket j.orig j.inPlane j.slot

/-! ## Retiring (R239) -/

/-- A transmit lane retires during loads (R34): a load completes where its check 0x08 has run. [DEDUCED, assumption 32] -/
def State.loadsLoseLane (s : State) (p c : Nat) : State :=
  (List.range s.partCnt).foldl (fun s q =>
    if (s.part q).loading.isNone then s
    else
      let b := Config.checked s.free
      s.takeFree.2.modPart q fun x => { x with
        loading := x.loading.map fun j => if j.ran8 || b then { j with ran4 := true, ran8 := true, lanes := (p, c) :: j.lanes } else j }) s

/-- A lane retires under a cause of R244. One that failed its loop or its calibration stays retired for the module's life. -/
def State.retireLane (s : State) (p c : Nat) (d : Dir) (cause : Nat) : State :=
  let nv := cause == 4 || cause == 5
  let ev (s : State) : State := (s.log 0x303 0 (a1 p ++ a1 c ++ a1 (Dir.code d) ++ a1 cause)).lodeBit p 0
  match d with
  | .tx =>
    let l := s.tx p c
    if l.st == .retired then s.setTx p c { l with retiredNv := l.retiredNv || nv }
    else
      let s0 := if l.st == .up then s.sendBlock p c 2 else s
      let s1 := ev (s0.modTx p c fun l => { l with
        st := .retired, outOfTraffic := false, hostTry := false, queue := [], fill := 0, unacked := [], held := [], waitq := []
        pausedBusy := none, replayDue := false, margin := 0x8000, omas := [], retiredNv := l.retiredNv || nv })
      ((l.held ++ l.waitq).foldl (fun s j => s.rehop p c j) (s1.loadsLoseLane p c)).laneLimit .tx
  | .rx =>
    let l := s.rx p c
    if l.st == .retired then s.setRx p c { l with retiredNv := l.retiredNv || nv }
    else
      (ev ((s.undecline p c).modRx p c fun l => { l with
        st := .retired, outOfTraffic := false, hostTry := false, asm := [], restart := none, nak := false, nakDue := false
        oma := 0x8000, retiredNv := l.retiredNv || nv })).laneLimit .rx

def laneTicks : Nat := 15625000

/-- The deadline of the lane function is 100 ms (Table 2.7). -/
def State.awaiting (s : State) (w : Proposal) : Option Decision :=
  s.host.decisions.find? fun d => d.what == w && !d.answered && !d.expired

/-- The lane is neither dark nor retired, nor its colour closed. -/
def State.laneLit (s : State) (p c : Nat) : Dir → Bool
  | .tx => (s.tx p c).st != .dark && (s.tx p c).st != .retired
  | .rx => (s.rx p c).st != .dark && (s.rx p c).st != .retired && (s.rx p c).st != .closed

/-- A permanent lane fault (Table 9.9): the lane retires, or, under host-assisted lane retirement, goes out of traffic and waits for
the host, the router acting as for a retired lane (R240). A lane that carries no light has nothing to ask about. [DEDUCED, assumption 44] -/
def State.laneFault (s : State) (p c : Nat) (d : Dir) (cause : Nat) : State :=
  if s.hostMode 2 ∧ s.laneLit p c d = true then
    if (s.awaiting (.lane p c d)).isSome then s
    else
      let s1 := match d with
        | .tx =>
          let l := s.tx p c
          let s0 := s.setTx p c { l with
            outOfTraffic := true, retCause := BitVec.ofNat 4 cause, queue := [], fill := 0, unacked := [], held := [], waitq := []
            pausedBusy := none, replayDue := false }
          (l.held ++ l.waitq).foldl (fun (s : State) j => s.rehop p c j) s0
        | .rx => s.modRx p c fun l => { l with outOfTraffic := true, retCause := BitVec.ofNat 4 cause }
      let (i, s2) := s1.propose (.lane p c d) laneTicks
      s2.noteFn 0 0x81 0 (s2.proposal i 2 laneTicks (a1 p ++ a1 c ++ a1 (Dir.code d)))
  else s.retireLane p c d cause

/-! ## Retraining (R238) -/

def recentTicks : Nat := 10 * ticksPerSec

/-- Retrains of the last 10 s. [DESIGN CHOICE, assumption 7] -/
def State.recent (s : State) (l : List Nat) : List Nat := l.filter fun t => decide (s.now < t + recentTicks)

/-- The lane begins a retrain under a cause of R244. [DEDUCED, assumption 44] -/
def State.startTrain (s : State) (p c : Nat) (d : Dir) (cause : Nat) (host : Bool) : State :=
  let s1 := match d with
    | .tx => s.modTx p c fun l => { l with
        st := .training, trainCause := BitVec.ofNat 3 cause, hostTry := host, resends := [], pausedBusy := none, helloDue := true
        retrains := s.now :: s.recent l.retrains }
    | .rx => (s.undecline p c).modRx p c fun l => { l with
        st := .training, trainCause := BitVec.ofNat 3 cause, hostTry := host, asm := [], restart := none, nak := false, nakDue := false
        nakBusy := false, retrains := s.now :: s.recent l.retrains }
  s1.log 0x302 0 (a1 p ++ a1 c ++ a1 cause)

def State.retrainsOf (s : State) (p c : Nat) (d : Dir) : List Nat :=
  match d with
  | .tx => (s.tx p c).retrains
  | .rx => (s.rx p c).retrains

/-- A lane needs a retrain (Table 9.9): the third within 10 s is a permanent fault. -/
def State.retrain (s : State) (p c : Nat) (d : Dir) (cause : Nat) : State :=
  if 2 ≤ (s.recent (s.retrainsOf p c d)).length then s.laneFault p c d 1 else s.startTrain p c d cause false

/-! ## The sender's side of retry (R221, R222, R266) -/

/-- Frames acknowledged leave their packets; a packet that is whole at the far end frees the slot it came from. -/
def freeJobs : Nat → List LaneJob → List LaneJob × List LaneJob
  | _, [] => ([], [])
  | n, j :: js =>
    if j.left ≤ n then let (a, b) := freeJobs (n - j.left) js; (j :: a, b)
    else ([], { j with left := j.left - n } :: js)

/-- Acknowledge every frame up to `a` on transmit lane (p, c). -/
def State.ackTo (s : State) (p c : Nat) (a : BitVec 16) : State :=
  let l := s.tx p c
  let keep := l.unacked.dropWhile fun f => serialLe f.fsn a
  let n := l.unacked.length - keep.length
  if n = 0 then s
  else
    let (done, held) := freeJobs n l.held
    let s1 := s.setTx p c { l with unacked := keep, held := held, resends := l.resends.drop fun i => !keep.any fun f => f.fsn.toNat == i }
    (done.foldl (fun s j => match j.slot with | some x => s.freeSlot x.1 x.2.1 x.2.2 | none => s) s1).pump p c

/-- Frames go out again: counted (R245). -/
def State.emitAgain (s : State) (p c : Nat) (fs : List Frame) : State :=
  if fs.isEmpty then s
  else
    ((fs.foldl (fun s f => s.emit p c f false) s).modTx p c fun l =>
      { l with retry := satInc l.retry fs.length, replayDue := false }).bump (8 * p + 5) fs.length |>.lodeBit p 1

/-- Resend in order from frame `fsn`; a lane that carries no frames now resends when it does again (R228, R240, R243). -/
def State.resendFrom (s : State) (p c : Nat) (fsn : BitVec 16) : State :=
  let l := s.tx p c
  let fs := l.unacked.dropWhile fun f => f.fsn != fsn
  if fs.isEmpty then s
  else if l.flows then s.emitAgain p c fs
  else s.modTx p c fun l => { l with replayDue := true }

/-- What waited to be resent goes out, from the oldest frame (R243). -/
def State.replayNow (s : State) (p c : Nat) : State :=
  if (s.tx p c).replayDue && (s.tx p c).flows then s.emitAgain p c (s.tx p c).unacked else s

/-- A resend from frame `fsn` that counts toward the 16 of R222 for every frame it sends again; with a frame among them that has been resent 16
times and is still unacknowledged the lane retrains. -/
def State.resendCounted (s : State) (p c : Nat) (fsn : BitVec 16) : State :=
  let l := s.tx p c
  let fs := l.unacked.dropWhile fun f => f.fsn != fsn
  if fs.isEmpty then s
  else if !l.flows then s.resendFrom p c fsn
  else if fs.any fun f => Nat.ble 16 (l.resends.get 0 f.fsn.toNat) then s.retrain p c .tx 1
  else (s.resendFrom p c fsn).modTx p c fun l =>
    { l with resends := fs.foldl (fun t f => t.set f.fsn.toNat (t.get 0 f.fsn.toNat + 1)) l.resends }

/-- The ACK, NAK or BUSY NAK of a frame that came in on receive lane (p, c) acts on the lane it names (R222, R223, R266). -/
def State.ackIn (s : State) (p c : Nat) (w : Wire) : State :=
  let q := pairedPort w.acksel.toNat
  let b := backColour c
  if portPlane q ≠ portPlane p ∨ (s.tx q b).st != .up then s
  else if w.nak then
    let s1 := s.ackTo q b (w.ack - 1)
    if w.busy then
      (s1.modPort q fun x => { x with busyRcvd := satInc x.busyRcvd 1 }).modTx q b fun l =>
        { l with pausedBusy := if l.unacked.any fun f => f.fsn == w.ack then some w.ack else l.pausedBusy }
    else s1.resendCounted q b w.ack
  else s.ackTo q b w.ack

/-! ## The receiver's side (R222, R264-R266) -/

/-- IDLE frames leave on transmit lane (r, b), each with the acknowledgement whose turn it is, until one has named port `p` (R223). -/
def State.answerOn (s : State) (r b p : Nat) : Nat → State
  | 0 => s
  | n + 1 =>
    let s1 := s.emit r b { fsn := 0, first := 0x1FF, payload := List.replicate 315 0 } true
    if s.ackOf r b = p then s1 else s1.answerOn r b p n

/-- The acknowledgement of receive lane (p, c) goes back at once. -/
def State.answer (s : State) (p c : Nat) : State :=
  match s.ackLane p c with
  | some r => s.answerOn r (backColour c) p (max 1 (s.ackPorts r (backColour c)).length)
  | none => s

/-- An uncorrectable frame (Table 9.9): counted, event 0x301 at most once per second per port, and NAK of the frame needed; more
than 1,000 in one second make the lane retrain. -/
def State.badFrame (s : State) (p c : Nat) : State :=
  let x := s.rx p c
  let ts := s.now :: x.uncTicks.filter fun t => decide (s.now < t + ticksPerSec)
  let s1 := (s.setRx p c { x with
    unc := satInc x.unc 1, uncI := x.uncI + 1, uncTicks := ts, nak := true, nakDue := true, nakBusy := false }).bump (8 * p + 6) 1
  let due := match (s1.port p).uncTick with | some t => decide (t + ticksPerSec ≤ s1.now) | none => true
  let s2 := if due then
      (s1.modPort p fun y => { y with uncTick := some s.now }).log 0x301 0 (a1 p ++ a1 c ++ a4 ts.length)
    else s1
  if 1000 < ts.length then s2.retrain p c .rx 3 else s2

/-- The receiver goes back to the frame at which a packet begins. -/
def State.goBack (s : State) (p c : Nat) (f : BitVec 16) (o : Nat) (busy : Bool) : State :=
  s.modRx p c fun x => { x with expect := f, restart := some (f, o), asm := [], nak := true, nakDue := true, nakBusy := busy }

/-- A frame is declined because no slot is free for an ejecting packet that begins in it. -/
def State.decline (s : State) (p c : Nat) (f : BitVec 16) (o : Nat) : State :=
  let s1 := (s.goBack p c f o true).modRx p c fun x => { x with declining := true }
  (s1.modPort p fun x => { x with declineSince := some (x.declineSince.getD s.now) }).declineCheck p

/-- Frame `fsn` is accepted; `asm` holds a packet still coming in, from byte `o` of frame `f`. -/
def State.accepted (s : State) (p c : Nat) (fsn : BitVec 16) (asm : List Byte) (f : BitVec 16) (o : Nat) : State :=
  (s.modRx p c fun x => { x with
    expect := fsn + 1, asm := asm, asmFsn := f, asmOff := o, nak := false, nakDue := false, nakBusy := false, restart := none }).undecline p c

/-- Take packets off the bytes gathered, the first of which begins at byte `o` of frame `f`; the bytes end with frame `fsn`. Behind
a packet (`behind`), zeros up to the frame's end are filling: no whole header is zero. [DEDUCED, assumption 39] -/
def State.unpack (s : State) (p c : Nat) (fsn : BitVec 16) : Nat → Bool → List Byte → BitVec 16 → Nat → State
  | 0, _, _, _, _ => s
  | n + 1, behind, bs, f, o =>
    if behind && bs.all fun b => b == 0 then s.accepted p c fsn [] f o
    else if bs.length < 32 then s.accepted p c fsn bs f o
    else
      let h := headerOf (bs.take 32)
      if 4096 < h.len.toNat then (s.goBack p c f o false).badFrame p c
      else if h.ejectsAt s.coord ∧ (s.rx p c).asm.length < 32 ∧ !s.ejectRoom p h then s.decline p c f o
      else if bs.length < 32 + h.len.toNat then s.accepted p c fsn bs f o
      else
        let k := { h with payload := (bs.drop 32).take h.len.toNat }
        let rest := bs.drop (32 + h.len.toNat)
        if !k.crcOk then (s.goBack p c f o false).badFrame p c
        else
          let s1 := if k.typ = 6 ∧ !k.malformed then (s.arrived p c k).linkIn k else s.takeSlot p c k
          (s1.modRx p c fun x => { x with asm := [] }).unpack p c fsn n true rest fsn (315 - rest.length)

/-- A data frame in FSN order. -/
def State.takeFrame (s : State) (p c : Nat) (w : Wire) : State :=
  let x := s.rx p c
  if x.asm.isEmpty then
    let o := match x.restart with
      | some (f, o) => if f = w.fsn then o else w.first.toNat
      | none => w.first.toNat
    if o < 315 then s.unpack p c w.fsn 12 false (w.payload.drop o) w.fsn o
    else s.accepted p c w.fsn [] w.fsn 0
  else s.unpack p c w.fsn 12 false (x.asm ++ w.payload) x.asmFsn x.asmOff

/-- A receive lane that takes frames. -/
def RxLane.hears (x : RxLane) : Bool := x.st == .up && x.locked && !x.outOfTraffic

/-- LANE_FRAME_RECEIVE: decode (R218), act on the acknowledgement it carries, accept in FSN order, and answer (R222). [DEDUCED, assumption 39] -/
def execLaneFrameReceive (p : Port) (c : Colour) (cw : List (BitVec 10)) (s : State) : Out :=
  if (s.rx p c).hears then
    match decodeFrame cw with
    | none => .next ((s.badFrame p c).answer p c)
    | some (w, n) =>
      let s1 := (s.modRx p c fun x => { x with corr := satInc x.corr n, corrI := x.corrI + n, lastHeard := s.now }).ackIn p c w
      if w.idle then .next s1
      else
        let x := s1.rx p c
        if w.fsn = x.expect then .next ((s1.takeFrame p c w).answer p c)
        else if serialLe w.fsn x.expect then .next (s1.answer p c)
        else .next ((s1.setRx p c { x with nak := true, nakDue := x.nakDue || !x.nak, nakBusy := x.nak && x.nakBusy }).answer p c)
  else .next s

/-- ACK_TIMEOUT: no acknowledgement for the oldest frame within 4 µs (R222). [DESIGN CHOICE, assumption 7] -/
def execAckTimeout (p : Port) (c : Colour) (s : State) : Out :=
  let l := s.tx p c
  match l.unacked with
  | [] => .next s
  | f :: _ => if l.flows then .next (s.resendCounted p c f.fsn) else .next s

/-- BUSY_PAUSE_END: 200 ns after a BUSY NAK the sender resends from the declined frame (R266). -/
def execBusyPauseEnd (p : Port) (c : Colour) (s : State) : Out :=
  match (s.tx p c).pausedBusy with
  | none => .next s
  | some f => .next ((((s.modTx p c fun l => { l with pausedBusy := none }).resendFrom p c f).replayNow p c).pump p c)

/-! ## Alignment blocks (R219, R224) -/

def noSignal : BitVec 16 := 0x8000

/-- The margin over the last 40 reports, in 0.01 dB (R224): the mean OMA minus −9.00 dBm. [DESIGN CHOICE, assumption 121] -/
def marginOf (l : List (BitVec 16)) : BitVec 16 :=
  if l.isEmpty then noSignal
  else BitVec.ofInt 16 ((l.foldl (fun n x => n + x.toInt) 0) / (l.length : Int) + 900)

/-- Slots whose lanes have told this module that they close (R347), within 1 ms of now. -/
def State.closingPeers (s : State) : List Nat :=
  (allLanes.filter fun x => match (s.rx x.1 x.2).peerClosing with
    | some t => decide (s.now ≤ t + 156250)
    | none => false).foldl (fun l x =>
      let k := rxSource s.slot x.2 + 32 * portPlane x.1
      if l.contains k then l else k :: l) []

/-- The received light of a lane over an interval: a measurement that no rule gives (R245). [DESIGN CHOICE, assumption 25] -/
def State.measure (s : State) (p c : Nat) : State :=
  let (n, s1) := s.takeFree
  s1.modRx p c fun x => { x with oma := Config.received n }

/-- ALIGNMENT_BLOCK_RECEIVE: the far end's report on the lane that runs the other way, and its STATE (R219); STATE = 1 says that the sender's
comb switches, and the lane trains with it (Table 9.8). [DEDUCED, assumption 44; DESIGN CHOICE, assumption 121] -/
def execAlignmentBlockReceive (p : Port) (c : Colour) (b : AlignBlock) (s : State) : Out :=
  let x := s.rx p c
  if x.st == .up || x.st == .training then
    let q := pairedPort b.rptPort
    let s1 := ((s.measure p c).modRx p c fun x => { x with lastHeard := s.now }).modTx q (backColour c) fun l =>
      let os := if b.rptOma = noSignal then [] else (b.rptOma :: l.omas).take 40
      { l with omas := os, margin := marginOf os }
    if b.state = 1 then .next (s1.modRx p c fun x => { x with
      st := .training, trainCause := 0, noticeUntil := s.now + 6250, asm := [], restart := none, nak := false, nakDue := false })
    else if b.state = 2 then .next (s1.modRx p c fun x => { x with st := .dark, asm := [], restart := none, nak := false, nakDue := false, oma := noSignal })
    else if b.state = 3 then
      let s2 := s1.modRx p c fun x => { x with peerClosing := some s.now }
      if 2 ≤ s2.closingPeers.length ∧ !s2.boot.quar then .next (s2.quarantine 7) else .next s2
    else .next s1
  else .next s

/-! ## Training, loss of signal, margin, retirement -/

def Island.blocks (i : Island) : Bool := i.stopped || i.lost

/-- Renumber the frames that wait from FSN 0 (R221). -/
def renumber (fs : List Frame) : List Frame := fs.mapIdx fun i f => { f with fsn := BitVec.ofNat 16 i }

/-- A transmit lane comes up: FSN restarts at 0, frames not acknowledged go out again, and what waits for the lane leaves. A lane whose
retirement awaits the host stays out of traffic (R243), unless the host asked for the retrain. -/
def State.txUp (s : State) (p c : Nat) : State :=
  let l := s.tx p c
  let fs := renumber l.unacked
  let s1 := s.setTx p c { l with
    st := .up, unacked := fs, nextFsn := BitVec.ofNat 16 fs.length, resends := [], pausedBusy := none, locked := true, relocks := 0
    replayDue := false, outOfTraffic := l.outOfTraffic && !l.hostTry, hostTry := false, trainCause := 0 }
  ((s1.emitAgain p c fs).pump p c).serveRelay p c

/-- A receive lane comes up: FSN 0 is expected, and its sender is granted credits. -/
def State.rxUp (s : State) (p c : Nat) : State :=
  (s.modRx p c fun l => { l with
    st := .up, expect := 0, nak := false, nakDue := false, nakBusy := false, asm := [], restart := none, locked := true, relocks := 0
    outOfTraffic := l.outOfTraffic && !l.hostTry, hostTry := false, trainCause := 0, lastHeard := s.now }).measure p c |>.grantLane p c

/-- LANE_TRAINED (R217, R221). [DESIGN CHOICE, assumption 3; DEDUCED, assumption 44] -/
def execLaneTrained (p : Port) (c : Colour) (d : Dir) (s : State) : Out :=
  if (s.island (p / 4)).blocks then .next s
  else match d with
    | .tx => if (s.tx p c).st == .training then .next (s.txUp p c) else .next s
    | .rx => if (s.rx p c).st == .training then .next (s.rxUp p c) else .next s

/-- The cause of a retrain after a training that failed: that of the training, and loss of signal for a lane's first one. [DEDUCED, assumption 44] -/
def failCause (cause : BitVec 3) : Nat := if cause = 0 then 2 else cause.toNat

/-- LANE_TRAINING_FAILED: the failure counts toward the retrain limit (R238); a retrain that the host asked for retires the lane
(R240). [DESIGN CHOICE, assumption 3] -/
def execLaneTrainingFailed (p : Port) (c : Colour) (d : Dir) (s : State) : Out :=
  match d with
  | .tx =>
    let l := s.tx p c
    if l.st == .training then
      if l.hostTry then .next (s.retireLane p c .tx 8) else .next (s.retrain p c .tx (failCause l.trainCause))
    else .next s
  | .rx =>
    let l := s.rx p c
    if l.st == .training then
      if l.hostTry then .next (s.retireLane p c .rx 8) else .next (s.retrain p c .rx (failCause l.trainCause))
    else .next s

/-- LOSS_OF_SIGNAL on a receive lane, unless a STATE = 1 notice holds (R233, R238). -/
def execLossOfSignal (p : Port) (c : Colour) (s : State) : Out :=
  let x := s.rx p c
  if x.st == .up && Nat.ble x.noticeUntil s.now then
    .next ((s.modRx p c fun x => { x with oma := noSignal }).lodeBit p 4 |>.retrain p c .rx 2)
  else .next s

/-- The source in service of a photonic engine, and the other one. -/
def State.serving (s : State) (e : Nat) : Option Nat :=
  if (s.comb (2 * e)).st == .service then some (2 * e)
  else if (s.comb (2 * e + 1)).st == .service then some (2 * e + 1) else none

def otherComb (i : Nat) : Nat := if i % 2 = 0 then i + 1 else i - 1

/-- A switch of the engine's comb is pending or possible. -/
def State.switchable (s : State) (e : Nat) : Bool :=
  match s.serving e with
  | some i => (s.comb i).pend || (s.comb i).switching || (s.comb (otherComb i)).st == .warm
  | none => false

/-- LOW_MARGIN_TIMEOUT: margin below −1.0 dB for 1 s with no switch pending or possible (Table 9.9). -/
def execLowMarginTimeout (p : Port) (c : Colour) (s : State) : Out :=
  let l := s.tx p c
  if l.st == .up && l.margin != noSignal && BitVec.slt l.margin (BitVec.ofInt 16 (-100)) && !s.switchable (p / 4) then
    .next (s.laneFault p c .tx 3)
  else .next s

/-- The outcome of a decision whose deadline passed: event 0x9F0 names the function and the decision (R41). [DESIGN CHOICE, assumption 80] -/
def State.expire (s : State) (d : Decision) (fn q : Nat) : State :=
  ({ s with host := { s.host with decisions := s.host.decisions.map fun (x : Decision) =>
      if x.ident = d.ident then { x with expired := true } else x } }).log 0x9F0 q (a4 fn ++ w4 d.ident)

def State.retCauseOf (s : State) (p c : Nat) (d : Dir) : Nat :=
  match d with
  | .tx => (s.tx p c).retCause.toNat
  | .rx => (s.rx p c).retCause.toNat

/-- LANE_RETIRE_DEADLINE: no answer within 100 ms; the retirement proceeds (R240, R41). -/
def execLaneRetireDeadline (p : Port) (c : Colour) (d : Dir) (s : State) : Out :=
  match s.awaiting (.lane p c d) with
  | none => .next s
  | some x => .next ((s.expire x 2 0).retireLane p c d (s.retCauseOf p c d))

/-! ## Ring lock (R227, R228) -/

/-- RING_LOCK_LOOP: within 10 GHz the loop sets its heater; beyond, lock is lost and the lane carries no traffic. [DESIGN CHOICE, assumption 25] -/
def execRingLockLoop (p : Port) (c : Colour) (d : Dir) (errMHz : Nat) (heat : BitVec 16) (s : State) : Out :=
  if errMHz ≤ 10000 then
    match d with
    | .tx => .next (s.modTx p c fun l => { l with heat := heat })
    | .rx => .next (s.modRx p c fun l => { l with heat := heat })
  else
    match d with
    | .tx => if (s.tx p c).locked then .next ((s.modTx p c fun l => { l with locked := false, relocks := 0 }).lodeBit p 2) else .next s
    | .rx => if (s.rx p c).locked then .next ((s.modRx p c fun l => { l with locked := false, relocks := 0 }).lodeBit p 2) else .next s

/-- RING_RELOCK_DONE: the lane is restored with event 0x304, or the third failure in a row retires it. -/
def execRingRelockDone (p : Port) (c : Colour) (d : Dir) (ok : Bool) (heat : BitVec 16) (s : State) : Out :=
  match d with
  | .tx =>
    let l := s.tx p c
    if l.locked then .next s
    else if ok then
      .next (((s.setTx p c { l with locked := true, relocks := 0, heat := heat }).log 0x304 0 (a1 p ++ a1 c ++ a1 0)).replayNow p c |>.pump p c)
    else if l.relocks + 1 < 3 then .next (s.setTx p c { l with relocks := l.relocks + 1 })
    else .next ((s.setTx p c { l with relocks := 3 }).laneFault p c .tx 2)
  | .rx =>
    let l := s.rx p c
    if l.locked then .next s
    else if ok then
      .next ((s.setRx p c { l with locked := true, relocks := 0, heat := heat }).log 0x304 0 (a1 p ++ a1 c ++ a1 1))
    else if l.relocks + 1 < 3 then .next (s.setRx p c { l with relocks := l.relocks + 1 })
    else .next ((s.setRx p c { l with relocks := 3 }).laneFault p c .rx 2)

end Sys2Proof.Machine
end

