-- ==== Sys2Proof/Machine/Light.lean ====
section
/-!
DEFINITION. Machine/Light.lean: thermal islands (R226, R229), comb sources and their switches (R231-R237), with what happens when
two of these meet (R243).
-/

namespace Sys2Proof.Machine

/-- The lanes of photonic engine `e`: its four ports, every colour. -/
def engLanes (e : Nat) : List (Nat × Nat) := allLanes.filter fun x => x.1 / 4 == e

/-! ## Thermal islands (R226), temperatures in 1/16 °C -/

/-- Within 78–82 °C. -/
def inBand (t : BitVec 12) : Bool := decide (1248 ≤ t.toInt) && decide (t.toInt ≤ 1312)
/-- Within 75–85 °C. -/
def inWide (t : BitVec 12) : Bool := decide (1200 ≤ t.toInt) && decide (t.toInt ≤ 1360)

def txHalted (l : TxLane) : TxLane := { l with st := if l.st = .up ∨ l.st = .training then .calib else l.st }
def rxHalted (l : RxLane) : RxLane := { l with st := if l.st = .up ∨ l.st = .training then .calib else l.st, asm := [] }

/-- Every lane of the engine carries no traffic. -/
def State.haltLanes (s : State) (e : Nat) : State :=
  (engLanes e).foldl (fun s x => (s.modTx x.1 x.2 txHalted).modRx x.1 x.2 rxHalted) s

/-- ISLAND_OUT_OF_BAND: event 0x320 once per excursion; beyond 75–85 °C the engine's lanes carry no traffic. -/
def execIslandOutOfBand (e : Phot) (temp : BitVec 12) (s : State) : Out :=
  if inBand temp then .next s
  else
    let i := s.island e
    let s1 := s.setIsland e { i with temp := temp, inband := false, excursion := true, stopped := i.stopped || !inWide temp }
    let s2 := if i.excursion then s1 else s1.log 0x320 0 (a1 e ++ aT (temp.signExtend 16))
    if !inWide temp ∧ !i.stopped ∧ !i.lost then .next (s2.haltLanes e) else .next s2

/-- A ring's heater code after a calibration: the manual does not give it (R229). [DESIGN CHOICE, assumption 25] -/
def State.freshHeat (s : State) : BitVec 16 × State :=
  let (n, s1) := s.takeFree
  (Config.heater n, s1)

/-! ## Calibration (R229, R230). Colour 0 of an inner port is lit only within it (R214). -/

/-- Every ring of some lanes is swept and has a heater code: the manual does not give them. [DESIGN CHOICE, assumption 25] -/
def State.heatRings (s : State) (l : List (Nat × Nat)) : State :=
  l.foldl (fun s x =>
    let (h, s1) := s.freshHeat
    let (g, s2) := s1.freshHeat
    (s2.modTx x.1 x.2 fun l => { l with heat := h }).modRx x.1 x.2 fun l => { l with heat := g }) s

/-- A ring fails calibration: event 0x330, and its lane retires. Ring 20·p + c is a modulator, 640 + 20·p + c a drop filter. -/
def State.ringFails (s : State) (n : Nat) : State :=
  if 1280 ≤ n then s
  else
    let p := n % 640 / 20
    let c := n % 20
    (s.log 0x330 0 (a1 p ++ a1 c ++ a1 (n / 640))).laneFault p c (if n < 640 then .tx else .rx) 4

/-- An inner port whose loop fails on every ring: event 0x331, and every lane of it retires. -/
def State.portFails (s : State) (failed : List Nat) (p : Nat) : State :=
  if (List.range 20).all fun c => failed.contains (20 * p + c) then
    (List.range 20).foldl (fun s c => (s.laneFault p c .tx 5).laneFault p c .rx 5) (s.log 0x331 0 (a1 p))
  else s

/-- Calibration of some ports with the rings that fail in it. -/
def State.calibratePorts (s : State) (ports failed : List Nat) : State :=
  let s1 := s.heatRings (ports.flatMap fun p => (List.range 20).map fun c => (p, c))
  failed.foldl State.ringFails ((ports.filter fun p => decide (p < 16)).foldl (fun s p => s.portFails failed p) s1)

/-- The rings of an engine that fail the calibration after its island's return. [DESIGN CHOICE, assumption 25] -/
def State.recalibrate (s : State) (e : Nat) : State :=
  let (n, s1) := s.takeFree
  let ports := (List.range 4).map fun i => 4 * e + i
  let rings := ports.flatMap fun p => (List.range 20).flatMap fun c => [20 * p + c, 640 + 20 * p + c]
  s1.calibratePorts ports (rings.filter fun r => Config.ringFails n r)

/-- A halted lane of an engine whose island is back retrains under cause 4 (R226). -/
def State.revive (s : State) (p c : Nat) : State :=
  let s1 := if (s.tx p c).st == .calib && !(s.tx p c).outOfTraffic then s.startTrain p c .tx 4 false else s
  if (s1.rx p c).st == .calib && !(s1.rx p c).outOfTraffic then s1.startTrain p c .rx 4 false else s1

/-- ISLAND_TIMEOUT: the island is lost, event 0x321, and every lane of its engine retires. -/
def execIslandTimeout (e : Phot) (s : State) : Out :=
  let i := s.island e
  if i.lost then .next s
  else
    let s1 := (s.setIsland e { i with lost := true }).log 0x321 0 (a1 e)
    .next ((engLanes e).foldl (fun s x => (s.laneFault x.1 x.2 .tx 6).laneFault x.1 x.2 .rx 6) s1)

/-! ## Quiet windows (R39) -/

def sumLen : Nat → List PhaseEnt → Nat → Nat → Nat
  | 0, _, _, _ => 0
  | n + 1, tl, e, i =>
    match tl[i % tl.length]? with
    | some t => if t.quiet.getLsbD e then t.len + sumLen n tl e (i + 1) else 0
    | none => 0

/-- The phases of a run of quiet ones that lie before position `i`. -/
def sumBefore : Nat → List PhaseEnt → Nat → Nat → Nat
  | 0, _, _, _ => 0
  | n + 1, tl, e, i =>
    match tl[(i + tl.length - 1) % tl.length]? with
    | some t => if t.quiet.getLsbD e then t.len + sumBefore n tl e (i + tl.length - 1) else 0
    | none => 0

/-- The running partition is inside a quiet window of photonic engine `e` with 25 µs of planned length to run (R233). -/
def State.quietFor (s : State) (e q : Nat) : Bool :=
  let p := s.part q
  if !p.runs then true
  else match p.plan, p.phase with
    | some pl, some tag =>
      let tl := pl.timeline
      match tl.findIdx? fun t => t.tag == tag with
      | none => false
      | some i =>
        if tl.all fun t => t.quiet.getLsbD e then true
        else match tl[i]? with
          | none => false
          | some t =>
            let left := (t.len - (s.now - p.phaseTick.toNat)) + sumLen tl.length tl e (i + 1)
            t.quiet.getLsbD e && Nat.ble 4688 (sumBefore tl.length tl e i + t.len + sumLen tl.length tl e (i + 1)) && Nat.ble 3907 left
    | _, _ => false

/-- A quiet window of photonic engine `e` is open: every running partition is quiet for it now (R39, R233). [DEDUCED, assumption 45] -/
def State.windowOpen (s : State) (e : Nat) : Bool := (List.range s.partCnt).all fun q => s.quietFor e q

/-! ## Comb sources (R231-R237) -/

/-- W1C bits of COMB_STAT (R246): 0 SWITCHED, 1 FORCED, 2 FAILED, 3 NOSPARE. -/
def State.combBit (s : State) (i b : Nat) : State := s.modComb i fun x => { x with w1c := setBit x.w1c b }

/-- Lit transmit lanes of the engine with a known margin, whoever lights them; a retired lane is dark. -/
def State.marginLanes (s : State) (e : Nat) : List (Nat × Nat) :=
  (engLanes e).filter fun x => s.laneLit x.1 x.2 .tx && (s.tx x.1 x.2).margin != noSignal

/-- The worst of them, the first in port and colour order. -/
def State.worstLane (s : State) (e : Nat) : Option (Nat × Nat) :=
  (s.marginLanes e).foldl (fun w x => match w with
    | none => some x
    | some y => if BitVec.slt (s.tx x.1 x.2).margin (s.tx y.1 y.2).margin then some x else w) none

def laserTicks : Nat := 10 * ticksPerSec

/-- A switch away from source `i` becomes pending (R232): event 0x310 with the cause, and, under host-assisted laser sparing, the
proposal (R237). Without a warm standby there is nothing to switch to. -/
def State.pendSwitch (s : State) (i cause : Nat) : State :=
  let x := s.comb i
  if x.pend || x.switching || (s.comb (otherComb i)).st != .warm then s
  else
    let ask := s.hostMode 1 && cause != 3
    let s1 := (s.setComb i { x with
      pend := true, pendTick := s.now, cause := BitVec.ofNat 2 cause, approved := !ask, due := false }).log 0x310 0 (a1 i ++ a1 cause)
    if ask then
      let (d, s2) := s1.propose (.comb i) laserTicks
      (s2.modComb i fun x => { x with decision := some d }).noteFn 0 0x81 0 (s2.proposal d 1 laserTicks (a1 i))
    else s1

/-- A switch starts (Table 9.8): the engine's lanes send STATE = 1 and go dark until it ends. -/
def State.startSwitch (s : State) (i : Nat) (forced : Bool) : State :=
  let e := i / 2
  let on := (engLanes e).filter fun x => (s.tx x.1 x.2).st == .up || (s.tx x.1 x.2).st == .training
  let ups := on.filter fun x => (s.tx x.1 x.2).st == .up
  let s1 := on.foldl (fun s x => s.modTx x.1 x.2 fun l => { l with st := .heldSwitch }) (ups.foldl (fun s x => s.sendBlock x.1 x.2 1) s)
  s1.modComb i fun x => { x with switching := true, forced := forced, startTick := s.now, due := false }

/-- The engine's source whose switch is pending and not started. -/
def State.pendingComb (s : State) (e : Nat) : Option Nat :=
  [2 * e, 2 * e + 1].find? fun i => (s.comb i).pend && !(s.comb i).switching

/-- COMB_SWITCH_START: at the first moment that R233 allows, with the host's approval where R237 asks for it. -/
def execCombSwitchStart (e : Phot) (s : State) : Out :=
  match s.pendingComb e with
  | none => .next s
  | some i =>
    if (s.comb i).approved && s.windowOpen e && !(s.island e).blocks then .next (s.startSwitch i false) else .next s

/-- A proposal that nobody answered within the 10 s, or before the switch was forced, has missed its deadline (R237, R41, Table 9.10).
[DEDUCED, assumption 45] -/
def State.lateSwitch (s : State) (i : Nat) : State :=
  match (s.comb i).decision with
  | some d => match s.host.decisions.find? fun (x : Decision) => x.ident == d && !x.answered && !x.expired with
    | some x => s.expire x 1 0
    | none => s
  | none => s

/-- COMB_SWITCH_FORCED: 10 s after it became pending, at once; with the island out of band, at its return (R234, Table 9.10). -/
def execCombSwitchForced (e : Phot) (s : State) : Out :=
  match s.pendingComb e with
  | none => .next s
  | some i =>
    let s1 := s.lateSwitch i
    if (s.island e).blocks then .next (s1.modComb i fun x => { x with due := true }) else .next (s1.startSwitch i true)

/-- A held lane comes up after the switch, unless the island keeps it halted. -/
def State.endHold (s : State) (e p c : Nat) : State :=
  if (s.tx p c).st == .heldSwitch then
    if (s.island e).blocks then s.modTx p c fun l => { l with st := .calib } else s.txUp p c
  else s

/-- COMB_SWITCH_DONE: the standby is in service, the former source retired, the lanes up from FSN 0; event 0x311 or 0x312, and
0x314 for the spare that is gone (R233, R234, R236). [DEDUCED, assumption 45] -/
def execCombSwitchDone (e : Phot) (s : State) : Out :=
  match [2 * e.val, 2 * e.val + 1].find? fun i => (s.comb i).switching with
  | none => .next s
  | some i =>
    let x := s.comb i
    let j := otherComb i
    let again := (engLanes e).foldl (fun n l =>
      if (s.tx l.1 l.2).st == .heldSwitch then n + (s.tx l.1 l.2).unacked.length else n) 0
    let s1 := s.setComb i { x with
      st := if x.st = .failed then .failed else .retired, pend := false, switching := false, cause := 0, decision := none
      drive := 0, worst := noSignal, worstPort := 0, worstCol := 0, lastTick := s.clk.tick, w1c := setBit x.w1c (if x.forced then 1 else 0) }
    let s2 := (s1.modComb j fun y => { y with st := .service, drive := x.drive }).combBit j 3
    let s3 := (engLanes e).foldl (fun s l => s.endHold e l.1 l.2) s2
    let s4 := if x.forced then s3.log 0x312 0 (a1 i ++ a4 again) else s3.log 0x311 0 (a1 i ++ a4 (s.now - x.startTick))
    .next (s4.log 0x314 0 (a1 e))

/-- The last source of an engine is gone: every transmit lane of the engine retires (R236). -/
def State.darkEngine (s : State) (e : Nat) : State := (engLanes e).foldl (fun s x => s.laneFault x.1 x.2 .tx 7) s

/-- A source in service fails: event 0x313, and the switch is forced at once (R235, R232); with no source left the engine goes dark (R236).
[DEDUCED, assumption 45] -/
def State.sourceFails (s : State) (i : Nat) : State :=
  let e := i / 2
  let x := s.comb i
  let s1 := (((s.log 0x313 0 (a1 i)).combBit i 2).pendSwitch i 3).lateSwitch i
  let s2 := s1.modComb i fun y => { y with st := .failed, cause := if y.pend then 3 else y.cause, worst := noSignal, worstPort := 0, worstCol := 0 }
  if x.switching then s2
  else if (s2.comb i).pend then
    if (s2.island e).blocks then s2.modComb i fun y => { y with due := true } else s2.startSwitch i true
  else s2.darkEngine e

/-- COMB_SOURCE_FAIL: the source loses its light (R235). -/
def execCombSourceFail (i : CombId) (s : State) : Out :=
  if (s.comb i).st == .service then .next (s.sourceFails i) else .next s

/-- COMB_DRIVE_ADJUST (R231, R232): the drive follows the worst margin within 30–100 %, and the thresholds may make a switch
pending; at 100 % with a margin below 0 dB the source has failed (R235). Drive counts 0.1 %, margin 0.01 dB. -/
def execCombDriveAdjust (i : CombId) (s : State) : Out :=
  let x := s.comb i
  if x.st == .service && !x.switching then
    match s.worstLane (i / 2) with
    | none =>
      let s1 := s.setComb i { x with worst := noSignal, worstPort := 0, worstCol := 0 }
      .next (if x.driveThr.toNat ≤ x.drive.toNat then s1.pendSwitch i 1 else s1)
    | some (p, c) =>
      let m := (s.tx p c).margin
      let d := if m.toInt < 200 then min 1000 (x.drive.toNat + 2) else if 250 < m.toInt then max 300 (x.drive.toNat - 2) else x.drive.toNat
      let s1 := s.setComb i { x with
        drive := BitVec.ofNat 10 d, worst := m, worstPort := BitVec.ofNat 2 (p % 4), worstCol := BitVec.ofNat 5 c }
      if 1000 ≤ d ∧ m.toInt < 0 then .next (s1.sourceFails i)
      else if x.driveThr.toNat ≤ d then .next (s1.pendSwitch i 1)
      else if m.toInt < x.marginThr.toNat then .next (s1.pendSwitch i 2)
      else .next s1
  else .next s

/-- A warm standby fails: event 0x315; a switch to it is off and the lanes it held come up again, and without another source in service the
engine's transmit lanes retire (R236). [DEDUCED, assumption 45] -/
def State.standbyFails (s : State) (i : Nat) : State :=
  let j := otherComb i
  let e := i / 2
  let s1 := ((s.modComb i fun y => { y with st := .failed }).combBit i 2).log 0x315 0 (a1 i)
  let s2 := s1.modComb j fun y => { y with pend := false, switching := false, cause := 0, due := false }
  if (s2.comb j).st == .service then (engLanes e).foldl (fun s l => s.endHold e l.1 l.2) (s2.combBit j 3)
  else s2.darkEngine e

/-- STANDBY_COMB_FAIL (R236). [DEDUCED, assumption 45] -/
def execStandbyCombFail (i : CombId) (s : State) : Out :=
  if (s.comb i).st == .warm then .next (s.standbyFails i) else .next s

/-- ISLAND_IN_BAND: the engine's lanes are calibrated and retrain; a forced switch that waited for it starts (R226, Table 9.10).
[DEDUCED, assumption 45] -/
def execIslandInBand (e : Phot) (temp : BitVec 12) (s : State) : Out :=
  if inBand temp then
    let i := s.island e
    let s1 := s.setIsland e { i with temp := temp, inband := true, excursion := false, stopped := false }
    if i.stopped ∧ !i.lost then
      let s2 := (engLanes e).foldl (fun s x => s.revive x.1 x.2) (s1.recalibrate e)
      match s2.pendingComb e with
      | some j => if (s2.comb j).due then .next (s2.startSwitch j true) else .next s2
      | none => .next s2
    else .next s1
  else .next s

end Sys2Proof.Machine
end

