-- ==== Sys2Proof/Machine/Packets.lean ====
section
/-!
DEFINITION. Machine/Packets.lean: what happens to a packet that has arrived whole: its checks (R250, R251, R254, R257, R264, R265,
R268), commit (R193-R198, R265, R269), multicast chains (R197, R271), relaying, watermarks (R195, R267) and LANESTATE (R471).
-/

namespace Sys2Proof.Machine

end Sys2Proof.Machine

namespace Sys2Proof

/-- A HELLO belongs to the colour it is heard on (R392): it is taken where it arrives. -/
def Packet.isHello (k : Packet) : Bool := k.typ == 5 && k.addr == 1

end Sys2Proof

namespace Sys2Proof.Machine

/-! ## The checks of every arriving packet -/

/-- A packet that passed HCRC goes through the checks that need no plan; `k` goes on with one that ends here.
[DEDUCED, assumption 39; DEDUCED, assumption 79] -/
def State.receive (s : State) (p c : Nat) (k : Packet) (eject : State → State) : State :=
  if !k.crcOk ∨ 4096 < k.len.toNat then (s.badFrame p c).answer p c
  else
    let s1 := s.arrived p c k
    if k.malformed then
      let due := match (s1.port p).malTick with | some t => decide (t + ticksPerSec ≤ s1.now) | none => true
      let s2 := s1.dropIn p c k 8 10
      if due then
        (s2.modPort p fun x => { x with malTick := some s1.now }).log 0x415 0 (a1 p ++ a4 k.typ.toNat ++ a4 k.vc.toNat)
      else s2
    else if k.coord ∧ k.typ ≠ 5 then (s1.dropIn p c k 3 3).log 0x413 0 (a4 k.typ.toNat ++ a1 p)
    else if 60 < k.hops.toNat then (s1.dropIn p c k 4 4).log 0x414 0 (a3 k.dcoord.toNat ++ a4 k.hops.toNat)
    else if k.typ = 6 then s1.linkIn k
    else if k.dcoord ≠ s.coord ∧ !k.isHello then s1.relay p c k
    else eject s1

/-- No rank of DEST's number exists: the packet is dropped with event 0x410 (R250). -/
def State.noRank (s : State) (p c : Nat) (k : Packet) : State :=
  (s.dropIn p c k 0 0).log 0x410 (epPart k.dest) (a3 (epRank k.dest) ++ a1 (epPart k.dest) ++ a1 p)

/-- The checks at the destination, in the order of R250, R268 and R254; `k` goes on with a packet that passes. [DEDUCED, assumption 79] -/
def State.accept (s : State) (p c : Nat) (k : Packet) (go : Nat → Plan → State → State) : State :=
  let q := epPart k.dest
  let ep := k.src.toNat
  if 65535 < epRank k.dest then s.noRank p c k
  else
    match (s.part q).plan with
    | none => (s.dropIn p c k 6 7).log 0x431 q (a3 ep ++ a1 q)
    | some pl =>
      let e := s.rankEnt q (epRank k.src)
      if k.jobtag ≠ jobtagOf pl then
        s.dropRated p c k 2 2 (rateKey 0x412 ep) fun s => s.log 0x412 q (a2 k.jobtag.toNat ++ a1 q)
      else if !(e.valid && Nat.ble (epRank k.src) 65535) then
        s.dropRated p c k 0 0 (rateKey 0x410 ep) fun s => s.log 0x410 q (a3 (epRank k.src) ++ a1 q ++ a1 p)
      else if k.gen ≠ e.gen then
        s.dropRated p c k 1 1 (rateKey 0x411 ep) fun s => s.log 0x411 q (a3 ep ++ a4 k.gen.toNat ++ a4 e.gen.toNat)
      else go q pl s

/-! ## Watermarks that come back (R195) -/

/-- A watermark for the traffic to `ep`: later than the last one and not beyond what has been sent. -/
def Peer.marked (x : Peer) (m : BitVec 16) : Peer :=
  if serialLe x.txAcked m && serialLe m (x.txNext - 1) then { x with txAcked := m } else x

/-- A watermark comes back: what it acknowledges is applied, and waiting packets leave. -/
def State.markIn (s : State) (q : Nat) (k : Packet) : State :=
  if k.packv then
    let x := (s.peer q k.src).marked k.pack
    ((s.setPeer q k.src x).modPart q fun y => { y with
      ownSigs := y.ownSigs.filter fun g => g.1 != k.src || !serialLe g.2 x.txAcked }).together fun s => s.injectWaiting q k.src x.txWait.length
  else s

/-! ## Remote writes (R268, R269) -/

/-- Format code of a WFMT (Table 10.1, Table 3.6). -/
def wideFmt (w : Nat) : Nat := w - 1

/-- The bytes a WRITE or MCAST payload leaves at ADDR, widened under R112 where WFMT asks for it. -/
def arrivalBytes (wfmt : Nat) (bs : List Byte) : List Byte :=
  if wfmt = 0 then bs
  else
    let f := wideFmt wfmt
    (cut 33 (bs.length / 33) bs).flatMap fun b =>
      (b.drop 1).flatMap fun e => leBytes (fmtBits f / 8) (convElt f (eltScaled 5 e.toNat (b.headD 0).toNat)).1

/-- The bytes lie in one region that the plan declares for remote writes. -/
def Plan.remoteOk (p : Plan) (a n : Nat) : Bool :=
  p.regions.any fun r => r.remote && Nat.ble r.base a && Nat.ble (a + n) (r.base + r.len)

def chunkMax : Nat := 64 * mib

/-- A span of memory cut into chunks of 64 MiB (R338). -/
def cutSpan (a n : Nat) : List (Nat × Nat) :=
  (List.range ((n + chunkMax - 1) / chunkMax)).map fun i => (a + chunkMax * i, min chunkMax (n - chunkMax * i))

/-- The chunks of the mirror stream that comes to a plan's MIRROR regions, and the one that holds address `a`. -/
def mirrorChunks (pl : Plan) : List (Nat × Nat) := (pl.regions.filter fun r => r.use == 0x21).flatMap fun r => cutSpan r.base r.len
def mirrorChunk (pl : Plan) (a : Nat) : Option Nat := (mirrorChunks pl).findIdx? fun x => decide (x.1 ≤ a) && decide (a < x.1 + x.2)

/-- The last partner stream that came to partition `q` for its job: the mirror stream follows it from the same twin (R338). -/
def State.partnerIn (s : State) (q : Nat) : Option Journal :=
  (s.host.journals.filter fun j => !j.sender && !j.mirror && j.part == q && j.jobtag == s.jobtag q).getLast?

/-- The packet belongs to the mirror stream that is open here: it comes on VC5 from the twin that sent the partner stream, to one MIRROR
region, while that stream has not ended; its last chunk may come again (R338, R339, R466). [DEDUCED, assumption 116] -/
def State.mirrorOk (s : State) (q : Nat) (pl : Plan) (k : Packet) (n : Nat) : Bool :=
  let a := k.addr.toNat
  k.typ == 0 && k.vc == 5 && (pl.regions.any fun r => r.use == 0x21 && Nat.ble r.base a && Nat.ble (a + n) (r.base + r.len))
  && match s.partnerIn q with
    | none => false
    | some d => !d.open_ && k.src.toNat == d.peer.toNat
        && s.host.journals.all fun j => !(!j.sender && j.mirror && j.part == q && j.resync == d.resync)
          || j.open_ || mirrorChunk pl a == some (j.chunks - 1)

/-- Commit the payload, or drop it: event 0x430, and the partition stops as R190 gives. Answers whether it was committed. -/
def State.commitWrite (s : State) (p c q : Nat) (pl : Plan) (k : Packet) : Bool × State :=
  let bs := arrivalBytes k.wfmt.toNat k.payload
  if pl.remoteOk k.addr.toNat bs.length || s.mirrorOk q pl k bs.length then (true, (s.countGrains q (grainsOf k.addr.toNat bs.length)).store q 0 k.addr.toNat bs)
  else
    let s1 := (s.dropIn p c k 5 7).log 0x430 q (a3 k.src.toNat ++ a6 k.addr.toNat ++ a1 q)
    (false, if (s1.part q).started then s1.stopPart q 1 else s1)

/-! ## Multicast (R197, R270, R271) -/

/-- The chain module sends the packet on under a fresh route; its slot stays taken until that is acknowledged. -/
def State.forward (s : State) (p c q : Nat) (e : ChainEnt) (k : Packet) : State :=
  if e.next = 0xFFFFFFFF then s.freeSlot p c k
  else
    let d : BitVec 17 := BitVec.ofNat 17 e.next.toNat
    let k1 := { k with dcoord := d, dirs := s.dirsTo (s.part q).plan d, hops := 0, dl := false }
    match s.nextHop d k1.dirs with
    | none => s.freeSlot p c k
    | some (pl, ds) =>
      s.fromSlot (some (p, c, k)) fun s => (s.relayed p).hopOn (s.part q).plan q pl ds
        { orig := k1, inPlane := 0, pkt := s.stampHop k1 pl 0, slot := some (p, c, k) } true

/-- A packet of multicast PUT `put` has been committed here; with the last of its `n` packets the chain's arrival semaphore takes its 1 (R197).
[DEDUCED, assumption 23] -/
def State.mcastCount (s : State) (q : Nat) (e : ChainEnt) (src : Endpoint) (put n : Word) : State :=
  let i := put.toNat * 65536 + e.index.toNat
  let got := (s.part q).arrivals.get 0 i + 1
  if n.toNat ≤ got then
    (s.modPart q fun x => { x with arrivals := x.arrivals.drop fun j => j == i }).remoteAdd q src e.sem.toNat 1
  else s.modPart q fun x => { x with arrivals := x.arrivals.set i got }

/-- MCAST_RECEIVE: a member checks, commits and counts the packet; then it is forwarded. Which multicast PUT the packet belongs to and how
many packets that PUT has, the command says: the header does not. [DEDUCED, assumption 23; DEDUCED, assumption 42] -/
def execMcastReceive (p : Port) (c : Colour) (x : McastIn) (s : State) : Out :=
  let k := x.k
  if k.typ = 1 then
    .next (s.receive p c k fun s =>
      let q := epPart k.dest
      match (s.part q).plan with
      | none => (s.dropIn p c k 6 7).log 0x431 q (a3 k.src.toNat ++ a1 q)
      | some pl =>
        match pl.shape.chains.find? fun e => e.index == k.chain with
        | none => s.freeSlot p c k
        | some e =>
          if e.member then
            s.accept p c k fun q pl s =>
              let (ok, s1) := (if k.dest = s.endpointOf q then s.markIn q k else s).commitWrite p c q pl k
              if ok then (s1.mcastCount q e k.src x.put x.n).forward p c q e k else s1
          else if 65535 < epRank k.dest then s.noRank p c k
          else s.forward p c q e k)
  else .next s

/-! ## Signals (R194, R198, R202) -/

/-- The held signal of a SIGNAL packet (Table 10.2). -/
def sigOf (k : Packet) : HeldSig :=
  { sender := k.src, gen := k.gen, seq := k.pseq, sem := BitVec.ofNat 16 k.addr.toNat, n := BitVec.ofNat 16 (k.addr.toNat >>> 16)
    epochBits := BitVec.ofNat 2 (k.addr.toNat >>> 32), deferred := false }

/-- The packet keeps its small slot: the partition's share of the held queue is full; event 0x711 once per step (R198). -/
def State.queueFull (s : State) (p c q : Nat) (k : Packet) : State :=
  let s1 := if (s.port p).small.contains (c, k) ∨ s.router.maintRx.contains k then s
    else s.modPort p fun x => { x with small := x.small ++ [(c, k)] }
  if (s1.part q).qfull then s1
  else (s1.modPart q fun x => { x with qfull := true }).log 0x711 q (a1 q ++ a8 (s.part q).epoch.toNat) |>.syncBit 1

/-- A SIGNAL that may be released on arrival is; another is held, while the queue has room. [DESIGN CHOICE, assumption 37; DEDUCED, assumption 93] -/
def State.signalIn (s : State) (p c q : Nat) (k : Packet) : State :=
  let h := sigOf k
  let x := s.peer q k.src
  let pt := s.part q
  if x.has k.pseq ∨ (pt.heldQ.any fun y => y.sender == k.src && y.seq == k.pseq) then s.freeSlot p c k
  else
    let now := x.allBelow k.pseq
    let later := (h.epochBits.toNat + 4 - pt.epoch.toNat % 4) % 4 == 1
    if now ∧ !later then (s.freeSlot p c k).releaseSig q h
    else if heldCap s.partCnt ≤ pt.heldQ.length then s.queueFull p c q k
    else if now then (s.freeSlot p c k).releaseSig q h
    else (s.freeSlot p c k).modPart q fun pt => { pt with
      heldQ := pt.heldQ ++ [h], heldPeak := BitVec.ofNat 12 (max pt.heldPeak.toNat (pt.heldQ.length + 1)) }

/-- SIGNAL_RECEIVE (R194). -/
def execSignalReceive (p : Port) (c : Colour) (k : Packet) (s : State) : Out :=
  if k.typ = 2 then .next (s.receive p c k fun s => s.accept p c k fun q _ s => (s.markIn q k).signalIn p c q k) else .next s

/-- PACK_RECEIVE: the watermark frees the per-peer window (R195), and the PACK's own number counts (R193). [DEDUCED, assumption 41] -/
def execPackReceive (p : Port) (c : Colour) (k : Packet) (s : State) : Out :=
  if k.typ = 3 then .next (s.receive p c k fun s => s.accept p c k fun q _ s => ((s.markIn q k).setPeer q k.src (((s.markIn q k).peer q k.src).commitPack k.pseq)).freeSlot p c k) else .next s

/-- LINK_RECEIVE: credits return to the lane that CHAIN names (R248). -/
def execLinkReceive (p : Port) (c : Colour) (k : Packet) (s : State) : Out :=
  if k.typ = 6 then .next (s.receive p c k fun s => s) else .next s

/-- PACK_TIMEOUT: the changed watermark leaves in a PACK packet (R267). It waits for no window, since it frees the peer's, and takes the next
number; a barrier signal that still waits takes a later one. [DEDUCED, assumption 41] -/
def execPackTimeout (q : Part) (peer : Endpoint) (s : State) : Out :=
  if (s.peer q peer).ackDirty && s.destOk q peer then
    let n := (s.peer q peer).txNext
    .next ((s.injectNow q (s.packetTo q peer 3 0 0 0 [])).modPart q fun p => { p with
      barPeerSeq := p.barPeerSeq.map fun x => if x.1 = peer ∧ serialLe n x.2 then (x.1, x.2 + 1) else x })
  else .next s

/-! ## Relaying -/

/-- PACKET_RELAY (R264): a whole packet for another module leaves on its next hop. -/
def execPacketRelay (p : Port) (c : Colour) (k : Packet) (s : State) : Out :=
  if k.dcoord ≠ s.coord then
    .next (s.receive p c k fun s => s)
  else .next s

/-- DETOUR_WAIT_TIMEOUT: a detoured packet has waited 10 ms for its pair (R471). -/
def execDetourWaitTimeout (plane : BitVec 3) (slot : Colour) (s : State) : Out :=
  if s.router.relayq.any fun w => w.plane == plane && w.slot.toNat == slot.val then
    .next ((s.log 0x421 0 (a1 plane.toNat ++ a1 slot)).routeBit 6).cannotContinue
  else .next s

/-! ## LANESTATE (R471) -/

def State.upMask (s : State) (p : Nat) : Nat :=
  (List.range 20).foldl (fun m c => if (s.tx p c).st == .up then m + 2 ^ c else m) 0

/-- The report of Table 10.6: the coordinate, then the transmit colours up of every port. -/
def State.laneReport (s : State) : List Byte :=
  leBytes 3 s.coord.toNat ++ [0] ++ (List.range 32).flatMap fun p => leBytes 4 (s.upMask p)

/-- LANESTATE_PERIODIC: the report goes to every live active carr-mate. [DESIGN CHOICE, assumption 7] -/
def execLanestatePeriodic (s : State) : Out :=
  .next ((s.mates.filter fun j => Nat.ble j 15).foldl (fun s j => s.maint (s.carrCoord j) 0x0A s.laneReport) s)

end Sys2Proof.Machine
end

