-- ==== Sys2Proof/Machine/Maint.lean ====
section
/-!
DEFINITION. Machine/Maint.lean: the MAINT messages of Table 10.6 but ADMIT: discovery (R391-R393), drains and table changes
(R272, R341-R343), fences (R255, R328, R337, R344, R347), numerics answers (R427), LANESTATE (R471).
-/

namespace Sys2Proof.Machine

/-! ## Rows of one subtype -/

/-- A MAINT row of subtype `st`: the packet takes the checks of every packet, leaves its slot, and reaches firmware. [DEDUCED, assumption 79] -/
def maintRow (st : Nat) (p : Port) (c : Colour) (k : Packet) (s : State) (go : State → State) : Out :=
  if k.typ = 5 ∧ k.addr.toNat % 256 = st then .next (s.receive p c k fun s => go (s.freeSlot p c k)) else .next s

/-- A plan, a recovery or an admission of partition `q` answers to this job tag (R254). -/
def State.jobHere (s : State) (q : Nat) (tag : BitVec 16) : Bool :=
  let x := s.part q
  (match x.plan with | some p => jobtagOf p == tag | none => false)
  || (match x.recov with | some r => r.jobtag == tag | none => false)
  || (x.spare.isSome && x.spareTag == tag)

/-- Firmware drops a MAINT packet that fails its subtype's check (R254). -/
def State.dropMaint (s : State) (p : Nat) (tag q : Nat) : State :=
  ((((s.modPort p fun x => { x with pdrop := satInc x.pdrop 1 }).dropInc 2).routeBit 2).log 0x412 q (a2 tag ++ a1 q))

/-- A row whose payload begins with a JOBTAG and names no partition. [DEDUCED, assumption 79] -/
def jobRow (st : Nat) (p : Port) (c : Colour) (k : Packet) (s : State) (go : Nat → State → State) : Out :=
  maintRow st p c k s fun s =>
    let tag : BitVec 16 := BitVec.ofNat 16 (fieldLE k.payload 0 2)
    match (List.range s.partCnt).find? fun q => s.jobHere q tag with
    | some q => go q s
    | none => s.dropMaint p tag.toNat 0

/-- A row whose payload names its partition in byte 2. A FENCE also acts after a partition reset of the job that it names (R386). -/
def partRow (st : Nat) (p : Port) (c : Colour) (k : Packet) (s : State) (go : Nat → State → State) : Out :=
  maintRow st p c k s fun s =>
    let tag : BitVec 16 := BitVec.ofNat 16 (fieldLE k.payload 0 2)
    let q := fieldLE k.payload 2 1
    if q < s.partCnt ∧ (s.jobHere q tag ∨ (st = 7 ∧ (s.part q).resetTag = some tag)) then go q s else s.dropMaint p tag.toNat q

/-! ## Discovery (R391-R393) -/

def State.extentBits (s : State) : Nat := s.router.ex.toNat + 16 * s.router.ey.toNat + 256 * s.router.ez.toNat

/-- STATE of Table 15.5. -/
def State.helloState (s : State) : Nat :=
  if s.boot.quar then 3
  else if s.boot.stage < 8 then 0
  else if (List.range s.partCnt).any fun q => (s.part q).plan.isSome then 2 else 1

/-- The HELLO payload. [DEDUCED, assumption 57] -/
def State.helloBody (s : State) : List Byte :=
  leBytes 3 s.coord.toNat ++ leBytes 2 s.extentBits ++ a1 s.helloState ++ a1 s.partCnt ++ [0] ++ leBytes 8 s.now

/-- A HELLO on transmit lane (p, c). -/
def State.helloOn (s : State) (p c : Nat) : State :=
  if (s.tx p c).st == .up then
    let pl := portPlane p
    let k := s.maintPacket (s.landing pl ((s.slot + c) % 20)) 1 s.helloBody
    s.onLane p c { orig := k, inPlane := 0, pkt := s.stampHop k pl 0 }
  else s

/-- The worst of the tick offsets kept by direction: its value and its direction (R372). -/
def worstOfs (t : Tab (BitVec 16)) : BitVec 16 × Nat :=
  t.foldl (fun (a : BitVec 16 × Nat) kv => if a.1.toInt.natAbs < kv.2.toInt.natAbs then (kv.2, kv.1) else a) (0, 0)

/-- `d` as a signed 16-bit value, saturating. -/
def sat16 (d : Int) : BitVec 16 := BitVec.ofInt 16 (max (-32768) (min 32767 d))

/-- The tick count of a HELLO from a neighbour carr (R372). -/
def State.helloTick (s : State) (p : Nat) (n : Nat) : State :=
  if p < 16 then s
  else
    let t := s.clk.ofsBy.set (portPlane p) (sat16 ((n : Int) - s.now))
    let w := worstOfs t
    { s with clk := { s.clk with ofsBy := t, tickOfs := w.1, tickDir := BitVec.ofNat 3 w.2 } }

/-- HELLO (R392): a colour that passes is recorded and answered; one that fails goes dark. -/
def execHello (p : Port) (c : Colour) (k : Packet) (s : State) : Out :=
  maintRow 1 p c k s fun s =>
    let got : BitVec 17 := BitVec.ofNat 17 (fieldLE k.payload 0 3)
    let ext := fieldLE k.payload 3 2
    let want := s.landing (portPlane p) (rxSource s.slot c)
    if got = want ∧ ext = s.extentBits then
      let first := (planePorts (portPlane p)).all fun r => !(s.boot.disc.get 0 r).getLsbD c
      let s1 := { s with boot := { s.boot with disc := s.boot.disc.set p (s.boot.disc.get 0 p ||| BitVec.ofNat 20 (2 ^ c.val)) } }
      let s2 := (s1.helloTick p (fieldLE k.payload 8 8)).helloOn p (backColour c)
      if first then (s2.log 0xB40 0 (a1 p ++ a1 c ++ a3 got.toNat)).modBit 5 else s2
    else
      let s1 := { s with boot := { s.boot with discBad := s.boot.discBad.set p (s.boot.discBad.get 0 p ||| BitVec.ofNat 20 (2 ^ c.val)) } }
      let s2 := s1.modRx p c fun x => if x.st = .retired ∨ x.st = .closed then x else x.darkened
      let (e, r) := if got = want then (s.extentBits, ext) else (want.toNat, got.toNat)
      (s2.log 0xB41 0 (a1 p ++ a1 c ++ a4 e ++ a4 r)).modBit 4

/-! ## Who coordinates (R327, R328) -/

/-- The steward of another carr, as this module's rank table of partition `q` shows it: the lowest active slot there that holds a
rank not fenced. -/
def State.stewardOf (s : State) (q : Nat) (carr : BitVec 17) : Option (BitVec 17) :=
  match (s.part q).plan with
  | none => none
  | some p =>
    ((List.range p.shape.ranks.length).filter fun r => !(s.part q).fencedRanks.contains r).foldl (fun (a : Option (BitVec 17)) r =>
      let x := (s.rankEnt q r).coord
      if sameCarr x carr ∧ cSlot x < 16 then
        match a with
        | some y => if cSlot x < cSlot y then some x else a
        | none => some x
      else a) none

/-- The coordinate of the coordinator of partition `q`'s recovery: this module itself, or the steward of the fenced rank's carr. -/
def State.coordinator (s : State) (q : Nat) : Option (BitVec 17) :=
  if (s.part q).recov.isSome then some s.coord
  else
    let own := (s.stewardSlot).map s.carrCoord
    match (s.part q).fencedRanks.getLast? with
    | none => own
    | some r =>
      let x := (s.rankEnt q r).coord
      if sameCarr x s.coord then own else s.stewardOf q x

def State.toCoordinator (s : State) (q : Nat) (st : Nat) (body : List Byte) : State :=
  match s.coordinator q with
  | some d => s.maint d st body
  | none => s

/-! ## Drain (R272) -/

/-- The commit of the named step is behind the partition. -/
def Partn.drainDue (p : Partn) : Bool := decide (p.drainStep.toNat < p.epoch.toNat)

/-- DRAIN: the engines will be held before instruction 0 after the named step's commit. [DEDUCED, assumption 57] -/
def execDrain (p : Port) (c : Colour) (k : Packet) (s : State) : Out :=
  jobRow 2 p c k s fun q s =>
    let x := { s.part q with drain := 1, drainStep := BitVec.ofNat 64 (fieldLE k.payload 2 8) }
    let s1 := s.setPart q x
    if x.drainDue then s1.log 0x450 q (a2 (s.jobtag q).toNat ++ a8 x.drainStep.toNat) else s1

/-- Packets of a job tag that a lane, a receive slot or a relay queue holds. -/
def State.trafficOf (s : State) (tag : BitVec 16) : Bool :=
  (s.txl.any fun kv => (kv.2.held ++ kv.2.waitq).any fun j => j.orig.jobtag == tag && j.orig.typ != 6 && !j.gone)
  || (s.ports.any fun kv => (kv.2.slots ++ kv.2.small).any fun e => e.2.jobtag == tag)
  || s.router.relayq.any fun w => w.job.orig.jobtag == tag

/-- Nothing of the partition is under way on the fabric (R272). -/
def State.fabricQuiet (s : State) (q : Nat) : Bool :=
  let p := s.part q
  p.heldQ.isEmpty && !s.trafficOf (s.jobtag q)
  && p.peers.all fun kv => kv.2.settled

/-- Every engine of the partition stands before instruction 0, or will issue nothing. -/
def State.atZero (s : State) (q : Nat) : Bool :=
  (engsOf s.partCnt q).all fun e =>
    let x := s.eng e
    x.inflight.isEmpty && (x.pc == 0 || x.run == .idle || x.run == .halted || x.run == .retired)

/-- DRAIN_TIMEOUT: not drained within 10 ms of the commit (R272). -/
def execDrainTimeout (q : Part) (s : State) : Out :=
  let p := s.part q
  if p.drain = 1 ∧ p.drainDue then .next (s.log 0x451 q (a2 (s.jobtag q).toNat ++ a1 q)) else .next s

/-! ## New tables (R272, R341) -/

def entOf (e : Dword) : RankEnt :=
  { valid := e.getLsbD 0
    coord := mkCoord (fld e.toNat 1 3) (fld e.toNat 4 3) (fld e.toNat 7 6) (fld e.toNat 13 5)
    gen := BitVec.ofNat 16 (fld e.toNat 32 16) }

def entBits (x : RankEnt) : Nat :=
  x.valid.toNat + cX x.coord * 2 + cY x.coord * 16 + cZ x.coord * 128 + cSlot x.coord * 8192 + x.gen.toNat * 2 ^ 32

/-- On one port the lanes toward `old` gain, or give way to, the same lanes toward `new`. -/
def State.portMoved (s : State) (old new : BitVec 17) (keep : Bool) (p : Nat) (m : BitVec 20 × BitVec 20) : BitVec 20 × BitVec 20 :=
  if s.landing (portPlane p) (cSlot old) = old ∧ old ≠ new then
    let t (c d : Nat) (b : BitVec 20) : BitVec 20 :=
      if b.getLsbD c then
        (if keep then b else b &&& ~~~BitVec.ofNat 20 (2 ^ c)) ||| BitVec.ofNat 20 (2 ^ d)
      else b
    (t (txColour s.slot (cSlot old)) (txColour s.slot (cSlot new)) m.1, t (rxSource s.slot (cSlot old)) (rxSource s.slot (cSlot new)) m.2)
  else m

def State.lanesMoved (s : State) (pl : Plan) (old new : BitVec 17) (keep : Bool) : List (BitVec 20 × BitVec 20) :=
  pl.shape.lanes.mapIdx fun p m => s.portMoved old new keep p m

/-- Colours closed against slot `new` open again: a module is admitted there (R242). -/
def State.reopen (s : State) (new : BitVec 17) : State :=
  allLanes.foldl (fun s x =>
    if s.landing (portPlane x.1) (cSlot new) = new ∧ x.2 = rxSource s.slot (cSlot new) ∧ (s.rx x.1 x.2).st = .closed then
      s.modRx x.1 x.2 fun l => { l with st := .dark, peerClosing := none }
    else s) s

/-- The colours to a moved rank's new slot are lit before the tables change (R214, R242, R320). -/
def State.lightMoved (s : State) (q r : Nat) (e : RankEnt) : State :=
  match (s.part q).plan with
  | none => s
  | some pl =>
    let old := (s.rankEnt q r).coord
    if old = e.coord then s
    else
      let l := s.lanesMoved pl old e.coord true
      ((s.modPart q fun x => { x with plan := some { pl with shape := { pl.shape with lanes := l } } }).reopen e.coord).relight

/-- The pairs of an RTAB. [DEDUCED, assumption 57] -/
def rtabPairs (bs : List Byte) : List (Nat × Dword) :=
  (List.range (min (fieldLE bs 2 2) 341)).map fun i => (fieldLE bs (4 + 12 * i) 4, BitVec.ofNat 64 (fieldLE bs (8 + 12 * i) 8))

/-- RTAB: kept for the named tick, and acknowledged with the count taken. -/
def execRtab (p : Port) (c : Colour) (k : Packet) (s : State) : Out :=
  jobRow 4 p c k s fun q s =>
    let l := rtabPairs k.payload
    let s1 := l.foldl (fun s x => s.lightMoved q x.1 (entOf x.2)) s
    let s2 := s1.modPart q fun x => { x with pendingTab := x.pendingTab ++ l, drain := if x.drain = 0 then 0 else 3 }
    s2.toCoordinator q 8 (leBytes 2 (fieldLE k.payload 0 2) ++ a2 l.length)

/-- The c that a RESUME or GO carries after its tick, at byte `o`. [DESIGN CHOICE, assumption 51] -/
def decidedOf (bs : List Byte) (o : Nat) : Option Dword := if o + 8 ≤ bs.length then some (BitVec.ofNat 64 (fieldLE bs o 8)) else none

/-- RESUME: the tables take effect, and the step is replayed, at tick T. [DESIGN CHOICE, assumption 51; DEDUCED, assumption 57] -/
def execResume (p : Port) (c : Colour) (k : Packet) (s : State) : Out :=
  jobRow 5 p c k s fun q s => s.modPart q fun x => { x with
    resumeAt := some (BitVec.ofNat 64 (fieldLE k.payload 2 8)), goAt := none, decidedC := decidedOf k.payload 10 }

/-! ## The named tick (R272, R341-R343) -/

/-- The plan after rank `r` has moved from `old` to `new`: the rank list, the chains and the lanes that named it. -/
def State.planMoved (s : State) (pl : Plan) (r : Nat) (old new : BitVec 17) : Plan :=
  { pl with shape := { pl.shape with
      ranks := pl.shape.ranks.set r new
      lanes := s.lanesMoved pl old new false
      chains := pl.shape.chains.map fun (x : ChainEnt) =>
        if x.next.toNat = old.toNat then { x with next := BitVec.ofNat 32 new.toNat } else x } }

/-- One entry of an RTAB takes effect; a rank that moved restarts its per-peer numbers at 0. -/
def State.applyEntry (s : State) (q r : Nat) (e : RankEnt) : State :=
  let old := (s.rankEnt q r).coord
  let s1 := s.setRankEnt q r e
  if old = e.coord then s1
  else s1.modPart q fun x => { x with
    peers := x.peers.drop fun ep => ep / 4 == r
    plan := x.plan.map fun pl => s.planMoved pl r old e.coord }

/-- The pending entries take effect. -/
def State.applyTab (s : State) (q : Nat) : State :=
  let l := (s.part q).pendingTab
  let s1 := l.foldl (fun s x => s.applyEntry q x.1 (entOf x.2)) s
  (s1.modPart q fun x => { x with pendingTab := [], changes := satInc x.changes 1 }).relight.laneLimits

/-- The engine takes part in a replay of `step`: one that halted in an earlier step does not. [DEDUCED, assumption 108] -/
def Engine.replays (x : Engine) (step : Dword) : Bool :=
  !(x.run == .retired || x.run == .idle || (x.run == .halted && decide ((x.g.get 0 31).toNat < step.toNat)))

/-- The engine's last pass was of the step before: it logs that step's events when it issues instruction 0 (R470). [DEDUCED, assumption 108] -/
def Engine.lateFor (x : Engine) (step : Dword) : Bool := x.lap && decide (x.step.toNat < step.toNat)

/-- An engine returns to instruction 0 with g31 at `step` and forgets what it had not completed (R342). The replay may log event 0x811
of the step anew (R145). [DEDUCED, assumption 108; DESIGN CHOICE, assumption 109] -/
def Engine.replayed (x : Engine) (step : Dword) : Engine :=
  if !x.replays step then x
  else
    let late := x.lateFor step
    let y := { x with
      run := .running, pc := 0, lap := late, g := x.g.set 31 (if late then x.step else step), loops := [], inflight := [], rinsts := [], waitLogged := false, waitCs := false
      waitCsem := 0, ckptBusy := false, blockSwaits := 0, skipSwaits := 0, rerunning := false, census := [], opA := none, opB := none
      updSkipped := false, updIssued := false, rngStep := none
      evStep := if late then x.evStep else none, idxRange := if late then x.idxRange else 0, satCnt := if late then x.satCnt else 0
      keptCnt := if late then x.keptCnt else 0, dropCnt := if late then x.dropCnt else 0, heldAtZero := false, hostAttempt := 0, hostPause := false
      mismatches := 0, traces := [], waitEntry := none }
    { y with ckpt := y.snap }

/-- The partition comes out of the hold and of the drain. -/
def Partn.released (p : Partn) : Partn :=
  { p with hold := .none, drain := 0, resumeAt := none, goAt := none, tabAt := none, decidedC := none, slowBreak := true }

/-- A replayed step's counts replace those of the abandoned attempt (R157). -/
def State.clearCensus (s : State) (q : Nat) : State :=
  { s with obs := { s.obs with slots := s.obs.slots.mapKV fun i (y : NumSlot) =>
      if i / (4096 / s.partCnt) = q then { y with cur := (0, 0, 0, 0) } else y } }

/-- The abandoned attempt of a step logs its own total events, as the replay reissues instruction 0 (R322, R470). [DEDUCED, assumption 108] -/
def State.endAttempt (s : State) (e : Nat) (step : Dword) : State :=
  if (s.eng e).replays step && !(s.eng e).lateFor step then (s.stepEvents e).traceBlock e else s

/-- Replay of the step that the epoch names (R204, R342): everything that the step had begun is undone, and the host's signals for it that
came in the hold are applied (R440). -/
def State.replay (s : State) (q : Nat) : State :=
  let step := (s.part q).epoch
  let s1 := (s.syncReplay q fun n => n == step).modPart q fun p => { p.released with
    phase := none, arrived := false, barStage := 0, barPeerSeq := [], ownSigs := [], readyKept := [], ringAttempt := [], heldAttempt := []
    heldGot := [], norms := [], normAtt := 0, arrivals := [], numDecision := none, numAnswer := none, fencedRanks := []
    stepTick := s.clk.tick, remoteWait := 0 }
  let s2 := (engsOf s.partCnt q).foldl (fun s e => (s.endAttempt e step).modEng e fun x => x.replayed step) s1
  ((s2.clearCensus q).modPart q fun p => { p with censusLeft := 16 }).hsigsNow q

/-- An armed watch that fired in the hold wakes its engine (R329). -/
def State.wakeFired (s : State) (q : Nat) : State :=
  (s.watches.filter fun kv => watchIn s.partCnt q kv.1 && kv.2.st == .fired).foldl (fun s kv =>
    if s.waitsOn kv.1 kv.2.owner.toNat then s.fire kv.1 else s) s

/-- The norm nodes form their values again from the sums they kept, at a raised ATTEMPT (R343). -/
def State.renorm (s : State) (q : Nat) : State :=
  let p := s.part q
  let s1 := s.setPart q { p with
    normAtt := p.normAtt + 1, norms := p.norms.mapKV fun _ (n : NormNode) => { n with own := n.kept, ups := n.early, early := [] } }
  p.norms.foldl (fun s kv => match s.treeEnt q kv.1 with
    | some r => s.normGo q kv.1 r
    | none => s) s1

/-- In the hold a partition that is to roll forward sets its COMMIT semaphore to INIT (R343). -/
def State.commitInit (s : State) (q : Nat) : State :=
  let i := (s.part q).barSem.toNat
  if semIn s.partCnt q i && (s.sem i).alloc then s.setSem i (s.sem i).toInit else s

/-- Roll forward of the step that the epoch names (R343): the barrier starts again, the norm trees run again, and every engine goes on
from where it held. -/
def State.rollOn (s : State) (q : Nat) : State :=
  let s2 := s.modPart q fun p => { p.released with
    arrived := false, barStage := 0, barPeerSeq := [], fencedRanks := [], censusLeft := 16 }
  let s3 := (engsOf s.partCnt q).foldl (fun s e => s.modEng e fun x => { x with heldAtZero := false }) s2
  ((s3.wakeFired q).renorm q).hsigsNow q

/-- A partition that reported c − 1 is a child below a fenced barrier node; it completes the barrier of step c at the resume (R330, R341).
[DESIGN CHOICE, assumption 51] -/
def State.catchUp (s : State) (q : Nat) : State :=
  match (s.part q).plan with
  | none => s
  | some pl => if (s.part q).decidedC = some (s.part q).epoch then s.commitStep q pl else s

/-- Initial engine of R45; ENG_STAT goes on naming the last PHASE issued (R84). -/
def Engine.begun (x : Engine) (seed step : Dword) (lfsr : Word) : Engine :=
  if x.run = .retired then x
  else
    let y : Engine := { run := .running, g := (Tab.set [] 30 seed).set 31 step, faultTicks := x.faultTicks, lfsr := lfsr
                        phaseTag := x.phaseTag, retries := x.retries, waitSem := x.waitSem, waitWatch := x.waitWatch }
    { y with ckpt := y.snap }

/-- A nonzero LFSR seed from the random source (R404). [DESIGN CHOICE, assumption 27] -/
def seedLfsr (n : Nat) : Word := if BitVec.ofNat 32 (Config.random n) = 0 then 1 else BitVec.ofNat 32 (Config.random n)

/-- Every engine that the plan names begins (R45); in the recovery hold it issues nothing yet (R329). -/
def State.beginEngines (s : State) (q : Nat) (pl : Plan) (step : Dword) : State :=
  pl.streams.foldl (fun s st =>
    let (n, s1) := s.takeFree
    s1.modEng st.eng fun x => { x.begun (s1.part q).seed step (seedLfsr n) with heldAtZero := (s1.part q).hold != .none }) s

/-! ## FENCE (R255, R328, R337, R344, R347) -/

/-- The slice's extent in x (R302, Table 12.1). -/
def Plan.eX (p : Plan) : Nat :=
  if p.slotMask = 0 then 4 * p.spans.1
  else
    let n := (List.range 16).countP fun i => p.slotMask.getLsbD i
    if n ≤ 2 then n else 4

/-- The twin of a rank (R318). -/
def Plan.twinOf (p : Plan) (r : Nat) : Nat :=
  let e := max p.eX 1
  let x := r % e
  let y := if p.shape.flags.getLsbD 1 then (if x % 2 = 0 then x + 1 else x - 1) else (x + e / 2) % e
  r - x + y

/-- The receive lanes on which this module hears the module at `d`. -/
def State.hearLanes (s : State) (d : BitVec 17) : List (Nat × Nat) :=
  allLanes.filter fun x => s.landing (portPlane x.1) (cSlot d) == d && x.2 == rxSource s.slot (cSlot d)

/-- The transmit lanes that reach it. -/
def State.reachLanes (s : State) (d : BitVec 17) : List (Nat × Nat) :=
  allLanes.filter fun x => s.landing (portPlane x.1) (cSlot d) == d && x.2 == txColour s.slot (cSlot d)

/-- Close one colour (R242): event 0x305 and an alignment block with STATE = 3. -/
def State.closeColour (s : State) (ep : Nat) (p c : Nat) : State :=
  let x := s.rx p c
  if x.st = .retired ∨ x.st = .closed ∨ (x.st = .dark ∧ x.open_ = false) then s
  else
    let s1 := (s.undecline p c).modRx p c fun x => { x with st := .closed, open_ := false, asm := [], restart := none, nak := false, nakDue := false, oma := 0x8000 }
    ((if (s1.tx p (backColour c)).st = .up then s1.sendBlock p (backColour c) 3 else s1).log 0x305 0 (a1 p ++ a1 c ++ a3 ep)).lodeBit p 3

/-- A job addressed to rank `r` of partition `q`. -/
def toRank (tag : BitVec 16) (ep : Nat) (j : LaneJob) : Bool := j.orig.jobtag == tag && j.orig.dest.toNat == ep && j.orig.typ != 1

def State.freeJobsOf (s : State) (l : List LaneJob) : State :=
  l.foldl (fun s j => match j.slot with | some x => s.freeSlot x.1 x.2.1 x.2.2 | none => s) s

/-- Nothing addressed to the fenced rank waits any longer (R328): a lane to the fenced module starts again with what it holds for others.
Any other lane keeps the frames, since they carry other packets too, and nothing waits for those of the fenced rank. [DEDUCED, assumption 119] -/
def State.clearLane (s : State) (tag : BitVec 16) (ep : Nat) (direct : Bool) (p c : Nat) : State :=
  let l := s.tx p c
  if direct then
    let js := l.held ++ l.waitq
    let s1 := s.setTx p c { l with queue := [], fill := 0, unacked := [], held := [], waitq := [], pausedBusy := none, replayDue := false, resends := [] }
    let s2 := s1.freeJobsOf (js.filter (toRank tag ep))
    (js.filter fun j => !toRank tag ep j).foldl (fun s j => s.onLane p c j) s2
  else
    (s.setTx p c { l with
      waitq := l.waitq.filter fun j => !toRank tag ep j
      held := l.held.map fun j => if toRank tag ep j then { j with slot := none, gone := true } else j }).freeJobsOf
        ((l.held ++ l.waitq).filter (toRank tag ep))

def State.forgetTraffic (s : State) (tag : BitVec 16) (ep : Nat) (d : BitVec 17) : State :=
  let near := s.reachLanes d
  let s1 := s.txl.foldl (fun s kv => s.clearLane tag ep (near.contains (kv.1 / 20, kv.1 % 20)) (kv.1 / 20) (kv.1 % 20)) s
  let gone := s1.router.relayq.filter fun w => toRank tag ep w.job
  { s1 with router := { s1.router with relayq := s1.router.relayq.filter fun w => !toRank tag ep w.job } }.freeJobsOf (gone.map fun (w : RelayWait) => w.job)

/-- Held SSIGs of the fenced rank are discarded (R204, R328). -/
def State.discardHeld (s : State) (q r : Nat) : State :=
  let p := s.part q
  let gone := p.heldQ.filter fun h => epRank h.sender == r
  let s1 := s.setPart q { p with heldQ := p.heldQ.filter fun h => epRank h.sender != r }
  let small := s1.ports.flatMap fun kv => (kv.2.small.filter fun e => e.2.typ == 2 && epRank e.2.src == r && epPart e.2.dest == q).map fun e => (kv.1, e)
  let s2 := small.foldl (fun (s : State) x => s.freeSlot x.1 x.2.1 x.2.2) s1
  if gone.isEmpty ∧ small.isEmpty then s2
  else (s2.log 0x722 q (a3 (4 * r + q) ++ a4 (gone.length + small.length))).syncBit 5

/-- The pair of rank `r` is lost (R344): its twin's resync window is open, as it is in the recovery that fenced it, or the streams of START
between the two are not complete. [DESIGN CHOICE, assumption 118] -/
def State.pairLost (s : State) (q : Nat) (p : Plan) (r : Nat) : Bool :=
  (s.part q).windows.contains (p.twinOf r)
  || s.host.journals.any fun j => j.start && j.jobtag == jobtagOf p && (j.rank == r || p.twinOf j.rank == r)
      && (j.open_ || (j.sender && !j.mirror && !s.host.journals.any fun m => m.mirror && m.sender && m.resync == j.resync))

/-- The end of a job that lost a pair, or any rank of an untwinned slice (R319, R344). -/
def State.lossStop (s : State) (q : Nat) (p : Plan) (r : Nat) : State :=
  if p.shape.flags.getLsbD 0 then
    (s.log 0x9F1 q (a2 (jobtagOf p).toNat ++ a3 r ++ a8 (s.part q).lastCommit.toNat)).stopPart q 4
  else if s.pairLost q p r then
    let s1 := if (s.part q).recov.isSome then
        (s.log 0x930 q (a3 r ++ a3 (p.twinOf r) ++ a8 (s.part q).lastCommit.toNat)).modPart q fun x => { x with recov := none }
      else s
    s1.stopPart q 3
  else s

/-- The steward passes a FENCE on to the ranks of its carr, the fenced one included (R328). -/
def State.relayFence (s : State) (q : Nat) (body : List Byte) : State :=
  match (s.part q).plan with
  | none => s
  | some p =>
    if s.isSteward then
      ((List.range p.shape.ranks.length).filter fun r =>
          (s.rankEnt q r).valid && sameCarr (s.rankEnt q r).coord s.coord && (s.rankEnt q r).coord != s.coord).foldl
        (fun s r => s.maint (s.rankEnt q r).coord 7 body) s
    else s

/-- A FENCE that would take a GEN past 0xFFFF is not applied: event 0x453, and the job stops (R255, R351). -/
def State.fenceWraps (s : State) (q r : Nat) : State :=
  let s1 := s.log 0x453 q (a3 r ++ a1 1)
  if (s1.part q).started then s1.stopPart q 1 else s1

/-- A FENCE that is applied. -/
def State.fence (s : State) (q r : Nat) (e : RankEnt) (gen : BitVec 16) (body : List Byte) : State :=
  let ep := 4 * r + q
  let s1 := (s.setRankEnt q r { e with gen := gen }).modPart q fun x => { x with changes := satInc x.changes 1 }
  if r = s.rankOf q ∧ (s.part q).plan.isSome then (s1.relayFence q body).quarantine 7
  else
    let s2 := (s1.hearLanes e.coord).foldl (fun s x => s.closeColour ep x.1 x.2) s1
    let s3 := ((s2.discardHeld q r).forgetTraffic (s2.jobtag q) ep e.coord).relayFence q body
    let s4 := s3.modPart q fun x => { x with
      peers := x.peers.drop fun i => i / 4 == r
      ownSigs := x.ownSigs.filter fun y => epRank y.1 != r
      barPeerSeq := x.barPeerSeq.filter fun y => epRank y.1 != r }
    match (s4.part q).plan with
    | none => s4
    | some p =>
      let s5 := if (s4.part q).started then s4.lossStop q p r else s4
      if (s5.part q).started then
        s5.modPart q fun x => { x with
          hold := .holding, fencedRanks := r :: x.fencedRanks, windows := r :: x.windows.filter (fun n => n != r), slowBreak := true, resumeAt := none, goAt := none
          tabAt := if x.drain ≠ 0 ∧ x.resumeAt.isSome then x.resumeAt else x.tabAt }
      else s5

/-- FENCE, by its new GEN (R255). [DEDUCED, assumption 57] -/
def execFence (p : Port) (c : Colour) (k : Packet) (s : State) : Out :=
  partRow 7 p c k s fun q s =>
    let r := fieldLE k.payload 4 4
    let gen : BitVec 16 := BitVec.ofNat 16 (fieldLE k.payload 8 2)
    let e := s.rankEnt q r
    if (s.part q).plan.isNone ∧ (s.part q).resetTag = some (BitVec.ofNat 16 (fieldLE k.payload 0 2)) then s.fence q r e gen k.payload
    else if !e.valid || Nat.ble 65536 r then s.log 0x453 q (a3 r ++ a1 2)
    else if gen = e.gen then s
    else if e.gen = 0xFFFF ∧ gen = 0 then (s.relayFence q k.payload).fenceWraps q r
    else if gen = e.gen + 1 then s.fence q r e gen k.payload
    else s.log 0x453 q (a3 r ++ a1 2)

/-! ## NUMANS (R427) -/

/-- The answer goes on to the children of the barrier tree. -/
def State.passAnswer (s : State) (q : Nat) (step : Dword) (answer : Nat) : State :=
  match (s.part q).barNode with
  | none => s
  | some r => r.children.foldl (fun s c =>
      s.maint (s.rankEnt q (c.1.toNat / 4)).coord 9 (a2 (s.jobtag q).toNat ++ a8 step.toNat ++ a1 answer)) s

/-- A numerics answer takes effect here and goes down the tree (R150, R427). -/
def State.answerNumerics (s : State) (q : Nat) (step : Dword) (answer : Nat) : State :=
  let s1 := (s.passAnswer q step answer).modPart q fun x => { x with numAnswer := some (step, BitVec.ofNat 8 answer) }
  s1.numericsAnswer q step (answer == 2)

/-- NUMANS (R427). -/
def execNumans (p : Port) (c : Colour) (k : Packet) (s : State) : Out :=
  jobRow 9 p c k s fun q s =>
    let a := fieldLE k.payload 10 1
    if (s.part q).runs ∧ (a = 1 ∨ a = 2) then s.answerNumerics q (BitVec.ofNat 64 (fieldLE k.payload 2 8)) a else s

/-! ## LANESTATE (R471) -/

/-- LANESTATE: the mate's onward lanes, as it reports them. -/
def execLanestate (p : Port) (c : Colour) (k : Packet) (s : State) : Out :=
  maintRow 0x0A p c k s fun s =>
    let d : BitVec 17 := BitVec.ofNat 17 (fieldLE k.payload 0 3)
    if sameCarr d s.coord then
      let l : List (BitVec 20) := (List.range 32).map fun i => BitVec.ofNat 20 (fieldLE k.payload (4 + 4 * i) 4)
      { s with router := { s.router with reports := s.router.reports.set (cSlot d) l } }
    else s

end Sys2Proof.Machine
end

