-- ==== Sys2Proof/Machine/Image.lean ====
section
/-!
DEFINITION. Machine/Image.lean: the plan image as bytes (R27, R44, R187, R277, R304, R305, R37, R108, R465, R467), refusal
records (R32, R469), and the checks 0x01 to 0x05 of Table 2.4.
-/

namespace Sys2Proof.Machine

/-! ## Refusals -/

/-- A refusal record (Table 2.8): reason, section type, item index, image offset. -/
structure Refuse where
  reason : Nat
  sect : Nat := 0
  item : Nat := 0
  off : Nat := 0
deriving DecidableEq, Repr

/-- The refusal record of LOAD's reply (R33, R469). [DEDUCED, assumption 33] -/
def Refuse.bytes (r : Refuse) : List Byte := a1 r.reason ++ a1 0 ++ a2 r.sect ++ a4 r.item ++ a8 r.off

/-- Refuse unless `b` holds. -/
def need (b : Bool) (r : Refuse) : Option Refuse := if b then none else some r

/-- The first refusal of a list's items. [DEDUCED, assumption 33] -/
def firstBad {α : Type} (f : Nat → α → Option Refuse) : Nat → List α → Option Refuse
  | _, [] => none
  | i, x :: xs => match f i x with
    | some r => some r
    | none => firstBad f (i + 1) xs

/-- The first refusal of a list of checks. -/
def firstOf : List (Unit → Option Refuse) → Option Refuse
  | [] => none
  | f :: r => match f () with
    | some x => some x
    | none => firstOf r

/-! ## Sections (R27, Table 2.2) -/

structure Sec where
  typ : Nat
  flags : Nat := 0
  len : Nat := 0
  off : Nat := 0
  idx : Nat := 0
deriving DecidableEq, Repr

/-- An image under its checks: its bytes, the partition it was sent to and the module's partition count, the address and
length that LOAD gave, whether a spare loads it (R332), and the engines and transmit lanes that retired after their check had run (R34). -/
structure Img where
  bs : List Byte
  q : Nat
  n : Nat
  addr : Nat := 0
  len : Nat := 0
  spare : Bool := false
  engs : List Nat := []
  lanes : List (Nat × Nat) := []
deriving DecidableEq, Repr

/-- The field of `n` bytes at image offset `o`. -/
def Img.fld (m : Img) (o n : Nat) : Nat := fieldLE m.bs o n
def Img.zero (m : Img) (o n : Nat) : Bool := m.fld o n == 0
def Img.secCnt (m : Img) : Nat := m.fld 0x0E 2

def Img.secAt (m : Img) (i : Nat) : Sec :=
  let o := 0x100 + 16 * i
  { typ := m.fld o 2, flags := m.fld (o + 2) 2, len := m.fld (o + 4) 4, off := m.fld (o + 8) 8, idx := i }

def Img.secs (m : Img) : List Sec := (List.range m.secCnt).map m.secAt

def Img.find (m : Img) (t : Nat) : Option Sec := m.secs.find? fun s => s.typ == t
/-- A section of type `t`, or an empty one. -/
def Img.sec (m : Img) (t : Nat) : Sec := (m.find t).getD { typ := t }

/-! ## STREAMS (R44, Table 3.1) -/

/-- A directory entry: its place, its engine, its arrays as image offsets. -/
structure DirEnt where
  at_ : Nat
  kind : Nat
  ident : Nat
  insn : Nat
  insnCnt : Nat
  konst : Nat
  constCnt : Nat
deriving DecidableEq, Repr

def DirEnt.eng (d : DirEnt) : Nat := kindBase d.kind + d.ident
/-- The engine is one of Table 3.1's kinds and IDs. -/
def DirEnt.named (d : DirEnt) : Bool := decide (d.kind ≤ 4) && decide (d.ident < kindCount d.kind)

def Img.streamCnt (m : Img) : Nat := m.fld (m.sec 1).off 2

def Img.dirAt (m : Img) (i : Nat) : DirEnt :=
  let b := (m.sec 1).off
  let o := b + 16 + 32 * i
  { at_ := o, kind := m.fld o 1, ident := m.fld (o + 1) 1, insn := b + m.fld (o + 4) 8, insnCnt := m.fld (o + 12) 4
    konst := b + m.fld (o + 16) 8, constCnt := m.fld (o + 24) 4 }

def Img.dir (m : Img) : List DirEnt := (List.range m.streamCnt).map m.dirAt

def Img.insnWord (m : Img) (d : DirEnt) (i : Nat) : Nat := m.fld (d.insn + 16 * i) 16
def Img.constWord (m : Img) (d : DirEnt) (i : Nat) : Nat := m.fld (d.konst + 32 * i) 32

/-! ## MEMMAP (R465, Tables 7.7 and 7.8) -/

def Img.regionCnt (m : Img) : Nat := m.fld (m.sec 2).off 4
def Img.carveDeclared (m : Img) : Nat := m.fld ((m.sec 2).off + 4) 4
def Img.regionPos (m : Img) (i : Nat) : Nat := (m.sec 2).off + 16 + 48 * i

def Img.regionAt (m : Img) (i : Nat) : Region :=
  let o := m.regionPos i
  { base := m.fld o 8, len := m.fld (o + 8) 8, use := BitVec.ofNat 8 (m.fld (o + 16) 1), remote := bitAt (m.fld (o + 17) 1) 0
    dramacc := bitAt (m.fld (o + 17) 1) 1, initOfs := m.fld (o + 24) 8, initLen := m.fld (o + 32) 8 }

def Img.regions (m : Img) : List Region := (List.range m.regionCnt).map m.regionAt

/-! ## SEMA (R187) -/

def Img.semCnt (m : Img) : Nat := m.fld (m.sec 3).off 4
def Img.watchCnt (m : Img) : Nat := m.fld ((m.sec 3).off + 4) 4
def Img.semPos (m : Img) (i : Nat) : Nat := (m.sec 3).off + 16 + 16 * i
def Img.watchPos (m : Img) (i : Nat) : Nat := (m.sec 3).off + 16 + 16 * m.semCnt + 8 * i

def Img.semAt (m : Img) (i : Nat) : SemDecl :=
  let o := m.semPos i
  { index := m.fld o 2, remote := bitAt (m.fld (o + 2) 1) 0, init := sgn 32 (m.fld (o + 4) 4), incr := sgn 32 (m.fld (o + 8) 4)
    remoteAdd := m.fld (o + 12) 4 }

def Img.watchAt (m : Img) (i : Nat) : WatchDecl :=
  let o := m.watchPos i
  { index := m.fld o 2, eng := kindBase (m.fld (o + 2) 1) + m.fld (o + 3) 1 }

def Img.semDecls (m : Img) : List SemDecl := (List.range m.semCnt).map m.semAt
def Img.watchDecls (m : Img) : List WatchDecl := (List.range m.watchCnt).map m.watchAt

/-! ## SHAPE (R304, Tables 11.1, 12.2 and 12.3) -/

def Img.shapeOff (m : Img) : Nat := (m.sec 4).off
def Img.rankCnt (m : Img) : Nat := m.fld (m.shapeOff + 4) 4
def Img.peerCnt (m : Img) : Nat := m.fld (m.shapeOff + 20) 2
def Img.ringCnt (m : Img) : Nat := m.fld (m.shapeOff + 22) 2
def Img.chainCnt (m : Img) : Nat := m.fld (m.shapeOff + 24) 2
def Img.detourCnt (m : Img) : Nat := m.fld (m.shapeOff + 26) 2

/-- Offsets of the tables from the start of the section: each starts at a multiple of 64. -/
def Img.laneTab (m : Img) : Nat := roundUp (64 + 8 * m.rankCnt) 64
def Img.peerTab (m : Img) : Nat := m.laneTab + 256
def Img.ringTab (m : Img) : Nat := roundUp (m.peerTab + 16 * m.peerCnt) 64
def Img.chainTab (m : Img) : Nat := roundUp (m.ringTab + 96 * m.ringCnt) 64
def Img.detourTab (m : Img) : Nat := roundUp (m.chainTab + 16 * m.chainCnt) 64
/-- The end of the last table that has entries. -/
def Img.shapeEnd (m : Img) : Nat :=
  if 0 < m.detourCnt then m.detourTab + 8 * m.detourCnt
  else if 0 < m.chainCnt then m.chainTab + 16 * m.chainCnt
  else if 0 < m.ringCnt then m.ringTab + 96 * m.ringCnt
  else m.peerTab + 16 * m.peerCnt

def Img.rankPos (m : Img) (i : Nat) : Nat := m.shapeOff + 64 + 8 * i
def Img.lanePos (m : Img) (i : Nat) : Nat := m.shapeOff + m.laneTab + 8 * i
def Img.peerPos (m : Img) (i : Nat) : Nat := m.shapeOff + m.peerTab + 16 * i
def Img.ringPos (m : Img) (i : Nat) : Nat := m.shapeOff + m.ringTab + 96 * i
def Img.chainPos (m : Img) (i : Nat) : Nat := m.shapeOff + m.chainTab + 16 * i
def Img.detourPos (m : Img) (i : Nat) : Nat := m.shapeOff + m.detourTab + 8 * i

def Img.peerAt (m : Img) (i : Nat) : PeerEnt :=
  let o := m.peerPos i
  { rank := m.fld o 4, plane := m.fld (o + 4) 1, lit := m.fld (o + 5) 1, role := BitVec.ofNat 8 (m.fld (o + 6) 1), peak := m.fld (o + 8) 4 }

def Img.ringAt (m : Img) (i : Nat) : RingEnt :=
  let o := m.ringPos i
  let tree := m.fld (o + 2) 1 == 1
  let l := m.fld (o + 4) 2
  let w (b : Nat) : Word := BitVec.ofNat 32 (m.fld (o + b) 4)
  { index := m.fld o 2, isTree := tree, barrier := tree && bitAt (m.fld (o + 3) 1) 0, l := l
    pos := if tree then 0 else m.fld (o + 6) 2, psem := BitVec.ofNat 16 (m.fld (o + 6) 2), pred := w 8, succ := w 12, twin := w 16
    ownBase := m.fld (o + 32) 8, heldBase := m.fld (o + 40) 8, shardLen := m.fld (o + 48) 8
    children := if tree then (List.range (min l 8)).map fun k => (w (32 + 8 * k), BitVec.ofNat 16 (m.fld (o + 36 + 8 * k) 2)) else [] }

def Img.chainAt (m : Img) (i : Nat) : ChainEnt :=
  let o := m.chainPos i
  { index := BitVec.ofNat 16 (m.fld o 2), member := bitAt (m.fld (o + 2) 1) 0, column := bitAt (m.fld (o + 2) 1) 1
    next := BitVec.ofNat 32 (m.fld (o + 4) 4), sem := BitVec.ofNat 16 (m.fld (o + 8) 2) }

def Img.detourAt (m : Img) (i : Nat) : DetourEnt :=
  let o := m.detourPos i
  { rank := m.fld o 4, plane := m.fld (o + 4) 1, mates := (List.range 3).map fun k => BitVec.ofNat 8 (m.fld (o + 5 + k) 1) }

def Img.shape (m : Img) : Shape :=
  let o := m.shapeOff
  { self := m.fld o 4, rankCnt := m.rankCnt, ddeg := m.fld (o + 8) 2, pdeg := m.fld (o + 10) 1, tdeg := m.fld (o + 11) 1
    edeg := m.fld (o + 12) 1, flags := BitVec.ofNat 8 (m.fld (o + 13) 1), stage := m.fld (o + 14) 1
    twin := BitVec.ofNat 32 (m.fld (o + 16) 4), layers := m.fld (o + 28) 2, heads := m.fld (o + 30) 2, headsPad := m.fld (o + 32) 2
    experts := m.fld (o + 34) 2, expertSlots := m.fld (o + 36) 2
    ranks := (List.range m.rankCnt).map fun i => BitVec.ofNat 17 (m.fld (m.rankPos i + 4) 4)
    lanes := (List.range 32).map fun i =>
      let v := m.fld (m.lanePos i) 8
      (BitVec.ofNat 20 v, BitVec.ofNat 20 (v >>> 20))
    peers := (List.range m.peerCnt).map m.peerAt, rings := (List.range m.ringCnt).map m.ringAt
    chains := (List.range m.chainCnt).map m.chainAt, detours := (List.range m.detourCnt).map m.detourAt }

/-! ## TIMELINE, RECIPES, CONTROL -/

def Img.phaseCnt (m : Img) : Nat := m.fld (m.sec 5).off 2
def Img.phasePos (m : Img) (i : Nat) : Nat := (m.sec 5).off + 16 + 32 * i

def Img.phaseAt (m : Img) (i : Nat) : PhaseEnt :=
  let o := m.phasePos i
  { tag := BitVec.ofNat 16 (m.fld o 2), op := m.fld (o + 2) 1, kind := m.fld (o + 3) 1, capW := m.fld (o + 4) 2
    quiet := BitVec.ofNat 16 (m.fld (o + 6) 2), start := m.fld (o + 8) 4, len := m.fld (o + 12) 4 }

def Img.timeline (m : Img) : List PhaseEnt := (List.range m.phaseCnt).map m.phaseAt
def Img.stepTicks (m : Img) : Nat := m.fld 0x5C 4

def Img.preset (m : Img) : Nat := m.fld (m.sec 6).off 1
def Img.recipeCnt (m : Img) : Nat := m.fld ((m.sec 6).off + 1) 1
def Img.recipePos (m : Img) (i : Nat) : Nat := (m.sec 6).off + 16 + 16 * i

def Img.recipeAt (m : Img) (i : Nat) : Recipe :=
  let o := m.recipePos i
  { kind := m.fld o 1, fmt := BitVec.ofNat 8 (m.fld (o + 1) 1), sofs := sgn 8 (m.fld (o + 2) 1), aux := BitVec.ofNat 8 (m.fld (o + 3) 1) }

def Img.recipes (m : Img) : List Recipe := (List.range m.recipeCnt).map m.recipeAt

/-- CONTROL; an absent section stands for 576 zero bytes. -/
def Img.control (m : Img) : Control :=
  match m.find 7 with
  | none => {}
  | some c =>
    let f (b n : Nat) : Nat := m.fld (c.off + b) n
    { mode := BitVec.ofNat 8 (f 0 1), level := BitVec.ofNat 8 (f 1 1), profile := BitVec.ofNat 8 (f 2 1), driveThr := f 4 2, marginThr := f 6 2
      slowPct := f 8 2, slowSteps := f 10 2, drate := f 12 2, prate := f 14 2
      optab := (List.range 8).map fun i => BitVec.ofNat 16 (f (16 + 4 * i) 2)
      weights := (List.range 256).map fun j => BitVec.ofNat 16 (f (48 + 2 * j) 2) }

/-- Expert control of function bit `i`, and host-assisted mode of function bit `i` (Table 2.9). -/
def Control.expert (c : Control) (i : Nat) : Bool := c.level.getLsbD i
def Control.host (c : Control) (i : Nat) : Bool := c.mode.getLsbD i

/-! ## Check 0x01: signature (R42) -/

def hdr (o : Nat) (reason : Nat) : Refuse := { reason := reason, off := o }
/-- A section table entry. -/
def Sec.bad (s : Sec) (reason : Nat) : Refuse := { reason := reason, item := s.idx, off := 0x100 + 16 * s.idx }
/-- A field of a section's own header. -/
def Img.head (m : Img) (reason t o : Nat) : Refuse := { reason := reason, sect := t, off := (m.sec t).off + o }

/-- The plan demands another tenant key than the partition holds, or one where it holds none, or none where it holds one (R331). -/
def Img.keyWrong (m : Img) (key : Option TKey) : Bool :=
  match key, m.find 8 with
  | none, x => x.isSome
  | some _, none => true
  | some k, some c => m.fld c.off 8 != k.ident.toNat

/-- Check 0x01: the signature (R42). An absent SIGNATURE has no entry to be named: SEC_CNT is. [DEDUCED, assumption 33] -/
def check1 (key : Option TKey) (m : Img) : Option Refuse :=
  match key with
  | none => none
  | some k =>
    match m.find 8 with
    | none => some (hdr 0x0E 1)
    | some c =>
      if m.fld c.off 8 ≠ k.ident.toNat then some (m.head 1 8 0)
      else need (Config.ecdsaVerify k.key (sub m.bs 0 256) (sub m.bs (c.off + 8) 96)) (m.head 1 8 8)

/-! ## Check 0x02: format -/

/-- The bytes of OJPLAN01. -/
def planIdent : List Byte := [0x4F, 0x4A, 0x50, 0x4C, 0x41, 0x4E, 0x30, 0x31]

def check2 (m : Img) : Option Refuse := firstOf [
  fun _ => need (sub m.bs 0 8 == planIdent) (hdr 0 2),
  fun _ => need (m.fld 8 2 == 3) (hdr 8 2),
  fun _ => need (m.fld 0x0A 2 == 0xB1) (hdr 0x0A 2),
  fun _ => need (m.fld 0x0C 1 == m.n) (hdr 0x0C 2),
  fun _ => need (m.fld 0x0D 1 == m.q) (hdr 0x0D 2)]

/-! ## Check 0x03: structure (R27, R467) -/

def Sec.meets (a b : Sec) : Bool := decide (0 < a.len) && decide (0 < b.len) && decide (a.off < b.off + b.len) && decide (b.off < a.off + a.len)

/-- A section entry that breaks R27 or Table 2.2: a TYPE that the table lacks or an earlier entry has, FLAGS, its place. [DEDUCED, assumption 33] -/
def Img.secBad (m : Img) (c : Sec) : Bool :=
  !(decide (1 ≤ c.typ) && decide (c.typ ≤ 8)) || c.flags != 0 || c.off % 64 != 0 || decide (c.off < 0x100 + 16 * m.secCnt)
    || decide (m.fld 0x18 8 < c.off + c.len)
    || m.secs.any fun d => decide (d.idx < c.idx) && (d.typ == c.typ || d.meets c)

/-- IMG_HASH's bytes: everything after the header, the content of a SIGNATURE section taken as zero. -/
def Img.hashed (m : Img) : List Byte :=
  let b := m.bs.drop 0x100
  match m.find 8 with
  | none => b
  | some c => b.mapIdx fun i x => if c.off ≤ i + 0x100 ∧ i + 0x100 < c.off + 104 then 0 else x

/-- The table of R360: OP0 as it is in the factory table, no FREQ above the factory's, the valid entries' rising strictly. -/
def optabOk (l : List (BitVec 16)) : Bool :=
  let e (i : Nat) : Nat := (l.getD i 0).toNat
  e 0 == 0x100 + factoryFreq 0
  && (List.range 8).all fun i => decide (e i < 512) && decide (e i % 256 ≤ factoryFreq i)
    && (!bitAt (e i) 8 || (List.range i).all fun j => !bitAt (e j) 8 || decide (e j % 256 < e i % 256))

def inRange (v lo hi : Nat) : Bool := decide (lo ≤ v) && decide (v ≤ hi)
/-- A field that serves expert control alone: 0 under basic control. -/
def ifExpert (x : Bool) (v : Nat) (ok : Bool) : Bool := if x then ok else v == 0

def Img.controlBad (m : Img) (c : Sec) : Option Refuse :=
  let k := m.control
  let f (b n : Nat) : Nat := m.fld (c.off + b) n
  let bad (o : Nat) : Refuse := m.head 3 7 o
  let wide := decide (1 < m.n)
  let pw := k.expert 1
  let ls := k.expert 2
  firstOf [
    fun _ => need (c.len == 576) (c.bad 3),
    fun _ => need (decide (f 0 1 < 64)) (bad 0),
    fun _ => need (decide (f 2 1 ≤ 2) && (!wide || f 2 1 == 0)) (bad 2),
    fun _ => need (f 3 1 == 0) (bad 3),
    fun _ => need (if wide then f 4 2 == 0 else ifExpert ls (f 4 2) (inRange (f 4 2) 500 950)) (bad 4),
    fun _ => need (if wide then f 6 2 == 0 else ifExpert ls (f 6 2) (inRange (f 6 2) 50 300)) (bad 6),
    fun _ => need (ifExpert (k.expert 4) (f 8 2) (inRange (f 8 2) 50 5000)) (bad 8),
    fun _ => need (ifExpert (k.expert 4) (f 10 2) (inRange (f 10 2) 4 4096)) (bad 10),
    fun _ => need (ifExpert (k.expert 6) (f 12 2) (decide (f 12 2 ≤ 256) || f 12 2 == 0xFFFF)) (bad 12),
    fun _ => need (ifExpert (k.expert 6) (f 14 2) (decide (f 14 2 ≤ 256) || f 14 2 == 0xFFFF)) (bad 14),
    fun _ => need (if wide || !pw then f 16 32 == 0
      else optabOk k.optab && (List.range 8).all fun i => f (16 + 4 * i + 2) 2 == 0) (bad 16),
    fun _ => need ((!wide && pw) || f 48 512 == 0) (bad 48),
    fun _ => need (f 560 16 == 0) (bad 560)]

/-- Check 0x03: the section table and IMG_HASH (R27, R467). An absent required section has no entry to be named: SEC_CNT is.
[DEDUCED, assumption 33] -/
def check3 (m : Img) : Option Refuse := firstOf [
  fun _ => need (inRange m.secCnt 6 8) (hdr 0x0E 3),
  fun _ => need (m.fld 0x18 8 == m.len && decide (m.len ≤ 0x40000000)) (hdr 0x18 3),
  fun _ => firstBad (fun _ c => need (!m.secBad c) (c.bad 3)) 0 m.secs,
  fun _ => need ((List.range 6).all fun t => (m.find (t + 1)).isSome) (hdr 0x0E 3),
  fun _ => need (sha384 m.hashed == sub m.bs 0x20 48) (hdr 0x20 3),
  fun _ => match m.find 7 with
    | none => none
    | some c => m.controlBad c]

/-! ## Check 0x04: resources -/

def Region.inPeat (r : Region) : Bool := decide (peatBase ≤ r.base)
def sumLens (l : List Region) : Nat := l.foldl (fun n r => n + r.len) 0
/-- The carve-out that the image declares under host-assisted memory control; 0 under hardware mode. -/
def Img.carveHost (m : Img) : Nat := if m.control.host 5 then m.carveDeclared else 0

def Img.regionRef (m : Img) (reason i : Nat) : Refuse := { reason := reason, sect := 2, item := i, off := m.regionPos i }

def check4 (s : State) (m : Img) : Option Refuse := firstOf [
  fun _ => firstBad (fun i d => need (d.named && partOfEng m.n d.eng == m.q && ((s.engMap d.eng).valid || m.engs.contains d.eng))
    { reason := 4, sect := 1, item := i, off := d.at_ }) 0 m.dir,
  fun _ => need (decide (m.carveHost ≤ 512 / m.n)) (m.head 4 2 4),
  fun _ => need (decide (sumLens (m.regions.filter Region.inPeat) + m.carveHost * mib ≤ peatShare m.n)) (m.head 4 2 0),
  fun _ => need (decide (sumLens (m.regions.filter fun r => !r.inPeat) ≤ dramShare m.n)) (m.head 4 2 0),
  fun _ => need (decide (m.semCnt ≤ 65536 / m.n)) (m.head 4 3 0),
  fun _ => need (decide (m.watchCnt ≤ 4096 / m.n)) (m.head 4 3 4),
  fun _ => firstBad (fun i (r : Region) => need (!(r.use == 3 && !r.inPeat && !r.dramacc)) (m.regionRef 4 i)) 0 m.regions]

/-! ## Check 0x05: memory map (R44, R159, R162, R465, R466) -/

/-- Alignment of BASE and LEN (Table 7.9). -/
def Region.unit (r : Region) : Nat := if r.inPeat then 64 else 256
def useListed (u : Byte) : Bool := u == 1 || u == 2 || u == 3 || u == 0x20 || u == 0x21 || u == 0x22 || u == 0x23 || u == 0x24

/-- Record lengths of the three rings (R403): snapshot, trace, event. -/
def snapRecLen : Nat := 24640
def State.enabledRings (s : State) : List (Nat × Nat) :=
  let f (r : Ring) (w : Nat) : List (Nat × Nat) := if r.en then [(r.base.toNat, r.size.toNat * w)] else []
  f s.obs.rcnt snapRecLen ++ f s.obs.rtrace 64 ++ f s.obs.revt 32

def meets (a n b k : Nat) : Bool := decide (a < b + k) && decide (b < a + n)

/-- One region entry. -/
def Img.regionOk (s : State) (m : Img) (i : Nat) (r : Region) : Bool :=
  let o := m.regionPos i
  let fl := m.fld (o + 17) 1
  let area := (m.sec 2).off + 16 + 48 * m.regionCnt
  useListed r.use && decide (r.base < 2 ^ 48) && decide (0 < r.len) && r.base % r.unit == 0 && r.len % r.unit == 0
    && decide (fl < 4) && m.zero (o + 18) 6 && m.zero (o + 40) 8
    && (if r.inPeat then decide (peatLo m.n m.q ≤ r.base) && decide (r.base + r.len + m.carveHost * mib ≤ peatLo m.n (m.q + 1))
        else r.use != 1 && decide (dramLo m.n m.q ≤ r.base) && decide (r.base + r.len ≤ dramLo m.n (m.q + 1))
          && !meets r.base r.len m.addr m.len)
    && (!r.remote || r.use == 2 || r.use == 3) && (!r.dramacc || (r.use == 3 && !r.inPeat))
    && (if r.initOfs = 0 then r.initLen == 0
        else decide (area ≤ r.initOfs) && decide (r.initOfs + r.initLen ≤ (m.sec 2).off + (m.sec 2).len) && decide (r.initLen ≤ r.len))
    && (i == 0 || decide ((m.regionAt (i - 1)).base + (m.regionAt (i - 1)).len ≤ r.base))
    && !(s.enabledRings.any fun x => meets r.base r.len x.1 x.2)

/-- Where each array and table of the streams goes (R44): `cur` is the end of what is placed in the present region. -/
def placeAll : List Nat → Nat → List (Nat × Nat) → Option (List Nat)
  | [], _, _ => some []
  | sz :: rest, cur, regs =>
    match placeOne sz cur regs with
    | none => none
    | some (a, regs') => (placeAll rest (a + sz) regs').map fun l => a :: l
where
  /-- Place one array in the rest of the present region, or at the beginning of the next that holds it. -/
  placeOne (sz : Nat) : Nat → List (Nat × Nat) → Option (Nat × List (Nat × Nat))
    | _, [] => none
    | cur, (b, n) :: r =>
      let a := max b (roundUp cur 64)
      if a + sz ≤ b + n then some (a, (b, n) :: r) else placeOne sz 0 r

def Img.sizes (m : Img) : List Nat := m.dir.flatMap fun d => [16 * d.insnCnt, 32 * d.constCnt]
/-- How many arrays and tables fit, from the first. -/
def fitting : List Nat → Nat → List (Nat × Nat) → Nat
  | [], _, _ => 0
  | sz :: rest, cur, regs =>
    match placeAll.placeOne sz cur regs with
    | none => 0
    | some (a, regs') => 1 + fitting rest (a + sz) regs'

def Img.streamRegions (m : Img) : List (Nat × Nat) := (m.regions.filter fun r => r.use == 1).map fun r => (r.base, r.len)

def Img.placed (m : Img) : Option (List Nat) :=
  placeAll m.sizes 0 m.streamRegions

def check5 (s : State) (m : Img) : Option Refuse := firstOf [
  fun _ => need (inRange m.regionCnt 1 65536) (m.head 5 2 0),
  fun _ => need (m.zero ((m.sec 2).off + 8) 8) (m.head 5 2 8),
  fun _ => need (decide (16 + 48 * m.regionCnt ≤ (m.sec 2).len)) (m.head 5 2 0),
  fun _ => firstBad (fun i r => need (m.regionOk s i r) (m.regionRef 5 i)) 0 m.regions,
  fun _ =>
    let i := fitting m.sizes 0 m.streamRegions / 2
    need m.placed.isSome { reason := 5, sect := 1, item := i, off := (m.dirAt i).at_ }]

end Sys2Proof.Machine
end

