-- ==== Sys2Proof/Machine/Walk.lean ====
section
/-!
DEFINITION. Machine/Walk.lean: check 0x06 (R44, R47, R50-R62, R79, R116, R148, R154, R278, R279, R292, R295, R334, R343, R466,
R468). Each stream is followed along its single path of R59 with every loop run twice: iteration 0, and iteration 1 standing for
all the others. Registers change by SETR alone, so the later iterations of a body find the registers that iteration 1 finds.
-/

namespace Sys2Proof.Machine

/-! ## The text of a stream -/

/-- A stream under its check: each word of 16 bytes read at the bits of Table 3.2 (R46, `Sys2Proof.decodeInsn`). -/
structure Code where
  d : DirEnt
  ins : List (Option (Op × Fields))
  idx : Nat

def Img.codeOf (m : Img) (i : Nat) (d : DirEnt) : Code :=
  { d := d, ins := (List.range d.insnCnt).map fun j => decodeInsn (m.insnWord d j), idx := i }

/-- The refusal that names instruction `i`, and the one that names constant `i` (R469). -/
def Code.bad (c : Code) (i : Nat) (reason : Nat) : Refuse := { reason := reason, sect := 1, item := i, off := c.d.insn + 16 * i }
def Code.badConst (c : Code) (i : Nat) (reason : Nat) : Refuse := { reason := reason, sect := 1, item := i, off := c.d.konst + 32 * i }

/-- The directory entry is laid out as R44 asks, and its arrays lie in the section. -/
def Img.dirOk (m : Img) (i : Nat) (d : DirEnt) : Bool :=
  let c := m.sec 1
  m.zero (d.at_ + 2) 2 && m.zero (d.at_ + 28) 4 && (d.insn - c.off) % 16 == 0 && inRange d.insnCnt 2 16777216
    && (d.konst - c.off) % 32 == 0 && decide (d.constCnt ≤ 16777216)
    && decide (d.insn + 16 * d.insnCnt ≤ c.off + c.len) && decide (d.konst + 32 * d.constCnt ≤ c.off + c.len)
    && (i == 0 || (let p := m.dirAt (i - 1); decide (p.kind < d.kind) || (p.kind == d.kind && decide (p.ident < d.ident))))

/-- The loops of the text: for each instruction the LOOP that encloses it (an ENDL lies in its own loop), and the first
instruction that breaks R58. `stk` holds the open loops' k registers and indices. -/
def scanLoops : Nat → List (Nat × Nat) → List (Option (Op × Fields)) → Option Nat × List (Option Nat)
  | _, _, [] => (none, [])
  | i, stk, x :: r =>
    let here : Option Nat := (stk.head?).map fun y => y.2
    let go (stk' : List (Nat × Nat)) : Option Nat × List (Option Nat) :=
      let (e, l) := scanLoops (i + 1) stk' r
      (e, here :: l)
    match x with
    | some (.loop, f) =>
      if stk.length < 8 ∧ ¬ stk.any (fun y => y.1 == specIdx f.d) then go ((specIdx f.d, i) :: stk) else (some i, [])
    | some (.endl, f) =>
      match stk with
      | [] => (some i, [])
      | (k, j) :: s => if k = specIdx f.d ∧ j + 1 < i then go s else (some i, [])
    | _ => go stk

/-- What the text of one stream must be: legal words (R46, R47, R55, R468: `Sys2Proof.decodeInsn` and `Sys2Proof.legalForm`), loops,
jumps, PHASEs, its first and its final instruction. -/
def Code.textBad (c : Code) : Option Refuse :=
  let n := c.ins.length
  let (e, body) := scanLoops 0 [] c.ins
  firstOf [
    fun _ => firstBad (fun i x => match x with
      | none => some (c.bad i 6)
      | some (op, f) => need (legalForm c.d.eng op f) (c.bad i 6)) 0 c.ins,
    fun _ => e.map fun i => c.bad i 6,
    fun _ => firstBad (fun i x => match x with
      | some (.jmp, f) => need (decide (f.immF 0 24 < n) && body.getD (f.immF 0 24) none == body.getD i none) (c.bad i 6)
      | some (.phase, _) => need (body.getD i none == none) (c.bad i 6)
      | _ => none) 0 c.ins,
    fun _ => need (match c.ins.head? with
      | some (some (.phase, _)) => true
      | _ => false) (c.bad 0 6),
    fun _ => need (body.getD (n - 1) none == none && match c.ins.getLast? with
      | some (some (.halt, _)) => true
      | some (some (.jmp, f)) => f.immF 0 24 == 0
      | _ => false) (c.bad (n - 1) 6)]

/-! ## The path -/

/-- An instruction on the path: its place, how often it executes per pass, and the engine as it finds it. -/
structure Visit where
  idx : Nat
  op : Op
  f : Fields
  mult : Nat
  eng : Engine

/-- How often the present place executes: a loop in iteration 1 stands for all but the first. -/
def Engine.mult (x : Engine) : Nat := x.loops.foldl (fun n l => if l.iter = 0 then n else n * l.last.toNat) 1

/-- ENDL on the short walk: a second iteration, and no more. -/
def Engine.closeTwice (x : Engine) : Engine :=
  match x.loops with
  | [] => { x with pc := x.pc + 1 }
  | l :: r =>
    if l.iter = 0 ∧ l.last ≠ 0 then { x with pc := l.start, loops := { l with iter := 1 } :: r } else { x with pc := x.pc + 1, loops := r }

def Engine.setMode (x : Engine) (i : Bool) (m : TileMode) : Engine :=
  if i then { x with tile1 := { x.tile1 with mode := m } } else { x with tile0 := { x.tile0 with mode := m } }

/-- The tile that an MMA leaves, but for its cells: its mode, its groups and its forced spills (R126). -/
def Engine.tileAfter (x : Engine) (f : Fields) : Tile :=
  let m := modeOf (f.modF 0 2)
  let t := x.tileFor f m (if m = .fast then x.tens f.s3 else {})
  let t1 := if x.spillDue f then { t with groups := 0, spills := t.spills + 1 } else t
  { t1 with groups := if m = .fast then t1.groups + (x.tens f.s1).dim0 / 32 else 0 }

/-- What an instruction leaves in the registers, the loops and the tiles; `twice` cuts every loop to two iterations. -/
def Engine.walked (x : Engine) (twice : Bool) (konst : Nat → Nat) (op : Op) (f : Fields) : Engine :=
  let y := { x with pc := x.pc + 1 }
  match op with
  | .setr => x.load f.d (konst (f.immF 0 24))
  | .loop => x.openLoop (specIdx f.d) (f.immF 0 24)
  | .endl => if twice then x.closeTwice else x.closeLoop
  | .jmp => { x with pc := BitVec.ofNat 24 (f.immF 0 24) }
  | .mma => y.setTile (f.mod.getLsbD 6) (x.tileAfter f)
  | .mmax => y.setMode (f.mod.getLsbD 6) .af40
  | .accrs => y.setMode (f.mod.getLsbD 6) (if (x.tens f.s1).code = 0x0D then .int32 else .af40)
  | _ => y

/-- The visits from `x` on, and whether the path reaches the final instruction. -/
def Code.walk (c : Code) (twice : Bool) (konst : Nat → Nat) : Nat → Engine → List Visit × Bool
  | 0, _ => ([], false)
  | n + 1, x =>
    match c.ins.getD x.pc.toNat none with
    | none => ([], false)
    | some (op, f) =>
      let v : Visit := ⟨x.pc.toNat, op, f, x.mult, x⟩
      if x.pc.toNat + 1 = c.ins.length then ([v], true)
      else if op = Op.halt then ([v], false)
      else
        let (l, b) := c.walk twice konst n (x.walked twice konst op f)
        (v :: l, b)

/-- Loops nest 8 deep, and each runs twice. -/
def Code.path (c : Code) (konst : Nat → Nat) : List Visit × Bool := c.walk true konst (256 * c.ins.length) {}

/-- Instructions that the stream executes in one pass. -/
def passLength (vs : List Visit) : Nat := vs.foldl (fun n v => n + v.mult) 0

/-- The whole pass, with every loop run for its trip count (R59). -/
def Code.fullPath (c : Code) (konst : Nat → Nat) : List Visit := (c.walk false konst (passLength (c.path konst).1) {}).1

/-- The engine that a pass leaves to the next one: a final JMP to index 0 keeps the registers and the tiles (R59). -/
def nextPass (vs : List Visit) : Option Engine := (vs.getLast?.filter fun v => v.op == .jmp).map fun v => { v.eng with pc := 0, loops := [] }

/-- The second pass, which stands for all the later ones: every pass loads the same registers and leaves the same tile modes. -/
def Code.path2 (c : Code) (konst : Nat → Nat) : List Visit :=
  (nextPass (c.path konst).1).elim [] fun x => (c.walk true konst (256 * c.ins.length) x).1

/-- The second pass with every loop run for its trip count. -/
def Code.fullPath2 (c : Code) (konst : Nat → Nat) : List Visit :=
  (nextPass (c.fullPath konst)).elim [] fun x => (c.walk false konst (passLength (c.path konst).1) x).1

/-! ## The range of a descriptor (R50, R79) -/

/-- The iterations that a frame of the walk stands for. -/
def LoopFrame.span (l : LoopFrame) : Nat × Nat := if l.iter = 0 then (0, 0) else (1, l.last.toNat)

def Engine.kSpan (x : Engine) (k : Nat) : Nat × Nat :=
  match x.loops.find? fun l => l.k.toNat == k with
  | some l => l.span
  | none => (0, 0)

/-- The iterations among which a term with modulus `w` takes its extremes over [lo, hi]. -/
def extremes (lo hi w : Nat) : List Nat :=
  if w < 2 then [lo, hi]
  else [lo, hi, roundUp lo w, hi / w * w, lo / w * w + (w - 1), (hi + 1) / w * w - 1].filter fun k => decide (lo ≤ k) && decide (k ≤ hi)

/-- What register `r` adds to the effective address at value `k`. -/
def descTerm (d : BitVec 256) (r k : Nat) : Int :=
  let w := dF d 7 1
  (if dF d 20 1 = r then ((if 2 ≤ w then k % w else k : Nat) : Int) * sgn 32 (dF d 8 4) else 0)
  + (if dF d 21 1 = r then (k : Int) * sgn 32 (dF d 12 4) else 0) + (if dF d 22 1 = r then (k : Int) * sgn 32 (dF d 16 4) else 0)

def minInt (a : Int) (l : List Int) : Int := l.foldl min a
def maxInt (a : Int) (l : List Int) : Int := l.foldl max a

/-- The k registers that a descriptor names. -/
def descRegs (d : BitVec 256) : List Nat := ([dF d 20 1, dF d 21 1, dF d 22 1].filter fun k => decide (k ≤ 7)).eraseDups

/-- The least and the greatest effective address. -/
def Engine.eaSpan (x : Engine) (d : BitVec 256) : Int × Int :=
  (descRegs d).foldl (fun (a : Int × Int) r =>
    let (lo, hi) := x.kSpan r
    let ts := (extremes lo hi (if dF d 20 1 = r then dF d 7 1 else 0)).map (descTerm d r)
    let t0 := descTerm d r lo
    (a.1 + minInt t0 ts, a.2 + maxInt t0 ts)) ((dF d 0 6 : Nat), (dF d 0 6 : Nat))

/-- Every effective address. -/
def Engine.eaAll (x : Engine) (d : BitVec 256) : List Int :=
  (descRegs d).foldl (fun (l : List Int) r =>
    let (lo, hi) := x.kSpan r
    l.flatMap fun a => (List.range (hi - lo + 1)).map fun i => a + descTerm d r (lo + i)) [((dF d 0 6 : Nat) : Int)]

/-- Bytes from the effective address to the end of the elements, of `bits` bits each. -/
def Tens.extent (t : Tens) (bits : Nat) : Nat := (t.dim2 - 1) * t.pitch2 + (t.dim1 - 1) * t.pitch1 + (t.dim0 * bits + 7) / 8

/-- The same for the scale or exponent array, whose blocks are of `b` bytes (R54). -/
def Tens.entExtent (t : Tens) (b : Nat) : Nat :=
  let e := entBytes t.code
  if t.blkax then ((t.dim2 - 1) * t.pitch2 / b + ((t.dim1 + 31) / 32 - 1) * t.dim0) * e + t.dim0 * e
  else ((t.dim2 - 1) * t.pitch2 + (t.dim1 - 1) * t.pitch1) * e / b + (t.dim0 + blkLen t.code - 1) / blkLen t.code * e

/-- Whether an instruction may write a region of a use (Table 7.9). -/
def useWrites (use : Byte) (op : Op) (f : Fields) : Bool :=
  use == 2 || use == 3 || ((use == 0x20 || use == 0x21) && op == .upd) || (use == 0x23 && op == .rnorm && f.immF 0 16 != 0xFFFF)

/-- An access: the tensor's specifier, whether its elements and its scales are written, bits of an element, bytes added to the
elements' extent, and whether the elements must lie in a GRAD region. -/
structure Access where
  t : Byte
  w : Bool
  ws : Bool
  bits : Nat := 0
  more : Nat := 0
  grad : Bool := false

def rd (t : Byte) : List Access := if isT t then [⟨t, false, false, 0, 0, false⟩] else []
def wr (t : Byte) : List Access := if isT t then [⟨t, true, true, 0, 0, false⟩] else []

/-- The accesses of an instruction. -/
def accesses (op : Op) (f : Fields) : List Access :=
  match op with
  | .move | .vcvt | .vred | .rnorm => rd f.s1 ++ wr f.d
  | .gather | .scatter => rd f.s1 ++ rd f.s2 ++ wr f.d
  | .put => rd f.s1
  | .dispatch => rd f.s1 ++ rd f.s2 ++ wr f.d ++ wr f.s3
  | .mma => rd f.s1 ++ rd f.s2 ++ (if f.modF 0 2 = 1 then wr f.s3 else [])
  | .mmax | .nwatch => rd f.s1 ++ rd f.s2
  | .accsp | .vrng => wr f.d
  | .accrs => rd f.s1
  | .acccb => [⟨f.s1, false, false, 0, (f.immF 0 2 - 1) * 5120, false⟩]
  | .epi => rd f.s1 ++ wr f.d
  | .vop => rd f.s1 ++ rd f.s2 ++ rd f.s3 ++ wr f.d
  | .rring => ⟨f.s1, false, !f.mod.getLsbD 0, 40, 0, true⟩ :: wr f.d
  | .upd => rd f.s1 ++ rd (BitVec.ofNat 8 (0x80 + f.immF 8 4)) ++ wr f.d ++ wr f.s2 ++ wr f.s3
  | .nop | .halt | .loop | .endl | .jmp | .phase | .setr | .swait | .sadd | .ssub | .ssig | .swatch | .commit => []

/-- Whether the instructions of a kind of engine may reach the region: of the engines, the Culverts alone reach DRAM (R15).
[DEDUCED, assumption 94] -/
def Region.reachedBy (r : Region) (k : Kind) : Bool := r.inPeat || k == .clv

/-- [lo, hi) lies wholly inside one region, which the engine's kind reaches and whose use permits the access. -/
def Img.reach (m : Img) (k : Kind) (lo hi : Int) (w grad : Bool) (op : Op) (f : Fields) : Bool :=
  m.regions.any fun r => decide ((r.base : Int) ≤ lo) && decide (hi ≤ ((r.base + r.len : Nat) : Int)) && r.use != 1 && r.reachedBy k
    && (!w || useWrites r.use op f) && (!grad || r.use == 3)

def Img.accessOk (m : Img) (k : Kind) (v : Visit) (a : Access) : Bool :=
  let d := v.eng.tVal (specIdx a.t % 16)
  let t := v.eng.tens a.t
  let bits := if a.bits = 0 then fmtBits t.code else a.bits
  let e := v.eng.aVal (dF d 16 1 % 16)
  let (lo, hi) := v.eng.eaSpan e
  (descHost e || m.reach k lo (hi + (t.extent bits + a.more : Nat)) a.w a.grad v.op v.f)
  && (t.sea == none || entBytes t.code == 0 ||
      (let se := v.eng.aVal (dF d 17 1 % 16)
       let (lo, hi) := v.eng.eaSpan se
       descHost se || m.reach k lo (hi + (t.entExtent (if a.bits = 0 then blkBytes t.code else 1280) : Nat)) a.ws false v.op v.f))

/-! ## Registers and constants -/

/-- Specifiers of the registers that an instruction reads. -/
def readSpecs (op : Op) (f : Fields) : List Byte :=
  if op.code < 0x20 then []
  else ([f.d, f.s1, f.s2, f.s3].filter fun b => b != noSpec && (isT b || isA b || isG b))
    ++ (if op = Op.upd then [BitVec.ofNat 8 (0x80 + f.immF 8 4)] else [])

/-- A register that a SETR on the path has loaded, or that no SETR loads. -/
def Engine.has (x : Engine) (b : Byte) : Bool :=
  let i := specIdx b
  if isT b then (x.t.find i).isSome
  else if isA b then (x.a.find i).isSome
  else i == 0 || i == 30 || i == 31 || (x.g.find i).isSome

/-- The a registers behind a specifier. -/
def Engine.behind (x : Engine) (b : Byte) : List Byte :=
  if isT b then
    let d := x.tVal (specIdx b)
    let sa := dF d 17 1
    [BitVec.ofNat 8 (0x40 + dF d 16 1 % 16)] ++ (if sa ≤ 15 then [BitVec.ofNat 8 (0x40 + sa)] else [])
  else []

/-- Every register that an instruction reads has been loaded. -/
def Engine.readsOk (x : Engine) (op : Op) (f : Fields) : Bool :=
  (readSpecs op f).all fun b => x.has b && (x.behind b).all x.has

/-- A tensor descriptor's own fields (Table 3.5). -/
def tdescOk (d : BitVec 256) : Bool :=
  decide (1 ≤ dF d 0 2) && decide (1 ≤ dF d 2 2) && decide (1 ≤ dF d 4 2) && fmtListed (dF d 6 1) && decide (dF d 7 1 ≤ 1)
    && dF d 8 4 % 32 == 0 && dF d 12 4 % 32 == 0 && decide (dF d 0 2 * fmtBits (dF d 6 1) ≤ 8 * dF d 8 4)
    && decide (dF d 16 1 ≤ 15) && (decide (dF d 17 1 ≤ 15) || dF d 17 1 == 0xFF)
    && dF d 19 1 == 0 && dF d 22 10 == 0

/-- A constant that the instruction names: its index, and whether it is legal there. -/
def constUse (clv : Bool) (konst : Nat → Nat) (op : Op) (f : Fields) : List (Nat × Bool) :=
  match op with
  | .setr =>
    let i := f.immF 0 24
    let d := BitVec.ofNat 256 (konst i)
    [(i, if isA f.d then descOk clv d else if isT f.d then tdescOk d else true)]
  | .upd => let i := f.immF 0 8; [(2 * i, recipeLegal (konst (2 * i)) (konst (2 * i + 1))), (2 * i + 1, true)]
  | .nwatch =>
    let i := f.immF 0 16
    let c := konst i
    [(i, thrOk (thrWord c 0) && thrOk (thrWord c 1) && thrOk (thrWord c 2) && thrOk (thrWord c 3) && fld c 160 96 == 0)]
  | _ => []

/-! ## One stream -/

def Img.visitBad (m : Img) (c : Code) (konst : Nat → Nat) (v : Visit) : Option Refuse :=
  let k := kindOf c.d.eng
  firstOf [
    fun _ => (constUse (k == .clv) konst v.op v.f).findSome? fun x =>
      if c.d.constCnt ≤ x.1 then some (c.bad v.idx 6) else need x.2 (c.badConst x.1 6),
    fun _ => need (v.eng.readsOk v.op v.f) (c.bad v.idx 6),
    fun _ => need (opFits v.op k v.f v.eng konst) (c.bad v.idx 6),
    fun _ => need ((accesses v.op v.f).all (m.accessOk k v)) (c.bad v.idx 6)]

/-- The tag of the first timeline entry of KIND 2. -/
def Img.updateTag (m : Img) : Option (BitVec 16) := (m.timeline.find? fun t => t.kind == 2).map fun t => t.tag

/-- Registers that the visits load, in order, against those that later ones read (R343). -/
def afterUpdate : List Byte → List Visit → Option Nat
  | _, [] => none
  | ld, v :: r =>
    if v.op = Op.rring then some v.idx
    else if v.op = Op.setr then afterUpdate (v.f.d :: ld) r
    else
      let ok (b : Byte) : Bool := ld.contains b || (isG b && (specIdx b == 0 || specIdx b == 30 || specIdx b == 31))
      if (readSpecs v.op v.f).all fun b => ok b && (v.eng.behind b).all ok then afterUpdate ld r else some v.idx

/-- R343: what may stand before and after the PHASE of the first update phase. -/
def Img.rollBad (m : Img) (vs : List Visit) : Option Nat :=
  match m.updateTag with
  | none => none
  | some tag =>
    let at_ (v : Visit) : Bool := v.op == .phase && v.f.immF 0 16 == tag.toNat
    if vs.any at_ then
      match (vs.takeWhile fun v => !at_ v).find? fun v => (v.op == .rnorm && v.f.immF 0 16 != 0xFFFF) || v.op == .upd || v.op == .commit with
      | some v => some v.idx
      | none => afterUpdate [] (vs.dropWhile fun v => !at_ v)
    else none

def Img.streamBad (m : Img) (c : Code) : Option Refuse :=
  let konst := m.constWord c.d
  match c.textBad with
  | some r => some r
  | none =>
    let (vs, done) := c.path konst
    firstOf [
      fun _ => firstBad (fun _ v => m.visitBad c konst v) 0 (vs ++ c.path2 konst),
      fun _ => need done (c.bad (match vs.getLast? with | some v => v.idx | none => 0) 6),
      fun _ => (m.rollBad vs).map fun i => c.bad i 6,
      fun _ => need (kindOf c.d.eng != .hmk || (vs.filter fun v => v.op == .commit).foldl (fun n v => n + v.mult) 0 == 1)
        (c.bad (c.ins.length - 1) 6)]

/-! ## Ring ranges (R278, R279) -/

/-- An RRING on the path: its stream, its place, whether it reduces, ring, first block, blocks, executions, blocks of D. -/
structure RingUse where
  c : Code
  idx : Nat
  reduce : Bool
  ring : Nat
  first : Nat
  n : Nat
  mult : Nat
  dBlocks : Nat

def Tens.blocks (t : Tens) : Nat := t.dim0 / 256 * t.dim1 * t.dim2

def Code.ringUses (c : Code) (vs : List Visit) : List RingUse :=
  (vs.filter fun v => v.op == .rring).map fun v =>
    { c := c, idx := v.idx, reduce := v.f.mod.getLsbD 0, ring := v.f.immF 0 16, first := v.f.immF 16 32, n := (v.eng.tens v.f.s1).blocks
      mult := v.mult, dBlocks := if v.f.mod.getLsbD 0 then (v.eng.tens v.f.d).blocks else 0 }

def RingUse.inside (a b : RingUse) : Bool := a.ring == b.ring && decide (b.first ≤ a.first) && decide (a.first + a.n ≤ b.first + b.n)
def RingUse.meets (a b : RingUse) : Bool := decide (a.first < b.first + b.n) && decide (b.first < a.first + a.n)

/-- Blocks of the segment at a position (R278). -/
def segBlocks (n l pos : Nat) : Nat := n / max l 1 + if pos < n % max l 1 then 1 else 0

def Img.ringBad (m : Img) (us : List RingUse) : Option Refuse :=
  let red := us.filter fun u => u.reduce
  let ex := us.filter fun u => !u.reduce
  us.findSome? fun u =>
    let peers := (if u.reduce then red else ex).filter fun w => w.meets u
    let ent := (m.shape.rings.find? fun r => r.index == u.ring && !r.isTree)
    let ok := u.mult == 1 && peers.length == 1
      && (if u.reduce then
            (ex.filter fun w => w.inside u).foldl (fun n w => n + w.n) 0 == u.n
              && (match ent with
                  | some r => decide (r.l ≤ u.n) && u.dBlocks == segBlocks u.n r.l r.pos
                  | none => true)
          else red.any u.inside)
    need ok (u.c.bad u.idx 6)

/-- The codes of an image, and their visits. -/
def Img.codes (m : Img) : List Code := m.dir.mapIdx m.codeOf
def Img.visits (m : Img) : List (Code × List Visit) := m.codes.map fun c => (c, (c.path (m.constWord c.d)).1)

end Sys2Proof.Machine
end

