-- ==== Sys2Proof/Machine/Order.lean ====
section
/-!
DEFINITION. Machine/Order.lean: what the loader proves over whole passes of the streams (R57, R80, R148, R165, R188, R276, R286, R292,
R294, R334), and check 0x06 as a whole. A chain of semaphore operations and SWAITs orders two instructions where the SWAIT
could not complete otherwise: no way of running the other engines without the first instruction lets its semaphore reach the
threshold (`Pass.open_`).
-/

namespace Sys2Proof.Machine

/-! ## One pass -/

/-- One pass of every stream, in the order of the directory, or its first `steps` passes one after another; this partition's own
endpoint; its semaphores. `step1` is the first pass alone. The engine number after the last stream stands for the commit barrier,
which has one node for its completion in each step. -/
structure Pass where
  lanes : List (List Visit)
  step1 : List (List Visit)
  steps : Nat
  own : Nat
  sems : List SemDecl

def Img.pass (m : Img) : Pass :=
  let l := m.codes.map fun c => c.fullPath (m.constWord c.d)
  { lanes := l, step1 := l, steps := 1, own := 4 * m.shape.self + m.q, sems := m.semDecls }

/-- The first two passes, for what counts across the step boundary. -/
def Img.pass2 (m : Img) : Pass :=
  let p := m.pass
  { p with lanes := List.zipWith (fun a (c : Code) => a ++ c.fullPath2 (m.constWord c.d)) p.lanes m.codes, steps := 2 }

/-- The number that stands for the commit barrier. -/
def Pass.bar (p : Pass) : Nat := p.lanes.length
def Pass.lane (p : Pass) (e : Nat) : List Visit := p.lanes.getD e []
/-- Nodes of an engine, or of the barrier. -/
def Pass.len (p : Pass) (e : Nat) : Nat := if e = p.bar then p.steps else (p.lane e).length
def Pass.engines (p : Pass) : List Nat := List.range (p.bar + 1)

/-- What an SSIG to this partition's own endpoint adds to semaphore `i`. -/
def Visit.ownSig (v : Visit) (own i : Nat) : Nat :=
  if v.op = Op.ssig ∧ v.f.immF 16 20 = own ∧ v.f.immF 0 16 = i then v.f.immF 36 16 else 0

/-- What an instruction leaves in semaphore `i`; the CS of a COMMIT comes with the barrier. -/
def Visit.delta (v : Visit) (own i : Nat) : Int :=
  (if v.f.cs ∧ v.op ≠ Op.commit ∧ v.f.csem.toNat = i then 1 else 0) + (if v.op = Op.sadd ∧ v.f.immF 0 16 = i then (v.f.immF 32 32 : Int) else 0)
    - (if v.op = Op.ssub ∧ v.f.immF 0 16 = i then (v.f.immF 32 32 : Int) else 0) + v.ownSig own i

/-- The barrier of a step delivers every COMMIT's CS and re-bases the semaphore (R201). -/
def Pass.barDelta (p : Pass) (i : Nat) : Int :=
  (p.step1.flatten.countP fun v => v.op == .commit && v.f.cs && v.f.csem.toNat == i : Nat)
    - (match p.sems.find? fun d => d.index == i with | some d => d.incr | none => 0)

/-- Adds to semaphore `i` that come from other modules in a step, at any time of it (R202). -/
def Pass.remote (p : Pass) (d : SemDecl) : Int :=
  max 0 ((d.remoteAdd : Int) - (p.step1.flatten.foldl (fun n v => n + v.ownSig p.own d.index) 0 : Nat))

/-- What the first `k` nodes of an engine leave in semaphore `i`; with a barrier that another step follows come that step's adds from
other modules. -/
def Pass.net (p : Pass) (e i k : Nat) : Int :=
  if e = p.bar then
    (min k p.steps : Nat) * p.barDelta i
      + (min k (p.steps - 1) : Nat) * (match p.sems.find? fun d => d.index == i with | some d => p.remote d | none => 0)
  else ((p.lane e).take k).foldl (fun n v => n + v.delta p.own i) 0

/-! ## What is known to have completed -/

/-- For each engine and each of its nodes: how many nodes of every engine have completed before that node begins. -/
abbrev Clocks := List (List (List Nat))

def Clocks.known (k : Clocks) (e j a : Nat) : Nat := ((k.getD e []).getD j []).getD a 0

/-- The larger of two clocks, entry by entry, over `n` engines. -/
def joinClock (n : Nat) (a b : List Nat) : List Nat := (List.range n).map fun i => max (a.getD i 0) (b.getD i 0)

/-- Nodes of engine `e` that may have run while engine `a` has run `c`. -/
def Pass.may (p : Pass) (k : Clocks) (e a c : Nat) : Nat :=
  if e = a then c else ((List.range (p.len e)).find? fun j => decide (c < k.known e j a)).getD (p.len e)

/-- The largest value of what engine `e` may have left in semaphore `i`, when it has run from `lo` to `hi` nodes. -/
def Pass.most (p : Pass) (e i lo hi : Nat) : Option Int :=
  if hi < lo then none
  else some (((List.range (hi - lo)).map fun n => p.net e i (lo + 1 + n)).foldl max (p.net e i lo))

/-- The earliest node of engine `b` from which the condition of the SWAIT at node `j` may have held: a SWATCH that arms its watch. -/
def Pass.armedFrom (p : Pass) (b j : Nat) (v : Visit) : Nat :=
  (((p.lane b).take j).findIdx? fun w => w.op == .swatch && w.f.immF 16 12 == v.f.immF 16 12).getD j

/-- The SWAIT `v`, node `j` of engine `b`, may complete while engine `a` has run no more than `c` nodes; `known` says what has
completed before it. [DEDUCED, assumption 95] -/
def Pass.open_ (p : Pass) (k : Clocks) (b j : Nat) (v : Visit) (known : List Nat) (a c : Nat) : Bool :=
  match p.sems.find? fun d => d.index == v.f.immF 0 16 with
  | none => true
  | some d =>
    let top (e : Nat) : Option Int :=
      if e = b then p.most e d.index (p.armedFrom b j v) j
      else p.most e d.index (known.getD e 0) (min (p.may k e a c) (p.may k e b j))
    match p.engines.foldl (fun (n : Option Int) e => match n, top e with
      | some x, some y => some (x + y)
      | _, _ => none) (some (d.init + p.remote d)) with
    | none => false
    | some x => decide (v.eng.threshold v.f ≤ x)

/-- What the completion of a SWAIT adds to what is known: of every other engine, the fewest nodes with which it may complete. -/
def Pass.waited (p : Pass) (k : Clocks) (b j : Nat) (v : Visit) (known : List Nat) : List Nat :=
  p.engines.map fun a =>
    let c0 := known.getD a 0
    if a = b then c0
    else ((List.range (p.len a + 1 - c0)).find? fun n => p.open_ k b j v known a (c0 + n)).elim (p.len a) fun n => c0 + n

/-- Nodes that have completed bring what was known before them. -/
def Pass.spread (p : Pass) (k : Clocks) (known : List Nat) : List Nat :=
  p.engines.foldl (fun l a => let c := known.getD a 0; if c = 0 then l else joinClock (p.bar + 1) l ((k.getD a []).getD (c - 1) [])) known

/-- COMMITs among the first `j` nodes of a lane. -/
def commitsIn (l : List Visit) (j : Nat) : Nat := (l.take j).countP fun v => v.op == .commit

/-- The clocks of engine `b` from node `j` on; after a COMMIT the barrier of its step has completed. -/
def Pass.laneClocks (p : Pass) (k : Clocks) (b : Nat) : Nat → List Nat → List Visit → List (List Nat)
  | _, _, [] => []
  | j, known, v :: r =>
    let here := joinClock (p.bar + 1) ((k.getD b []).getD j []) (known.set b j)
    let after := if v.op = Op.swait then p.spread k (p.waited k b j v here)
      else if v.op = Op.commit then p.spread k (here.set p.bar (max (here.getD p.bar 0) (commitsIn (p.lane b) (j + 1)))) else here
    here :: p.laneClocks k b (j + 1) after r

/-- The barrier of step `n` completes when every COMMIT of the step has been issued (R295). -/
def Pass.barClock (p : Pass) (k : Clocks) (n : Nat) : List Nat :=
  (List.range p.bar).foldl (fun l e =>
    match (List.range (p.lane e).length).find? fun j => decide (commitsIn (p.lane e) (j + 1) = n + 1) with
    | some j => joinClock (p.bar + 1) l (((k.getD e []).getD j []).set e (j + 1))
    | none => l) []

def Pass.tick (p : Pass) (k : Clocks) : Clocks :=
  ((List.range p.bar).map fun b => p.laneClocks k b 0 ((List.range (p.bar + 1)).map fun _ => 0) (p.lane b))
    ++ [(List.range p.steps).map (p.barClock k)]

/-- Repeat until nothing more is known. -/
def Pass.settle (p : Pass) : Nat → Clocks → Clocks
  | 0, k => k
  | n + 1, k => let k' := p.tick k; if k' = k then k else p.settle n k'

/-- Each round but the last raises one of the entries, and none exceeds the nodes of its engine. -/
def Pass.rounds (p : Pass) : Nat :=
  let n := p.lanes.flatten.length + p.steps
  n * n + 1

/-- What is known to have completed before each node. [DEDUCED, assumption 95] -/
def Pass.clocks (p : Pass) : Clocks := p.settle p.rounds []

/-! ## Accesses -/

/-- A run of module bytes that an instruction reads or writes, with its hint. -/
structure Touch where
  a : Nat
  n : Nat
  w : Bool
  hint : BitVec 2
deriving DecidableEq, Repr

def Tens.touches (t : Tens) (w : Bool) : List Touch :=
  if t.host then []
  else (t.rows.map fun pr => ⟨t.rowAddr pr.1 pr.2, t.rowBytes, w, t.hint⟩) ++ t.entRuns.map fun ab => ⟨ab.1, ab.2, w, t.shint⟩

/-- What an instruction reads and writes when it executes, and what it reads and writes in place (R57: the accumulators of the
Matrix family; R152). A census NWATCH, which names no S2, reads no byte (R154). -/
def Visit.touches (v : Visit) : List Touch × List Touch :=
  let x := v.eng
  let t (b : Byte) (w : Bool) : List Touch := if isT b then (x.tens b).touches w else []
  let f := v.f
  let all (l : List Tens) (w : Bool) : List Touch := l.flatMap fun y => y.touches w
  match v.op with
  | .move | .vcvt | .vred | .gather | .epi | .dispatch | .vop | .vrng | .accsp | .put | .mmax =>
    (if v.op = Op.dispatch then t f.s1 false ++ t f.s2 false ++ t f.d true ++ t f.s3 true
     else if v.op = Op.put then t f.s1 false
     else t f.s1 false ++ t f.s2 false ++ t f.s3 false ++ t f.d true, [])
  | .nwatch => (if f.s2 = noSpec then [] else t f.s1 false ++ t f.s2 false, [])
  | .scatter => (t f.s1 false ++ t f.s2 false ++ t f.d true, if f.mod.getLsbD 0 then t f.d false else [])
  | .mma =>
    let y := x.tileFor f (modeOf (f.modF 0 2)) (x.tens f.s3)
    (t f.s1 false ++ t f.s2 false,
      if x.spillDue f then all y.spillReads false ++ (y.spill.half (y.spills % 2)).touches true else [])
  | .accrs =>
    let y := x.tile (f.mod.getLsbD 6)
    (t f.s1 false, if x.accrsSpills f then all y.spillReads false ++ (y.spill.half (y.spills % 2)).touches true else [])
  | .acccb => (all ((List.range (f.immF 0 2)).map fun j => (x.tens f.s1).partner (j + 1)) false, [])
  | .rring =>
    let s := x.tens f.s1
    let exps (w : Bool) : List Touch := s.expRuns.map fun ab => ⟨ab.1, ab.2, w, s.shint⟩
    (Tens.touches { s with fmt := 0x0A, sea := none } false ++ exps (!f.mod.getLsbD 0) ++ t f.d true, [])
  | .rnorm => (t f.s1 false ++ t f.d true, if f.immF 0 16 = 0xFFFF then t f.d false else [])
  | .upd => (t f.s1 false ++ t (normSpec f) false ++ t f.d true ++ t f.s2 true ++ t f.s3 true, t f.d false ++ t f.s2 false ++ t f.s3 false)
  | .nop | .halt | .loop | .endl | .jmp | .phase | .setr | .swait | .sadd | .ssub | .ssig | .swatch | .commit => ([], [])

def Touch.meets (x y : Touch) : Bool := decide (x.a < y.a + y.n) && decide (y.a < x.a + x.n)
def Touch.has (x : Touch) (b : Nat) : Bool := decide (x.a ≤ b) && decide (b < x.a + x.n)
/-- The bytes that two runs share. -/
def Touch.common (x y : Touch) : List Nat := (List.range x.n).filterMap fun i => if y.has (x.a + i) then some (x.a + i) else none

/-- An instruction of a pass: its engine's number and place, whether the engine runs it again in the next step, and the block that holds
it (R80). -/
structure Node where
  e : Nat
  again : Bool
  i : Nat
  v : Visit
  block : Nat
  own : List Touch
  place : List Touch

def Node.all (x : Node) : List Touch := x.own ++ x.place

/-- The instruction ends its block (R80, R127). -/
def Visit.restarts (v : Visit) : Bool :=
  isRestart v.idx v.op v.f || (v.op == .mma && v.eng.spillDue v.f) || (v.op == .accrs && v.eng.accrsSpills v.f)

/-- The nodes of engine `e` from place `i` in block `b` on. -/
def nodesOf (e : Nat) (again : Bool) : Nat → Nat → List Visit → List Node
  | _, _, [] => []
  | i, b, v :: r =>
    let (o, l) := v.touches
    ⟨e, again, i, v, b, o, l⟩ :: nodesOf e again (i + 1) (if v.restarts then b + 1 else b) r

/-- A stream whose final instruction is a JMP to index 0 runs in every step, one that ends in HALT in the first alone (R59). -/
def Pass.again (p : Pass) (e : Nat) : Bool := (p.lane e).getLast?.any fun v => v.op == .jmp

def Pass.nodes (p : Pass) : List Node := (List.range p.bar).flatMap fun e => nodesOf e (p.again e) 0 0 (p.lane e)

/-- Node `x` completes before node `y` begins. -/
def Clocks.before (k : Clocks) (x y : Node) : Bool := if x.e = y.e then decide (x.i < y.i) else decide (x.i < k.known y.e y.i x.e)

/-- Node `x` begins, or as a SWAIT completes, after the commit barrier of its pass has completed. -/
def Pass.afterBar (p : Pass) (k : Clocks) (x : Node) : Bool := decide (0 < k.known x.e (if x.v.op = Op.swait then x.i + 1 else x.i) p.bar)
/-- Node `x` completes before the partition arrives at the commit barrier. -/
def Pass.beforeBar (p : Pass) (k : Clocks) (x : Node) : Bool := decide (x.i < k.known p.bar 0 x.e)

/-! ## The proofs -/

/-- R57: unordered accesses of two engines to common bytes, one of them a write. -/
def pairBad (k : Clocks) (x y : Node) : Bool :=
  x.e != y.e && (x.all.any fun a => y.all.any fun b => (a.w || b.w) && a.meets b) && !k.before x y && !k.before y x

/-- The spill tensor that a fast MMA names as a destination, both halves of it (R126). -/
def Visit.spillTo (v : Visit) : List Touch :=
  if v.op = Op.mma ∧ v.f.modF 0 2 = 1 then ((v.eng.tens v.f.s3).half 0).touches true ++ ((v.eng.tens v.f.s3).half 1).touches true else []

/-- R57: a destination meets a source; the spill tensor of a fast MMA is a destination of it. -/
def Node.overlaps (x : Node) : Bool := x.own.any fun a => !a.w && (x.own ++ x.v.spillTo).any fun b => b.w && a.meets b

/-- R80: the node writes bytes that an earlier node of its block has read. What one instruction itself reads and writes, a SCATTER
with MOD[0] = 1 its D or a UPD in place (R152), is no read before the write; a later instruction of the block that writes those
bytes is refused, a second UPD among them. [DESIGN CHOICE, assumption 106] -/
def blockBad (ns : List Node) (y : Node) : Bool :=
  ns.any fun x => x.e == y.e && x.block == y.block && decide (x.i < y.i) && x.all.any fun a => !a.w && y.all.any fun b => b.w && a.meets b

/-- A node of `ns` that writes byte `b` and that `ok` accepts. -/
def written (ns : List Node) (b : Nat) (ok : Node → Bool) : Bool := ns.any fun z => (z.all.any fun t => t.w && t.has b) && ok z

/-- R165: `y` reads a byte after `x` has read it with HINT 2, without a write between, in the same pass or in the next. [DEDUCED, assumption 95] -/
def hintBad (k : Clocks) (ns : List Node) (x y : Node) : Bool :=
  x.all.any fun a => !a.w && a.hint == 2 && isDram a.a && y.all.any fun c => !c.w && (a.common c).any fun b =>
    !(if k.before x y then written ns b fun z => k.before x z && k.before z y
      else (x.e == y.e || k.before y x) && (!y.again || written ns b fun z => k.before x z || k.before z y))

/-- The clocks of the first two passes, and the nodes of each stream's first pass. -/
structure Later where
  p : Pass
  k : Clocks

/-- The next pass runs node `z` again only after the barrier of this step has completed. -/
def Later.afterBar (l : Later) (z : Node) : Bool := decide (0 < l.k.known z.e ((l.p.step1.getD z.e []).length + z.i) l.p.bar)

/-- R286 and R276: a write to what a ring instance works on that is neither before it nor after the commit barrier; a write before
it comes again with the next pass. [DEDUCED, assumption 95] -/
def ringTouched (p : Pass) (k : Clocks) (l : Later) (r z : Node) : Bool :=
  r.v.op == .rring && !(r.e == z.e && r.i == z.i)
    && (r.own.any fun a => z.all.any fun b => b.w && a.meets b)
    && !(p.afterBar k z || (k.before z r && (!z.again || l.afterBar z)))

/-- R292: a global RNORM that is not after every reduce pass and every local RNORM. -/
def normBad (k : Clocks) (ns : List Node) (g : Node) : Bool :=
  g.v.op == .rnorm && g.v.f.immF 0 16 != 0xFFFF && ns.any fun x =>
    ((x.v.op == .rring && x.v.f.mod.getLsbD 0) || (x.v.op == .rnorm && x.v.f.immF 0 16 == 0xFFFF)) && !k.before x g

/-- A UPD of this rank's own shard; a mirror UPD takes a held shard and its s (R336). [DEDUCED, assumption 95] -/
def Img.ownUpd (m : Img) (x : Node) : Bool :=
  let a := (x.v.eng.tens x.v.f.d).ea
  x.v.op == .upd && !m.regions.any fun r => r.use == 0x21 && decide (r.base ≤ a) && decide (a < r.base + r.len)

/-- R294: a UPD that is not after the global RNORM of its norm, or whose gradient is no reduced shard of the step. -/
def Img.updBad (m : Img) (k : Clocks) (ns : List Node) (u : Node) : Bool :=
  m.ownUpd u
  && !((ns.any fun g => g.v.op == .rnorm && g.v.f.immF 0 16 != 0xFFFF && (g.v.eng.tens g.v.f.d).ea == (u.v.eng.tens (normSpec u.v.f)).ea && k.before g u)
      && (((u.v.eng.tens u.v.f.s1).touches false).all fun a => (List.range a.n).all fun i => ns.any fun r =>
            r.v.op == .rring && r.v.f.mod.getLsbD 0 && r.own.any fun t => t.w && t.has (a.a + i)))

/-- A region that Table 13.3 marks. -/
def Region.outlives (r : Region) : Bool := decide (0x20 ≤ r.use.toNat) && decide (r.use.toNat ≤ 0x24)

/-- Before node `y` a SWAIT on a semaphore that other modules raise in each step has completed: it may have announced remote writes of
the step. -/
def Img.announced (m : Img) (k : Clocks) (ns : List Node) (y : Node) : Bool :=
  ns.any fun w => w.v.op == .swait && k.before w y && m.semDecls.any fun d => d.index == w.v.f.immF 0 16 && decide (0 < d.remoteAdd)

/-- R334: a read of a byte that the step writes, but not before the read; where the engine runs again, the byte was last written in an
earlier step, unless a remote write of this step has brought it. A forced spill writes before the ACCRS that calls for it reads
(R126). [DEDUCED, assumption 95] -/
def Img.staleBad (m : Img) (k : Clocks) (ns : List Node) (y : Node) : Bool :=
  let spilt (b : Nat) : Bool := y.v.op == .accrs && y.place.any fun t => t.w && t.has b
  y.again && y.all.any fun a => !a.w && (List.range a.n).any fun i =>
    let b := a.a + i
    !spilt b
      && !(m.regions.any fun r => (r.outlives || (r.remote && m.announced k ns y)) && decide (r.base ≤ b) && decide (b < r.base + r.len))
      && (written ns b fun _ => true) && !(written ns b fun z => k.before z y)

/-- The refusal that names a node's instruction. -/
def Img.nodeRef (m : Img) (x : Node) (reason : Nat) : Refuse :=
  match m.codes[x.e]? with
  | some c => c.bad x.v.idx reason
  | none => m.head reason 1 0

/-- What check 0x06 proves over the passes. [DEDUCED, assumption 95] -/
def Img.orderBad (m : Img) : Option Refuse :=
  let p := m.pass
  let k := p.clocks
  let ns := p.nodes
  let l : Later := ⟨m.pass2, m.pass2.clocks⟩
  ns.findSome? fun y => need (!(y.overlaps || (ns.any fun x => pairBad k x y) || blockBad ns y || (ns.any fun x => hintBad k ns x y)
    || (ns.any fun r => ringTouched p k l r y) || normBad k ns y || m.updBad k ns y || m.staleBad k ns y)) (m.nodeRef y 6)

/-- R148 over every iteration of every pass: the operands of a UPD stay apart. -/
def Img.updsBad (m : Img) : Option Refuse :=
  m.codes.findSome? fun c => firstBad (fun _ (v : Visit) =>
    need (v.op != .upd || updFits v.f v.eng (m.constWord c.d)) (c.bad v.idx 6)) 0 (c.fullPath (m.constWord c.d) ++ c.fullPath2 (m.constWord c.d))

/-- R188: every Sync instruction is ordered before the partition's COMMIT or after the completion of its barrier. [DEDUCED, assumption 95] -/
def Img.syncBad (m : Img) : Option Refuse :=
  let p := m.pass
  let k := p.clocks
  p.nodes.findSome? fun x => need (x.v.op.code / 16 != 1 || p.beforeBar k x || p.afterBar k x) (m.nodeRef x 7)

/-! ## Check 0x06 -/

def check6 (m : Img) : Option Refuse := firstOf [
  fun _ => need (inRange m.streamCnt 1 200 && m.zero ((m.sec 1).off + 2) 14 && decide (16 + 32 * m.streamCnt ≤ (m.sec 1).len)) (m.head 6 1 0),
  fun _ => firstBad (fun i d => need (m.dirOk i d) { reason := 6, sect := 1, item := i, off := d.at_ }) 0 m.dir,
  fun _ => need (m.dir.any fun d => d.kind == 2) (m.head 6 1 0),
  fun _ => m.codes.findSome? m.streamBad,
  fun _ => m.ringBad (m.visits.flatMap fun x => x.1.ringUses x.2),
  fun _ => m.updsBad,
  fun _ => m.orderBad]

end Sys2Proof.Machine
end

