-- ==== Sys2Proof/Machine/Check.lean ====
section
/-!
DEFINITION. Machine/Check.lean: the checks 0x07 to 0x0A of Table 2.4 (R37-R39, R60, R104, R108-R111, R153, R187, R188, R270, R277,
R295, R301-R306, R309, R310, R316, R318, R319, R392, R449), and all ten in their order (R32).
-/

namespace Sys2Proof.Machine

/-! ## Check 0x07: semaphores (R63, R188) -/

def Img.semRef (m : Img) (i : Nat) : Refuse := { reason := 7, sect := 3, item := i, off := m.semPos i }
def Img.watchRef (m : Img) (i : Nat) : Refuse := { reason := 7, sect := 3, item := i, off := m.watchPos i }

def Img.declared (m : Img) (i : Nat) : Bool := m.semDecls.any fun d => d.index == i

/-- What an instruction adds to, and takes from, a semaphore of its own partition, each time it executes. -/
def Visit.adds (v : Visit) (i : Nat) : Nat :=
  (if v.f.cs && v.f.csem.toNat == i then 1 else 0) + (if v.op = Op.sadd ∧ v.f.immF 0 16 = i then v.f.immF 32 32 else 0)
def Visit.subs (v : Visit) (i : Nat) : Nat := if v.op = Op.ssub ∧ v.f.immF 0 16 = i then v.f.immF 32 32 else 0

def sumVisits (g : Visit → Nat) (l : List (Code × List Visit)) : Nat :=
  l.foldl (fun n x => x.2.foldl (fun n v => n + v.mult * g v) n) 0

/-- Watches that the text names with semaphore `i`. -/
def Img.watchesOf (m : Img) (i : Nat) : List Nat :=
  (m.codes.flatMap fun c => c.ins.filterMap fun x => match x with
    | some (op, f) => if (op = Op.swait ∨ op = Op.swatch) ∧ f.immF 0 16 = i then some (f.immF 16 12) else none
    | none => none).eraseDups

def Img.semBad (m : Img) (vs : List (Code × List Visit)) (i : Nat) (d : SemDecl) : Bool :=
  let o := m.semPos i
  let a := sumVisits (fun v => v.adds d.index) vs
  let b := sumVisits (fun v => v.subs d.index) vs
  !(m.fld (o + 2) 1 ≤ 1 && m.zero (o + 3) 1 && semIn m.n m.q d.index
    && decide (-1048576 ≤ d.init) && decide (d.init ≤ 1048576) && decide (-2097151 ≤ d.incr) && decide (d.incr ≤ 2097151)
    && (i == 0 || decide ((m.semAt (i - 1)).index < d.index))
    && (d.remote || d.remoteAdd == 0)
    && decide ((a : Int) - b + d.remoteAdd = d.incr)
    && decide (d.init + a + d.remoteAdd ≤ 1048576) && decide (-1048576 ≤ d.init - b)
    && decide ((m.watchesOf d.index).length ≤ 64))

def Img.watchBad (m : Img) (i : Nat) (d : WatchDecl) : Bool :=
  let o := m.watchPos i
  let k := m.fld (o + 2) 1
  !(decide (k ≤ 4) && decide (m.fld (o + 3) 1 < kindCount k) && partOfEng m.n d.eng == m.q && watchIn m.n m.q d.index && m.zero (o + 4) 4
    && (i == 0 || decide ((m.watchAt (i - 1)).index < d.index)))

/-- The semaphores and the watch that an instruction names. -/
def Img.namesOk (m : Img) (e : Nat) (op : Op) (f : Fields) : Bool :=
  (!f.cs || m.declared f.csem.toNat)
  && (match op with
      | .swait | .swatch => m.declared (f.immF 0 16) && m.watchDecls.any fun w => w.index == f.immF 16 12 && w.eng == e
      | .sadd | .ssub | .commit => m.declared (f.immF 0 16)
      | _ => true)

def check7 (m : Img) : Option Refuse :=
  let vs := m.visits
  firstOf [
    fun _ => need (m.zero ((m.sec 3).off + 8) 8 && decide (16 + 16 * m.semCnt + 8 * m.watchCnt ≤ (m.sec 3).len)) (m.head 7 3 0),
    fun _ => firstBad (fun i d => need (!m.semBad vs i d) (m.semRef i)) 0 m.semDecls,
    fun _ => firstBad (fun i d => need (!m.watchBad i d) (m.watchRef i)) 0 m.watchDecls,
    fun _ => m.codes.findSome? fun c => firstBad (fun i x => match x with
      | some (op, f) => need (m.namesOk c.d.eng op f) (c.bad i 7)
      | none => none) 0 c.ins,
    fun _ => firstBad (fun i (c : ChainEnt) => need (!c.member || m.semDecls.any fun d => d.index == c.sem.toNat && d.remote)
      { reason := 7, sect := 4, item := i, off := m.chainPos i }) 0 m.shape.chains,
    fun _ => m.syncBad]

/-! ## Check 0x08: shape -/

/-- X and Y of R211, from a coordinate of an active slot. -/
def gridX (c : BitVec 17) : Nat := 4 * cX c + cSlot c % 4
def gridY (c : BitVec 17) : Nat := 4 * cY c + cSlot c / 4

def slotsOf (mask : Nat) : List Nat := (List.range 16).filter (bitAt mask)

/-- The patterns of Table 12.1. -/
def patternOk (mask : Nat) : Bool :=
  let l := slotsOf mask
  let a := l.headD 0
  decide (mask < 65536) && mask != 0 && match l.length with
    | 1 => true
    | 2 => a % 2 == 0 && l == [a, a + 1]
    | 4 => a % 4 == 0 && l == [a, a + 1, a + 2, a + 3]
    | 8 => a % 8 == 0 && l == (List.range 8).map (a + ·)
    | 16 => true
    | _ => false

structure Slice where
  ox : Nat
  oy : Nat
  oz : Nat
  sx : Nat
  sy : Nat
  sz : Nat
  mask : Nat

def Img.slice (m : Img) : Slice :=
  ⟨m.fld 0x50 1, m.fld 0x51 1, m.fld 0x52 1, m.fld 0x53 1, m.fld 0x54 1, m.fld 0x55 1, m.fld 0x58 2⟩

/-- The slice's extents (R302). -/
def Slice.eX (l : Slice) : Nat := if l.mask = 0 then 4 * l.sx else ((slotsOf l.mask).map fun s => s % 4).eraseDups.length
def Slice.eY (l : Slice) : Nat := if l.mask = 0 then 4 * l.sy else ((slotsOf l.mask).map fun s => s / 4).eraseDups.length
def Slice.eZ (l : Slice) : Nat := l.sz

/-- A slice that R301 permits on this machine. -/
def Slice.ok (l : Slice) (ex ey ez : Nat) : Bool :=
  decide (l.ox < ex) && decide (l.oy < ey) && decide (l.oz < ez)
  && (if l.mask = 0 then inRange l.sx 1 8 && inRange l.sy 1 8 && inRange l.sz 1 48 && decide (l.sx ≤ ex) && decide (l.sy ≤ ey) && decide (l.sz ≤ ez)
      else l.sx == 1 && l.sy == 1 && l.sz == 1 && patternOk l.mask)

/-- The coordinate of the active slot that holds rank `r` (R302, R303). -/
def Slice.coordOf (l : Slice) (ex ey ez r : Nat) : BitVec 17 :=
  let s0 := (slotsOf l.mask).headD 0
  let x0 := 4 * l.ox + s0 % 4
  let y0 := 4 * l.oy + s0 / 4
  let x := (x0 + r % max l.eX 1) % (4 * ex)
  let y := (y0 + r / max l.eX 1 % max l.eY 1) % (4 * ey)
  let z := (l.oz + r / max (l.eX * l.eY) 1) % ez
  mkCoord (x / 4) (y / 4) z (x % 4 + 4 * (y % 4))

def shapeRef (i o : Nat) : Refuse := { reason := 8, sect := 4, item := i, off := o }
def Img.shapeHead (m : Img) (o : Nat) : Refuse := m.head 8 4 o

/-- The header's degrees and counts (R310, R315, R316, R318, R319). -/
def Img.degreesBad (m : Img) : Option Refuse :=
  let h := m.shape
  let l := m.slice
  let o := m.shapeOff
  let pow (v : Nat) : Bool := v == 2 || v == 4 || v == 8 || v == 16
  let off := h.flags.getLsbD 0
  firstOf [
    fun _ => need (h.rankCnt == l.eX * l.eY * l.eZ && h.rankCnt == h.ddeg * h.pdeg * h.tdeg) (m.shapeHead 4),
    fun _ => need (inRange h.ddeg 1 49152) (m.shapeHead 8),
    fun _ => need (inRange h.pdeg 1 96) (m.shapeHead 10),
    fun _ => need ((h.tdeg == 1 || pow h.tdeg) && (l.mask == 0 || decide (h.tdeg ≤ l.eX * l.eY))) (m.shapeHead 11),
    fun _ => need (h.edeg == 0 || pow h.edeg) (m.shapeHead 12),
    fun _ => need (decide (h.flags.toNat < 4) && (!h.flags.getLsbD 1 || m.control.expert 4)) (m.shapeHead 13),
    fun _ => need (decide (h.stage < h.pdeg)) (m.shapeHead 14),
    fun _ => need (m.zero (o + 15) 1) (m.shapeHead 15),
    fun _ => need (off == (l.eX == 1)) (m.shapeHead 13),
    fun _ => need (h.twin.toNat == (if off then 0xFFFFFFFF
      else ({ imgAt := 0, imgLen := 0, imgHash := [], jobId := 0, keyId := 0, origin := (0, 0, 0), spans := (l.sx, l.sy, l.sz)
              slotMask := BitVec.ofNat 16 l.mask, stepTicks := 0, streams := [], regions := [], sems := [], watches := []
              shape := h, timeline := [], preset := 1, recipes := [], ctrl := {}, mirrors := [], rranges := [], carveMib := 0 } : Plan).twinOf h.self))
      (m.shapeHead 16),
    fun _ => need (decide (m.peerCnt ≤ 111)) (m.shapeHead 20),
    fun _ => need (decide (m.ringCnt ≤ 2048)) (m.shapeHead 22),
    fun _ => need (m.detourCnt == 0 || m.control.expert 3) (m.shapeHead 26),
    fun _ => need (h.headsPad == roundUp h.heads h.tdeg) (m.shapeHead 32),
    fun _ => need (h.expertSlots == (if h.edeg = 0 then 0 else h.edeg * ceilDiv h.experts h.edeg)) (m.shapeHead 36),
    fun _ => need (m.zero (o + 38) 26) (m.shapeHead 38),
    fun _ => need (decide (m.shapeEnd ≤ (m.sec 4).len)) (m.shapeHead 0)]

/-- The rank list and SELF (R303, R305); a spare takes any slot of its carr (R332). -/
def Img.ranksBad (s : State) (m : Img) : Option Refuse :=
  let l := m.slice
  let ex := s.extent 0
  let ey := s.extent 1
  let ez := s.extent 2
  firstOf [
    fun _ => firstBad (fun i r => need (m.fld (m.rankPos r) 4 == r && m.fld (m.rankPos r + 4) 4 == (l.coordOf ex ey ez r).toNat)
      (shapeRef i (m.rankPos r))) 0 (List.range m.rankCnt),
    fun _ => need (decide (m.shape.self < m.rankCnt)
      && (let c := m.shape.ranks.getD m.shape.self 0; if m.spare then sameCarr c s.coord else c == s.coord)) (m.shapeHead 0)]

/-- The plane set of the first hop toward the twin (R256, R257). -/
def Img.twinPlane (s : State) (m : Img) : Nat :=
  let c := m.shape.ranks.getD m.shape.self 0
  let d := m.shape.ranks.getD m.shape.twin.toNat 0
  if cX c = cX d then 0 else if dirNeg (s.extent 0) m.slice.sx m.slice.ox (cX c) (cX d) then 2 else 1

/-- The slot of a peer entry, and the carr it must lie in. -/
def Img.peerCoord (m : Img) (e : PeerEnt) : BitVec 17 := m.shape.ranks.getD e.rank 0

/-- The neighbour carr on a plane set, from coordinate `o`. -/
def State.carrOn (s : State) (o : BitVec 17) (pl slot : Nat) : BitVec 17 :=
  let st (v e : Nat) (up : Bool) : Nat := if up then (v + 1) % max e 1 else (v + max e 1 - 1) % max e 1
  if pl = 0 then mkCoord (cX o) (cY o) (cZ o) slot
  else if pl ≤ 2 then mkCoord (st (cX o) (s.extent 0) (pl == 1)) (cY o) (cZ o) slot
  else if pl ≤ 4 then mkCoord (cX o) (st (cY o) (s.extent 1) (pl == 3)) (cZ o) slot
  else mkCoord (cX o) (cY o) (st (cZ o) (s.extent 2) (pl == 5)) slot

/-- One peer entry (R306, R309, R392): its rank, its plane set, its LIT, its reserved bytes, its answer to discovery, its PEAK. -/
def Img.peerOk (s : State) (m : Img) (i : Nat) (e : PeerEnt) : Bool :=
  let o := m.peerPos i
  let own := m.shape.ranks.getD m.shape.self 0
  let j := cSlot (m.peerCoord e)
  let ci := cSlot own
  let ports := planePorts e.plane
  let lit := ports.filter fun p => ((m.shape.lanes.getD p (0, 0)).1).getLsbD (txColour ci j)
  let u := (lit.filter fun p =>
    (s.tx p (txColour s.slot j)).st != .retired || m.lanes.contains (p, txColour s.slot j)).length
  decide (e.rank < m.rankCnt) && decide (e.plane ≤ 6) && s.carrOn own e.plane j == m.peerCoord e && m.peerCoord e != own
    && decide (1 ≤ e.lit) && e.lit == lit.length && decide (e.role.toNat < 16) && m.zero (o + 7) 1 && m.zero (o + 12) 4
    && (ports.any fun p => (s.boot.disc.get 0 p).getLsbD (rxSource s.slot j))
    && decide (e.peak * 16 * m.n ≤ 15 * u * 207430)

/-- The module at slot (i − k) mod 20 on the plane of port `p` is in the slice and lists this module as a peer on the paired plane set
with that port lit (R306): the image holds the rank list, and not the peer tables of the other images. [DESIGN CHOICE, assumption 16] -/
def State.listedBy (s : State) (m : Img) (p k : Nat) : Bool :=
  let own := m.shape.ranks.getD m.shape.self 0
  let j := (cSlot own + 20 - k) % 20
  let c := s.carrOn own (portPlane p) j
  decide (j < 16) && (p ≥ 16 || k != 0) && c != own && m.shape.ranks.contains c && Config.peerLists m.bs p k

/-- One port's row of the lane table. [DESIGN CHOICE, assumption 16] -/
def Img.laneOk (s : State) (m : Img) (p : Nat) : Bool :=
  let ci := cSlot (m.shape.ranks.getD m.shape.self 0)
  let (tx, rx) := m.shape.lanes.getD p (0, 0)
  decide (m.fld (m.lanePos p) 8 < 2 ^ 40)
  && (List.range 20).all fun c =>
    (!tx.getLsbD c
      || (decide ((ci + c) % 20 < 16) && (p ≥ 16 || c != 0)
          && (m.shape.peers.filter fun e => e.plane == portPlane p && txColour ci (cSlot (m.peerCoord e)) == c).length == 1))
    && rx.getLsbD c == s.listedBy m p c

/-! ### The cuts (R310, R311) -/

/-- Modules of one stage. -/
def Img.stageSize (m : Img) : Nat := m.shape.ddeg * m.shape.tdeg
/-- Positions of the slice in one carr. -/
def Slice.positions (l : Slice) : Nat := if l.mask = 0 then 16 else l.eX * l.eY

/-- Two modules of the slice may hold the same stage: a stage is a set of whole carrs at one value of z_rel, or a set of tensor
groups inside one carr; with P = 1 it is the whole slice. -/
def Img.sameStage (m : Img) (a b : BitVec 17) : Bool :=
  m.shape.pdeg == 1 || (if m.slice.mask = 0 ∧ 16 ≤ m.stageSize then cZ a == cZ b else sameCarr a b)

/-- STAGE and the degrees fit the slice: whole stages fill each layer, or each carr. Where the stages are the layers of the slice one for one, consecutive ones lie one hop
apart, so they run through z_rel in one direction. [DEDUCED, assumption 96] -/
def Img.stageOk (s : State) (m : Img) : Bool :=
  let l := m.slice
  let h := m.shape
  let z := (cZ (h.ranks.getD h.self 0) + s.extent 2 - l.oz) % max (s.extent 2) 1
  h.pdeg == 1
  || (if l.mask = 0 ∧ 16 ≤ m.stageSize then
        m.stageSize % 16 == 0 && decide (m.stageSize ≤ 16 * l.sx * l.sy) && 16 * l.sx * l.sy % m.stageSize == 0
          && (h.pdeg != l.sz || l.sz == s.extent 2 || h.stage == z || h.stage + z + 1 == l.sz)
      else decide (1 ≤ m.stageSize) && l.positions % m.stageSize == 0)

/-- Expert groups: E positions of a pattern of Table 12.1, inside one stage. [DEDUCED, assumption 96] -/
def Img.expertsOk (m : Img) : Bool :=
  m.shape.edeg == 0 || (decide (m.shape.edeg ≤ m.slice.positions) && m.stageSize % m.shape.edeg == 0)

/-- The module behind `b` may stand next to this one on a ring of L members: in the same stage, and at the same tensor position (L = D)
or the same expert position (L = D·T ÷ E). A pattern of k positions holds the slots of each residue modulo k once. [DEDUCED, assumption 96] -/
def Img.ringMate (m : Img) (l : Nat) (b : BitVec 17) : Bool :=
  let h := m.shape
  let own := h.ranks.getD h.self 0
  m.sameStage own b
  && ((l == h.ddeg && cSlot own % max h.tdeg 1 == cSlot b % max h.tdeg 1)
      || (decide (0 < h.edeg) && l * h.edeg == m.stageSize && cSlot own % h.edeg == cSlot b % h.edeg))

/-- A peer of this module's tensor group has every inner lane lit. [DEDUCED, assumption 96] -/
def Img.tensorPeerOk (m : Img) (e : PeerEnt) : Bool :=
  let t := max m.shape.tdeg 1
  !(e.plane == 0 && cSlot (m.peerCoord e) / t == cSlot (m.shape.ranks.getD m.shape.self 0) / t) || e.lit == 16

/-- Every other module of this one's tensor group is a peer on the inner planes. [DEDUCED, assumption 96] -/
def Img.tensorMates (s : State) (m : Img) : Bool :=
  let t := max m.shape.tdeg 1
  let own := m.shape.ranks.getD m.shape.self 0
  (List.range t).all fun i =>
    let c := s.carrOn own 0 (cSlot own / t * t + i)
    c == own || m.shape.peers.any fun e => e.plane == 0 && m.peerCoord e == c

/-- An endpoint of this partition in the slice. -/
def Img.memberEp (m : Img) (e : Word) : Bool := e.toNat % 4 == m.q && decide (e.toNat / 4 < m.rankCnt)

/-- One ring table entry (R277, R310, R311, R318, Table 11.1). [DEDUCED, assumption 34] -/
def Img.ringOk (m : Img) (i : Nat) (r : RingEnt) : Bool :=
  let o := m.ringPos i
  let h := m.shape
  let own := 4 * h.self + m.q
  decide (r.index ≤ 2047) && (i == 0 || decide ((m.ringAt (i - 1)).index < r.index)) && decide (m.fld (o + 2) 1 ≤ 1)
  && (if r.isTree then
        decide (m.fld (o + 3) 1 < 2) && decide (r.l ≤ 8) && (r.pred == 0xFFFFFFFF || m.memberEp r.pred) && (r.pred != 0xFFFFFFFF || r.psem == 0)
          && m.zero (o + 12) 20 && (List.range r.l).all fun k => m.memberEp (BitVec.ofNat 32 (m.fld (o + 32 + 8 * k) 4)) && m.zero (o + 38 + 8 * k) 2
      else
        m.zero (o + 3) 1 && inRange r.l 1 49152 && decide (r.pos < r.l) && m.memberEp r.pred && m.memberEp r.succ
          && (r.l != 1 || (r.pred.toNat == own && r.succ.toNat == own))
          && (r.l == 1 || (r.pred.toNat != own && r.succ.toNat != own)) && (r.l == 2 || (r.l == 1) == (r.pred == r.succ))
          && (r.l != 2 || r.pred == r.succ)
          && (r.l == h.ddeg || (decide (0 < h.edeg) && r.l * h.edeg == m.stageSize))
          && m.ringMate r.l (h.ranks.getD (r.pred.toNat / 4) 0) && m.ringMate r.l (h.ranks.getD (r.succ.toNat / 4) 0)
          && (h.flags.getLsbD 0 || r.twin.toNat == 4 * h.twin.toNat + m.q)
          && m.zero (o + 20) 12 && m.zero (o + 56) 40)

/-- One chain entry (R270): the next module stands in the same row or column of the slice, and is not this one. -/
def Img.chainOk (m : Img) (i : Nat) (c : ChainEnt) : Bool :=
  let o := m.chainPos i
  let own := m.shape.ranks.getD m.shape.self 0
  let d : BitVec 17 := BitVec.ofNat 17 c.next.toNat
  decide (m.fld (o + 2) 1 < 4) && m.zero (o + 3) 1 && m.zero (o + 10) 6
    && ((List.range i).all fun k => (m.chainAt k).index != c.index)
    && (c.next == 0xFFFFFFFF
        || (decide (c.next.toNat < 2 ^ 17) && d != own && m.shape.ranks.contains d && cZ d == cZ own
            && (if c.column then gridX d == gridX own else gridY d == gridY own)))

def Img.detourOk (m : Img) (e : DetourEnt) : Bool :=
  decide (e.rank < m.rankCnt) && decide (e.plane ≤ 6) && e.mates.all fun b => b == 0xFF || decide (b.toNat < 20)

/-- An instruction that names a ring, a tree or a chain of SHAPE, or the barrier semaphore (R469, R295). -/
def Img.shapeUse (m : Img) (op : Op) (f : Fields) : Bool :=
  let i := f.immF 0 16
  match op with
  | .rring => m.shape.rings.any fun r => r.index == i && !r.isTree
  | .rnorm => i == 0xFFFF || m.shape.rings.any fun r => r.index == i && r.isTree
  | .put => f.modF 3 4 == 0 || m.shape.chains.any fun c => c.index.toNat == f.immF 0 20 && c.column == (f.modF 3 4 == 2)
  | .commit =>
    match m.shape.rings.find? fun r => r.barrier with
    | none => false
    | some t => m.semDecls.any fun d => d.index == i && d.remote && decide (d.incr = (t.children.length : Int) + if t.pred = 0xFFFFFFFF then 0 else 1)
  | _ => true

/-- A peer entry of ROLE twin on the plane set of the route's first hop, at the module where that hop lands (R256, R318). -/
def Img.twinPeer (s : State) (m : Img) (e : PeerEnt) : Bool :=
  let h := m.shape
  e.role.getLsbD 3 && e.plane == m.twinPlane s
    && m.peerCoord e == s.carrOn (h.ranks.getD h.self 0) (m.twinPlane s) (cSlot (h.ranks.getD h.twin.toNat 0))

/-- What a rule asks of the images of the other modules, which this one does not hold; nothing where `m` names no other module
there. [DESIGN CHOICE, assumption 16] -/
def Img.proved (m : Img) (rule : Nat) (asked : Bool) (r : Refuse) : Option Refuse := need (!asked || Config.loaderProves rule m.bs) r

def check8 (s : State) (m : Img) : Option Refuse :=
  let h := m.shape
  let peersAt (r : RingEnt) : Bool := if r.isTree then r.barrier && (0 < r.l || r.pred != 0xFFFFFFFF) else decide (1 < r.l)
  firstOf [
    fun _ => need (decide (s.boot.brd.toNat < 5)) (m.shapeHead 0),
    fun _ => need (m.slice.ok (s.extent 0) (s.extent 1) (s.extent 2)) (hdr (if m.slice.mask = 0 then 0x50 else 0x58) 8),
    fun _ => m.degreesBad,
    fun _ => m.ranksBad s,
    fun _ => need (m.stageOk s) (m.shapeHead 14),
    fun _ => need m.expertsOk (m.shapeHead 12),
    fun _ => firstBad (fun i e => need (m.peerOk s i e && m.tensorPeerOk e) (shapeRef i (m.peerPos i))) 0 h.peers,
    fun _ => need (m.tensorMates s) (m.shapeHead 11),
    fun _ => firstBad (fun i p => need (m.laneOk s p) (shapeRef i (m.lanePos p))) 0 (List.range 32),
    fun _ => firstBad (fun i r => need (m.ringOk i r) (shapeRef i (m.ringPos i))) 0 h.rings,
    fun _ => need ((h.rings.filter fun r => r.barrier).length == 1) (m.shapeHead 22),
    fun _ => need (m.fld 0x5A 2 == ((h.rings.filter fun r => !r.isTree).foldl (fun n r => max n r.l) 0)) (hdr 0x5A 8),
    fun _ => firstBad (fun i c => need (m.chainOk i c) (shapeRef i (m.chainPos i))) 0 h.chains,
    fun _ => firstBad (fun i e => need (m.detourOk e) (shapeRef i (m.detourPos i))) 0 h.detours,
    fun _ => need (h.flags.getLsbD 0 || h.peers.any (m.twinPeer s)) (m.shapeHead 16),
    fun _ => m.codes.findSome? fun c => firstBad (fun i x => match x with
      | some (op, f) => need (m.shapeUse op f) (c.bad i 8)
      | none => none) 0 c.ins,
    fun _ => m.proved 270 (!h.chains.isEmpty) (m.shapeHead 24),
    fun _ => m.proved 280 (h.rings.any fun r => !r.isTree && peersAt r) (m.shapeHead 22),
    fun _ => m.proved 295 (h.rings.any fun r => r.isTree && peersAt r) (m.shapeHead 22)]

/-! ## Check 0x09: timeline (R37-R39, R60) -/

def Img.phaseRef (m : Img) (i : Nat) : Refuse := { reason := 9, sect := 5, item := i, off := m.phasePos i }

/-- The partition's OP table holds the point (R38, R360). -/
def Img.opThere (s : State) (m : Img) (op : Nat) : Bool :=
  if m.n = 1 then !m.control.expert 1 || bitAt (m.control.optab.getD op 0).toNat 8 else s.opValid op

def Img.phaseOk (s : State) (m : Img) (i : Nat) (t : PhaseEnt) : Bool :=
  let o := m.phasePos i
  let prev := m.phaseAt (i - 1)
  inRange t.tag.toNat 1 0xFFFE && ((List.range i).all fun k => (m.phaseAt k).tag != t.tag)
    && decide (t.op ≤ 7) && decide (t.kind ≤ 5) && inRange t.capW 300 1500 && m.zero (o + 16) 16
    && t.start == (if i = 0 then 0 else prev.start + prev.len)
    && (i + 1 != m.phaseCnt || t.start + t.len == m.stepTicks)
    && m.opThere s t.op && (t.op != 7 || decide (t.capW ≤ 1200))

/-- Photonic engines with a lane that the image lights. -/
def Img.litEngines (m : Img) : List Nat :=
  (List.range 8).filter fun e => (List.range 4).any fun k =>
    let x := m.shape.lanes.getD (4 * e + k) (0, 0)
    x.1 != 0 || x.2 != 0

/-- Ticks from the start of phase `i` while QUIET bit `e` stays set, round the step at most once. -/
def quietRun (tl : List PhaseEnt) (e : Nat) : Nat → Nat → Nat
  | _, 0 => 0
  | i, n + 1 =>
    let t := tl.getD (i % max tl.length 1) ⟨0, 0, 0, 0, 0, 0, 0⟩
    if t.quiet.getLsbD e then t.len + quietRun tl e (i + 1) n else 0

/-- Indices of the phases that open a quiet window of engine `e` (R39). -/
def quietStarts (tl : List PhaseEnt) (e : Nat) : List Nat :=
  let n := tl.length
  let q (i : Nat) : Bool := (tl.getD (i % max n 1) ⟨0, 0, 0, 0, 0, 0, 0⟩).quiet.getLsbD e
  (List.range n).filter fun i => q i && !q (i + n - 1) && decide (4688 ≤ quietRun tl e i n)

/-- The phase that opens engine `e`'s first late quiet window; 0 where it has none. -/
def lateWindow (tl : List PhaseEnt) (step e : Nat) : Option Nat :=
  if tl.all fun t => t.quiet.getLsbD e then none
  else
    let l := quietStarts tl e
    let at_ (i : Nat) : Nat := (tl.getD i ⟨0, 0, 0, 0, 0, 0, 0⟩).start
    match l.getLast? with
    | none => some 0
    | some z =>
      ((l.zip (z :: l)).find? fun x => decide (156250000 < (if x.2 < x.1 then at_ x.1 - at_ x.2 else at_ x.1 + step - at_ x.2))).map fun x => x.1

/-- The tags of a stream's path follow PLAN_START; the first tag stands at instruction 0 alone (R45, R60), off the path too (`check9`). -/
def tagsOk (m : Img) : Option Nat → List Visit → Option Nat
  | _, [] => none
  | prev, v :: r =>
    if v.op = Op.phase then
      match m.timeline.find? fun t => t.tag.toNat == v.f.immF 0 16 with
      | none => some v.idx
      | some t =>
        if (match prev with | none => t.start == 0 && some t == m.timeline.head? | some p => decide (p ≤ t.start) && some t != m.timeline.head?) then
          tagsOk m (some t.start) r
        else some v.idx
    else tagsOk m prev r

def check9 (s : State) (m : Img) : Option Refuse := firstOf [
  fun _ => need (inRange m.phaseCnt 1 65534 && m.zero ((m.sec 5).off + 2) 14 && (m.sec 5).len == 16 + 32 * m.phaseCnt) (m.head 9 5 0),
  fun _ => firstBad (fun i t => need (m.phaseOk s i t) (m.phaseRef i)) 0 m.timeline,
  fun _ => m.litEngines.findSome? fun e => (lateWindow m.timeline m.stepTicks e).map m.phaseRef,
  fun _ => m.codes.findSome? fun c => firstBad (fun i x => match x with
    | some (.phase, f) => need ((m.timeline.any fun t => t.tag.toNat == f.immF 0 16)
        && (i == 0 || (m.timeline.head?.map fun t => t.tag.toNat) != some (f.immF 0 16))) (c.bad i 9)
    | _ => none) 0 c.ins,
  fun _ => m.visits.findSome? fun x => (tagsOk m none x.2).map fun i => x.1.bad i 9]

/-! ## Check 0x0A: numerics (R104, R108-R111, R153) -/

/-- The formats of Table 4.6 for each kind. -/
def kindFormats (k : Nat) : List Nat :=
  match k with
  | 1 => [5, 6, 2, 1, 7, 9]
  | 2 => [5, 6, 2, 1]
  | 3 => [5, 6, 2, 1]
  | 4 => [11, 12]
  | 5 => [0]
  | 6 => [0, 2]
  | 7 => [0]
  | 8 => [5]
  | 9 => [0, 1, 2, 3, 4, 5, 6, 7, 8, 9, 10, 13]
  | _ => []

/-- The legal scale offsets of R95. -/
def sofsOk (fmt : Nat) (x : Int) : Bool :=
  if fmt = 5 then decide (-8 ≤ x) && decide (x ≤ -4)
  else if fmt = 6 then decide (-15 ≤ x) && decide (x ≤ -11)
  else if fmt = 7 then decide (-2 ≤ x) && decide (x ≤ 0)
  else decide (x = 0)

def auxOk (k aux : Nat) : Bool := if k = 8 then aux == 2 || aux == 1 || aux == 0 || aux == 5 else aux == 0

def Img.recipeOk (m : Img) (i : Nat) (r : Recipe) : Bool :=
  (kindFormats r.kind).contains r.fmt.toNat && sofsOk r.fmt.toNat r.sofs && auxOk r.kind r.aux.toNat && m.zero (m.recipePos i + 4) 12

/-- Formats of the preset's recipe for a kind (Table 4.6, R109). -/
def presetFmt (preset k : Nat) : List Nat :=
  match k with
  | 1 | 2 => if preset = 3 then [2] else [5]
  | 3 => if preset = 3 then [2] else [6]
  | 4 => [12]
  | 5 | 6 | 7 => [0]
  | 8 => [5, 2]
  | 9 => kindFormats 9
  | _ => []

/-- A tensor descriptor's recipe index and TID (R110, R111, R153). -/
def Img.tdescRecipe (m : Img) (d : BitVec 256) : Bool :=
  let r := dF d 18 1
  let f := dF d 6 1
  let tid := dF d 20 2
  decide (tid < 4096 / m.n)
  && (r == 0xFF
      || (inRange r 1 9 && (presetFmt m.preset r).contains f)
      || (decide (0x10 ≤ r) && match m.recipes[r - 0x10]? with
          | some e => f == e.fmt.toNat || (e.kind == 8 && f == e.aux.toNat)
          | none => false))

/-- The tensor descriptors that a stream loads: their constant indices and their words. -/
def Code.tdescs (c : Code) (konst : Nat → Nat) : List (Nat × BitVec 256) :=
  c.ins.filterMap fun x => match x with
    | some (.setr, f) => if isT f.d then some (f.immF 0 24, BitVec.ofNat 256 (konst (f.immF 0 24))) else none
    | _ => none

/-- A tensor descriptor names a recipe of kind 8. -/
def Img.kind8 (m : Img) (d : BitVec 256) : Bool :=
  let r := dF d 18 1
  r == 8 || (decide (0x10 ≤ r) && r != 0xFF && (m.recipes[r - 0x10]?.any fun e => e.kind == 8))

/-- R111: the kind 8 descriptor of a PUT's S1 is on the sending side and carries FMT, which is 0x05. `ld` holds the constant that each
t register was last loaded from. -/
def Img.sentBad (m : Img) (c : Code) : List (Byte × Nat) → List Visit → Option Refuse
  | _, [] => none
  | ld, v :: r =>
    if v.op = Op.setr then m.sentBad c ((v.f.d, v.f.immF 0 24) :: ld) r
    else if v.op = Op.put then
      let d := v.eng.tVal (specIdx v.f.s1)
      if m.kind8 d && dF d 6 1 != 5 then some (c.badConst (((ld.find? fun x => x.1 == v.f.s1).map fun x => x.2).getD 0) 10) else m.sentBad c ld r
    else m.sentBad c ld r

def checkA (m : Img) : Option Refuse :=
  let o := (m.sec 6).off
  firstOf [
    fun _ => need (inRange m.preset 1 3) (m.head 10 6 0),
    fun _ => need (decide (m.recipeCnt ≤ 239) && (m.control.expert 5 || m.recipeCnt == 0) && decide (16 + 16 * m.recipeCnt ≤ (m.sec 6).len)) (m.head 10 6 1),
    fun _ => need (m.zero (o + 2) 14) (m.head 10 6 2),
    fun _ => firstBad (fun i r => need (m.recipeOk i r) { reason := 10, sect := 6, item := i, off := m.recipePos i }) 0 m.recipes,
    fun _ => m.codes.findSome? fun c => (c.tdescs (m.constWord c.d)).findSome? fun x => need (m.tdescRecipe x.2) (c.badConst x.1 10),
    fun _ => m.visits.findSome? fun x => m.sentBad x.1 [] x.2,
    fun _ => if 256 < m.fld 0x5A 2 then firstOf [
        fun _ => firstBad (fun i (r : Recipe) => need (!(r.kind == 4 && r.fmt == 11)) { reason := 10, sect := 6, item := i, off := m.recipePos i }) 0 m.recipes,
        fun _ => m.codes.findSome? fun c => (c.tdescs (m.constWord c.d)).findSome? fun x => need (dF x.2 6 1 != 11) (c.badConst x.1 10)]
      else none]

/-! ## All ten (R32) -/

/-- The checks of Table 2.4 in the order of their codes. [DESIGN CHOICE, assumption 16; DEDUCED, assumption 33] -/
def checkImage (s : State) (key : Option TKey) (m : Img) : Option Refuse := firstOf [
  fun _ => check1 key m, fun _ => check2 m, fun _ => check3 m, fun _ => check4 s m, fun _ => check5 s m,
  fun _ => check6 m, fun _ => check7 m, fun _ => check8 s m, fun _ => check9 s m, fun _ => checkA m]

end Sys2Proof.Machine
end

