-- ==== Sys2Proof/Machine/Mailbox.lean ====
section
/-!
DEFINITION. Machine/Mailbox.lean: how a request reaches firmware and how it is answered (R420-R423), over BAR4 or MCTP.
-/

namespace Sys2Proof.Machine

/-- The function that a request counts as coming from; MCTP counts as PF0 (R432). -/
def reqFn (r : Req) : Nat :=
  match r.via with
  | .mailbox f => f.val
  | .mctp _ => 0

/-- The 16-byte header of Table 17.3 and the payload. -/
def Msg.bytes (m : Msg) : List Byte :=
  a2 m.opcode.toNat ++ a2 m.payload.length ++ leBytes 4 m.tag.toNat ++ [m.part, m.status] ++ leBytes 6 0 ++ m.payload

/-- Firmware's reply in function `f`'s buffer: BUSY clears, RESP sets, MSI-X vector 0 (R421); with the link down it waits (R419). -/
def State.deliver (s : State) (f : Nat) (m : Msg) : State :=
  if s.host.linkUp then
    s.modFn f fun x => { x with reply := some m, busy := false, resp := true, linkwait := false, msix0 := x.msix0 + 1 }
  else s.modFn f fun x => { x with reply := some m, busy := true, linkwait := true }

/-- Answer a request of opcode `op`. -/
def State.respond (s : State) (r : Req) (op status : Nat) (payload : List Byte) : State :=
  let m : Msg := ⟨BitVec.ofNat 16 op, r.tag, r.part, BitVec.ofNat 8 status, payload⟩
  match r.via with
  | .mailbox f => s.deliver f m
  | .mctp b => s.mctpSend b 0x7E m.bytes

/-- Who may send a request (Table 17.5). -/
inductive Perm where
  /-- the VF of PART, or PF0 -/
  | vf
  /-- PF0 alone -/
  | pf
  /-- any function -/
  | any
deriving DecidableEq, Repr

/-- The status of a request that its sender may not send, or that names no partition. [DEDUCED, assumption 59] -/
def State.turnedAway (s : State) (r : Req) (p : Perm) (mctp : Bool) : Option Nat :=
  let f := reqFn r
  if 0 < f ∧ s.partCnt ≤ f - 1 then some 6
  else if (match r.via with | .mctp _ => !mctp | .mailbox _ => false) then some 2
  else match p with
    | .pf => if f = 0 then none else some 2
    | .vf => if 0 < f ∧ r.part.toNat + 1 ≠ f then some 2 else if s.partCnt ≤ r.part.toNat then some 3 else none
    | .any => none

/-- A denied request is counted and logged (R423, R444). -/
def State.denied (s : State) (f op : Nat) : State :=
  (s.modFn f fun x => { x with denied := satInc x.denied 1 }).log 0xA30 0 (a4 f ++ a4 op)

/-- The standby rail is up: AUX12 is present, or VIN stands above the power-fail level (R353). -/
def State.standbyUp (s : State) : Bool := s.power.auxok || Nat.ble 3401 s.power.vin.toNat

/-- REFCLK_OUT repeats REFCLK_IN from the standby rail, in every reset and bring-up state (R454). -/
def State.refclkOut (s : State) : Bool := s.clk.refIn && s.standbyUp

/-- The endpoint's 7-bit address on the management bus (R431, Table 18.2). -/
def State.i2cAddress (s : State) : BitVec 7 := 0x30 + s.boot.pos.setWidth 7

/-- MODCTL_STAGE. -/
def State.stageWord (s : State) : Nat :=
  let b := s.boot
  let ms := b.elapsed + if b.stage < 8 then (s.clk.tick - b.since).toNat / 156250 else 0
  b.stage + (if b.failed then 16 else 0) + (if b.warm then 32 else 0) + 256 * b.cause.toNat + 65536 * min 0x1FFF ms

/-- A binding is open: PCIe with its link, I2C with the standby rail (R419, R431). -/
def State.bindOpen (s : State) : Binding → Bool
  | .pcie _ => s.host.linkUp
  | .i2c => s.standbyUp

/-- The way of a request is open. -/
def State.wayOpen (s : State) (r : Req) : Bool :=
  match r.via with
  | .mailbox _ => s.host.linkUp
  | .mctp b => s.bindOpen b

/-- A request: a DOORBELL while BUSY sets OVERRUN alone (R421); otherwise firmware takes it. Nothing comes over a link that is down.
[DEDUCED, assumption 59] -/
def State.request (s : State) (r : Req) (op : Nat) (p : Perm) (mctp : Bool) (go : State → State) : State :=
  if !s.wayOpen r then s
  else
    let busy := match r.via with
      | .mailbox f => (s.fn f).busy
      | .mctp _ => false
    if busy then s.modFn (reqFn r) fun x => { x with overrun := true }
    else match s.turnedAway r p mctp with
      | some 2 => (s.denied (reqFn r) op).respond r op 2 []
      | some st => s.respond r op st []
      | none => go s

/-- A request of a partition, whose reply depends on its state (Table 17.12). -/
inductive PartState where
  | noPlan | loading | idle | running | stopping
deriving DecidableEq, Repr

def Partn.state (p : Partn) : PartState :=
  if p.loading.isSome then .loading
  else if p.plan.isNone then .noPlan
  else match p.stat with
    | .idle => .idle
    | .pending | .running => .running
    | .stopping => .stopping

/-- The module serves jobs: it is ready (R388). -/
def State.isReady (s : State) : Bool := decide (8 ≤ s.boot.stage) && !s.boot.failed

/-- MAILBOX_UNKNOWN_OPCODE (R422, Table 17.4). -/
def execMailboxUnknownOpcode (r : Req) (op : BitVec 16) (s : State) : Out :=
  .next (s.request r op.toNat .any true fun s => s.respond r op.toNat 5 [])

/-- REPLY_HEADER_READ (R421): reading the reply's header clears RESP. -/
def execReplyHeaderRead (fn : Fn) (s : State) : Out := .next (s.modFn fn fun x => { x with resp := false })

end Sys2Proof.Machine
end

