-- ==== Sys2Proof/Machine/Loader.lean ====
section
/-!
DEFINITION. Machine/Loader.lean: LOAD and LOAD_DONE: what a LOADED reply leaves in the module (R32-R34, R43, R44, R166, R186, R187,
R252, R317, R465, R467), and what a refusal leaves (R33).
-/

namespace Sys2Proof.Machine

/-! ## The image (R32) -/

/-- The image of a load as it stands in DRAM. -/
def State.image (s : State) (q : Nat) (j : LoadJob) (spare : Bool) : Img :=
  { bs := s.readBytes j.addr j.len, q := q, n := s.partCnt, addr := j.addr, len := j.len, spare := spare, engs := j.engs, lanes := j.lanes }

/-- The carve-out in MiB (R166). -/
def Img.carve (m : Img) : Nat :=
  if m.control.host 5 then m.carveDeclared
  else
    let top := peatLo m.n (m.q + 1)
    let used := (m.regions.filter Region.inPeat).foldl (fun n r => max n (r.base + r.len)) (peatLo m.n m.q)
    min (512 / m.n) ((top - used) / mib)

/-- The streams in their places (R44). -/
def Img.streamInfos (m : Img) : List StreamInfo :=
  let l := m.placed.getD []
  m.dir.mapIdx fun i d =>
    { eng := d.eng, insnAt := l.getD (2 * i) 0, insnCnt := d.insnCnt, constAt := l.getD (2 * i + 1) 0, constCnt := d.constCnt
      imgInsn := d.insn, imgConst := d.konst }

/-- Every mirror UPD of the streams: its engine and the address of D's elements (R336). [DEDUCED, assumption 50] -/
def Img.mirrors (m : Img) : List (Nat × Nat) :=
  m.visits.flatMap fun x => (x.2.filter fun v => v.op == .upd).flatMap fun v =>
    let e := v.eng.aVal (dF (v.eng.tVal (specIdx v.f.d % 16)) 16 1 % 16)
    (v.eng.eaAll e).filterMap fun a =>
      if m.regions.any fun r => r.use == 0x21 && decide (r.base ≤ a.toNat) && decide (a.toNat < r.base + r.len) then some (x.1.d.eng, a.toNat) else none

/-- Ring, first block and blocks of every reduce pass (R279). -/
def Img.ranges (m : Img) : List (Nat × Nat × Nat) :=
  (m.visits.flatMap fun x => x.1.ringUses x.2).filterMap fun u => if u.reduce then some (u.ring, u.first, u.n) else none

/-- A sluice rate that CONTROL names above the register's value gives way to it (R172). -/
def lowerRate (named reg : Nat) : Nat := if named = 0xFFFF then named else min named reg

def Img.plan (m : Img) (s : State) (keyId : Dword) : Plan :=
  let l := m.slice
  let c := m.control
  { imgAt := m.addr, imgLen := m.len, imgHash := sub m.bs 0x20 48, jobId := BitVec.ofNat 64 (m.fld 0x10 8), keyId := keyId
    origin := (l.ox, l.oy, l.oz), spans := (l.sx, l.sy, l.sz), slotMask := BitVec.ofNat 16 l.mask
    stepTicks := m.stepTicks, streams := m.streamInfos, regions := m.regions, sems := m.semDecls, watches := m.watchDecls
    shape := m.shape, timeline := m.timeline, preset := m.preset, recipes := m.recipes
    ctrl := { c with drate := lowerRate c.drate (s.mem.drate.get (256 / m.n) m.q), prate := lowerRate c.prate (s.mem.prate.get (256 / m.n) m.q) }
    mirrors := m.mirrors, rranges := m.ranges, carveMib := m.carve }

/-! ## What a LOADED reply leaves -/

/-- Peat regions read zero but for their initial contents; DRAM regions keep what they hold (R465). -/
def State.fillRegion (s : State) (m : Img) (r : Region) : State :=
  let s1 := if r.inPeat then s.zeroSpan r.base (r.base + r.len) else s
  if r.initLen = 0 then s1 else s1.store m.q 0 r.base (sub m.bs r.initOfs r.initLen)

/-- The streams' arrays and tables are copied to their places (R44). -/
def State.copyStreams (s : State) (m : Img) : State :=
  m.streamInfos.foldl (fun s x =>
    (s.setRaw x.insnAt (sub m.bs x.imgInsn (16 * x.insnCnt))).setRaw x.constAt (sub m.bs x.imgConst (32 * x.constCnt))) s

/-- The partition's semaphores and watches as SEMA allocates them (R186, R188, R191). -/
def State.allocSync (s : State) (q : Nat) (p : Plan) : State :=
  let s0 := { s with sems := s.sems.drop (semIn s.partCnt q), watches := s.watches.drop (watchIn s.partCnt q) }
  let s1 := p.sems.foldl (fun (s : State) d => s.setSem d.index
    { value := BitVec.ofInt 32 d.init, init := BitVec.ofInt 22 d.init, incr := BitVec.ofInt 22 d.incr, alloc := true, remote := d.remote }) s0
  p.watches.foldl (fun (s : State) d => s.setWatch d.index { st := .idle, owner := BitVec.ofNat 8 d.eng }) s1

/-- The rank table from the rank list, at generation 0 (R252). -/
def State.rankList (s : State) (q : Nat) (l : List (BitVec 17)) : State :=
  let s0 := { s with router := { s.router with rtab := s.router.rtab.drop fun i => i / 65536 == q } }
  (List.range l.length).foldl (fun (s : State) r => s.setRankEnt q r { valid := true, coord := l.getD r 0, gen := 0 }) s0

/-- With one partition, CONTROL's module-wide fields reach the registers (R360, R361, R467). -/
def State.writeControl (s : State) (c : Control) : State :=
  let pw := c.expert 1
  let e (i : Nat) : Nat := (c.optab.getD i 0).toNat
  let s1 := { s with power := { s.power with
    profile := BitVec.ofNat 2 c.profile.toNat
    opFreq := if pw then (List.range 8).map fun i => (i, BitVec.ofNat 8 (e i)) else []
    opInvalid := if pw then (List.range 8).map fun i => (i, !bitAt (e i) 8) else []
    weights := if pw then (List.range 256).map fun j => (j, c.weights.getD j 0) else [] } }
  (List.range 16).foldl (fun (s : State) i => s.modComb i fun x =>
    if c.expert 2 then { x with driveThr := BitVec.ofNat 10 c.driveThr, marginThr := BitVec.ofNat 9 c.marginThr }
    else { x with driveThr := 0x352, marginThr := 0x064 }) s1

/-- The plan measurement of R43. -/
def Plan.measured (p : Plan) : List Byte := sha384 (p.imgHash ++ leBytes 8 p.jobId.toNat ++ leBytes 8 p.keyId.toNat)

def State.setMeas (s : State) (i : Nat) (h : List Byte) : State := { s with host := { s.host with meas := s.host.meas.set i h } }

/-- The three shares of R317, in 0.01 %. -/
def Shape.shares (h : Shape) : List Byte :=
  let of (n d : Nat) : Nat := if d = 0 then 0 else 10000 * n / d
  let full := h.pdeg * ceilDiv h.layers (max h.pdeg 1)
  a4 (of (h.headsPad - h.heads) h.headsPad) ++ a4 (of (h.expertSlots - h.experts) h.expertSlots) ++ a4 (of (full - h.layers) full)

/-- Where the rank that the image places at `d` stands now, by the rank table of chunk 0 (R332). -/
def State.nowAt (s : State) (q : Nat) (p : Plan) (d : BitVec 17) : BitVec 17 :=
  match p.shape.ranks.findIdx? fun x => x == d with
  | none => d
  | some r => if r = p.shape.self then s.coord else if (s.rankEnt q r).valid then (s.rankEnt q r).coord else d

/-- A spare takes the plan over to its own slot: ranks and chains stand where the rank tables put them, and it lights the colours of R213
from its slot to the slots that the rank's peers hold now (R320, R332). -/
def State.atSlot (s : State) (q : Nat) (p : Plan) : Plan :=
  let i := cSlot (p.shape.ranks.getD p.shape.self 0)
  let peer (pl slot : Nat) : Nat := cSlot (s.nowAt q p (s.carrOn s.coord pl slot))
  let turn (m : BitVec 20) (dst : Nat → Nat) : BitVec 20 :=
    (List.range 20).foldl (fun (a : BitVec 20) c => if m.getLsbD c then a ||| BitVec.ofNat 20 (2 ^ dst c) else a) 0
  { p with shape := { p.shape with
      ranks := p.shape.ranks.map (s.nowAt q p)
      chains := p.shape.chains.map fun (x : ChainEnt) =>
        if x.next = 0xFFFFFFFF then x else { x with next := BitVec.ofNat 32 (s.nowAt q p (BitVec.ofNat 17 x.next.toNat)).toNat }
      lanes := p.shape.lanes.mapIdx fun n x =>
        (turn x.1 fun c => txColour s.slot (peer (portPlane n) ((i + c) % 20)), turn x.2 fun c => rxSource s.slot (peer (portPlane n) (rxSource i c))) } }

/-- The plan is loaded. A spare's rank table comes with its partner stream (R332). [DESIGN CHOICE, assumption 77] -/
def State.loaded (s : State) (q : Nat) (m : Img) (keyId : Dword) : State :=
  let p := if m.spare then s.atSlot q (m.plan s keyId) else m.plan s keyId
  let s1 := (m.regions.foldl (fun s r => s.fillRegion m r) s).copyStreams m
  let s2 := s1.allocSync q p
  let s3 := if m.spare then s2 else s2.rankList q p.shape.ranks
  let s4 := s3.modPart q fun x => { x with
    plan := some p, loading := none, stat := .idle, resetTag := none, carveMib := BitVec.ofNat 10 p.carveMib, carveHost := p.ctrl.host 5 }
  let s4 := (engsOf s.partCnt q).foldl (fun s e => s.modEng e fun x => { x with retries := 0 }) s4
  let s5 := if s.partCnt = 1 then s4.writeControl p.ctrl else s4
  ((s5.setMeas (16 + q) p.measured).log 0xB23 q p.shape.shares).relight

/-- The key under which a load runs. -/
def State.keyIdOf (s : State) (q : Nat) : Dword := match (s.part q).tkey with | some k => k.ident | none => 0

/-- An answer to the function that sent LOAD, unless its mailbox was cleared since (R419). [DEDUCED, assumption 32] -/
def State.loadReply (s : State) (q : Nat) (j : LoadJob) (payload : List Byte) : State :=
  match j.fn with
  | none => s
  | some f => s.deliver f ⟨1, j.tag, BitVec.ofNat 8 q, 0, payload⟩

/-! ## LOAD (R32, R34, Table 17.12) -/

/-- LOAD: the checks begin; BADARG for an address that is not 4 KiB-aligned or an image that is not inside the partition's DRAM.
[DEDUCED, assumption 32] -/
def State.loadReq (s : State) (r : Req) (addr len : Nat) : State :=
  let q := r.part.toNat
  match (s.part q).state with
  | .loading => s.respond r 1 1 []
  | .noPlan =>
    if !s.isReady then s.respond r 1 4 []
    else if addr % 4096 ≠ 0 ∨ addr < dramLo s.partCnt q ∨ dramLo s.partCnt (q + 1) < addr + len ∨ 0x40000000 < len then s.respond r 1 3 []
    else
      let f : Option Fn := match r.via with | .mailbox f => some f | .mctp _ => none
      (s.modPart q fun x => { x with loading := some { addr := addr, len := len, fn := f, tag := r.tag } }).modFn (reqFn r) fun x => { x with busy := true }
  | .idle | .running | .stopping => s.respond r 1 4 []

/-- LOAD. -/
def execLoad (r : Req) (addr len : Dword) (s : State) : Out :=
  .next (s.request r 1 .vf false fun s => s.loadReq r addr.toNat len.toNat)

/-- LOAD_DONE: LOADED with IMG_HASH, or REFUSED with the record and event 0xB20 (R32, R33). A spare's load ends in
SPARE_LOAD_DONE. [DEDUCED, assumption 32] -/
def execLoadDone (q : Part) (s : State) : Out :=
  match (s.part q).loading with
  | none => .next s
  | some j =>
    if (s.part q).spare.isSome then .next s
    else
      let (ok, s) := s.readOnward q [(j.addr, j.len)]
      let m := s.image q j false
      if !ok then .next s
      else match checkImage s (s.part q).tkey m with
      | some r =>
        let s1 := (s.modPart q fun x => { x with loading := none }).log 0xB20 q (a1 r.reason ++ a4 r.off)
        .next (s1.loadReply q j r.bytes)
      | none => .next ((s.loaded q m (s.keyIdOf q)).loadReply q j (sub m.bs 0x20 48))

end Sys2Proof.Machine
end

