-- ==== Sys2Proof/Machine/Resync.lean ====
section
/-!
DEFINITION. Machine/Resync.lean: the two streams of a resync, its journals and chunk acknowledgements (R338, R339), and the
common part of every ADMIT row (R254, R350); a WRITE that arrives.
-/

namespace Sys2Proof.Machine

/-! ## ADMIT rows (R350, Table 13.6) -/

/-- An ADMIT row of OP `op`: `go` gets the partition, the rank and the coordinate of the common part. The row needs `known` to hold
of partition and job tag (R254). [DEDUCED, assumption 79] -/
def admitRow (op : Nat) (p : Port) (c : Colour) (k : Packet) (s : State) (known : State → Nat → BitVec 16 → Bool)
    (go : Nat → Nat → BitVec 17 → State → State) : Out :=
  if fieldLE k.payload 0 1 = op then
    maintRow 6 p c k s fun s =>
      let q := fieldLE k.payload 1 1
      let tag : BitVec 16 := BitVec.ofNat 16 (fieldLE k.payload 2 2)
      if q < s.partCnt ∧ known s q tag then
        go q (fieldLE k.payload 4 4) (BitVec.ofNat 17 (fieldLE k.payload 8 4)) s
      else s.dropMaint p tag.toNat q
  else .next s

/-! ## What a stream carries (R338) -/

/-- Data bytes of one ADMIT DATA packet (Table 13.6). -/
def dataMax : Nat := 4056

/-- A part of a stream: bytes that firmware forms, a span of memory, or spans of memory that are written at one address. -/
inductive Piece where
  | lit (bs : List Byte)
  | mem (a n : Nat)
  | put (l : List (Nat × Nat)) (dst : Nat)
deriving DecidableEq, Repr

def piecesOf (l : List (Nat × Nat)) : List Piece := l.flatMap fun x => (cutSpan x.1 x.2).map fun y => .mem y.1 y.2

/-- The spans of memory that a part is read from. -/
def Piece.reads : Piece → List (Nat × Nat)
  | .lit _ => []
  | .mem a n => [(a, n)]
  | .put l _ => l

def spanSum (l : List (Nat × Nat)) : Nat := l.foldl (fun n x => n + x.2) 0

/-- The bytes of spans of memory, one after another. -/
def State.readSpans (s : State) (l : List (Nat × Nat)) : List Byte := l.flatMap fun x => s.readBytes x.1 x.2

/-- Store bytes over spans of memory, one after another. -/
def State.storeSpans (s : State) (q : Nat) : List (Nat × Nat) → List Byte → State
  | [], _ => s
  | x :: l, bs => (s.store q 0 x.1 (bs.take x.2)).storeSpans q l (bs.drop x.2)

/-- The spans of memory that hold bytes `o` to `o + n - 1` of the bytes of `l`. -/
def subSpans : List (Nat × Nat) → Nat → Nat → List (Nat × Nat)
  | [], _, _ => []
  | x :: l, o, n =>
    if n = 0 then []
    else if x.2 ≤ o then subSpans l (o - x.2) n
    else
      let k := min n (x.2 - o)
      (x.1 + o, k) :: subSpans l 0 (n - k)

/-- Where byte `a` stands in the bytes of `l`. -/
def spanOfs : List (Nat × Nat) → Nat → Nat
  | [], _ => 0
  | x :: l, a => if x.1 ≤ a ∧ a < x.1 + x.2 then a - x.1 else x.2 + spanOfs l a

def State.pieceBytes (s : State) : Piece → List Byte
  | .lit bs => bs
  | x => s.readSpans x.reads

def Piece.len : Piece → Nat
  | .lit bs => bs.length
  | x => spanSum x.reads

def spansOf (l : List Region) (use : Byte) : List (Nat × Nat) := (l.filter fun r => r.use == use).map fun r => (r.base, r.len)

/-- The image that a stream brought, after chunk 0. -/
def Journal.imgAt (j : Journal) : Nat := (j.spans.getD 1 (0, 0)).1
/-- Bytes of the chunks completed after chunk 0. -/
def Journal.brought (j : Journal) : Nat := spanSum (j.spans.drop 1)

/-- The partner stream that this module took from its twin at START: where the partner's image and its chunk 0 lie. -/
def State.keptImage (s : State) (q rank : Nat) : Option Journal :=
  s.host.journals.find? fun j => j.start && !j.sender && !j.mirror && !j.open_ && j.part == q && j.rank == rank && j.jobtag == s.jobtag q

/-- Where SEED and the START fields, and after them c, lie in chunk 0. -/
def zeroStart : Nat := 16 + 524288

/-- SEED and START fields of the partner, as it sent them at START; without them this partition's own, the job's being the same.
[DESIGN CHOICE, assumption 53] -/
def State.startFields (s : State) (q rank : Nat) (own : Bool) : List Byte :=
  let p := s.part q
  let mine := leBytes 8 p.seed.toNat ++ leBytes 8 p.first.toNat ++ leBytes 8 p.startTick.toNat
  match if own then none else s.keptImage q rank with
  | some j => s.readBytes ((j.spans.getD 0 (0, 0)).1 + zeroStart) 24
  | none => mine

/-- Chunk 0: the stream's chunk count, MSTEP, the rank table, SEED and the START fields, and c. [DESIGN CHOICE, assumption 53] -/
def State.chunkZero (s : State) (j : Journal) (count : Nat) : List Byte :=
  leBytes 8 count ++ leBytes 8 (s.mstep j.part).toNat ++ ((List.range 65536).flatMap fun r => leBytes 8 (entBits (s.rankEnt j.part r)))
    ++ s.startFields j.part j.rank j.start ++ leBytes 8 j.c.toNat

/-- MIRROR of the module that a mirror stream goes to, from its image; without that this plan's own. [DESIGN CHOICE, assumption 53] -/
def State.peerMirror (s : State) (pl : Plan) (j : Journal) : List (Nat × Nat) :=
  match s.keptImage j.part (epRank j.peer) with
  | some k => spansOf (Img.regions { bs := s.readBytes k.imgAt k.brought, q := j.part, n := s.partCnt }) 0x21
  | none => spansOf pl.regions 0x21

/-- The chunks of a stream in order. A stream of START carries this module's own image; the MIRROR region has nothing yet. The mirror
stream carries STATE to the places of the receiver's MIRROR. -/
def State.chunksOf (s : State) (j : Journal) : List Piece :=
  match (s.part j.part).plan with
  | none => []
  | some p =>
    if j.mirror then
      let dst := s.peerMirror p j
      let src := spansOf p.regions 0x20
      dst.flatMap fun x => (cutSpan x.1 x.2).map fun y => .put (subSpans src (spanOfs dst y.1) y.2) y.1
    else
      let rest :=
        if j.start then piecesOf [(p.imgAt, p.imgLen)]
        else (match s.keptImage j.part j.rank with
          | some k => piecesOf [(k.imgAt, k.brought)]
          | none => []) ++ piecesOf (spansOf p.regions 0x21)
            ++ (if j.held then piecesOf (spansOf p.regions 0x22) ++ piecesOf (spansOf p.regions 0x23) else [])
      Piece.lit (s.chunkZero j (1 + rest.length)) :: rest

/-! ## Journals (R339) -/

def State.modJournal (s : State) (at_ : Journal → Bool) (f : Journal → Journal) : State :=
  { s with host := { s.host with journals := s.host.journals.map fun j => if at_ j then f j else j } }

/-- The same stream at the same end. -/
def Journal.same (a b : Journal) : Bool := a.resync == b.resync && a.sender == b.sender && a.mirror == b.mirror && a.part == b.part

/-- A chunk of the partner stream, cut into ADMIT DATA packets that end with a short one (R338). [DESIGN CHOICE, assumption 53] -/
def State.sendData (s : State) (j : Journal) (k : Nat) : Nat → Nat → List Byte → State
  | 0, _, _ => s
  | n + 1, o, bs =>
    let d := bs.take dataMax
    let s1 := s.admitSend j.coord 0x06 j.part j.jobtag j.rank j.coord (leBytes 4 j.resync.toNat ++ leBytes 4 k ++ leBytes 8 o ++ d)
    if bs.length < dataMax then s1 else s1.sendData j k n (o + dataMax) (bs.drop dataMax)

/-- Bytes of the mirror stream, cut into WRITE packets on VC5 (R338). [DESIGN CHOICE, assumption 53] -/
def State.sendWrites (s : State) (j : Journal) : Nat → Nat → List Byte → State
  | 0, _, _ => s
  | n + 1, o, bs =>
    let s1 := s.inject j.part (s.packetTo j.part j.peer 0 5 o 0 (bs.take 4096))
    if bs.length ≤ 4096 then s1 else s1.sendWrites j n (o + 4096) (bs.drop 4096)

/-- Where the chunks of a partner stream lie at the spare: one after another, each from a multiple of 4 KiB. [DESIGN CHOICE, assumption 52] -/
def chunkPlace (resync : Word) (l : List Piece) (k : Nat) : Nat :=
  (l.take k).foldl (fun n x => n + roundUp x.len 4096) (4096 * Config.streamAt resync.toNat)

/-- Send chunk `k`: DATA packets of 4,056 B, the last one shorter, or the WRITE packets of the mirror stream on VC5 into the receiver's
MIRROR. [DESIGN CHOICE, assumption 52] -/
def State.sendChunk (s : State) (j : Journal) (k : Nat) : State :=
  let l := s.chunksOf j
  match l[k]? with
  | none => s
  | some x =>
    let (ok, s1) := s.readOnward j.part x.reads
    let bs := s1.pieceBytes x
    if !ok then s1
    else match x with
      | .put _ dst => s1.sendWrites j (bs.length / 4096 + 1) dst bs
      | _ => s1.sendData j k (bs.length / dataMax + 1) (chunkPlace j.resync l k) bs

/-- Both streams to a spare are complete, as this end of them knows: the rank's resync window is closed (R344). [DESIGN CHOICE, assumption 118] -/
def State.closeWindow (s : State) (q rank : Nat) : State :=
  s.modPart q fun x => { x with windows := x.windows.filter fun r => r != rank }

/-- A stream is complete: event 0x909. With the mirror stream the resync window of the rank at its spare closes (R344). -/
def State.endStream (s : State) (j : Journal) : State :=
  let s1 := (s.modJournal j.same fun x => { x with open_ := false, got := [] }).log 0x909 j.part (w4 j.resync ++ a4 j.mirror.toNat)
  if j.mirror then s1.closeWindow j.part (if j.sender then j.rank else s1.rankOf j.part) else s1

/-- A stream starts: its journal, event 0x907, and its first chunk. -/
def State.openStream (s : State) (j0 : Journal) : State :=
  let j := { j0 with chunks := (s.chunksOf j0).length }
  let s1 := { s with host := { s.host with journals := (s.host.journals.filter fun x => !j.same x) ++ [j] } }
  let s2 := s1.log 0x907 j.part (w4 j.resync ++ a4 j.mirror.toNat ++ a4 j.chunks)
  if j.chunks = 0 then s2.endStream j else s2.sendChunk j 0

/-- A resync ID that this module has not used. -/
def State.freshResync (s : State) : Word × State := (s.host.nextResync, { s with host := { s.host with nextResync := s.host.nextResync + 1 } })

/-- The mirror stream of START: it starts when the partner stream has ended and the partner's image is here (R338). -/
def State.startMirror (s : State) (q : Nat) : State :=
  match s.host.journals.find? fun j => j.start && j.sender && !j.mirror && !j.open_ && j.part == q && j.jobtag == s.jobtag q
      && !s.host.journals.any fun m => m.sender && m.mirror && m.resync == j.resync with
  | none => s
  | some j =>
    if (s.keptImage q (epRank j.peer)).isSome then s.openStream { j with mirror := true, last := 0, crcs := [], open_ := true } else s

/-- The streams that run between twins at START (R338): the partner stream, and the mirror stream when it has ended. [DEDUCED, assumption 54] -/
def State.startStreams (s : State) (q : Nat) (p : Plan) : State :=
  if p.shape.flags.getLsbD 0 then s
  else
    let s0 := { s with host := { s.host with journals := s.host.journals.filter fun j => !(j.start && j.part == q) } }
    let (i, s1) := s0.freshResync
    let t := p.shape.twin.toNat
    s1.openStream { resync := i, jobtag := jobtagOf p, rank := p.shape.self, part := q, mirror := false, sender := true, start := true
                    held := false, chunks := 0, peer := BitVec.ofNat 20 (4 * t + q), coord := (s.rankEnt q t).coord
                    c := (s.part q).epoch - 1 }

/-- The mirror stream of a rank whose partner stream this module sent: it starts at the resume (R338). -/
def State.mirrorStream (s : State) (q rank : Nat) : State :=
  match s.host.journals.find? fun j => j.sender && !j.mirror && !j.start && !j.open_ && j.part == q && j.rank == rank
      && !s.host.journals.any fun m => m.sender && m.mirror && m.resync == j.resync with
  | none => s
  | some j => s.openStream { j with mirror := true, open_ := true, last := 0, crcs := [], coord := (s.rankEnt q rank).coord }

/-! ## CHUNKACK (R339) -/

/-- The sender checks the chunk's CRC; a mismatch resends the chunk. -/
def State.chunkAck (s : State) (j : Journal) (crc : Word) : State :=
  match (s.chunksOf j)[j.last]? with
  | none => s
  | some x =>
    if crc32c (s.pieceBytes x) = crc then
      let j1 := { j with last := j.last + 1, crcs := j.crcs ++ [crc] }
      let s1 := s.modJournal j.same fun _ => j1
      if j1.last < j1.chunks then s1.sendChunk j1 j1.last
      else
        (s1.endStream j1).startMirror j1.part
    else s.sendChunk j j.last

/-- ADMIT_CHUNKACK. -/
def execAdmitChunkack (p : Port) (c : Colour) (k : Packet) (s : State) : Out :=
  admitRow 7 p c k s State.jobHere fun q _ _ s =>
    match s.host.journals.find? fun j => j.sender && j.open_ && j.part == q && j.resync.toNat == fieldLE k.payload 16 4 with
    | none => s
    | some j => if j.last = fieldLE k.payload 20 4 then s.chunkAck j (BitVec.ofNat 32 (fieldLE k.payload 24 4)) else s

/-! ## LIVE (R332) -/

/-- The steward of this carr when the module at `lost` is gone: the lowest active slot neither fenced nor quarantined. [DEDUCED, assumption 55] -/
def State.stewardNear (s : State) (lost : BitVec 17) : Option Nat :=
  (List.range 16).find? fun j => j != cSlot lost && (if j = s.slot then !s.boot.quar else s.mateHeard j)

/-- The chunks after the image are whole at a spare: firmware puts MIRROR's bytes into STATE and, where the stream carries them, the held
shard into the rank's own shard of each ring and NORM into NORM (R330, Table 13.3). [DESIGN CHOICE, assumption 53] -/
def State.placeStream (s : State) (q : Nat) (pl : Plan) (j : Journal) : State :=
  let l := j.spans.drop (1 + (cutSpan 0 pl.imgLen).length)
  let (ok, s1) := s.readOnward q l
  if !ok then s1
  else
    let bs := s1.readSpans l
    let own := spansOf pl.regions 0x20
    let rest := bs.drop (spanSum own)
    let s2 := s1.storeSpans q own (bs.take (spanSum own))
    if rest.isEmpty then s2
    else
      let held := spansOf pl.regions 0x22
      let s3 := (pl.shape.rings.filter fun r => !r.isTree).foldl (fun s r =>
        s.store q 0 r.ownBase ((rest.drop (spanOfs held r.heldBase)).take r.shardLen)) s2
      s3.storeSpans q (spansOf pl.regions 0x23) (rest.drop (spanSum held))

/-- A spare whose plan is loaded and whose partner stream is complete puts in place what the stream brought, and sends LIVE (R332,
Table 13.3). -/
def State.liveIfWhole (s : State) (q : Nat) (pl : Plan) (i : Word) : State :=
  match s.host.journals.find? fun j => !j.sender && !j.mirror && j.part == q && j.resync == i with
  | none => s
  | some j =>
    if j.chunks = 0 ∨ j.last < j.chunks then s
    else
      let s2 := s.placeStream q pl j
      match s2.stewardNear ((s2.part q).spareFrom.getD s2.coord) with
      | some k => s2.admitSend (s2.carrCoord k) 0x08 q (s2.part q).spareTag (s2.part q).spareRank s2.coord (leBytes 4 i.toNat)
      | none => s2

/-- The stream of a spare is complete; where its plan is loaded already, it is live. -/
def State.spareWhole (s : State) (q : Nat) : State :=
  match (s.part q).spare, (s.part q).loading, (s.part q).plan with
  | some x, none, some pl => s.liveIfWhole q pl x.1
  | _, _, _ => s

/-! ## DATA (R338, R254) -/

/-- The receiver's journal of a stream. Its first packet, at the start of chunk 0, names the chunk count and opens it, with event 0x907
(R339, R352). [DESIGN CHOICE, assumption 53] -/
def State.dataJournal (s : State) (q rank : Nat) (tag : BitVec 16) (coord : BitVec 17) (i : Word) (chunk : Nat) (d : List Byte) : State :=
  if s.host.journals.any fun j => !j.sender && j.open_ && j.part == q && j.resync == i then s
  else if chunk ≠ 0 then s
  else
    let t : Endpoint := match (s.part q).spare with
      | some x => x.2
      | none => BitVec.ofNat 20 (4 * rank + q)
    let j : Journal := { resync := i, jobtag := tag, rank := rank, part := q, mirror := false, sender := false, start := (s.part q).spare.isNone
                         held := false, chunks := fieldLE d 0 8, peer := t, coord := coord }
    ({ s with host := { s.host with journals := (s.host.journals.filter fun x => !j.same x) ++ [j] } }).log 0x907 q (w4 i ++ a4 0 ++ a4 j.chunks)

/-- The image of a spare has arrived: its load begins under the checks of R32 (R332). -/
def State.spareImage (s : State) (q : Nat) (j : Journal) : State :=
  let n := leNat (s.readBytes (j.imgAt + 0x18) 8)
  if (s.part q).spare.isSome ∧ (s.part q).plan.isNone ∧ (s.part q).loading.isNone ∧ 256 ≤ j.brought ∧ n ≤ j.brought then
    s.modPart q fun x => { x with loading := some { addr := j.imgAt, len := n, fn := none, tag := 0 } }
  else s

/-- Chunk 0 of a spare's stream: the twin's MSTEP, the rank table, SEED and the START fields, and c. [DESIGN CHOICE, assumption 53] -/
def State.takeZero (s : State) (q a : Nat) : State :=
  if (s.part q).spare.isSome then
    let s1 := (List.range 65536).foldl (fun (s : State) r => s.setRankEnt q r (entOf (BitVec.ofNat 64 (leNat (s.readBytes (a + 16 + 8 * r) 8))))) s
    let w (o : Nat) : Dword := BitVec.ofNat 64 (leNat (s.readBytes (a + o) 8))
    s1.modPart q fun x => { x with
      seed := w zeroStart, first := w (zeroStart + 8), startTick := w (zeroStart + 16), spareC := w (zeroStart + 24), spareTwinMstep := w 8 }
  else s

/-- CHUNKACK of chunk `k` goes back to the sender. -/
def State.sendChunkAck (s : State) (q : Nat) (j : Journal) (k : Nat) (crc : Word) : State :=
  s.admitSend (s.rankEnt q (epRank j.peer)).coord 0x07 q j.jobtag j.rank s.coord (leBytes 4 j.resync.toNat ++ leBytes 4 k ++ leBytes 4 crc.toNat)

/-- A packet of the chunk under way, kept once by its place. [DESIGN CHOICE, assumption 52] -/
def addSpan (x : Nat × Nat) (l : List (Nat × Nat)) : List (Nat × Nat) := l.filter (fun y => y.1 != x.1) ++ [x]

/-- The place and the length of the chunk whose packets are here, once its bytes are all written: it begins where `base` says, or at the
lowest packet, and its packet shorter than the others ends it. [DESIGN CHOICE, assumption 52] -/
def chunkSpan (base : Option Nat) (l : List (Nat × Nat)) : Option (Nat × Nat) :=
  let lo := base.getD (l.foldl (fun a x => min a x.1) ((l.headD (0, 0)).1))
  match l.find? fun x => decide (x.2 < dataMax) with
  | none => none
  | some e => if lo % 4096 = 0 ∧ spanSum l = e.1 + e.2 - lo then some (lo, spanSum l) else none

/-- Where the next chunk of a partner stream begins: after the last one, from a multiple of 4 KiB. -/
def Journal.nextBase (j : Journal) : Option Nat := j.spans.getLast?.map fun x => x.1 + roundUp x.2 4096

/-- The chunk is whole: CHUNKACK goes back with its CRC, and the stream ends with its last chunk (R339). A spare with its plan loaded is
then live. -/
def State.chunkWhole (s : State) (q : Nat) (j : Journal) (chunk : Nat) (x : Nat × Nat) : State :=
  let crc := crc32c (s.readBytes x.1 x.2)
  let j1 := { j with last := chunk + 1, crcs := j.crcs ++ [crc], got := [], spans := j.spans ++ [x] }
  let s1 := s.modJournal j.same fun _ => j1
  let s2 := (if chunk = 0 then s1.takeZero q x.1 else s1.spareImage q j1).sendChunkAck q j1 chunk crc
  if j1.chunks ≤ chunk + 1 then
    let s3 := if j.open_ then s2.endStream j1 else s2
    if j.start then s3.startMirror q else s3.spareWhole q
  else s2

/-- A stream whose last completed chunk is sent again: that chunk is open once more (R339). -/
def Journal.reopened (j : Journal) : Journal :=
  { j with last := j.last - 1, crcs := j.crcs.dropLast, spans := j.spans.dropLast, got := [] }

/-- A DATA packet is written straight to the partition's DRAM; one that would leave it is dropped.
[DESIGN CHOICE, assumption 52; DEDUCED, assumption 54] -/
def State.dataIn (s : State) (q rank : Nat) (tag : BitVec 16) (coord : BitVec 17) (bs : List Byte) : State :=
  let i : Word := BitVec.ofNat 32 (fieldLE bs 0 4)
  let chunk := fieldLE bs 4 4
  let o := fieldLE bs 8 8
  let d := bs.drop 16
  let s0 := s.dataJournal q rank tag coord i chunk d
  match s0.host.journals.find? fun j => !j.sender && !j.mirror && j.part == q && j.resync == i with
  | none => s0
  | some j0 =>
    let again : Bool := j0.got.isEmpty && chunk + 1 == j0.last && (j0.spans.getLast?.any fun x => decide (x.1 ≤ o) && decide (o ≤ x.1 + x.2))
    let j := if again then j0.reopened else j0
    if (j0.open_ ∨ again) ∧ dramLo s.partCnt q ≤ o ∧ o + d.length ≤ dramLo s.partCnt (q + 1) ∧ chunk = j.last then
      let j1 := { j with got := addSpan (o, d.length) j.got }
      let s1 := (s0.store q 0 o d).modJournal j.same fun _ => j1
      match chunkSpan j1.nextBase j1.got with
      | some x => s1.chunkWhole q j1 chunk x
      | none => s1
    else s0

/-- DATA needs an offer that this module has accepted, or a running twin's job for the streams of START (R254, R338). [DEDUCED, assumption 54] -/
def State.dataKnown (s : State) (id : Nat) (q : Nat) (tag : BitVec 16) : Bool :=
  match (s.part q).spare with
  | some x => x.1.toNat == id
  | none => match (s.part q).plan with
    | some p => (s.part q).runs && jobtagOf p == tag && !p.shape.flags.getLsbD 0
    | none => false

/-- ADMIT_DATA (R338). -/
def execAdmitData (p : Port) (c : Colour) (k : Packet) (s : State) : Out :=
  admitRow 6 p c k s (fun s q tag => s.dataKnown (fieldLE k.payload 16 4) q tag) fun q rank coord s =>
    s.dataIn q rank (BitVec.ofNat 16 (fieldLE k.payload 2 2)) coord (k.payload.drop 16)

/-! ## The mirror stream at its receiver (Table 13.3) -/

/-- A packet of the mirror stream is in MIRROR: the journal and event 0x907 at its first, a CHUNKACK when all bytes of its chunk are
written, event 0x909 after the last chunk. Its stream is that of the last partner stream which came here (R338, R339).
[DESIGN CHOICE, assumption 53] -/
def State.mirrorIn (s : State) (q : Nat) (pl : Plan) (a : Nat) (bs : List Byte) : State :=
  let cs := mirrorChunks pl
  match mirrorChunk pl a, s.partnerIn q with
  | some k, some d =>
    let x := cs.getD k (0, 0)
    let m : Journal := { d with mirror := true, open_ := true, chunks := cs.length, last := 0, crcs := [], got := [], spans := [] }
    let s1 := if s.host.journals.any m.same then s
      else ({ s with host := { s.host with journals := s.host.journals ++ [m] } }).log 0x907 q (w4 m.resync ++ a4 1 ++ a4 m.chunks)
    let j := (s1.host.journals.find? m.same).getD m
    let j0 := { j with got := addSpan (a, bs.length) (j.got.filter fun y => decide (x.1 ≤ y.1) && decide (y.1 < x.1 + x.2)) }
    if spanSum j0.got < x.2 then s1.modJournal m.same fun _ => j0
    else
      let crc := crc32c (s1.readBytes x.1 x.2)
      let j1 := { j0 with last := k + 1, crcs := j.crcs.take k ++ [crc], got := [] }
      let s2 := (s1.modJournal m.same fun _ => j1).sendChunkAck q j1 k crc
      if j.open_ ∧ k + 1 = cs.length then s2.endStream j1 else s2
  | _, _ => s

/-- WRITE_RECEIVE (R265, R466). An unlisted TYPE comes here too, and is dropped as malformed. -/
def execWriteReceive (p : Port) (c : Colour) (k : Packet) (s : State) : Out :=
  if k.typ = 0 ∨ 7 ≤ k.typ.toNat then
    .next (s.receive p c k fun s => s.accept p c k fun q pl s =>
      let (ok, s1) := (s.markIn q k).commitWrite p c q pl k
      if !ok then s1
      else
        let s2 := (s1.freeSlot p c k).rxCommit q k.src k.pseq
        let bs := arrivalBytes k.wfmt.toNat k.payload
        if pl.remoteOk k.addr.toNat bs.length then s2 else s2.mirrorIn q pl k.addr.toNat bs)
  else .next s


end Sys2Proof.Machine
end

