-- ==== Sys2Proof/Machine/Resume.lean ====
section
/-!
DEFINITION. Machine/Resume.lean: the named tick of a RESUME or a GO (R272, R341-R343), for the modules of the slice and for a spare.
-/

namespace Sys2Proof.Machine

/-- The index of the PHASE of the first KIND 2 entry in an engine's stream. -/
def State.updatePhase (s : State) (pl : Plan) (st : StreamInfo) : Option Nat :=
  match pl.timeline.find? fun t => t.kind == 2 with
  | none => none
  | some t => (List.range st.insnCnt).find? fun i =>
      fld (s.insnAt st i) 0 8 == 5 && fld (s.insnAt st i) 64 16 == t.tag.toNat

/-- One engine of a spare that begins at the update phase of step `step` (R330, R343). -/
def State.spareEngine (s : State) (pl : Plan) (step : Dword) (st : StreamInfo) : State :=
  match s.updatePhase pl st with
  | none => s
  | some i => s.modEng st.eng fun x =>
      let y := { x with pc := BitVec.ofNat 24 i, g := x.g.set 31 step }
      { y with ckpt := y.snap }

/-- A store that firmware makes for a Mere: what an RNORM writes. -/
def State.putRuns (s : State) (e : Nat) (l : List WriteRun) : State := l.foldl (fun s w => s.putRun e w) s

/-- Firmware has a Mere issue every local RNORM of its stream, in stream order, over the restored shard (R330, R343). The walk follows
the stream's registers, loops and jumps from instruction 0 to its HALT or its return to instruction 0. -/
def State.normWalk (e : Nat) (st : StreamInfo) : Nat → Engine → State → State
  | 0, _, s => s
  | n + 1, x, s =>
    let w := s.insnAt st x.pc.toNat
    match decodeInsn w with
    | none => s
    | some (op, f) =>
      match op with
      | .setr => s.normWalk e st n (x.load f.d (s.konst e (f.immF 0 24)))
      | .loop => s.normWalk e st n (x.openLoop (specIdx f.d) (f.immF 0 24))
      | .endl => s.normWalk e st n x.closeLoop
      | .jmp => if f.immF 0 24 = 0 then s else s.normWalk e st n { x with pc := BitVec.ofNat 24 (f.immF 0 24) }
      | .halt => s
      | .rnorm =>
        let t := x.tens f.s1
        let d := x.tens f.d
        let s1 := if isRfx t.code then
            let v := normLocal t (s.rdOf e t) (BitVec.ofNat 40 (d.bits (s.rdOf e d) 0 0 0))
            s.putRuns e [⟨d.ea, d.hint, d.host, leBytes 5 v.toNat⟩]
          else s
        s1.normWalk e st n { x with pc := x.pc + 1 }
      | _ => s.normWalk e st n { x with pc := x.pc + 1 }

/-- Instructions that one pass of a stream can execute, a bound on the walk. -/
def walkFuel : Nat := 1099511627776

def State.spareNorms (s : State) (q : Nat) (pl : Plan) (step : Dword) : State :=
  (pl.streams.filter fun st => (kindOf st.eng).code == 3).foldl (fun s st =>
    s.normWalk st.eng st walkFuel { g := (Tab.set [] 30 (s.part q).seed).set 31 step }) s

/-- The mirror that comes to the spare is as of step c (R336, R338). -/
def State.mirrorsAt (s : State) (pl : Plan) (c : Dword) : State :=
  pl.mirrors.foldl (fun s m => s.modEng m.1 fun x => { x with mirrorRec := x.mirrorRec.set m.2 c }) s

/-- The spare takes the rank up (R330, R341-R343): in a replay at instruction 0 of step c + 1, or first at the update phase of step c
when its twin's mirror was one step behind; in a roll forward at the update phase of step c + 1. An engine without that phase begins
at instruction 0 of the step after. Its twin's HREADY for step c + 1 has gone to the lost module when the twin's mirror was at c; in a
replay the spare, whose mirror comes as of c, sends its own (R290, R336). [DEDUCED, assumption 50] -/
def State.spareBegin (s : State) (q : Nat) (pl : Plan) (go : Bool) : State :=
  let c := (s.part q).spareC
  let behind := (s.part q).spareTwinMstep != c
  let step : Dword := if go then c + 1 else c
  let s1 := (s.syncReplay q fun n => decide (c.toInt < n.toInt)).modPart q fun p => { p.released with
    stat := .running, epoch := c + 1, lastCommit := c, spare := none, phase := none, arrived := false, barStage := 0
    stepTick := s.clk.tick, remoteWait := 0, censusNow := s.obs.force.getLsbD q || decide ((c + 1 - p.first).toNat < 16), censusLeft := 16
    fencedRanks := [], windows := [p.spareRank], normAtt := if go then 1 else 0
    hreadyGot := (c + 1 - p.first).toNat + if behind then 0 else 1 }
  let s2 := if go || behind then s1.spareNorms q pl step else s1
  let s3 := s2.beginEngines q pl (if go then c + 2 else c + 1)
  let s4 := if go || behind then pl.streams.foldl (fun s st => s.spareEngine pl step st) s3 else s3
  let s5 := (s4.mirrorsAt pl c).hsigsNow q
  if go then s5 else s5.sendHready q

/-! ## VACATE's end (R349) -/

/-- Board `b` (R449): active slots `s` with `s mod 4 = b` for boards 0-3, slots 16-19 for board 4. -/
def boardOf (slot : Nat) : Nat := if slot < 16 then slot % 4 else 4

/-- Ranks of partition `q` on board `b` of this carr. -/
def State.boardRanks (s : State) (q b : Nat) : List Nat :=
  match (s.part q).plan with
  | none => []
  | some p => (List.range p.shape.ranks.length).filter fun r =>
      (s.rankEnt q r).valid && sameCarr (s.rankEnt q r).coord s.coord && boardOf (cSlot (s.rankEnt q r).coord) == b

/-- The steward takes the module in slot `j` out of use: it closes every colour on which it hears it, with STATE = 3 (R242, R349).
[DESIGN CHOICE, assumption 58] -/
def State.closeMate (s : State) (j : Nat) : State :=
  allLanes.foldl (fun s x =>
    if x.1 < 16 ∧ x.2 = rxSource s.slot j ∧ ((s.rx x.1 x.2).st == .up || (s.boot.disc.get 0 x.1).getLsbD x.2) then s.closeColour 0 x.1 x.2
    else s) s

/-- The board that the host wants empty holds no rank: the steward quarantines its modules, with event 0x932 and the VACATED
notification (R349). [DESIGN CHOICE, assumption 58] -/
def State.vacateCheck (s : State) : State :=
  match s.host.vacating with
  | none => s
  | some b =>
    if (List.range s.partCnt).all fun q => (s.boardRanks q b.toNat).isEmpty then
      let s1 := ({ s with host := { s.host with vacating := none } }).log 0x932 0 (a3 (s.carrCoord 0).toNat ++ a4 b.toNat)
      let s2 := ((List.range 20).filter fun j => boardOf j == b.toNat && j != s.slot).foldl State.closeMate
        (s1.noteFn 0 0x84 0 (a3 (s.carrCoord 0).toNat ++ a1 b.toNat))
      if boardOf s.slot = b.toNat ∧ !s.boot.quar then s2.quarantine 0 else s2
    else s

/-- In a replay whose moved ranks hold this partition's twin, its held blocks wait for the HREADY of the spare. -/
def State.twinAnew (s : State) (q : Nat) (go : Bool) (moved : List Nat) : State :=
  match s.twinEp q with
  | some t => if !go && moved.contains (epRank (BitVec.ofNat 20 t.toNat)) then s.modPart q fun p => { p with hreadyGot := p.commits } else s
  | none => s

/-- RESUME_TICK (R272, R341-R343): a RESUME replays a held partition, and lets a drained one issue again; a GO rolls it forward.
The twin of a rank that moved starts its mirror stream (R338), and the steps after an admission are census steps (R156). In the hold of a
FENCE that came during a drain the tables alone take effect (R273). -/
def execResumeTick (q : Part) (s : State) : Out :=
  let p := s.part q
  let at_ := match p.resumeAt with | some t => some t | none => p.goAt
  match at_ with
  | none =>
    match p.tabAt with
    | none => .next s
    | some t =>
      let moved := p.pendingTab.map fun x => x.1
      let s1 := (s.applyTab q).modPart q fun x => { x with tabAt := none, drain := 0 }
      .next ((moved.foldl (fun s r => s.mirrorStream q r) s1).log 0x452 q (a2 (s.jobtag q).toNat ++ a8 t.toNat)).vacateCheck
  | some t =>
    let go := p.resumeAt.isNone
    let moved := p.pendingTab.map fun x => x.1
    let s1 := s.applyTab q
    let s2 := match p.plan with
      | none => s1
      | some pl =>
        if p.spare.isSome then s1.spareBegin q pl go
        else if p.runs then
          let s' := (s1.catchUp q).twinAnew q go moved
          if go then s'.rollOn q else if p.hold = Hold.none then s'.modPart q Partn.released else s'.replay q
        else s1.modPart q Partn.released
    let s3 := moved.foldl (fun s r => s.mirrorStream q r) (if moved.isEmpty then s2 else s2.modPart q fun x => { x with censusLeft := 16 })
    .next (s3.log 0x452 q (a2 (s.jobtag q).toNat ++ a8 t.toNat)).vacateCheck

end Sys2Proof.Machine
end

