-- ==== Sys2Proof/Machine/Run.lean ====
section
/-!
DEFINITION. Machine/Run.lean: requests that start, stop and unload a job, change the partition count and install tenant keys
(R30, R31, R35, R36, R42, R45, R172, R338, R400, R424, R437).
-/

namespace Sys2Proof.Machine

/-! ## START (R35, R45, R400) -/

/-- Four events of every engine under a preset (Table 16.4). -/
def presetEvents (preset : Nat) : List Nat :=
  if preset = 0 then [0, 1, 2, 3] else if preset = 1 then [4, 5, 6, 7] else [16, 17, 18, 19]

/-- The preset of partition `q` in CNT_CFG. -/
def State.presetOf (s : State) (q : Nat) : Nat := fld s.obs.preset.toNat (2 * q) 2

/-- The layout of a preset (R400): four counters for each engine in increasing flat index, then partition events 0-8. -/
def State.presetSels (s : State) (q : Nat) : List (BitVec 17) :=
  ((engsOf s.partCnt q).flatMap fun e => (presetEvents (s.presetOf q)).map fun v => selOf e v) ++ (List.range 9).map fun v => selOf 0xE0 v

/-- First counter of a partition's share (R398). -/
def ctrLo (n q : Nat) : Nat := 512 + q * (3584 / n)
def ctrIn (n q i : Nat) : Bool := decide (ctrLo n q ≤ i) && decide (i < ctrLo n (q + 1))

/-- Which selections apply to a partition's counters until its next START (R400). -/
def State.fixCounters (s : State) (q : Nat) (pl : Plan) : State :=
  let rest := s.obs.selUse.drop (ctrIn s.partCnt q)
  let new : List (Nat × BitVec 17) :=
    if pl.ctrl.expert 7 then (s.obs.sel.filter fun kv => ctrIn s.partCnt q kv.1 && kv.2.getLsbD 16).map fun kv => (kv.1, BitVec.ofNat 17 (kv.2.toNat % 65536))
    else (s.presetSels q).mapIdx fun i v => (ctrLo s.partCnt q + i, v)
  { s with obs := { s.obs with selUse := new.foldl (fun (t : Tab (BitVec 17)) kv => t.set kv.1 kv.2) rest } }

/-- The rates that CONTROL names apply from START until the partition goes idle (R172). -/
def State.lowerSluices (s : State) (q : Nat) (pl : Plan) : State :=
  let low (t : Tab Nat) (v : Nat) : Tab Nat := if pl.ctrl.expert 6 ∧ v ≠ 0xFFFF then t.set q v else t
  { s with mem := { s.mem with dlow := low s.mem.dlow pl.ctrl.drate, plow := low s.mem.plow pl.ctrl.prate } }

/-- The job begins at the first step (R45, R156, R199, R290, R338); an engine that retired during its load has no spare, and the module cannot continue (R34). Its semaphores stand as START and the signals since have left
them. [DEDUCED, assumption 92] -/
def State.beginJob (s : State) (q : Nat) (pl : Plan) : State :=
  let first := (s.part q).first
  let s1 := s.modPart q fun p => { p with
    stat := .running, epoch := first, phase := none, lateness := 0, stepTick := s.clk.tick, remoteWait := 0
    slowRun := 0, slowSum := 0, slowBreak := false, censusLeft := 16, arrived := false, barStage := 0, ownSigs := [], skipStep := none
    numDecision := none, numAnswer := none, issued := false, spareC := 0, spareTwinMstep := 0, spareFrom := none }
  let s2 := (((s1.beginEngines q pl first).censusBegin q).sendHready q).startStreams q pl
  if pl.streams.all fun st => (s.engMap st.eng).valid then s2 else s2.cannotContinue

/-- START: semaphores return to INIT, watches to idle, the epoch is the first step (R199, R424), and the partition waits for its
tick; one that has passed begins at once, with event 0xB22. [DEDUCED, assumption 92] -/
def State.startReq (s : State) (r : Req) (seed first tick : Dword) : State :=
  let q := r.part.toNat
  match (s.part q).state, (s.part q).plan with
  | .loading, _ => s.respond r 2 1 []
  | .idle, some pl =>
    let s1 := (s.syncInit q).modPart q fun p => { p with seed := seed, first := first, startTick := tick, stat := .pending, epoch := first }
    let s2 := (((s1.relight.fixCounters q pl).lowerSluices q pl).respond r 2 0 []).laneLimits
    if (s2.part q).plan.isNone then s2
    else if tick.toNat < s.now then (s2.log 0xB22 q (a4 (s.now - tick.toNat))).beginJob q pl else s2
  | _, _ => s.respond r 2 4 []

/-- START. -/
def execStart (r : Req) (seed first tick : Dword) (s : State) : Out :=
  .next (s.request r 2 .vf false fun s => s.startReq r seed first tick)

/-- START_TICK (R35, R45). [DESIGN CHOICE, assumption 3] -/
def execStartTick (q : Part) (s : State) : Out :=
  match (s.part q).plan with
  | none => .next s
  | some pl => if (s.part q).stat = .pending then .next (s.beginJob q pl) else .next s

/-! ## STOP and UNLOAD (R36, Table 17.12) -/

/-- STOP. [DEDUCED, assumption 85] -/
def State.stopReq (s : State) (r : Req) : State :=
  let q := r.part.toNat
  match (s.part q).state with
  | .loading => s.respond r 3 1 []
  | .noPlan => s.respond r 3 4 []
  | .idle => (s.respond r 3 0 []).noteStopped q 0
  | .stopping => s.respond r 3 0 []
  | .running =>
    if (s.part q).stat = .pending then (s.respond r 3 0 []).stopPart q 0
    else (s.respond r 3 0 []).modPart q fun p => { p with stat := .stopping }

/-- STOP. -/
def execStop (r : Req) (s : State) : Out := .next (s.request r 3 .vf false fun s => s.stopReq r)

/-- UNLOAD. -/
def State.unloadReq (s : State) (r : Req) : State :=
  let q := r.part.toNat
  match (s.part q).state with
  | .loading => s.respond r 4 1 []
  | .idle => (s.unloadPart q).respond r 4 0 []
  | _ => s.respond r 4 4 []

/-- UNLOAD. -/
def execUnload (r : Req) (s : State) : Out := .next (s.request r 4 .vf false fun s => s.unloadReq r)

/-! ## PARTCNT (R30, R31) -/

/-- Content of measurement 3 (Table 17.9): the partition count, ROUTE_COORD and ROUTE_EXT. -/
def State.measPlace (s : State) : State :=
  s.setMeas 3 (sha384 (a1 s.partCnt ++ leBytes 4 (s.router.cx.toNat + 8 * s.router.cy.toNat + 64 * s.router.cz.toNat) ++ leBytes 4 s.extentBits))

/-- TKEY_CLR of one partition: event 0xA11, and measurement 20 + q reads zero. -/
def State.clearKey (s : State) (q : Nat) : State :=
  if (s.part q).tkey.isSome then
    let s1 := s.modPart q fun p => { p with tkey := none }
    ({ s1 with host := { s1.host with meas := s1.host.meas.drop fun i => i == 20 + q } }).log 0xA11 q (a1 q)
  else s

/-- Partition-wide settings return to their reset values (R31). -/
def Obs.partReset (o : Obs) : Obs :=
  { o with
    ctr := o.ctr.drop fun i => decide (512 ≤ i), sel := [], selUse := [], preset := 0, trEn := 0, trN := [], trKinds := [], force := 0
    rcnt := { o.rcnt with en := false }, rtrace := { o.rtrace with en := false }, revt := { o.revt with en := false } }

/-- Sluices of R172 for `n` partitions. -/
def MemSt.shared (m : MemSt) (n : Nat) : MemSt :=
  let r : Tab Nat := (List.range n).map fun q => (q, 256 / n)
  { m with drate := r, dburst := [], prate := r, pburst := [], dlow := [], plow := [] }

/-- Everything that a new partition count does before its reply (R31). -/
def State.setCount (s : State) (n : Nat) : State :=
  let s1 := (List.range s.partCnt).foldl State.clearKey s
  let s2 := { s1 with obs := s1.obs.partReset, mem := s1.mem.shared n, partCnt := n }
  let s3 := (List.range 4).foldl (fun (s : State) q => s.modPart q fun p => { p with waitlim := 0x0002540C }) s2
  ((List.range n).foldl State.drawKey s3).measPlace

/-- PARTCNT. [DEDUCED, assumption 59] -/
def State.partcntReq (s : State) (r : Req) (n : Nat) : State :=
  if n ≠ 1 ∧ n ≠ 2 ∧ n ≠ 4 then s.respond r 5 3 []
  else if (List.range s.partCnt).any fun q => (s.part q).plan.isSome || (s.part q).loading.isSome then s.respond r 5 1 []
  else if !s.isReady then s.respond r 5 4 []
  else if n = s.partCnt then s.respond r 5 0 []
  else (s.setCount n).respond r 5 0 []

/-- PARTCNT. -/
def execPartcnt (r : Req) (n : Byte) (s : State) : Out :=
  .next (s.request r 5 .pf false fun s => s.partcntReq r n.toNat)

/-! ## Tenant keys (R42) -/

/-- TKEY_SET. -/
def State.tkeySetReq (s : State) (r : Req) (ident : Dword) (key : List Byte) : State :=
  let q := r.part.toNat
  if s.partCnt ≤ q then s.respond r 6 3 []
  else if (s.part q).plan.isSome || (s.part q).loading.isSome then s.respond r 6 4 []
  else if key.length ≠ 96 || !Config.onCurve key then s.respond r 6 3 []
  else
    let s1 := (s.modPart q fun p => { p with tkey := some ⟨ident, key⟩ }).setMeas (20 + q) (sha384 (leBytes 8 ident.toNat ++ key))
    (s1.log 0xA10 q (a1 q ++ a4 ident.toNat)).respond r 6 0 []

/-- TKEY_SET. -/
def execTkeySet (r : Req) (ident : Dword) (key : List Byte) (s : State) : Out :=
  .next (s.request r 6 .pf false fun s => s.tkeySetReq r ident key)

/-- TKEY_CLR. -/
def State.tkeyClrReq (s : State) (r : Req) : State :=
  let q := r.part.toNat
  if s.partCnt ≤ q then s.respond r 7 3 []
  else if (s.part q).plan.isSome || (s.part q).loading.isSome then s.respond r 7 4 []
  else (s.clearKey q).respond r 7 0 []

/-- TKEY_CLR. -/
def execTkeyClr (r : Req) (s : State) : Out := .next (s.request r 7 .pf false fun s => s.tkeyClrReq r)

end Sys2Proof.Machine
end

