-- ==== Sys2Proof/Machine/Recov.lean ====
section
/-!
DEFINITION. Machine/Recov.lean: a recovery from declaration to resume (R325-R333, R341, R346, R349, R350), at the coordinator, at the
partitions it holds, at a twin and at a standby; planned replacements; and the deadlines that end a host's silence (R41).
What a module addresses to itself does not travel: the coordinator takes its own report, drain and tables directly.
-/

namespace Sys2Proof.Machine

/-! ## Who leads (R327) -/

/-- This module coordinates the recovery of the module at `lost`. [DEDUCED, assumption 55] -/
def State.leads (s : State) (lost : BitVec 17) : Bool := sameCarr lost s.coord && s.stewardNear lost == some s.slot

/-- Where a declaration of the module at `lost` goes. -/
def State.leaderOf (s : State) (q : Nat) (lost : BitVec 17) : Option (BitVec 17) :=
  if sameCarr lost s.coord then (s.stewardNear lost).map s.carrCoord else s.stewardOf q lost

def State.modRecov (s : State) (q : Nat) (f : Recov → Recov) : State := s.modPart q fun p => { p with recov := p.recov.map f }

/-- Coordinates of the slice's other modules that are not lost. -/
def State.others (s : State) (q : Nat) (pl : Plan) (lost : List Nat) : List (BitVec 17) :=
  ((List.range pl.shape.ranks.length).filter fun r => r != pl.shape.self && !lost.contains r && (s.rankEnt q r).valid).map fun r =>
    (s.rankEnt q r).coord

/-- The carrs of the slice but this one, each by one coordinate. -/
def State.otherCarrs (s : State) (q : Nat) (pl : Plan) : List (BitVec 17) :=
  (s.others q pl []).foldl (fun (l : List (BitVec 17)) d =>
    if sameCarr d s.coord || l.any (fun x => sameCarr x d) then l else l ++ [d]) []

/-! ## Declaration and fence (R325, R328) -/

/-- FENCE of rank `r` with GEN `g` goes to the steward of every carr of the slice. -/
def State.sendFence (s : State) (q : Nat) (pl : Plan) (body : List Byte) : State :=
  (s.otherCarrs q pl).foldl (fun s d => match s.stewardOf q d with
    | some x => s.maint x 7 body
    | none => s) s

/-- Fence rank `r`: event 0x902, FENCE to the steward of every carr, and here. A FENCE past GEN 0xFFFF stops the job wherever it comes
(R255, R351). -/
def State.fenceRank (s : State) (q : Nat) (pl : Plan) (r : Nat) : State :=
  let e := s.rankEnt q r
  let g := e.gen + 1
  let body := a2 (jobtagOf pl).toNat ++ a1 q ++ [0] ++ leBytes 4 r ++ a2 g.toNat
  if e.gen = 0xFFFF then ((s.sendFence q pl body).relayFence q body).fenceWraps q r
  else ((s.log 0x902 q (a2 (jobtagOf pl).toNat ++ a3 r ++ a4 g.toNat)).sendFence q pl body).fence q r e g body

/-- The rank joins the recovery of its job, which begins again at its reports (R327, R351). A drain under way gives way. -/
def State.joinRecov (s : State) (q : Nat) (pl : Plan) (r : Nat) : State :=
  s.modPart q fun p =>
    let x : Recov := match p.recov with
      | some x => x
      | none => { jobtag := jobtagOf pl, lost := p.fencedRanks }
    { p with
      slowRanks := (p.slowRanks ++ x.wanted).filter fun k => k != r
      recov := some { x with
        stage := .reports, lost := if x.lost.contains r then x.lost else x.lost ++ [r], reports := [], offeredTo := none, rtacks := 0
        drained := 0, wanted := [] } }

/-- Rank `r` is one of those that the recovery of its job replaces. -/
def State.isLost (s : State) (q r : Nat) : Bool :=
  match (s.part q).recov with
  | some x => x.lost.contains r
  | none => false

/-- A declared rank joins the recovery of its job and is fenced. -/
def State.fenceLost (s : State) (q r : Nat) : State :=
  match (s.part q).plan with
  | none => s
  | some pl => (s.joinRecov q pl r).fenceRank q pl r

/-- Ranks of the module at `d`, each with its partition, are declared lost together under a cause of Table 13.2: event 0x901 names them,
and each is fenced (R325, R326, R352). -/
def State.declareLost (s : State) (d : BitVec 17) (cause : Nat) (l : List (Nat × Nat)) : State :=
  match l.filter fun x => !s.isLost x.1 x.2 && (s.rankEnt x.1 x.2).valid with
  | [] => s
  | x :: xs =>
    let l := x :: xs
    let afresh := (List.range s.partCnt).all fun q => match (s.part q).recov with
      | some y => y.lost.all fun r => (s.rankEnt q r).coord != d
      | none => true
    let s1 := s.log 0x901 x.1 (a3 d.toNat ++ a1 cause ++ l.flatMap fun y => a3 y.2)
    let s2 := if afresh then { s1 with host := { s1.host with spareFor := s1.host.spareFor.drop fun i => i == d.toNat } } else s1
    l.foldl (fun s y => s.fenceLost y.1 y.2) s2

/-- The ranks that the tables of this module place at `d`, each with its partition. -/
def State.ranksAt (s : State) (d : BitVec 17) : List (Nat × Nat) :=
  (List.range s.partCnt).flatMap fun q => match (s.part q).plan with
    | none => []
    | some pl => ((List.range pl.shape.ranks.length).filter fun r => (s.rankEnt q r).valid && (s.rankEnt q r).coord == d).map fun r => (q, r)

/-- A slow rank waits for the first commit (R346). -/
def State.planRank (s : State) (q r : Nat) : State :=
  s.modPart q fun p => if p.slowRanks.contains r then p else { p with slowRanks := p.slowRanks ++ [r] }

/-- A job already in recovery under another coordinator has that one (R327). -/
def State.otherLeader (s : State) (q : Nat) (d : BitVec 17) : Option (BitVec 17) :=
  if (s.part q).recov.isNone && (s.part q).hold != .none then
    match s.coordinator q with
    | some x => if x = s.coord ∨ x = d then none else some x
    | none => none
  else none

/-- A declaration reaches this module: it leads, or passes it on. [DEDUCED, assumption 55] -/
def State.declared (s : State) (q r cause : Nat) (d : BitVec 17) : State :=
  match (s.part q).plan with
  | none => s
  | some pl =>
    let pass (s : State) (dst : BitVec 17) : State := s.admitSend dst 0x01 q (jobtagOf pl) r d (a1 cause)
    match s.otherLeader q d with
    | some x => pass s x
    | none =>
      if s.leads d then
        if cause = 5 then
          if s.isLost q r then s else (s.log 0x901 q (a3 d.toNat ++ a1 5 ++ a3 r)).planRank q r
        else s.declareLost d cause [(q, r)]
      else match s.leaderOf q d with
        | some x => if x = s.coord then s else pass s x
        | none => s

/-- Ranks of the module at `d` are declared: together where this module leads, otherwise each to its coordinator (R326, R327). -/
def State.declaredAll (s : State) (d : BitVec 17) (cause : Nat) (l : List (Nat × Nat)) : State :=
  let here (x : Nat × Nat) : Bool := s.leads d && (s.otherLeader x.1 d).isNone
  (l.filter fun x => !here x).foldl (fun s x => s.declared x.1 x.2 cause d) (s.declareLost d cause (l.filter here))

/-- The host declares the module at `d` lost (R325 cause 6): every rank that the tables of this module place there. -/
def State.hostDeclared (s : State) (d : BitVec 17) : State := s.declaredAll d 6 (s.ranksAt d)

/-- ADMIT_DECLARE (R325); an ADMIT packet of an OP that Table 13.6 does not list is dropped with event 0x413 (R350). A host's
declaration forwarded by a module that holds no plan of the job carries JOBTAG 0 (R430). -/
def execAdmitDeclare (p : Port) (c : Colour) (k : Packet) (s : State) : Out :=
  if 9 < fieldLE k.payload 0 1 ∨ fieldLE k.payload 0 1 = 0 then
    maintRow 6 p c k s fun s =>
      (((s.modPort p fun x => { x with pdrop := satInc x.pdrop 1 }).dropInc 3).routeBit 3).log 0x413 0 (a4 k.typ.toNat ++ a1 p)
  else
    let cause := fieldLE k.payload 16 1
    admitRow 1 p c k s (fun s q tag => s.jobHere q tag || (cause == 6 && tag == 0)) fun q r d s =>
      if s.jobHere q (BitVec.ofNat 16 (fieldLE k.payload 2 2)) then s.declared q r cause d else s.hostDeclared d

/-! ## Holding and reporting (R329) -/

/-- The next instruction of engine `e` waits at its issue for something that only other engines, packets or the resume bring. -/
def State.blocked (s : State) (e : Nat) : Bool :=
  let x := s.eng e
  match s.streamOf e with
  | none => true
  | some (_, st) =>
    match decodeInsn (s.insnAt st x.pc.toNat) with
    | none => true
    | some (op, f) =>
      !(x.ckptBusy || x.hostPause || s.power.burst || s.power.throttle)
      && ((s.issuing e op f).isNone || match op with
        | .rring => !s.rringFree e f
        | .rnorm => !s.rnormFree e f
        | .upd => s.mirrorStreamOpen (s.partOf e) || s.mirrorEarly e f
        | .sadd | .ssub | .ssig | .commit => !quiet e s
        | .nwatch => !noUpd e s
        | _ => false)

/-- An engine that has stopped or waits: nothing of it can complete, and it can issue nothing. -/
def State.engHeld (s : State) (e : Nat) : Bool :=
  let x := s.eng e
  (x.run == .idle || x.run == .halted || x.run == .retired || x.run == .waiting || s.blocked e)
    && match x.inflight with
      | [] => true
      | i :: _ => i.wait != .turn

/-- The drained conditions but the commit; signals deferred to the next epoch do not count, since only the re-base takes them.
[DEDUCED, assumption 38] -/
def State.holdQuiet (s : State) (q : Nat) : Bool :=
  let p := s.part q
  p.heldQ.all (fun h => h.deferred) && !s.trafficOf (s.jobtag q)
  && p.peers.all fun kv => p.fencedRanks.contains (kv.1 / 4) || kv.2.settled

/-- Every reduce instance of the step that the plan names is complete. -/
def State.reduceDone (s : State) (q : Nat) (pl : Plan) : Bool :=
  pl.rranges.all fun x => (engsOf s.partCnt q).any fun e => (s.eng e).rinsts.any fun i =>
    i.reduce && i.done && i.ring.toNat == x.1 && i.first.toNat == x.2.1

/-- The held region holds every block of the partner's segment of each reduce pass. -/
def State.heldFull (s : State) (q : Nat) (pl : Plan) : Bool :=
  pl.rranges.all fun x => match s.ringEnt q (BitVec.ofNat 16 x.1) with
    | none => false
    | some r => (List.range x.2.2).all fun b =>
        roleOf r.l r.pos (segOf x.2.2 r.l b) != r.l - 1 || ((s.part q).heldGot.find (x.1 * 2 ^ 32 + x.2.1 + b)).isSome

/-- This partition's REPORT. -/
def State.ownReport (s : State) (q : Nat) (pl : Plan) : Report :=
  let p := s.part q
  let f (i : Nat) (b : Bool) : Nat := if b then 2 ^ i else 0
  { rank := pl.shape.self, c := p.epoch - 1, mstep := s.mstep q
    flags := BitVec.ofNat 8 (f 0 (s.reduceDone q pl) + f 1 (p.norms.any fun kv => kv.2.result.isSome) + f 2 (s.heldFull q pl)) }

/-! ## The decision (R330, R333) -/

/-- No rank of partitions `qs` of this module's tables stands in slot `j`, whose board is not being emptied. -/
def State.emptySlot (s : State) (qs : List Nat) (j : Nat) : Bool :=
  j != s.slot && s.host.vacating.all (fun b => boardOf j != b.toNat) && !s.router.rtab.any fun kv =>
    kv.2.valid && sameCarr kv.2.coord s.coord && cSlot kv.2.coord == j && qs.contains (kv.1 / 65536)

/-- The mate in slot `j` is heard, and free for any rank. -/
def State.freeMate (s : State) (j : Nat) : Bool := s.mateHeard j && s.emptySlot (List.range s.partCnt) j

/-- The standbys that could be given a rank now, as far as this module sees. [DESIGN CHOICE, assumption 56] -/
def State.standbys (s : State) : List Nat := (List.range 20).filter s.freeMate

/-- Slots that the coordinator may offer rank `r` to, in the order of R331: the slot that takes every rank of the lost module (R326); else
the host's choice, then the mates heard, then fenced slots, where a reinstated module may stand (R348). [DESIGN CHOICE, assumption 56] -/
def State.candidates (s : State) (q : Nat) (x : Recov) (r : Nat) : List Nat :=
  let order := x.hostSlot.toList ++ [16, 17, 18, 19] ++ List.range 16
  (match s.host.spareFor.find (s.rankEnt q r).coord.toNat with
    | some j => [j].filter fun j => s.mateHeard j && s.emptySlot [q] j
    | none => (order.filter s.freeMate) ++ (order.filter fun j => s.fencedSlot j && s.emptySlot (List.range s.partCnt) j)).filter fun j =>
    !x.passed.contains j && !x.accepted.any fun a => a.2 == j

/-- The twins of the lost module's ranks, by partition (Table 13.6, OFFER). -/
def State.twinsFor (s : State) (q : Nat) (r : Nat) : List Byte :=
  let d := (s.rankEnt q r).coord
  (List.range 4).flatMap fun j =>
    match (s.part j).plan, (s.part j).recov with
    | some pl, some y =>
      match y.lost.find? fun k => (j == q && k == r) || (s.rankEnt j k).coord == d with
      | some k => leBytes 4 (4 * pl.twinOf k + j)
      | none => leBytes 4 0
    | _, _ => leBytes 4 0

/-- Offer the next lost rank that has no spare yet; with none left the spares are being admitted (R331). -/
def State.offerNext (s : State) (q : Nat) : State :=
  match (s.part q).recov with
  | none => s
  | some x =>
    match x.lost.find? fun r => !x.accepted.any fun a => a.1 == r with
    | none => s.modRecov q fun x => { x with stage := .admitting, offeredTo := none }
    | some r =>
      match s.candidates q x r with
      | [] => s.modRecov q fun x => { x with stage := .offering, offeredTo := none, offerRank := r }
      | j :: _ =>
        let (i, s1) := s.freshResync
        let s2 := s1.modRecov q fun x => { x with stage := .offering, offeredTo := some j, offerRank := r, resync := i }
        s2.admitSend (s.carrCoord j) 0x03 q x.jobtag r (s.rankEnt q r).coord
          (a1 s.partCnt ++ [0, 0, 0] ++ s.twinsFor q r ++ leBytes 4 i.toNat)

def replaceTicks : Nat := 5 * ticksPerSec

/-- Details of a replacement proposal: each lost rank with its coordinate. -/
def State.lostDetails (s : State) (q : Nat) (l : List Nat) : List Byte := l.flatMap fun r => a3 r ++ a3 (s.rankEnt q r).coord.toNat

/-- The coordinator decides replay or roll forward (R330): event 0x904. A report of c − 1 speaks of step c, so it shows nothing of step
c + 1. -/
def State.decideOutcome (s : State) (q : Nat) (pl : Plan) (x : Recov) : State :=
  let c := x.reports.foldl (fun (c : Dword) r => if c.toInt < r.c.toInt then r.c else c) (x.reports.headD ⟨0, 0, 0, 0⟩).c
  let full (r : Nat) : Bool := match x.reports.find? fun y => y.rank == pl.twinOf r with
    | some y => y.c == c && y.flags.getLsbD 2
    | none => false
  let roll := (x.reports.all fun r => r.c == c && r.flags.getLsbD 0) && x.lost.all full
  let s1 := (s.modRecov q fun x => { x with c := c, rollForward := roll }).log 0x904 q
    (a2 x.jobtag.toNat ++ a8 c.toNat ++ a4 roll.toNat)
  if pl.ctrl.host 3 && x.hostSlot.isNone then
    let (d, s2) := s1.propose (.replace q) replaceTicks
    (s2.modRecov q fun x => { x with stage := .await, decision := some d }).noteFn 0 0x81 q
      (s2.proposal d 3 replaceTicks (s.lostDetails q x.lost))
  else s1.offerNext q

/-- With the last live partition's report the coordinator decides. -/
def State.decideIfAll (s : State) (q : Nat) : State :=
  match (s.part q).plan, (s.part q).recov with
  | some pl, some x =>
    if x.stage = .reports ∧ (List.range pl.shape.ranks.length).all fun r =>
        x.lost.contains r || !(s.rankEnt q r).valid || x.reports.any fun y => y.rank == r then s.decideOutcome q pl x
    else s
  | _, _ => s

/-- A report, or the warm notice of R384, which names MSTEP all ones: it takes back the report that the module gave before. -/
def State.takeReport (s : State) (q : Nat) (r : Report) : State :=
  if r.mstep = 0xFFFFFFFFFFFFFFFF then
    s.modRecov q fun x => { x with
      warmNotice := r.rank :: x.warmNotice.filter (fun k => k != r.rank), reports := x.reports.filter fun y => y.rank != r.rank }
  else
    (s.modRecov q fun x => { x with
      warmNotice := x.warmNotice.filter fun k => k != r.rank
      reports := x.reports.filter (fun y => y.rank != r.rank) ++ [r] }).decideIfAll q

/-- Send a REPORT to the coordinator, or take it here. [DEDUCED, assumption 55] -/
def State.sendReport (s : State) (q : Nat) (pl : Plan) (r : Report) : State :=
  if (s.part q).recov.isSome then s.takeReport q r
  else match s.coordinator q with
    | some d => s.admitSend d 0x02 q (jobtagOf pl) pl.shape.self s.coord (leBytes 8 r.c.toNat ++ leBytes 8 r.mstep.toNat ++ [r.flags])
    | none => s

/-- RECOVERY_HELD (R329): event 0x903 and the REPORT. -/
def execRecoveryHeld (q : Part) (s : State) : Out :=
  let p := s.part q
  match p.plan with
  | none => .next s
  | some pl =>
    if p.hold = .holding ∧ ((engsOf s.partCnt q).all s.engHeld) ∧ s.holdQuiet q ∧ !s.midMirror q then
      let s1 := (s.modPart q fun p => { p with hold := .held }).log 0x903 q (a2 (jobtagOf pl).toNat ++ a8 p.lastCommit.toNat)
      .next (s1.sendReport q pl (s1.ownReport q pl))
    else .next s

/-- The coordinator has given its warm notice, or a module reports here in its place: this steward takes the recovery over from its
reports (R327, R384), with its own report if it is held. -/
def State.takeOver (s : State) (q : Nat) : State :=
  match (s.part q).plan, (s.part q).recov with
  | some pl, none =>
    if (s.part q).hold != .none ∧ s.stewardSlot = some s.slot then
      let own := s.ownReport q pl
      s.modPart q fun p => { p with recov := some {
        jobtag := jobtagOf pl, lost := p.fencedRanks, reports := if p.hold = .held then [own] else [] } }
    else s
  | _, _ => s

/-- ADMIT_REPORT (R330). -/
def execAdmitReport (p : Port) (c : Colour) (k : Packet) (s : State) : Out :=
  admitRow 2 p c k s State.jobHere fun q r _ s =>
    (s.takeOver q).takeReport q ⟨r, BitVec.ofNat 64 (fieldLE k.payload 16 8), BitVec.ofNat 64 (fieldLE k.payload 24 8), BitVec.ofNat 8 (fieldLE k.payload 32 1)⟩

/-! ## Timers of the coordinator (R325) -/

/-- The module of rank `r` is declared by the coordinator of a recovery, and with it the ranks that it serves in other partitions
(R326). -/
def State.coordDeclares (s : State) (q r cause : Nat) : State :=
  let d := (s.rankEnt q r).coord
  let more := (s.ranksAt d).filter fun x => x.1 != q
  if s.leads d then s.declaredAll d cause ((q, r) :: more) else more.foldl (fun s x => s.declared x.1 x.2 cause d) (s.declareLost d cause [(q, r)])

/-- REPORT_TIMEOUT: no REPORT within 10 ms of the FENCE, or a drain that timed out (cause 4). [DESIGN CHOICE, assumption 7] -/
def execReportTimeout (q : Part) (rank : BitVec 18) (s : State) : Out :=
  match (s.part q).recov with
  | none => .next s
  | some x =>
    let r := rank.toNat
    if (x.stage = .reports ∨ x.stage = .draining) ∧ !x.reports.any (fun y => y.rank == r) ∧ !x.warmNotice.contains r then
      .next (s.coordDeclares q r 4)
    else .next s

/-- The standby in slot `j` is no longer one for the ranks of partition `q`: it is passed over, and so is the stream that this module had
begun to send it. -/
def State.dropSpare (s : State) (q j : Nat) : State :=
  match (s.part q).recov with
  | none => s
  | some x =>
    let mine := x.accepted.filter fun a => a.2 == j
    if mine.isEmpty ∧ x.offeredTo ≠ some j then s
    else
      let s1 := s.modRecov q fun x => { x with
        passed := j :: x.passed, offeredTo := if x.offeredTo = some j then none else x.offeredTo
        accepted := x.accepted.filter fun a => a.2 != j, live := x.live.filter fun r => !mine.any fun a => a.1 == r }
      ({ s1 with host := { s1.host with journals := s1.host.journals.filter fun y =>
          !(y.sender && !y.start && y.part == q && mine.any fun a => a.1 == y.rank) } }).offerNext q

/-- The standby in slot `j` has declined, has not answered or has fallen silent: one standby takes every rank of a lost module, so the
next ready module is offered each rank that this one had, from chunk 0 (R326, R331, R351). [DESIGN CHOICE, assumption 56] -/
def State.spareGone (s : State) (j : Nat) : State :=
  (List.range s.partCnt).foldl (fun s q => s.dropSpare q j)
    { s with host := { s.host with spareFor := s.host.spareFor.filter fun kv => kv.2 != j } }

/-- WARM_NOTICE_TIMEOUT: a module that gave its warm notice has not reported, or sent LIVE, within 10 s (R384). -/
def execWarmNoticeTimeout (q : Part) (rank : BitVec 18) (s : State) : Out :=
  match (s.part q).recov with
  | none => .next s
  | some x =>
    let r := rank.toNat
    if x.warmNotice.contains r then
      let s1 := s.modRecov q fun x => { x with warmNotice := x.warmNotice.filter fun k => k != r }
      match x.accepted.find? fun a => a.1 == r with
      | some a => .next (s1.spareGone a.2)
      | none => .next (s1.coordDeclares q r 2)
    else .next s

/-- Something came from slot `j` in the last 200 µs, or a STATE = 1 notice of its comb switch holds (R325). -/
def State.heardLately (s : State) (j : Nat) : Bool :=
  (List.range 16).any fun p =>
    let x := s.rx p (rxSource s.slot j)
    x.st != .dark && x.st != .closed && (decide (s.now < x.lastHeard + 31250) || decide (s.now < x.noticeUntil))

/-- The live carr-mates of the module in slot `j`, this one among them. [DEDUCED, assumption 55] -/
def State.liveMates (s : State) (j : Nat) : List Nat :=
  (List.range 20).filter fun i => i != j && (if i = s.slot then !s.boot.quar else s.mateHeard i)

/-- The module in slot `j` is silent at two live carr-mates, or at every one when fewer than two are live (R325 cause 2). `told` marks
the mates whose silence reports have come. [DEDUCED, assumption 55] -/
def State.silentAt (s : State) (j : Nat) (told : BitVec 20) : Bool :=
  let live := s.liveMates j
  let deaf := live.filter fun i => if i = s.slot then !s.heardLately j else told.getLsbD i
  decide (min 2 live.length ≤ deaf.length) && !deaf.isEmpty

/-- A notice of a warm reset holds for rank `r` (R384). -/
def State.noticed (s : State) (q r : Nat) : Bool :=
  match (s.part q).recov with
  | some x => x.warmNotice.contains r
  | none => false

/-- SILENCE_TIMEOUT (R325 cause 2): the carr steward declares every rank of the silent slot, by its own silence and the reports of the
mates in `told`. A spare that is silent is passed over (R351). A module that has given its warm notice is not counted silent (R384).
[DESIGN CHOICE, assumption 7; DEDUCED, assumption 55] -/
def execSilenceTimeout (x : Silence) (s : State) : Out :=
  let slot := x.slot
  let d := s.carrCoord slot
  if slot.val = s.slot ∨ !s.leads d ∨ !s.silentAt slot x.told then .next s
  else
    let s1 := s.declareLost d 2 ((s.ranksAt d).filter fun x => !s.noticed x.1 x.2)
    let held := (List.range s.partCnt).any fun q => match (s.part q).recov with
      | some x => x.accepted.any fun a => a.2 == slot.val && x.warmNotice.contains a.1
      | none => false
    let ours := (List.range s.partCnt).any fun q => match (s.part q).recov with
      | some x => x.accepted.any fun a => a.2 == slot.val
      | none => false
    .next (if ours && !held then s1.spareGone slot else s1)

/-! ## OFFER, ACCEPT, DECLINE (R331, R332) -/

/-- Why this module declines an offer of a rank of the module at `d` (Table 13.6): 1 not idle, 2 partition count. A partition that took a
rank of the same module does not count (R326), nor does the admission of this partition that the offer renews. The key that a rank's
plan demands is known only from its image. [DESIGN CHOICE, assumption 56] -/
def State.declines (s : State) (q count : Nat) (d : BitVec 17) : Nat :=
  if !s.isReady || (List.range s.partCnt).any fun j =>
      let x := s.part j
      (x.plan.isSome || x.loading.isSome || x.spare.isSome) && !(if j = q then x.spare.isSome else x.spareFrom == some d) then 1
  else if s.partCnt ≠ count then 2 else 0

/-- The standby is admitted: an admission that the offer renews is given up, the colours open, and ACCEPT goes to the steward (R332). -/
def State.admitHere (s : State) (q r : Nat) (tag : BitVec 16) (d : BitVec 17) (i : Word) (twin : Endpoint) (j : Nat) : State :=
  let s1 := if (s.part q).spare.isSome then (s.dropPlan q).modPart q fun x => { x with loading := none } else s
  let s2 := s1.modPart q fun x => { x with spare := some (i, twin), spareTag := tag, spareRank := r, spareFrom := some d }
  s2.relight.admitSend (s.carrCoord j) 0x04 q tag r s.coord (leBytes 4 i.toNat)

/-- ADMIT_OFFER: the standby answers ACCEPT or DECLINE; a quarantined module takes part in nothing (R347). -/
def execAdmitOffer (p : Port) (c : Colour) (k : Packet) (s : State) : Out :=
  admitRow 3 p c k s (fun _ _ _ => true) fun q r d s =>
    let tag : BitVec 16 := BitVec.ofNat 16 (fieldLE k.payload 2 2)
    let why := s.declines q (fieldLE k.payload 16 1) d
    match if s.boot.quar then none else s.stewardNear d with
    | none => s
    | some j =>
      if why = 0 then
        s.admitHere q r tag d (BitVec.ofNat 32 (fieldLE k.payload 36 4)) (BitVec.ofNat 20 (fieldLE k.payload (20 + 4 * q) 4)) j
      else s.admitSend (s.carrCoord j) 0x05 q tag r s.coord (a1 why ++ a1 0)

/-- The twin of rank `r` starts the partner stream to the spare at `d`, from chunk 0, with the recovery's c; `held` calls for the held
shard and s as well (R330, R338). A stream to a spare that was lost ends. -/
def State.partnerStream (s : State) (q : Nat) (pl : Plan) (r : Nat) (d : BitVec 17) (i : Word) (c : Dword) (held : Bool) : State :=
  { s with host := { s.host with journals := s.host.journals.filter fun y =>
      !(y.sender && !y.start && y.part == q && y.rank == r) } }.openStream
    { resync := i, jobtag := jobtagOf pl, rank := r, part := q, mirror := false, sender := true, start := false
      held := held, chunks := 0, peer := BitVec.ofNat 20 (4 * r + q), coord := d, c := c }

/-- R330 calls for the held shard and s of rank `r`: its twin's mirror is a step behind, or the step rolls forward. -/
def Recov.callsHeld (x : Recov) (pl : Plan) (r : Nat) : Bool :=
  x.rollForward || match x.reports.find? fun y => y.rank == pl.twinOf r with
    | some y => y.mstep != x.c
    | none => false

/-- The twin learns of the acceptance from the coordinator, with c and what its stream is to carry. [DESIGN CHOICE, assumption 56] -/
def State.tellTwin (s : State) (q : Nat) (pl : Plan) (x : Recov) (r : Nat) (d : BitVec 17) (i : Word) : State :=
  let t := pl.twinOf r
  let held := x.callsHeld pl r
  if t = pl.shape.self then s.partnerStream q pl r d i x.c held
  else s.admitSend (s.rankEnt q t).coord 0x04 q (jobtagOf pl) r d (leBytes 4 i.toNat ++ leBytes 8 x.c.toNat ++ a1 held.toNat)

/-- The coordinator takes an acceptance of rank `r` by the standby at `d`, which takes every rank of the lost module from now on (R326). -/
def State.takeAccept (s : State) (q : Nat) (pl : Plan) (x : Recov) (r : Nat) (d : BitVec 17) (i : Word) : State :=
  let s1 := { s with host := { s.host with spareFor := s.host.spareFor.set (s.rankEnt q r).coord.toNat (cSlot d) } }
  ((s1.modRecov q fun x => { x with accepted := x.accepted ++ [(r, cSlot d)], offeredTo := none }).tellTwin q pl x r d i).offerNext q

/-- ADMIT_ACCEPT at the coordinator, and at the twin to which it goes on. A spare that accepts again after a partition reset has its
stream from chunk 0 (R340). [DESIGN CHOICE, assumption 56] -/
def execAdmitAccept (p : Port) (c : Colour) (k : Packet) (s : State) : Out :=
  admitRow 4 p c k s State.jobHere fun q r d s =>
    let i : Word := BitVec.ofNat 32 (fieldLE k.payload 16 4)
    match (s.part q).plan with
    | none => s
    | some pl =>
      let twin (s : State) : State :=
        if pl.twinOf r = pl.shape.self then
          s.partnerStream q pl r d i (BitVec.ofNat 64 (fieldLE k.payload 20 8)) (fieldLE k.payload 28 1 == 1)
        else s
      match (s.part q).recov with
      | some x =>
        if x.offeredTo = some (cSlot d) ∧ x.resync = i ∧ x.offerRank = r then s.takeAccept q pl x r d i
        else if x.accepted.contains (r, cSlot d) then
          (s.modRecov q fun x => { x with live := x.live.filter fun n => n != r }).tellTwin q pl x r d i
        else if x.stage ≠ .offering then twin s
        else s
      | none => twin s

/-- A module is passed over: event 0x906, and the next one is offered every rank that it had. [DESIGN CHOICE, assumption 56] -/
def State.passOver (s : State) (q j reason : Nat) : State := (s.log 0x906 q (a4 j ++ a1 reason)).spareGone j

/-- ADMIT_DECLINE. -/
def execAdmitDecline (p : Port) (c : Colour) (k : Packet) (s : State) : Out :=
  admitRow 5 p c k s State.jobHere fun q _ d s =>
    match (s.part q).recov with
    | none => s
    | some x =>
      if x.offeredTo = some (cSlot d) ∨ (x.accepted.any fun a => a.2 == cSlot d) then s.passOver q (cSlot d) (fieldLE k.payload 16 1) else s

/-- OFFER_TIMEOUT: no answer within 1 ms. [DESIGN CHOICE, assumption 56] -/
def execOfferTimeout (q : Part) (s : State) : Out :=
  match (s.part q).recov with
  | none => .next s
  | some x => match x.offeredTo with
    | some j => .next (s.passOver q j 0)
    | none => .next s

/-- Ranks of a board that the host wants empty wait for a standby (R349). -/
def State.vacateWaits (s : State) (q : Nat) : Nat := if s.host.vacating.isSome then (s.part q).slowRanks.length else 0

/-- NO_STANDBY_TIMER: every 10 s with no ready standby, event 0x931, and the modules passed over are tried again. -/
def execNoStandbyTimer (q : Part) (s : State) : Out :=
  match (s.part q).recov with
  | none =>
    if s.vacateWaits q = 0 then .next s
    else .next (s.log 0x931 q (a3 (s.carrCoord 0).toNat ++ a4 (s.vacateWaits q)))
  | some x =>
    if x.stage = .offering ∧ x.offeredTo = none then
      let s1 := (s.modRecov q fun x => { x with passed := [] }).offerNext q
      match (s1.part q).recov with
      | some y =>
        if y.offeredTo = none then
          .next (s1.log 0x931 q (a3 (s.carrCoord 0).toNat ++ a4 (y.lost.length - y.accepted.length)))
        else .next s1
      | none => .next s1
    else .next s

/-! ## The spare's load and LIVE (R332) -/

/-- The spare gives its admission up and answers DECLINE, with the refusal of its load (R331, R332). -/
def State.spareDeclines (s : State) (q reason : Nat) (r : Option Refuse) : State :=
  let p := s.part q
  let s1 := s.modPart q fun x => { x with loading := none, spare := none, spareFrom := none }
  let s2 := match r with
    | some r => s1.log 0xB20 q (a1 r.reason ++ a4 r.off)
    | none => s1
  let s3 := s2.relight
  match s3.stewardNear (p.spareFrom.getD s3.coord) with
  | some k => s3.admitSend (s3.carrCoord k) 0x05 q p.spareTag p.spareRank s3.coord (a1 reason ++ a1 ((r.map fun r => r.reason).getD 0))
  | none => s3

/-- SPARE_LOAD_DONE: the spare's load ends; with its stream complete it sends LIVE. A refused load, and a plan that demands another
tenant key, make it DECLINE (R331). [DESIGN CHOICE, assumption 56] -/
def execSpareLoadDone (q : Part) (s : State) : Out :=
  let p := s.part q
  match p.spare, p.loading with
  | some _, some j =>
    let (ok, s) := s.readOnward q [(j.addr, j.len)]
    let m := s.image q j true
    if !ok then .next s
    else match checkImage s p.tkey m with
    | some r => .next (s.spareDeclines q (if m.keyWrong p.tkey then 3 else 4) (some r))
    | none =>
      if m.keyWrong p.tkey then .next (s.spareDeclines q 3 none)
      else .next ((s.loaded q m (s.keyIdOf q)).spareWhole q)
  | _, _ => .next (s.spareWhole q)

/-! ## LIVE, the tables, RESUME or GO (R341) -/

/-- The new place of each lost rank. -/
def State.newEntries (s : State) (q : Nat) (x : Recov) : List (Nat × RankEnt) :=
  x.accepted.map fun a => (a.1, { s.rankEnt q a.1 with coord := s.carrCoord a.2 })

/-- Every module that answers an RTAB: the live ranks but this one, and the spares. -/
def State.tableTargets (s : State) (q : Nat) (pl : Plan) (x : Recov) : List (BitVec 17) :=
  s.others q pl x.lost ++ x.accepted.map fun a => s.carrCoord a.2

/-- The tick that RESUME and GO name: 7,813 ticks ahead. -/
def State.resumeTick (s : State) : Dword := s.clk.tick + 7813

/-- RESUME for a replay, GO for a roll forward. [DESIGN CHOICE, assumption 51] -/
def State.sendResume (s : State) (q : Nat) (pl : Plan) (x : Recov) : State :=
  let t := s.resumeTick
  let l := s.tableTargets q pl x
  let s1 := if x.rollForward then
      l.foldl (fun s d => s.admitSend d 0x09 q (jobtagOf pl) 0 0 (leBytes 8 t.toNat ++ leBytes 8 x.c.toNat)) s
    else l.foldl (fun s d => s.maint d 5 (a2 (jobtagOf pl).toNat ++ leBytes 8 t.toNat ++ leBytes 8 x.c.toNat)) s
  if x.rollForward then
    (s1.commitInit q).modPart q fun p => { p with goAt := some t, resumeAt := none, recov := none, decidedC := some x.c }
  else s1.modPart q fun p => { p with resumeAt := some t, goAt := none, recov := none, decidedC := some x.c }

/-- RTAB to every module of the slice; this module keeps its own copy. [DEDUCED, assumption 55] -/
def State.sendTables (s : State) (q : Nat) (pl : Plan) (x : Recov) : State :=
  let es := s.newEntries q x
  let pairs : List (Nat × Dword) := es.map fun e => (e.1, BitVec.ofNat 64 (entBits { e.2 with valid := true }))
  let body := a2 (jobtagOf pl).toNat ++ a2 pairs.length ++ pairs.flatMap fun e => leBytes 4 e.1 ++ leBytes 8 e.2.toNat
  let s1 := (s.tableTargets q pl x).foldl (fun s d => s.maint d 4 body) s
  let s2 := pairs.foldl (fun s e => s.lightMoved q e.1 (entOf e.2)) s1
  let s3 := s2.modPart q fun p => { p with pendingTab := p.pendingTab ++ pairs, drain := if p.drain = 0 then 0 else 3 }
  let s4 := s3.modRecov q fun x => { x with stage := .tables, rtacks := 0 }
  if (s.tableTargets q pl x).isEmpty then s4.sendResume q pl x else s4

/-- ADMIT_LIVE: event 0x905 and the ADMITTED notification; with the last spare the tables go out. -/
def execAdmitLive (p : Port) (c : Colour) (k : Packet) (s : State) : Out :=
  admitRow 8 p c k s State.jobHere fun q r d s =>
    match (s.part q).plan, (s.part q).recov with
    | some pl, some x =>
      if x.accepted.contains (r, cSlot d) ∧ !x.live.contains r ∧ x.stage ≠ .tables then
        let old := (s.rankEnt q r).coord
        let s1 := (s.modRecov q fun x => { x with live := r :: x.live }).log 0x905 q (a3 r ++ a4 (cSlot old) ++ a4 (cSlot d))
        let s2 := s1.notePart q 0x83 (a2 (jobtagOf pl).toNat ++ a3 r ++ a3 old.toNat ++ a3 (s.carrCoord (cSlot d)).toNat)
        if x.lost.all fun k => k == r || x.live.contains k then s2.sendTables q pl x else s2
      else s
    | _, _ => s

/-- RTACK: with the last acknowledgement RESUME or GO goes out. -/
def execRtack (p : Port) (c : Colour) (k : Packet) (s : State) : Out :=
  jobRow 8 p c k s fun q s =>
    match (s.part q).plan, (s.part q).recov with
    | some pl, some x =>
      if x.stage = .tables then
        if x.rtacks + 1 < (s.tableTargets q pl x).length then s.modRecov q fun x => { x with rtacks := x.rtacks + 1 }
        else s.sendResume q pl x
      else s
    | _, _ => s

/-- ADMIT_GO names the tick of a roll forward; the COMMIT semaphore returns to INIT in the hold (R343). [DESIGN CHOICE, assumption 51] -/
def execAdmitGo (p : Port) (c : Colour) (k : Packet) (s : State) : Out :=
  admitRow 9 p c k s State.jobHere fun q _ _ s =>
    (s.commitInit q).modPart q fun x => { x with
      goAt := some (BitVec.ofNat 64 (fieldLE k.payload 16 8)), resumeAt := none, decidedC := decidedOf k.payload 24 }

/-! ## Planned replacement (R346, R349) -/

/-- The drain of a planned replacement is complete: the wanted ranks are fenced. -/
def State.drainedAll (s : State) (q : Nat) : State :=
  match (s.part q).plan, (s.part q).recov with
  | some pl, some x =>
    if x.stage = .draining ∧ (s.part q).drain = 2 ∧ (s.others q pl []).length ≤ x.drained then
      let s1 := x.wanted.foldl (fun s r => s.joinRecov q pl r) (s.modRecov q fun x => { x with wanted := [] })
      x.wanted.foldl (fun s r => s.fenceRank q pl r) s1
    else s
  | _, _ => s

/-- The ranks whose planned replacement falls due with the step that commits next: the slow ones, of a board's as many as there are
standbys, and those that the host has put at this step or an earlier one (R346, R349, R426). -/
def State.wantedRanks (s : State) (q : Nat) : List Nat :=
  let p := s.part q
  let due := (p.planAt.filter fun x => decide (x.2.2.toInt ≤ p.epoch.toInt)).map fun x => x.1
  (if s.host.vacating.isSome then p.slowRanks.take s.standbys.length else p.slowRanks) ++ due.filter fun r => !p.slowRanks.contains r

/-- The twin of rank `r` is inside a resync window (R346). -/
def State.inWindow (s : State) (q : Nat) (pl : Plan) (r : Nat) : Bool :=
  (s.part q).windows.any (fun w => w == r || w == pl.twinOf r)
  || s.host.journals.any fun j => j.open_ && j.part == q && (j.rank == r || pl.twinOf r == j.rank)

/-- PLANNED_REPLACEMENT: DRAIN naming the step that commits next goes to every module, unless a twin of a wanted rank is inside a resync
window. -/
def execPlannedReplacement (q : Part) (s : State) : Out :=
  let p := s.part q
  match p.plan with
  | none => .next s
  | some pl =>
    let wanted := s.wantedRanks q
    if p.runs ∧ wanted ≠ [] ∧ p.recov.isNone ∧ p.hold = .none ∧ wanted.all fun r => !s.inWindow q pl r then
      let n := p.epoch
      let s1 := (s.others q pl []).foldl (fun s d => s.maint d 2 (a2 (jobtagOf pl).toNat ++ leBytes 8 n.toNat)) s
      .next (s1.modPart q fun p => { p with
        drain := 1, drainStep := n, slowRanks := p.slowRanks.filter fun r => !wanted.contains r
        planAt := p.planAt.filter fun x => !wanted.contains x.1
        recov := some { jobtag := jobtagOf pl, stage := .draining, wanted := wanted
                        hostSlot := (p.planAt.find? fun x => wanted.contains x.1).map fun x => x.2.1 } })
    else .next s

/-- DRAINED at the coordinator. [DEDUCED, assumption 57] -/
def execDrained (p : Port) (c : Colour) (k : Packet) (s : State) : Out :=
  partRow 3 p c k s fun q s => (s.modRecov q fun x => { x with drained := x.drained + 1 }).drainedAll q

/-- A module that has declared itself under cause 5 quarantines itself when every partition that runs is drained (R346, R347).
[DEDUCED, assumption 97] -/
def State.slowLeave (s : State) : State :=
  if s.host.slowLeaves && (List.range s.partCnt).all fun q => !(s.part q).started || (s.part q).drain == 2 then s.quarantine 5 else s

/-- DRAIN_COMPLETE (R272): the module sends DRAINED; at the coordinator its own drain counts. -/
def execDrainComplete (q : Part) (s : State) : Out :=
  let p := s.part q
  if p.drain = 1 ∧ p.drainDue ∧ s.atZero q ∧ s.fabricQuiet q then
    let s1 := s.modPart q fun p => { p with drain := 2 }
    .next (if p.recov.isSome then s1.drainedAll q else s1.toCoordinator q 3 (a2 (s.jobtag q).toNat ++ a1 q)).slowLeave
  else .next s

/-! ## The host's answers and silences (R41, R333) -/

/-- The host approves, or names a standby and the step at whose commit it is to be admitted (R333, R426). Where that commit lies ahead,
the slice cannot reach it without the rank: it is admitted under R331 now, and moved to the host's standby by a planned replacement at
that commit. [DESIGN CHOICE, assumption 120] -/
def State.replaceAnswer (s : State) (q : Nat) (slot : Option (Nat × Dword)) : State :=
  match (s.part q).recov with
  | none => s
  | some x =>
    if x.stage = .await then
      match slot with
      | none => (s.modRecov q fun x => { x with decision := none }).offerNext q
      | some (j, step) =>
        if step.toInt ≤ x.c.toInt then (s.modRecov q fun x => { x with hostSlot := some j, decision := none }).offerNext q
        else
          let spared := x.lost.any fun r => (s.candidates q x r).any fun i => i != j
          ((s.modPart q fun p => { p with planAt := p.planAt ++ x.lost.map fun r => (r, j, step) }).modRecov q fun x => { x with
            decision := none, passed := if spared then j :: x.passed else x.passed }).offerNext q
    else s

/-- REPLACEMENT_DEADLINE: unanswered after 5 s, the carr steward admits, with event 0x9F0. -/
def execReplacementDeadline (q : Part) (s : State) : Out :=
  match s.awaiting (.replace q) with
  | none => .next s
  | some d => .next ((s.expire d 3 q).replaceAnswer q none)

/-- NUMERICS_DEADLINE: unanswered after 60 s, the step is skipped (R41, R427). -/
def execNumericsDeadline (q : Part) (s : State) : Out :=
  match s.host.decisions.find? fun d => !d.answered && !d.expired && (match d.what with | .numerics j _ => j == q.val | _ => false) with
  | none => .next s
  | some d => match d.what with
    | .numerics _ step => .next ((s.expire d 4 q).answerNumerics q step 1)
    | _ => .next s

end Sys2Proof.Machine
end

