-- ==== Sys2Proof/Machine/Reset.lean ====
section
/-!
DEFINITION. Machine/Reset.lean: what each reset keeps and loses (R340, R381-R387, R394, R401, R408), and the power stage's turning
off (R354, R368). Bring-up follows in Machine/Boot.lean.
-/

namespace Sys2Proof.Machine

/-! ## Supplies (R353, R374, R408) -/

def calHoldSec : Nat := 345600

/-- The standby domain loses its state: the log starts again from the recorded SEQ plus 65,536, and the calendar runs on its backup. -/
def State.standbyLost (s : State) : State :=
  { s with
    obs := { s.obs with log := [], logFull := false, seq := BitVec.ofNat 64 (s.obs.seq.toNat / 65536 * 65536 + 65536) }
    clk := { s.clk with offAt := some s.clk.sec }
    host := { s.host with eidPcie := 0, eidI2c := 0, spdm := [], secStat := 0 }
    boot := { s.boot with stat := 0 } }

/-- Whether the backup has held since the rail went down: not below 1.8 V at that moment, certainly from 3.0 V within the rated
96 h, otherwise as the capacitor has it. [DEDUCED, assumption 61] -/
def State.backupHeld (s : State) : Bool × State :=
  match s.clk.offAt with
  | none => (true, s)
  | some t =>
    if s.clk.bkv.toNat < 90 then (false, s)
    else if 150 ≤ s.clk.bkv.toNat ∧ s.clk.sec.toNat - t.toNat ≤ calHoldSec then (true, s)
    else
      let (n, s1) := s.takeFree
      (Config.backupHeld n, s1)

/-- The standby domain reads the straps (R448). [DEDUCED, assumption 72] -/
def State.sampleStraps (s : State) : State := { s with boot := { s.boot with brd := s.boot.brdPins, pos := s.boot.posPins } }

/-- The standby rail comes up: the straps are read, measurement 3 is taken, the calendar is kept or lost, and a cold reset's event is logged
(R381, R437, R448). [DEDUCED, assumption 30; DEDUCED, assumption 61] -/
def State.standbyRise (s : State) : State :=
  let (ok, s1) := s.backupHeld
  let s2 := { s1 with clk := { s1.clk with offAt := none, calLost := s1.clk.calLost || !ok } }.sampleStraps.measPlace
  if s2.boot.owed then { s2.log 0xB02 0 (a1 0 ++ a4 0) with boot := { s2.boot with owed := false } } else s2

/-! ## What a cold or module reset leaves (Table 15.2) -/

/-- A lane recorded in the non-volatile store stays retired (R239); every other one is dark. -/
def TxLane.cold (l : TxLane) : TxLane := if l.retiredNv then { st := .retired, retiredNv := true } else {}
def RxLane.cold (l : RxLane) : RxLane := if l.retiredNv then { st := .retired, retiredNv := true } else {}

/-- A comb source is off; its state and age are recorded. -/
def Comb.cold (x : Comb) : Comb :=
  { st := if x.st = .retired ∨ x.st = .failed then x.st else .off
    pend := x.pend, switching := x.switching, age := x.age, ageTicks := x.ageTicks, lastTick := x.lastTick }

/-- Clock of the module after main power or a module reset: the calendar and its backup remain. -/
def Clock.cold (c : Clock) : Clock :=
  { refIn := c.refIn, sec := c.sec, ns := c.ns, hiCal := c.hiCal, calSub := c.calSub, slew := c.slew, valid := c.valid, bkv := c.bkv, offAt := c.offAt, calLost := c.calLost
    stepOut := c.stepOut }

/-- Open journals of a resync close: event 0x90A at the receiving end (Table 13.4). -/
def State.closeJournals (s : State) (cause : Nat) (sel : Journal → Bool) : State :=
  let l := s.host.journals.filter fun j => j.open_ && sel j
  let s1 := s.modJournal (fun j => j.open_ && sel j) fun j => { j with open_ := false, last := 0, crcs := [], got := [], spans := [] }
  (l.filter fun j => !j.sender).foldl (fun s j => s.log 0x90A j.part (w4 j.resync ++ a1 cause)) s1

/-- The module with nothing but its non-volatile records, its standby domain, its pins, and what it has already sent. [DEDUCED, assumption 68] -/
def State.wiped (s : State) : State :=
  let x : State :=
    { pending := s.pending, free := s.free
      parts := s.parts.map fun kv => (kv.1, { keyEpoch := kv.2.keyEpoch })
      txl := s.txl.map fun kv => (kv.1, kv.2.cold), rxl := s.rxl.map fun kv => (kv.1, kv.2.cold)
      combs := s.combs.map fun kv => (kv.1, kv.2.cold)
      router := { cx := s.router.cx, cy := s.router.cy, cz := s.router.cz, ex := s.router.ex, ey := s.router.ey, ez := s.router.ez
                  coordKnown := s.router.coordKnown, extKnown := s.router.extKnown, txq := s.router.txq }
      mem := { rows := s.mem.rows, pages := s.mem.pages, spareLines := s.mem.spareLines, reserveLow := s.mem.reserveLow
               stackSpared := s.mem.stackSpared, stackRows := s.mem.stackRows, hostOut := s.mem.hostOut }
      power := { vin := s.power.vin, on := s.power.on, offLatched := s.power.offLatched, tripped := s.power.tripped, auxok := s.power.auxok
                 lowest := s.power.lowest }
      clk := s.clk.cold
      boot := { stat := s.boot.stat, cntModule := s.boot.cntModule, cntWarm := s.boot.cntWarm, cntPart := s.boot.cntPart
                lastKind := s.boot.lastKind, quar := s.boot.quar, quarCause := s.boot.quarCause, brd := s.boot.brd, pos := s.boot.pos, brdPins := s.boot.brdPins, posPins := s.boot.posPins
                perst := s.boot.perst, perstRelease := s.boot.perstRelease, pwrGood := s.boot.pwrGood, faultN := s.boot.faultN || s.boot.quar
                owed := s.boot.owed }
      obs := { log := s.obs.log, logFull := s.obs.logFull, seq := s.obs.seq, hiSeq := BitVec.ofNat 32 (s.obs.seq.toNat / 2 ^ 32) }
      host := { nextDecision := s.host.nextDecision, eidPcie := s.host.eidPcie, eidI2c := s.host.eidI2c, mctpOut := s.host.mctpOut
                spdm := s.host.spdm, copyA := s.host.copyA, copyB := s.host.copyB, activeB := s.host.activeB, nextB := s.host.nextB
                fuseSvn := s.host.fuseSvn, revoked := s.host.revoked, secStat := s.host.secStat, romVer := s.host.romVer
                serial := s.host.serial, meas := s.host.meas.drop fun i => decide (16 ≤ i), journals := s.host.journals
                nextResync := s.host.nextResync } }
  x.measPlace

/-! ## Module and cold resets -/

def countReset (b : Byte) : Byte := satInc b 1

/-- A module reset (R381): `last` is its code in MODCTL_LAST, `source` its place in Table 15.1. Bring-up begins at stage 0.
[DEDUCED, assumption 30; DEDUCED, assumption 68] -/
def State.moduleReset (s : State) (last source : Nat) : State :=
  let s1 := s.wiped.sampleStraps
  let s2 := { s1 with boot := { s1.boot with lastKind := BitVec.ofNat 3 last, cntModule := countReset s1.boot.cntModule } }
  (s2.log 0xB02 0 (a1 1 ++ a4 source)).closeJournals 1 fun _ => true

/-- PWR_GOOD falls; PERST_N, where it stands released, waits for it again (R451). -/
def Boot.powerDown (b : Boot) : Boot := { b with pwrGood := false, perst := true, perstRelease := b.perstRelease || !b.perst }

/-- A cold reset (R381, R382): VIN has fallen below 34.0 V. The standby domain lives on AUX12 or loses its state. -/
def State.coldReset (s : State) : State :=
  let s1 := s.wiped
  let s2 := { s1 with
    parts := []
    power := { s1.power with on := false, offLatched := s1.power.offLatched && Nat.ble 3400 s1.power.vin.toNat, lowest := 0 }
    boot := { s1.boot.powerDown with lastKind := 0, cntModule := 0, cntWarm := 0, cntPart := 0, owed := true } }
  let s3 := if s2.power.auxok then { s2.log 0xB02 0 (a1 0 ++ a4 0) with boot := { s2.boot with owed := false } } else s2.standbyLost
  s3.closeJournals 0 fun _ => true

/-- This module declares every rank it serves lost under `cause`. -/
def State.declareAll (s : State) (cause : Nat) : State := (List.range s.partCnt).foldl (fun s q => s.declareSelf cause q) s

/-- The power stage turns off (R354, R368): everything outside the standby domain is lost. -/
def State.turnOff (s : State) : State :=
  let s1 := s.wiped
  { s1 with power := { s1.power with on := false }, boot := s1.boot.powerDown }

/-! ## Warm reset (R383-R385) -/

/-- What blocks a warm reset in partition `q`, in this model's codes: 1 waiting for its start tick, 2 running, 3 stopping, 4 in the
hold with a UPD issued since the last commit, 5 in the hold with a region of Table 13.3 outside DRAM. [DEDUCED, assumption 70] -/
def State.warmBlock (s : State) (q : Nat) : Option Nat :=
  let p := s.part q
  if p.stat = .idle then none
  else if p.hold = .none then some (match p.stat with | .pending => 1 | .stopping => 3 | _ => 2)
  else if (engsOf s.partCnt q).any fun e => (s.eng e).updIssued then some 4
  else match p.plan with
    | none => none
    | some pl =>
      if pl.regions.any fun r => Nat.ble 0x20 r.use.toNat && Nat.ble r.use.toNat 0x24 && !isDram r.base then some 5 else none

/-- The first partition that blocks a warm reset. -/
def State.warmBlocked (s : State) : Option (Nat × Nat) := (List.range s.partCnt).findSome? fun q => (s.warmBlock q).map fun b => (q, b)

/-- The warm notice of one partition (R384): to the coordinator of its recovery, or, where this module is that, to the next steward. -/
def State.warmNotice (s : State) (q : Nat) : State :=
  let p := s.part q
  let note (s : State) (d : Option (BitVec 17)) (tag : BitVec 16) (rank : Nat) (c : Dword) : State :=
    let s1 := match d with
      | some d => s.admitSend d 0x02 q tag rank s.coord (leBytes 8 c.toNat ++ leBytes 8 0xFFFFFFFFFFFFFFFF ++ [0])
      | none => s
    s1.log 0xB12 q (a2 tag.toNat ++ a8 p.lastCommit.toNat)
  match p.spare with
  | some _ => note s ((s.stewardNear (s.rankEnt q p.spareRank).coord).map s.carrCoord) p.spareTag p.spareRank p.spareC
  | none => match p.plan with
    | none => s
    | some pl =>
      if p.hold = .none then s
      else
        let d := if p.recov.isSome then s.otherSteward.map s.carrCoord else s.coordinator q
        (note s d (jobtagOf pl) pl.shape.self (p.epoch - 1)).modPart q fun x => { x with recov := none }

/-- An abandoned load leaves no plan (Table 2.6); its requester is answered STATE, so that its mailbox is free again (R421).
[DEDUCED, assumption 32] -/
def State.abandonLoad (s : State) (q : Nat) : State :=
  match (s.part q).loading with
  | none => s
  | some j =>
    let s1 := s.modPart q fun x => { x with loading := none }
    match j.fn with
    | some f => s1.deliver f ⟨1, j.tag, BitVec.ofNat 8 q, 4, []⟩
    | none => s1

/-- Every copy under way ends (Table 15.6). -/
def State.endCopies (s : State) : Nat → State
  | 0 => s
  | n + 1 => s.copyDone.endCopies n

/-- A partition keeps its plan, its keys, its epoch and its last committed step (R385). [DEDUCED, assumption 68] -/
def Partn.warm (p : Partn) : Partn :=
  { p with
    phase := none, issued := false, arrived := false, barStage := 0, barPeerSeq := [], ownSigs := [], numDecision := none, stopNow := false
    readyKept := [], ringAttempt := [], heldAttempt := [], heldGot := [], norms := [], arrivals := []
    peers := p.peers.mapKV fun _ (x : Peer) => { x with txWait := [] } }

/-- A held partition's engines stand before instruction 0 with their mirror records; any other engine is idle. -/
def State.warmEng (s : State) (e : Nat) : State :=
  let q := s.partOf e
  let held := (s.part q).hold != .none && (s.streamOf e).isSome
  s.modEng e fun x =>
    let y : Engine := { retries := x.retries, mirrorRec := x.mirrorRec, lfsr := x.lfsr }
    if x.run = .retired then { y with run := .retired }
    else if held then
      let z := { y with run := .running, heldAtZero := true, g := (Tab.set [] 30 (s.part q).seed).set 31 (s.part q).epoch }
      { z with ckpt := z.snap }
    else y

/-- Lanes go dark, to be calibrated and trained again; those not recorded as retired are tried again. -/
def TxLane.warm (l : TxLane) : TxLane :=
  { st := if l.retiredNv then .retired else .dark, retiredNv := l.retiredNv, lit := l.lit, heat := l.heat, retry := l.retry, out := l.out }
/-- What a warm reset leaves of a receive lane: it keeps what has retired or closed, and trains anew (Table 15.2). [DEDUCED, assumption 44] -/
def RxLane.warm (l : RxLane) : RxLane :=
  { st := if l.retiredNv then .retired else if l.st = .closed then .closed else .dark, retiredNv := l.retiredNv, open_ := l.open_, heat := l.heat
    unc := l.unc, corr := l.corr }

def PortSt.warm (x : PortSt) : PortSt := { x with slots := [], small := [], granted := [], declineSince := none }

def Power.warm (p : Power) : Power :=
  { p with opCur := 0, opWant := 0, wantTag := 0, mhz := 600, pllMhz := none, chg := none, droopNow := false, burst := false, lvl := 0, over56 := false }

/-- The logic of the compute die is reset; memories but the Peat, tables and registers are kept. `last` is the code in MODCTL_LAST.
[DESIGN CHOICE, assumption 10; DEDUCED, assumption 30; DEDUCED, assumption 68] -/
def State.warmReset (s : State) (last source : Nat) : State :=
  let s0 := s.log 0xB02 0 (a1 2 ++ a4 source)
  let s1 := (List.range s.partCnt).foldl (fun s q => ((s.warmNotice q).abandonLoad q).flushCarve q) s0
  let s2 := (s1.endCopies s1.mem.copies.length).zeroSpan peatBase (peatBase + 1024 * mib)
  let s3 := (List.range s2.partCnt).foldl (fun s q => (s.syncReplay q fun _ => false).modPart q Partn.warm) s2
  let s4 := (List.range 200).foldl State.warmEng s3
  { s4 with
    txl := s4.txl.map fun kv => (kv.1, kv.2.warm), rxl := s4.rxl.map fun kv => (kv.1, kv.2.warm)
    ports := s4.ports.map fun kv => (kv.1, kv.2.warm)
    router := { s4.router with relayq := [], reports := [], deal := [], mateTurn := [], maintRx := [] }
    power := s4.power.warm
    boot := { s4.boot with
      stage := 1, failed := false, warm := true, cause := 0, elapsed := 0, since := s4.clk.tick, stime := [], disc := [], discBad := [], helloCnt := 0
      lastKind := BitVec.ofNat 3 last, cntWarm := countReset s4.boot.cntWarm, warmWanted := none }
    host := { s4.host with decisions := s4.host.decisions.filter fun d => match d.what with | .lane _ _ _ => false | _ => true } }

/-- A warm reset through MODCTL (R383): taken, refused, or kept until ready. [DEDUCED, assumption 70] -/
def State.warmRequest (s : State) : State :=
  if s.boot.stage < 8 then { s with boot := { s.boot with warmWanted := some 4 } }
  else match s.warmBlocked with
    | some (q, b) => (s.log 0xB10 q (a1 q ++ a4 b)).modBit 1
    | none => s.warmReset 4 0

/-! ## Partition reset (R386) -/

/-- A spare whose partition is reset keeps its admission and accepts again, so that its stream restarts at chunk 0 (R340).
[DESIGN CHOICE, assumption 56] -/
def State.admitAgain (s : State) (q : Nat) (p : Partn) : State :=
  match p.spare with
  | none => s
  | some x => match s.stewardNear (p.spareFrom.getD s.coord) with
    | some j => s.admitHere q p.spareRank p.spareTag (p.spareFrom.getD s.coord) x.1 x.2 j
    | none => s

/-- A partition reset of `q`. A FENCE of the rank that it declares is still to come (R386). [DEDUCED, assumption 30; DEDUCED, assumption 68] -/
def State.partReset (s : State) (q : Nat) : State :=
  let s0 := s.log 0xB02 q (a1 3 ++ a4 0)
  let s1 := match (s0.part q).plan with
    | some pl => if (s0.part q).started then
        ((((s0.stopEngs q).declareSelf 1 q).log 0xB11 q (a1 q ++ a3 pl.shape.self)).modBit 6).modPart q fun x => { x with resetTag := some (jobtagOf pl) }
      else s0
    | none => s0
  let s2 := if (s1.part q).loading.isSome then (s1.abandonLoad q).log 0xB21 q (a1 q) else s1
  let s3 := (s2.endCopies s2.mem.copies.length).flushCarve q
  let s4 := (((s3.toIdle q).dropPlan q).clearPeat q).ringsOff q
  let s5 := { s4 with
    router := { s4.router with rtab := s4.router.rtab.drop fun i => i / 65536 == q }
    obs := { s4.obs with ctr := s4.obs.ctr.drop (ctrIn s4.partCnt q), selUse := s4.obs.selUse.drop (ctrIn s4.partCnt q) }
    boot := { s4.boot with cntPart := countReset s4.boot.cntPart } }
  ((s5.closeJournals 3 fun j => j.part == q).admitAgain q (s0.part q)).laneLimits

/-- The partitions of a mask, or, during bring-up, a mask to be taken when ready (Table 15.6). -/
def State.partResets (s : State) (mask : BitVec 4) : State :=
  if s.boot.stage < 8 then { s with boot := { s.boot with partWanted := s.boot.partWanted ||| mask } }
  else (List.range s.partCnt).foldl (fun s q => if mask.getLsbD q then s.partReset q else s) s

/-! ## MODCTL_RESET (R381, R396) -/

/-- A module reset by request, which restarts a module that is turned off (R354, R368, R423). -/
def State.moduleRequest (s : State) : State :=
  if s.power.on then s.moduleReset 2 1
  else
    let s1 := s.moduleReset 3 2
    { s1 with power := { s1.power with on := s1.standbyUp && Nat.ble 4000 s1.power.vin.toNat, offLatched := false, tripped := false } }

/-- A write of MODCTL_RESET through PF0: nothing without its key; a module reset leaves no room for another. -/
def State.modctlWrite (s : State) (v : Word) : State :=
  if fld v.toNat 24 8 ≠ 0xC3 then s
  else if v.getLsbD 0 then s.moduleRequest
  else
    let s1 := if fld v.toNat 4 4 = 0 then s else s.partResets (BitVec.ofNat 4 (fld v.toNat 4 4))
    if v.getLsbD 1 then s1.warmRequest else s1

/-- MODCTL_MODULE_RESET. -/
def execModctlModuleReset (v : Word) (s : State) : Out := if v.getLsbD 0 then .next (s.modctlWrite v) else .next s

/-- MODCTL_WARM_RESET. -/
def execModctlWarmReset (v : Word) (s : State) : Out := if v.getLsbD 1 then .next (s.modctlWrite v) else .next s

/-- MODCTL_PART_RESET. -/
def execModctlPartReset (v : Word) (s : State) : Out := if fld v.toNat 4 4 = 0 then .next s else .next (s.modctlWrite v)

/-- PERST_N_ASSERT: a module reset, held until its release (R381, R451). A module that is off notes the pin alone. [DEDUCED, assumption 72] -/
def execPerstNAssert (s : State) : Out :=
  if s.boot.perst ∧ !s.boot.perstRelease then .next s
  else
    let s1 := { s with boot := { s.boot with perst := true, perstRelease := false } }
    .next (if s.power.on then s1.moduleReset 1 0 else s1)

/-- PERST_N_RELEASE: at once while PWR_GOOD is high, otherwise when it goes high (R451). [DEDUCED, assumption 72] -/
def execPerstNRelease (s : State) : Out :=
  if s.boot.pwrGood then .next { s with boot := { s.boot with perst := false } }
  else .next { s with boot := { s.boot with perstRelease := true } }

end Sys2Proof.Machine
end

