-- ==== Sys2Proof/Machine/Power.lean ====
section
/-!
DEFINITION. Machine/Power.lean: the supply (R353, R354), the power estimate and the cap loop (R355-R357), operating-point changes and
droop (R359-R364), heat (R365-R368, R453), REF, STEP and the calendar (R370-R375, R455, R456).
-/

namespace Sys2Proof.Machine

def State.modPower (s : State) (f : Power → Power) : State := { s with power := f s.power }
def State.modClk (s : State) (f : Clock → Clock) : State := { s with clk := f s.clk }

/-! ## Supply (R353, R354); voltages in 10 mV -/

def lowerOf (a b : BitVec 13) : BitVec 13 := if a.toNat ≤ b.toNat then a else b

/-- VIN has fallen below 38.0 V: the brownout throttle is applied, event 0x101 (Table 14.2). -/
def State.brownout (s : State) (v : BitVec 13) : State :=
  if s.power.throttle then s.modPower fun p => { p with vin := v, lowest := lowerOf p.lowest v }
  else ((s.modPower fun p => { p with vin := v, lowest := v, throttle := true, dipTick := s.now }).log 0x101 0 (a2 v.toNat)).pwrBit 0

/-- The power stage turns off after a dip or an overvoltage, and stays off (R354). -/
def State.latchOff (s : State) : State := ((s.declareAll 3).turnOff).modPower fun p => { p with offLatched := true }

/-- VIN has reached 34.0 V: a cold reset; a module that is on declares itself lost, event 0x104 (Table 14.2). -/
def State.powerFail (s : State) (v : BitVec 13) : State :=
  let s1 := if s.power.on then let x := s.brownout v; (x.log 0x104 0 (a2 x.power.lowest.toNat)).declareAll 3 else s
  (s1.modPower fun p => { p with vin := v }).coldReset

/-- VIN is now `v`, and what Table 14.2 gives for that level happens; the standby rail may come up with it. -/
def State.setVin (s : State) (v : BitVec 13) : State :=
  if v.toNat ≤ 3400 ∧ (s.power.on = true ∨ 3400 < s.power.vin.toNat) then s.powerFail v
  else if s.power.on = true ∧ v.toNat < 3800 then s.brownout v
  else
    let s1 := s.modPower fun p => { p with vin := v, offLatched := p.offLatched && Nat.ble 3400 v.toNat }
    let s2 := if !s.standbyUp && s1.standbyUp then s1.standbyRise else s1
    if s.power.on = true ∧ 6300 < v.toNat then (s2.log 0x106 0 (a2 v.toNat)).latchOff else s2

/-- VIN_WARNING: VIN has fallen below 38.0 V; the brownout throttle is applied. -/
def execVinWarning (v : BitVec 13) (s : State) : Out := .next (s.setVin v)

/-- VIN_RECOVERED: VIN is at 39.0 V or above; the throttle is lifted. The dip's length is in REF ticks. [DEDUCED, assumption 62] -/
def execVinRecovered (v : BitVec 13) (s : State) : Out :=
  if s.power.throttle ∧ 3900 ≤ v.toNat then
    .next (((s.modPower fun p => { p with throttle := false }).log 0x102 0 (a4 (s.now - s.power.dipTick) ++ a2 s.power.lowest.toNat)).setVin v)
  else .next (s.setVin v)

/-- BROWNOUT_TIMEOUT: VIN still below 39.0 V 10 ms after the fall. -/
def execBrownoutTimeout (s : State) : Out :=
  if s.power.throttle then .next (s.log 0x103 0 (a2 s.power.lowest.toNat)).latchOff else .next s

/-- POWER_FAIL_RESET: VIN has reached 34.0 V, or is gone; a cold reset. -/
def execPowerFailReset (v : BitVec 13) (s : State) : Out := .next (s.setVin v)

/-- OVERVOLTAGE_TRIP: VIN above 63.0 V; the power stage turns off. -/
def execOvervoltageTrip (v : BitVec 13) (s : State) : Out := .next (s.setVin v)

/-- VIN_GOOD: VIN above 40.0 V; a module that is neither on nor held off begins bring-up at stage 0 (R354, R388). [DEDUCED, assumption 12] -/
def execVinGood (v : BitVec 13) (s : State) : Out :=
  let s1 := s.setVin v
  if 4000 < v.toNat ∧ !s.power.on ∧ !s.power.tripped ∧ !s.power.offLatched then .next (s1.modPower fun p => { p with on := true })
  else .next s1

/-- AUX12_LOST: event 0x105 with state 0; the standby rail moves to VIN, or falls. -/
def execAux12Lost (s : State) : Out :=
  if s.power.auxok then
    let s1 := ((s.modPower fun p => { p with auxok := false }).log 0x105 0 (a4 0)).pwrBit 7
    .next (if s1.standbyUp then s1 else s1.standbyLost)
  else .next s

/-- AUX12_RESTORED: event 0x105 with state 1. -/
def execAux12Restored (s : State) : Out :=
  if s.power.auxok then .next s
  else
    let s1 := s.modPower fun p => { p with auxok := true }
    let s2 := if s.standbyUp then s1 else s1.standbyRise
    .next ((s2.log 0x105 0 (a4 1)).pwrBit 7)

/-! ## The power estimate and the cap loop (R355-R357) -/

/-- Estimates count in units of 0.5 µW: one pJ in 2 µs. [DESIGN CHOICE, assumption 20] -/
def wattUnit : Nat := 2000000

/-- The activity weight of unit `j`: PWR_WEIGHT as written, else the factory's (R355). [DESIGN CHOICE, assumption 19] -/
def State.weight (s : State) (j : Nat) : Nat := (s.power.weights.get (Config.factoryWeight j) j).toNat

/-- Σ w·n over the counters that `sel` names. [DESIGN CHOICE, assumption 20] -/
def State.activity (s : State) (counts : List (Byte × Word)) (sel : Nat → Bool) : Nat :=
  counts.foldl (fun n c => if sel c.1.toNat then n + s.weight c.1.toNat * c.2.toNat else n) 0

/-- The effective cap of R356, in W. [DEDUCED, assumption 64] -/
def State.effCap (s : State) : Nat :=
  let top := profileCap s.power.profile
  if !((List.range s.partCnt).any fun q => (s.part q).runs) then top
  else
    let c := s.phases.foldl (fun n t => min n t.capW) top
    if s.hostMode 0 ∧ s.power.capHost ≠ 0 then min c s.power.capHost.toNat else c

/-- The level after an interval (R357): `e` is P_est and `t` P_TS, both in units, and `cap` in W. -/
def capLevel (b e t cap : Nat) : Nat :=
  if t = 0 then b
  else
    let up := 103 * e - 100 * cap * wattUnit
    let down := 100 * cap * wattUnit - 103 * e
    if 0 < up then min 56 (b + (up * (64 - b) + (103 * t - 1)) / (103 * t))
    else if 0 < down then b - down * (64 - b) / (103 * t)
    else b

/-- Sensors in use that have given a reading. [DEDUCED, assumption 63] -/
def Power.inUse (p : Power) : List (Nat × List (BitVec 16)) := p.temps.filter fun kv => !p.excl.contains kv.1

/-- The hottest valid sensor and its reading. -/
def Power.hottestValid (p : Power) : Nat × BitVec 16 :=
  (p.inUse.foldl (fun (a : Option (Nat × BitVec 16)) kv =>
    let t := kv.2.headD 0
    match a with
    | some x => if x.2.toInt < t.toInt then some (kv.1, t) else a
    | none => some (kv.1, t)) none).getD (0, 0)

/-- POWER_INTERVAL: every 2 µs, with the counts of the activity counters. [DESIGN CHOICE, assumption 20] -/
def execPowerInterval (counts : List (Byte × Word)) (s : State) : Out :=
  let e := Config.pLeak (vcodeOf (s.opFreqOf s.power.opCur)) s.power.hottestValid.2.toInt * wattUnit + s.activity counts fun _ => true
  let t := s.activity counts Config.tsCounter
  let cap := s.effCap
  let b := capLevel s.power.lvl.toNat e t cap
  .next (s.modPower fun p => { p with
    est := BitVec.ofNat 11 (min 2047 (e / wattUnit)), ts := BitVec.ofNat 11 (min 2047 (t / wattUnit)), capEff := BitVec.ofNat 11 cap
    lvl := BitVec.ofNat 6 b, over56 := b == 56 && decide (100 * cap * wattUnit < 103 * e) })

/-- CAP_NOT_HELD: at level 56 for 1 ms with the power above the cap; at most once per phase. -/
def execCapNotHeld (s : State) : Out :=
  if s.power.over56 ∧ !s.power.capMissed then
    .next (((s.modPower fun p => { p with capMissed := true }).log 0x110 0 (a2 s.power.capEff.toNat ++ a2 s.power.est.toNat)).pwrBit 1)
  else .next s

/-- HOST_CAP_EXPIRE: the interval of a host cap ends without a new one; the last cap holds (R356, R41). [DEDUCED, assumption 64] -/
def execHostCapExpire (s : State) : Out :=
  if s.power.capOpen then .next ((s.modPower fun p => { p with capOpen := false }).log 0x9F0 0 (a4 0 ++ w4 0)) else .next s

/-! ## Operating-point changes (R362, R364) -/

/-- The droop has been released. -/
def Power.released (p : Power) : Bool := !p.droopNow && !p.burst

/-- The point that the idle PLL is locked for: the target of a change, or the next point in a running timeline. -/
def State.nextPoint (s : State) : Nat :=
  match s.power.chg with
  | some c => c.target
  | none =>
    let look (q : Nat) : Option Nat :=
      match (s.part q).plan, s.phaseOf q with
      | some pl, some t =>
        let i := pl.timeline.findIdx fun x => x.tag == t.tag
        ((pl.timeline.drop (i + 1) ++ pl.timeline.take i).map fun x => min x.op (profileTop s.power.profile)).find? fun o => o != s.power.opCur
      | _, _ => none
    ((List.range s.partCnt).findSome? look).getD s.power.opCur

/-- PLL_LOCKED: the idle PLL has the frequency of the next planned point. -/
def execPllLocked (s : State) : Out := .next (s.modPower fun p => { p with pllMhz := some (s.opMhz s.nextPoint) })

/-- The clock switches to the locked PLL, and the old one becomes idle. -/
def State.switchClock (s : State) (c : OpChange) : State :=
  s.modPower fun p => { p with opCur := c.target, pllMhz := some p.mhz, mhz := s.opMhz c.target }

/-- The change is over; where another boundary has moved the point meanwhile, the next one begins at once (Table 14.8). -/
def State.endChange (s : State) (target : Nat) : State :=
  let p := s.power
  s.modPower fun p' => { p' with
    chg := if p.opWant ≠ target ∧ p.opWant ≠ p.opCur then some (s.newChange p.opWant p.wantTag) else none }

/-- OP_CHANGE_START: step 1 of Table 14.5, with the droop released and the PLL locked; no raise under the brownout throttle. -/
def execOpChangeStart (s : State) : Out :=
  match s.power.chg with
  | none => .next s
  | some c =>
    if c.step = 0 ∧ s.power.released ∧ s.power.pllMhz = some (s.opMhz c.target) ∧ !(c.raise && s.power.throttle) then
      let s1 := if c.raise then s else (s.switchClock c).bump 276 1
      .next (s1.modPower fun p => { p with chg := some { c with step := 1 } })
    else .next s

/-- OP_RAMP_END: a raise switches its clock now; a lower is over. -/
def execOpRampEnd (s : State) : Out :=
  match s.power.chg with
  | none => .next s
  | some c =>
    if c.step = 1 ∧ !(c.raise && (!s.power.released || s.power.throttle)) then
      .next ((if c.raise then (s.switchClock c).bump 276 1 else s).endChange c.target)
    else .next s

/-- OP_CHANGE_ABANDON: 20 µs have passed before the clock switch. -/
def execOpChangeAbandon (s : State) : Out :=
  match s.power.chg with
  | none => .next s
  | some c =>
    if c.raise ∨ c.step = 0 then
      let s1 := (s.modPower fun p => { p with abandoned := satInc p.abandoned 1 }).bump 277 1
      .next (((s1.log 0x121 0 (a4 c.from_ ++ a4 c.target ++ a2 c.tag.toNat)).pwrBit 2).endChange c.target)
    else .next s

/-! ## Droop (R363) -/

/-- A burst begins: counted, with event 0x130 at most once per second. -/
def State.beginBurst (s : State) : State :=
  let s1 := ((s.modPower fun p => { p with droopNow := true, burst := true, droopCnt := satInc p.droopCnt 1 }).pwrBit 3).bump 272 1
  if s.dueEvent s.power.droopTick then
    (s1.log 0x130 0 (a4 s1.power.droopCnt.toNat)).modPower fun p => { p with droopTick := some s.now }
  else s1

/-- DROOP_TRIP. -/
def execDroopTrip (_detector : BitVec 6) (s : State) : Out :=
  if s.power.on then
    if s.power.burst then .next (s.modPower fun p => { p with droopNow := true }) else .next s.beginBurst
  else .next s

/-- DROOP_BURST_END: a new burst begins while a detector stays tripped. -/
def execDroopBurstEnd (still : Bool) (s : State) : Out :=
  if s.power.burst then
    if still then .next s.beginBurst else .next (s.modPower fun p => { p with burst := false })
  else .next s

/-- DROOP_RELEASE: no detector has tripped for 32 cycles. -/
def execDroopRelease (s : State) : Out :=
  if s.power.burst then .next s else .next (s.modPower fun p => { p with droopNow := false })

/-! ## Heat (R365-R368); temperatures in 1/16 °C -/

/-- A trip (R368): `src` is the sensor, or 0xFF for SHUTDOWN_N. [DEDUCED, assumption 62] -/
def State.trip (s : State) (src : Nat) : State :=
  let s1 := ((s.log 0x204 0 (a4 src)).declareAll 3).turnOff
  { s1 with power := { s1.power with tripped := true, thermN := true }, boot := { s1.boot with faultN := true } }

/-- A reading outside −40 to 150 °C. [DEDUCED, assumption 63] -/
def wildTemp (t : BitVec 16) : Bool := decide (t.toInt < -640) || decide (2400 < t.toInt)

/-- Sensor `i` gives reading `t`, or is excluded: event 0x205. [DEDUCED, assumption 63] -/
def State.readSensor (s : State) (bad : List (BitVec 7)) (i : Nat) (t : BitVec 16) : State :=
  if s.power.excl.contains i then s
  else if wildTemp t ∨ bad.any (fun x => x.toNat == i) then
    ((s.modPower fun p => { p with excl := i :: p.excl }).log 0x205 0 (a4 i)).pwrBit 6
  else s.modPower fun p => { p with temps := p.temps.set i ((t :: p.temps.get [] i).take 11) }

/-- Tmax (R365): the hottest valid sensor; with 8 or more excluded, at least 105.0 °C. -/
def Power.hottest (p : Power) : Nat × BitVec 16 :=
  let x := p.hottestValid
  if 8 ≤ p.excl.length ∧ x.2.toInt < 1680 then (x.1, 1680) else x

/-- How far a sensor has risen over its last 10 samples. [DEDUCED, assumption 62] -/
def riseOf (l : List (BitVec 16)) : Int := match l[10]? with | some o => (l.headD 0).toInt - o.toInt | none => 0

/-- The first sensor that rises by more than 1.0 K in 10 samples, and by how much. -/
def Power.rising (p : Power) : Option (Nat × Int) := (p.inUse.find? fun kv => decide (16 < riseOf kv.2)).map fun kv => (kv.1, riseOf kv.2)

/-- The thermal level of R367. -/
def thermLevel (bt : Nat) (tmax : Int) (fast : Bool) : Nat :=
  if 1680 ≤ tmax ∨ fast then min 56 (bt + 4) else if tmax < 1648 then bt - 1 else bt

/-- THERMAL_SAMPLE: every 10 µs, the sensors' readings and those that failed their self-check. -/
def execThermalSample (temps : List (BitVec 16)) (bad : List (BitVec 7)) (s : State) : Out :=
  if !s.power.on then .next s
  else
    let s0 := ((temps.take 96).mapIdx fun i t => (i, t)).foldl (fun s x => s.readSensor bad x.1 x.2) s
    let (i, t) := s0.power.hottest
    let fast := s0.power.rising
    let bt := s0.power.thm.toNat
    let n := thermLevel bt t.toInt fast.isSome
    let hot := decide (1600 ≤ t.toInt)
    let s1 := if hot && !s0.power.thermN then (s0.log 0x201 0 (a4 i ++ aT t)).pwrBit 4 else s0
    let s2 := if 1680 ≤ t.toInt ∧ bt = 0 then (s1.log 0x202 0 (aT t)).pwrBit 5 else s1
    let s3 := match fast with
      | some x => if s0.power.early then s2 else (s2.log 0x203 0 (a4 x.1 ++ a4 x.2.toNat)).pwrBit 5
      | none => s2
    let s4 := s3.modPower fun p => { p with
      tmax := t, tsensor := BitVec.ofNat 7 i, thm := BitVec.ofNat 6 n, early := fast.isSome
      thermN := hot || (p.thermN && decide (1552 ≤ t.toInt)) }
    .next (if 1840 ≤ t.toInt then s4.trip i else s4)

/-- SHUTDOWN_N_LOW for 1 µs (R453). [DEDUCED, assumption 62] -/
def execShutdownNLow (s : State) : Out := if s.power.on then .next (s.trip 0xFF) else .next s

/-! ## REF (R370, R372) -/

/-- REF_LOSS: the holdover counts. -/
def execRefLoss (s : State) : Out :=
  if s.clk.lock then
    .next (((s.modClk fun c => { c with refIn := false, lock := false, hold := true, holdTick := s.now }).log 0x1C0 0 (a8 s.now)).clkBit 0)
  else .next (s.modClk fun c => { c with refIn := false })

/-- REF_RESTORE: the counter returns to REF, or locks to it in bring-up. -/
def execRefRestore (s : State) : Out :=
  if s.clk.hold then
    .next ((s.modClk fun c => { c with refIn := true, lock := true, hold := false }).log 0x1C1 0 (a4 (s.now - s.clk.holdTick)))
  else .next (s.modClk fun c => { c with refIn := true, lock := c.lock || (s.power.on && Nat.ble 1 s.boot.stage && !s.boot.failed) })

/-- REF_DRIFT_CHECK, once per second, with the worst up lane's drift in ppb. [DEDUCED, assumption 62] -/
def execRefDriftCheck (ppb : BitVec 16) (p : Port) (c : Colour) (s : State) : Out :=
  let run := if 100 < ppb.toInt.natAbs then s.clk.driftRun + 1 else 0
  let s1 := s.modClk fun k => { k with drift := ppb, driftPort := BitVec.ofNat 5 p, driftCol := BitVec.ofNat 5 c, driftRun := run }
  let due : Bool := match s.clk.driftTick with | some t => decide (t + 60 * ticksPerSec ≤ s.now) | none => true
  if 10 ≤ run ∧ due then
    .next (((s1.modClk fun k => { k with driftTick := some s.now }).log 0x1C2 0 (w4 (toFp (Val.ofZ ppb.toInt)) ++ a1 p ++ a1 c)).clkBit 1)
  else .next s1

/-! ## STEP (R371, R455, R456) -/

/-- Table 18.6: a word with its marker, its CRC and zeros at its end. -/
def stepWordOk (w : BitVec 96) : Bool :=
  let n := w.toNat
  fld n 0 16 == 0xD42B && fld n 86 8 == crc8 86 n && fld n 94 2 == 0

def stepWord (tick : Dword) (hop : Nat) : BitVec 96 :=
  let n := 0xD42B + tick.toNat * 2 ^ 16 + hop % 64 * 2 ^ 80
  BitVec.ofNat 96 (n + crc8 86 n * 2 ^ 86)

/-- The count has been set: the stage under way keeps the time it has lasted. -/
def State.movedTick (s : State) (old : Dword) : State := { s with boot := { s.boot with since := s.boot.since + (s.clk.tick - old) } }

/-- STEP_WORD_RECEIVE: at bring-up the word sets the count; afterwards it is compared with it.
[DEDUCED, assumption 62; DESIGN CHOICE, assumption 66] -/
def execStepWordReceive (w : BitVec 96) (s : State) : Out :=
  if stepWordOk w ∧ s.clk.counting then
    let n : Dword := BitVec.ofNat 64 (fld w.toNat 16 64) + 4
    let s1 := s.modClk fun c => { c with hop := BitVec.ofNat 6 (fld w.toNat 80 6) }
    if !s.clk.stepLock then .next ((s1.modClk fun c => { c with tick := n, stepLock := true, head := false }).movedTick s.clk.tick)
    else if n = s.clk.tick ∨ s.boot.stage < 8 then .next s1
    else if s.dueEvent s.clk.misTick then
      .next (((s1.modClk fun c => { c with misTick := some s.now }).log 0x1C3 0 (w4 (BitVec.ofInt 32 (max (-2147483648) (min 2147483647 ((n.toNat : Int) - s.now)))))).clkBit 2)
    else .next s1
  else .next s

/-- STEP_WORD_SEND: at every multiple of 65,536; a module that receives HOP = 63 sends none. [DESIGN CHOICE, assumption 66] -/
def execStepWordSend (s : State) : Out :=
  let c := s.clk
  if c.stepLock ∧ c.counting ∧ s.now % 65536 = 0 ∧ (c.head ∨ c.hop ≠ 63) then
    .next (s.modClk fun c => { c with stepOut := c.stepOut ++ [stepWord c.tick (if c.head then 0 else c.hop.toNat + 1)] })
  else .next s

/-- STEP_WORD_ABSENT: a module without words within 10 ms at bring-up heads the chain; afterwards event 0x1C4. [DESIGN CHOICE, assumption 66] -/
def execStepWordAbsent (s : State) : Out :=
  if !s.clk.counting then .next s
  else if !s.clk.stepLock then
    .next ((s.modClk fun c => { c with
      tick := BitVec.ofNat 64 ((c.sec.toNat * 1000000000 + c.ns.toNat) * 5 / 32), stepLock := true, head := true, hop := 0 }).movedTick s.clk.tick)
  else if s.boot.stage < 8 then .next s
  else .next ((s.log 0x1C4 0 []).clkBit 3)

/-! ## The calendar (R374, R375) -/

/-- BACKUP_CHARGE_CHECK, 120 s after the standby rail came up; the voltage in 20 mV. [DEDUCED, assumption 61] -/
def execBackupChargeCheck (bkv : Byte) (s : State) : Out :=
  let s1 := s.modClk fun c => { c with bkv := bkv }
  if bkv.toNat < 135 then .next ((s1.log 0x1E2 0 (a2 (2 * bkv.toNat))).clkBit 6) else .next s1

/-- CLK_CAL_CMD.SET (R375). [DESIGN CHOICE, assumption 66] -/
def State.calSetNow (s : State) : State :=
  let ns := fld s.clk.setLo.toNat 0 30
  let sec := fld s.clk.setLo.toNat 30 2 + 4 * s.clk.setHi.toNat
  let old := s.calendar
  let new : Dword := BitVec.ofNat 64 (sec * 2 ^ 30 + ns)
  if ns < 1000000000 ∧ (!s.clk.valid ∨ old ≤ new) then
    let s1 := s.modClk fun c => { c with sec := BitVec.ofNat 34 sec, ns := BitVec.ofNat 30 ns, calSub := 0, valid := true }
    (s1.log 0x1E1 0 (a8 old.toNat ++ a8 new.toNat)).clkBit 4
  else s.clkBit 5

/-- CAL_SET. -/
def execCalSet (s : State) : Out := .next s.calSetNow

end Sys2Proof.Machine
end

