-- ==== Sys2Proof/Machine/Boot.lean ====
section
/-!
DEFINITION. Machine/Boot.lean: bring-up, cold and warm, stage by stage (R388-R390), firmware's authentication (R435, R437), discovery
(R391-R393), and ready with what waited for it (R385, R394). The table of operations gives a stage's failures no form; `failed` of
BRINGUP_STAGE_END lists them: in stage 1 code 4, REF absent; in stage 2 the stacks 0-7 that failed training, and 8 plus the number of a
physical engine that failed its self-test; in stage 3 the Peat banks without enough spare lines; in stage 4 the islands 0-7; in stage 5
the comb instances 0-15 (in a warm bring-up's stage 4-5 the islands, and 8 plus a comb instance); in stage 6 the rings, as 640 times the
direction plus 20 times the port plus the colour.
-/

namespace Sys2Proof.Machine

def State.modBoot (s : State) (f : Boot → Boot) : State := { s with boot := f s.boot }

/-! ## Stopping (R389) -/

/-- Bring-up stops: MODCTL_STAGE.FAILED and the cause, FAULT_N, event 0xB30. -/
def State.stageFail (s : State) (cause : Nat) : State :=
  ((s.modBoot fun b => { b with failed := true, cause := BitVec.ofNat 8 cause, faultN := true }).log 0xB30 0
    (a1 s.boot.stage ++ a1 cause)).modBit 2

/-! ## Stage 0 -/

/-- PWR_GOOD goes high, a release of PERST_N that waited takes effect (R451), and a calendar that its backup lost restarts (R374). -/
def State.stage0 (s : State) : State :=
  let s1 := s.modBoot fun b => { b with pwrGood := true, perst := b.perst && !b.perstRelease, perstRelease := false }
  let s2 := if s1.clk.calLost then
      (s1.modClk fun c => { c with sec := 0, ns := 0, calSub := 0, hiCal := 0, slew := 0, valid := false, calLost := false }).log 0x1E0 0 []
    else s1
  s2.modClk fun c => { c with lock := c.refIn }

/-! ## Stage 1: firmware (R435, R437) -/

/-- Firmware copy B or A (R435). [DEDUCED, assumption 71] -/
def State.copyOf (s : State) (b : Bool) : FwCopy := if b then s.host.copyB else s.host.copyA

/-- The lowest key slot that has not been revoked. [DEDUCED, assumption 71] -/
def State.keySlot (s : State) : Option Nat := (List.range 2).find? fun k => !s.host.revoked.getLsbD k

/-- A copy is taken, or skipped with event 0xA01 or 0xA02. [DEDUCED, assumption 71] -/
def State.tryCopy (s : State) (b : Bool) : Bool × State :=
  let c := s.copyOf b
  let bad (s : State) : State := { s with host := { s.host with secStat := setBit s.host.secStat 0 } }
  if !c.sigOk || s.keySlot.isNone then (false, bad (s.log 0xA01 0 (a4 b.toNat)))
  else if c.svn < s.host.fuseSvn then (false, bad (s.log 0xA02 0 (a4 b.toNat ++ a4 c.svn.toNat ++ a4 s.host.fuseSvn.toNat)))
  else (true, { s with host := { s.host with activeB := b, nextB := b, auth := true } })

/-- Measurements 1 and 2 (Table 17.9); the fields of index 1 in their order, little-endian. [DEDUCED, assumption 71] -/
def State.measBoot (s : State) : State :=
  let c := s.copyOf s.host.activeB
  (s.setMeas 1 (sha384 (leBytes 2 s.host.romVer.toNat ++ a1 (s.keySlot.getD 0) ++ a1 s.host.fuseSvn.toNat))).setMeas 2
    (if c.hash.isEmpty then Config.factoryHash else c.hash)

/-- The boot ROM takes the copy last activated first. -/
def State.stage1 (s : State) (failed : List Nat) : State :=
  if failed.contains 4 ∨ s.clk.refIn = false then (s.modClk fun c => { c with lock := false }).stageFail 4
  else
    let (ok, s1) := s.tryCopy s.host.nextB
    if ok then s1.measBoot
    else
      let (ok2, s2) := s1.tryCopy (!s.host.nextB)
      if ok2 then s2.measBoot else s2.stageFail 1

/-! ## Stage 2: DRAM and engines (R82, R177, R181) -/

/-- First number of kind `k` among the physical engines. [DESIGN CHOICE, assumption 15] -/
def physBase (k : Nat) : Nat := (List.range k).foldl (fun n j => n + kindCount j + spareTotal j) 0

/-- The physical engine of number `n`, as 256 times its kind plus its ID. [DESIGN CHOICE, assumption 15] -/
def physOf (n : Nat) : Option Nat :=
  (List.range 5).findSome? fun k =>
    if physBase k ≤ n ∧ n < physBase k + kindCount k + spareTotal k then some (256 * k + (n - physBase k)) else none

/-- A logical engine whose physical engine failed is mapped to a spare; without one it is not valid. [DESIGN CHOICE, assumption 15] -/
def State.mapEngine (s : State) (e : Nat) : State :=
  let k := (kindOf e).code
  if s.deadPhys.contains (256 * k + logicalId e) then
    match s.sparesLeft k with
    | n :: _ => { s with engMaps := s.engMaps.set e ⟨BitVec.ofNat 8 n, true⟩ }
    | [] => ({ s with engMaps := s.engMaps.set e ⟨BitVec.ofNat 8 (logicalId e), false⟩ }).modEng e fun x => { x with run := .retired }
  else s

/-- Stacks that failed their training stop bring-up (MEM_STACK.STATE = 3). -/
def State.stackFail (s : State) (failed : List Nat) : State :=
  (s.modBoot fun b => { b with stacksBad := failed.foldl (fun m f => if f < 8 then setBit m f else m) 0 }).stageFail 2

/-- Stage 2: the self-tests' failures, the engine map, and one key draw for each partition (R181, R389). [DEDUCED, assumption 104] -/
def State.stage2 (s : State) (failed : List Nat) : State :=
  if failed.any fun f => decide (f < 8) then s.stackFail failed
  else
    let s1 := { s with deadPhys := failed.filterMap fun f => physOf (f - 8) }
    let s2 := (List.range 200).foldl State.mapEngine s1
    (List.range s2.partCnt).foldl State.drawKey s2

/-! ## Stages 4 to 6: light (R226, R229, R230, R236) -/

/-- Retire a lane in both directions. -/
def State.retireBoth (s : State) (p c cause : Nat) : State := (s.retireLane p c .tx cause).retireLane p c .rx cause

/-- Island `e` stands at 80.0 °C, or is lost. -/
def State.heatIsland (s : State) (failed : List Nat) (e : Nat) : State :=
  if failed.contains e then
    let s1 := (s.setIsland e { s.island e with lost := true }).log 0x321 0 (a1 e)
    (engLanes e).foldl (fun s x => s.retireBoth x.1 x.2 6) s1
  else s.setIsland e { temp := 1280, inband := true }

/-- A source is on in service, at a drive that R231 bounds. [DESIGN CHOICE, assumption 26] -/
def State.serveComb (s : State) (i : Nat) : State :=
  let (n, s1) := s.takeFree
  s1.modComb i fun x => { x with st := .service, drive := BitVec.ofNat 10 (300 + Config.combStart n % 701) }

/-- A switch that was pending or under way is complete: the old source is retired (Table 15.6). -/
def State.bootSwitch (s : State) (i : Nat) : State :=
  let x := s.comb i
  if x.pend || x.switching then
    (s.setComb i { x with
      st := if x.st = .failed then .failed else .retired, pend := false, switching := false, lastTick := s.clk.tick
      worst := noSignal, worstPort := 0, worstCol := 0 }).log 0xB50 0 (a1 i)
  else s

/-- The sources of engine `e`: the primary in service where it works, the other warm at 30 % (Table 9.8); a standby that serves leaves no
spare (R236). A standby that was to be warm fails with event 0x315. -/
def State.lightCombs (s : State) (failed : List Nat) (e : Nat) : State :=
  let dead (s : State) (i : Nat) : State :=
    if failed.contains i ∧ (s.comb i).st = .off then
      (((s.modComb i fun x => { x with st := .failed }).log (if i % 2 = 1 ∧ (s.comb (2 * e)).st = .off then 0x315 else 0x313) 0 (a1 i)).combBit i 2)
    else s
  let s1 := dead (dead ((s.bootSwitch (2 * e)).bootSwitch (2 * e + 1)) (2 * e)) (2 * e + 1)
  let a := (s1.comb (2 * e)).st == .off
  let b := (s1.comb (2 * e + 1)).st == .off
  if a && b then (s1.serveComb (2 * e)).modComb (2 * e + 1) fun x => { x with st := .warm, drive := 300 }
  else if a then (s1.serveComb (2 * e)).combBit (2 * e) 3
  else if b then ((s1.serveComb (2 * e + 1)).combBit (2 * e + 1) 3).log 0x314 0 (a1 e)
  else (engLanes e).foldl (fun s x => s.retireLane x.1 x.2 .tx 7) s1

/-- The combs of a warm bring-up have stayed powered; one that failed is handled as R235 and R236 give. -/
def State.checkComb (s : State) (failed : List Nat) (i : Nat) : State :=
  if failed.contains (8 + i) ∧ (s.comb i).st = .service then s.sourceFails i
  else if failed.contains (8 + i) ∧ (s.comb i).st = .warm then s.standbyFails i
  else if failed.contains (8 + i) ∧ (s.comb i).st ≠ .retired ∧ (s.comb i).st ≠ .failed then
    (((s.modComb i fun x => { x with st := .failed }).log 0x313 0 (a1 i)).combBit i 2).combBit (otherComb i) 3
  else s

def State.calibrate (s : State) (failed : List Nat) : State := s.calibratePorts (List.range 32) failed

/-! ## Stage 7: discovery (R391, R449) -/

/-- The axis of an outer plane set. -/
def planeAxis (pl : Nat) : Nat := (pl - 1) / 2

/-- Ports that take part in discovery: the inner ones, and, with the carr's place known, the outer ones of every axis longer than 1. -/
def State.discovers (s : State) (p : Nat) : Bool :=
  Nat.blt p 16 || (s.router.coordKnown && s.router.extKnown && Nat.blt 1 (s.extent (planeAxis (portPlane p))))

/-- A lane begins to train for discovery. -/
def State.openLane (s : State) (p c : Nat) : State :=
  (s.modTx p c fun l => if l.st = .dark then { l with st := .training } else l).modRx p c fun l =>
    if l.st = .dark then { l with st := .training } else l

/-- Stage 7 begins: which lanes light. A quarantined module lights port 0 alone; one on no board of a carr lights none. [DEDUCED, assumption 72] -/
def State.discover (s : State) : State :=
  if 5 ≤ s.boot.brd.toNat then s.log 0xB43 0 (a4 s.boot.brd.toNat ++ a4 s.boot.pos.toNat)
  else
    let inner (c : Nat) : Bool := decide (c ≠ 0)
    if s.boot.quar then (List.range 20).foldl (fun s c => if inner c then s.openLane 0 c else s) s
    else
      let s1 := allLanes.foldl (fun s x => if s.discovers x.1 && (Nat.ble 16 x.1 || inner x.2) then s.openLane x.1 x.2 else s) s
      if s1.router.coordKnown && s1.router.extKnown then s1 else s1.log 0xB42 0 []

/-- A colour that nothing names goes dark. -/
def State.settleLane (s : State) (p c : Nat) : State :=
  let tx := (s.tx p c).lit || (p == 0 && s.keepsMate ((s.slot + c) % 20))
  let rx := (s.rx p c).open_ || (p == 0 && s.keepsMate (rxSource s.slot c))
  let s1 := if tx then s else s.modTx p c fun l => if l.st = .retired then l else { l with st := .dark }
  if rx then s1 else s1.modRx p c fun l => if l.st = .retired ∨ l.st = .closed then l else l.darkened

/-- Outer ports join discovery once the carr's place is known (R391): they light, and 16 HELLOs are due on them. [DESIGN CHOICE, assumption 125] -/
def State.joinOuter (s : State) : State :=
  if s.boot.quar ∨ 5 ≤ s.boot.brd.toNat ∨ s.boot.stage < 7 then s
  else
    ((allLanes.filter fun x => Nat.ble 16 x.1 && s.discovers x.1).foldl (fun s x => s.openLane x.1 x.2) s).modBoot fun b => { b with helloCnt := 0 }

/-- HELLO_SEND: at 1 ms intervals, 16 times, on every colour that is up. After ready, the last of them ends the outer ports' late discovery.
[DESIGN CHOICE, assumption 125] -/
def execHelloSend (s : State) : Out :=
  if 7 ≤ s.boot.stage ∧ s.boot.helloCnt < 16 ∧ s.boot.brd.toNat < 5 then
    let s1 := (allLanes.foldl (fun s x => if s.boot.stage = 7 ∨ 16 ≤ x.1 then s.helloOn x.1 x.2 else s) s).modBoot fun b =>
      { b with helloCnt := b.helloCnt + 1 }
    .next (if s.boot.stage = 8 ∧ s.boot.helloCnt = 15 then (allLanes.filter fun x => Nat.ble 16 x.1).foldl (fun s x => s.settleLane x.1 x.2) s1 else s1)
  else .next s

/-- HELLO_REPEAT: after ready, on each port 0 colour without an answer, which is lit for it, and on each colour that has retrained. -/
def execHelloRepeat (s : State) : Out :=
  if s.isReady ∧ s.boot.brd.toNat < 5 then
    let s1 := (List.range 20).foldl (fun s c =>
      if c = 0 ∨ (s.boot.disc.get 0 0).getLsbD (backColour c) then s
      else
        let s1 := s.helloOn 0 c
        (s1.modTx 0 c fun l => if l.st = .dark then { l with st := .training } else l).modRx 0 (backColour c) fun l =>
          if l.st = .dark then { l with st := .training } else l) s
    .next (allLanes.foldl (fun s x =>
      if (s.tx x.1 x.2).helloDue && (s.tx x.1 x.2).st == .up then (s.helloOn x.1 x.2).modTx x.1 x.2 fun l => { l with helloDue := false }
      else s) s1)
  else .next s

/-! ## Ready (R385, R388, R393, R394) -/

/-- After a warm bring-up the streams of a loaded plan are placed again from its image, and a held partition reports with every flag
clear (R385). -/
def State.restorePart (s : State) (q : Nat) : State :=
  match (s.part q).plan with
  | none => s
  | some pl =>
    let (ok, s) := s.readOnward q [(pl.imgAt, pl.imgLen)]
    let s1 := s.copyStreams (s.image q { addr := pl.imgAt, len := pl.imgLen, fn := none, tag := 0 } false)
    if !ok then s
    else if (s.part q).hold = .none then s1
    else
      let s2 := s1.modPart q fun x => { x with hold := .held }
      s2.sendReport q pl { s2.ownReport q pl with flags := 0 }

/-- A stream of a resync goes on from the chunk after the last completed: event 0x908 (Table 13.4). A spare's load begins again. -/
def State.resumeJournal (s : State) (j0 : Journal) : State :=
  let j := { j0 with got := [] }
  let s1 := (s.modJournal j0.same fun _ => j).log 0x908 j.part (w4 j.resync ++ a4 j.last)
  if j.sender then s1.sendChunk j j.last else s1.spareImage j.part j

/-- What waited for ready is taken now (Table 15.6). -/
def State.takeWaiting (s : State) : State :=
  let s1 := (s.modBoot fun b => { b with partWanted := 0 }).partResets s.boot.partWanted
  match s.boot.warmWanted with
  | none => s1
  | some k =>
    let s2 := s1.modBoot fun b => { b with warmWanted := none }
    if k = 5 then s2.warmReset 5 1 else s2.warmRequest

/-- MODCTL_LAST.KIND as a row of Table 15.1. -/
def kindRow (last : Nat) : Nat := if last = 0 then 0 else if last ≤ 3 then 1 else 2

/-- Stage 8: event 0xB01, FAULT_N released, and only the colours that R393 names stay lit. -/
def State.becomeReady (s : State) : State :=
  let w := s.boot.warm
  let s0 := (s.modBoot fun b => { b with stage := 8, faultN := b.quar, helloCnt := 16 }).log 0xB01 0 (a1 (kindRow s.boot.lastKind.toNat) ++ a1 w.toNat ++ a4 s.boot.elapsed)
  let s1 := allLanes.foldl (fun s x => s.settleLane x.1 x.2) (s0.modBit 0)
  let s2 := if w then
      ((List.range s1.partCnt).foldl State.restorePart s1)
    else s1
  let s3 := if w then (s2.host.journals.filter fun j => j.open_).foldl State.resumeJournal s2 else s2
  let s4 := if s3.boot.reinstating then (s3.modBoot fun b => { b with reinstating := false }).log 0x921 0 (a4 s.slot) else s3
  s4.takeWaiting

/-! ## The stages (R388, R390) -/

/-- The stage under way may end: the module is on, and PERST_N is released unless PWR_GOOD has still to rise. [DESIGN CHOICE, assumption 67] -/
def State.stageMayEnd (s : State) : Bool :=
  s.power.on && !s.boot.failed && decide (s.boot.stage < 8)
  && (if s.boot.stage = 0 then Nat.ble 4000 s.power.vin.toNat && (!s.boot.perst || !s.boot.pwrGood) else !s.boot.perst)

/-- The work of the stage under way, with its failures. [DESIGN CHOICE, assumption 67] -/
def State.stageWork (s : State) (failed : List Nat) : State :=
  if s.boot.stage = 0 then s.stage0
  else if s.boot.stage = 1 then (if s.boot.warm then s else s.stage1 failed)
  else if s.boot.stage = 2 then (if s.boot.warm then (if failed.any fun f => decide (f < 8) then s.stackFail failed else s) else s.stage2 failed)
  else if s.boot.stage = 3 then (if failed.isEmpty then s else s.stageFail 3)
  else if s.boot.stage = 4 then
    let s1 := (List.range 8).foldl (fun s e => if s.boot.warm && !failed.contains e then s else s.heatIsland failed e) s
    if s.boot.warm then (List.range 16).foldl (fun s i => s.checkComb failed i) s1 else s1
  else if s.boot.stage = 5 then (List.range 8).foldl (fun s e => s.lightCombs failed e) s
  else if s.boot.stage = 6 then (s.calibrate failed).discover
  else s

/-- BRINGUP_STAGE_END: the stage under way ends after `ms` and the next begins; stage 1 ends with the tick count set, unless REF is absent (R388).
[DESIGN CHOICE, assumption 3; DESIGN CHOICE, assumption 67] -/
def execBringupStageEnd (failed : List (BitVec 11)) (ms : BitVec 13) (s : State) : Out :=
  if s.stageMayEnd ∧ (s.boot.stage = 1 → s.clk.stepLock = true ∨ s.clk.refIn = false ∨ failed.contains 4 = true) then
    let n := s.boot.stage
    let s1 := s.modBoot fun b => { b with stime := b.stime.set n ms.toNat, elapsed := min 0x1FFF (b.elapsed + ms.toNat), since := s.clk.tick }
    let s2 := s1.stageWork (failed.map BitVec.toNat)
    if s2.boot.failed then .next s2
    else if n = 7 then .next s2.becomeReady
    else .next (s2.modBoot fun b => { b with stage := if n = 4 ∧ b.warm then 6 else n + 1 })
  else .next s

/-- BRINGUP_STAGE_OVERRUN: event 0xB31, and the stage goes on. [DESIGN CHOICE, assumption 7] -/
def execBringupStageOverrun (ms : BitVec 13) (s : State) : Out :=
  if s.power.on ∧ !s.boot.failed ∧ s.boot.stage < 8 then .next ((s.log 0xB31 0 (a1 s.boot.stage ++ a4 ms.toNat)).modBit 3) else .next s

end Sys2Proof.Machine
end

