-- ==== Sys2Proof/Machine/Requests.lean ====
section
/-!
DEFINITION. Machine/Requests.lean: the host's decisions and the module-wide requests of Table 17.5 (R348, R349, R356, R423, R426-R428,
R430).
-/

namespace Sys2Proof.Machine

/-! ## CAP (R356) -/

/-- CAP: a cap of 300-1,500 W for an interval of 1-1,000 ms, under host-assisted power. [DEDUCED, assumption 59] -/
def State.capReq (s : State) (r : Req) (watts ms : Nat) : State :=
  if watts < 300 ∨ 1500 < watts ∨ ms = 0 ∨ 1000 < ms then s.respond r 8 3 []
  else if !s.hostMode 0 then s.respond r 8 4 []
  else (s.modPower fun p => { p with capHost := BitVec.ofNat 11 watts, capOpen := true }).respond r 8 0 []

/-- CAP. -/
def execCap (r : Req) (watts ms : BitVec 16) (s : State) : Out :=
  .next (s.request r 8 .pf true fun s => s.capReq r watts.toNat ms.toNat)

/-! ## DECIDE (R426) -/

/-- The function that Table 2.7 names, by its number in PROPOSE, and the partition concerned. [DESIGN CHOICE, assumption 80] -/
def Proposal.fnOf : Proposal → Nat × Nat
  | .comb _ => (1, 0)
  | .lane _ _ _ => (2, 0)
  | .replace q => (3, q)
  | .numerics q _ => (4, q)

/-- Whether function `f` received the PROPOSE (Table 17.7). -/
def Proposal.toFn (w : Proposal) (f : Nat) : Bool :=
  f == 0 || (match w with | .numerics q _ => f == q + 1 | _ => false)

/-- The answers that a function has (Table 17.7); the slot of a replacement is one of a carr's 20. -/
def Proposal.has (w : Proposal) (answer slot : Nat) : Bool :=
  answer == 1 || (answer == 2 && (match w with
    | .comb _ => false
    | .lane _ _ _ => true
    | .replace _ => decide (slot < 20)
    | .numerics _ _ => true))

/-- What an accepted answer does: a comb switch or a retirement is approved, a lane retrains once, a spare is admitted, a step is
skipped or the slice stops (R237, R240, R333, R427). [DEDUCED, assumption 44] -/
def State.applyAnswer (s : State) (d : Decision) (answer slot : Nat) (step : Dword) : State :=
  match d.what with
  | .comb i => s.modComb i fun x => if x.decision = some d.ident then { x with approved := true } else x
  | .lane p c dir =>
    if answer = 1 then s.retireLane p c dir (s.retCauseOf p c dir)
    else if (match dir with | .tx => (s.tx p c).outOfTraffic | .rx => (s.rx p c).outOfTraffic) then s.startTrain p c dir 5 true else s
  | .replace q => s.replaceAnswer q (if answer = 2 then some (slot, step) else none)
  | .numerics q n => s.answerNumerics q n answer

/-- A decision is answered. -/
def State.markAnswered (s : State) (ident : Word) : State :=
  { s with host := { s.host with decisions := s.host.decisions.map fun (x : Decision) => if x.ident = ident then { x with answered := true } else x } }

/-- DECIDE: an unknown ID or answer, a first answer already given, an answer that comes late (R41), or the answer. [DEDUCED, assumption 59] -/
def State.decideReq (s : State) (r : Req) (ident : Word) (answer slot : Nat) (step : Dword) : State :=
  match s.host.decisions.find? fun (d : Decision) => d.ident == ident with
  | none => s.respond r 9 3 []
  | some d =>
    if !d.what.toFn (reqFn r) then (s.denied (reqFn r) 9).respond r 9 2 []
    else if d.answered then s.respond r 9 4 []
    else if d.expired || Nat.blt d.deadline.toNat s.now then
      (s.log 0x9F0 d.what.fnOf.2 (a4 d.what.fnOf.1 ++ w4 ident)).respond r 9 7 []
    else if !d.what.has answer slot then s.respond r 9 3 []
    else ((s.markAnswered ident).applyAnswer d answer slot step).respond r 9 0 []

/-- DECIDE (R426). [DEDUCED, assumption 59] -/
def execDecide (r : Req) (ident : Word) (answer slot : Byte) (step : Dword) (s : State) : Out :=
  .next (s.request r 9 .any true fun s => s.decideReq r ident answer.toNat slot.toNat step)

/-! ## HSIG (R428) -/

/-- HSIG: the first check that fails answers; an add for the epoch is applied, one for a later step is held, and in the recovery hold one
for the step that the slice returns to as well (R428, R440). [DEDUCED, assumption 59] -/
def State.hsigReq (s : State) (r : Req) (sem : BitVec 16) (n : Word) (step : Dword) : State :=
  let q := r.part.toNat
  if n = 0 ∨ 1048575 < n.toNat then s.respond r 10 3 []
  else if (s.part q).plan.isNone || !s.remoteOk q sem.toNat then (s.denied (reqFn r) 10).respond r 10 2 []
  else if step.toNat < (s.part q).epoch.toNat then s.respond r 10 4 []
  else if step = (s.part q).epoch ∧ (s.part q).hold = .none ∧ (s.part q).spare.isNone then (s.semAdd q sem.toNat n.toNat (s.linkSrc q)).respond r 10 0 []
  else (s.modPart q fun p => { p with hsigs := p.hsigs ++ [⟨sem, n, step⟩] }).respond r 10 0 []

/-- HSIG. -/
def execHsig (r : Req) (sem : BitVec 16) (n : Word) (step : Dword) (s : State) : Out :=
  .next (s.request r 10 .vf false fun s => s.hsigReq r sem n step)

/-! ## DECLARE and VACATE (R325, R349, R430) -/

/-- Some partition here holds a plan with a rank at `d`. -/
def State.servesAt (s : State) (d : BitVec 17) : Bool :=
  (List.range s.partCnt).any fun q => match (s.part q).plan with
    | none => false
    | some pl => (List.range pl.shape.ranks.length).any fun r => (s.rankEnt q r).valid && (s.rankEnt q r).coord == d

/-- DECLARE: declared here, or forwarded to the steward as ADMIT DECLARE with cause 6. [DESIGN CHOICE, assumption 58] -/
def State.declareReq (s : State) (r : Req) (d : BitVec 17) : State :=
  let s1 :=
    if s.servesAt d then s.hostDeclared d
    else match s.stewardNear d with
      | some j => if j = s.slot then s else s.admitSend (s.carrCoord j) 0x01 0 0 0 d (a1 6)
      | none => s
  s1.respond r 11 0 []

/-- DECLARE. -/
def execDeclare (r : Req) (coord : BitVec 17) (s : State) : Out := .next (s.request r 11 .pf true fun s => s.declareReq r coord)

/-- The steward empties a board: every rank on it is wanted at the next commit. [DESIGN CHOICE, assumption 58] -/
def State.vacateHere (s : State) (b : Nat) : State :=
  let s1 := { s with host := { s.host with vacating := some (BitVec.ofNat 3 b) } }
  let s2 := (List.range s1.partCnt).foldl (fun s q => (s.boardRanks q b).foldl (fun s r => s.planRank q r) s) s1
  s2.vacateCheck

/-- VACATE: done here, or forwarded to the steward (R430). [DESIGN CHOICE, assumption 58] -/
def State.vacateReq (s : State) (r : Req) (board : Nat) : State :=
  if 4 < board then s.respond r 13 3 []
  else (if s.isSteward then s.vacateHere board
    else match s.stewardSlot with
      | some j => s.maint (s.carrCoord j) Config.vacateSub (Config.vacateBody board)
      | none => s).respond r 13 0 []

/-- VACATE. -/
def execVacate (r : Req) (board : Byte) (s : State) : Out := .next (s.request r 13 .pf true fun s => s.vacateReq r board.toNat)

/-! ## REINSTATE and MODRESET (R348, R383, R423) -/

/-- REINSTATE: always accepted by a quarantined module, which runs a warm reset, or will once it is ready. [DEDUCED, assumption 70] -/
def State.reinstateReq (s : State) (r : Req) : State :=
  if !s.boot.quar then s.respond r 12 4 []
  else
    let s1 := (s.respond r 12 0 []).modBoot fun b => { b with quar := false, quarCause := 0, reinstating := true }
    if s1.boot.stage < 8 then s1.modBoot fun b => { b with warmWanted := some 5 } else s1.warmReset 5 1

/-- REINSTATE. -/
def execReinstate (r : Req) (s : State) : Out := .next (s.request r 12 .pf true fun s => s.reinstateReq r)

/-- MODRESET: OK, then a module reset. -/
def execModreset (r : Req) (s : State) : Out := .next (s.request r 14 .pf true fun s => (s.respond r 14 0 []).moduleRequest)

/-! ## STATUS (R423) -/

/-- MODCTL_QUAR. -/
def Boot.quarWord (b : Boot) : Nat := (if b.quar then 1 else 0) + 2 * b.quarCause.toNat

/-- One partition of a STATUS reply, in this model's layout: plan loaded, running, held, a zero, and the sync epoch. [DESIGN CHOICE, assumption 60] -/
def Partn.status (p : Partn) : List Byte :=
  let f (b : Bool) : Byte := if b then 1 else 0
  [f p.plan.isSome, f p.started, f (p.hold != .none), 0] ++ leBytes 8 p.epoch.toNat

/-- The payload of STATUS's reply: the stage, the quarantine and each partition's state (Table 17.5). [DESIGN CHOICE, assumption 60] -/
def State.statusBytes (s : State) : List Byte :=
  leBytes 4 s.stageWord ++ leBytes 4 s.boot.quarWord ++ (List.range s.partCnt).flatMap fun q => (s.part q).status

/-- STATUS. -/
def execStatus (r : Req) (s : State) : Out := .next (s.request r 15 .any true fun s => s.respond r 15 0 s.statusBytes)

end Sys2Proof.Machine
end

