-- ==== Sys2Proof/Machine/Observe.lean ====
section
/-!
DEFINITION. Machine/Observe.lean: counters and their snapshots, the rings' enables, and the selectors of the numerics watch and of the
event log (R398-R403, R408-R414).
-/

namespace Sys2Proof.Machine

/-! ## Owners (R9) -/

/-- A partition is not idle while it runs, waits for its tick, stops, or has a load under way. [DEDUCED, assumption 35] -/
def State.busyPart (s : State) (q : Nat) : Bool := decide (q < s.partCnt) && ((s.part q).stat != .idle || (s.part q).loading.isSome)

/-- A partition of `l` that is not idle: of several, the lowest, which the one event 0x6F1 then names (R9). [DESIGN CHOICE, assumption 114] -/
def State.busyOf (s : State) (l : List Nat) : Option Nat := l.find? s.busyPart
def State.busyAny (s : State) : Option Nat := s.busyOf (List.range 4)

/-- A write of an RWI field of busy partition `q`: event 0x6F1. [DEDUCED, assumption 35] -/
def State.rwiRefused (s : State) (off q : Nat) : State := s.log 0x6F1 q (a4 off ++ a1 q)

/-- A write of RWI fields that belong to the partitions of `l`. -/
def State.rwi (s : State) (off : Nat) (l : List Nat) (go : State → State) : State :=
  match s.busyOf l with
  | some q => s.rwiRefused off q
  | none => go s

/-! ## Counters (R398-R401) -/

/-- Counters that count cycles or microseconds, which the model does not keep: 8·p + 3, 8·p + 4, 273-275, and the cycle counts of
Table 16.3. [DESIGN CHOICE, assumption 24] -/
def State.countsCycles (s : State) (i : Nat) : Bool :=
  if i < 256 then i % 8 == 3 || i % 8 == 4
  else if i < 512 then Nat.ble 273 i && Nat.ble i 275
  else match s.obs.selUse.find i with
    | none => false
    | some v =>
      let unit := v.toNat % 256
      let ev := v.toNat / 256
      if unit = 0xE0 then ev == 5 || ev == 6 else Nat.ble 1 ev && Nat.ble ev 4

/-- Event counter `i`; a cycle count is the free value numbered `n`, and the DRAM grains stand with the memory controller.
[DESIGN CHOICE, assumption 24] -/
def State.counter (s : State) (n i : Nat) : Nat :=
  if s.countsCycles i then (Config.cycles n i).toNat
  else if 256 ≤ i ∧ i < 272 then (s.mem.grains.get 0 (i - 256)).toNat
  else if 280 ≤ i ∧ i < 512 then 0 else (s.obs.ctr.get 0 i).toNat

/-- Clear partition `q`'s share; clear the module counters. -/
def State.clrShare (s : State) (q : Nat) : State := { s with obs := { s.obs with ctr := s.obs.ctr.drop (ctrIn s.partCnt q) } }
def State.clrModule (s : State) : State :=
  { s with obs := { s.obs with ctr := s.obs.ctr.drop fun i => Nat.blt i 512 }, mem := { s.mem with grains := [] } }

/-- The clears that CNT_CLR asked for. -/
def State.clrNow (s : State) : State :=
  let s1 := (List.range s.partCnt).foldl (fun s q => if s.obs.clrPart.getLsbD q then s.clrShare q else s) s
  let s2 := if s1.obs.clrModule then s1.clrModule else s1
  { s2 with obs := { s2.obs with clrPart := 0, clrModule := false } }

/-- A write of CNT_CLR: after the next latch, or at once with snapshots disabled (R401). -/
def State.cntClr (s : State) (v : Word) : State :=
  let s1 := { s with obs := { s.obs with
    clrPart := s.obs.clrPart ||| BitVec.ofNat 4 v.toNat, clrModule := s.obs.clrModule || v.getLsbD 4 } }
  if s.obs.rcnt.en then s1 else s1.clrNow

/-- CNT_CLR_PART. -/
def execCntClrPart (v : Word) (s : State) : Out := .next (s.cntClr v)

/-- CNT_CLR_MODULE. -/
def execCntClrModule (s : State) : Out := .next (s.cntClr 0x10)

/-- CNT_VAL_LO_READ: CNT_VAL_HI latches the counter's high bits. -/
def execCntValLoRead (n : BitVec 12) (s : State) : Out :=
  let (k, s1) := s.takeFree
  .next { s1 with obs := { s1.obs with hiVal := s1.obs.hiVal.set n.toNat (BitVec.ofNat 16 (s.counter k n.toNat / 2 ^ 32)) } }

/-! ## Snapshots (R402) -/

/-- DRAM is in self-refresh, from a warm reset until stage 2 has ended (R385, R390). -/
def State.selfRefresh (s : State) : Bool := s.boot.warm && decide (s.boot.stage < 3)

/-- Sync epochs of the four partitions in a snapshot. -/
def State.snapEpochs (s : State) : List Byte :=
  (List.range 4).flatMap fun q => if (s.part q).plan.isSome then leBytes 8 (s.part q).epoch.toNat else leBytes 8 0

/-- The record of Table 16.5; `clr` tells that a clear follows it. [DEDUCED, assumption 73] -/
def State.snapRecord (s : State) (n : Nat) (clr lost : Bool) : List Byte :=
  leBytes 8 s.obs.snapSeq.toNat ++ leBytes 8 s.clk.tick.toNat ++ leBytes 8 s.calendar.toNat ++ s.snapEpochs
  ++ [BitVec.ofNat 8 ((if lost then 1 else 0) + (if clr then 2 else 0))] ++ leBytes 7 0
  ++ (List.range 4096).flatMap fun i => leBytes 6 (s.counter n i)

/-- The REF tick is one at which the counters latch: a multiple of CNT_PERIOD. -/
def State.latchTick (s : State) : Bool := s.clk.tick.toNat % s.obs.period.toNat == 0

/-- SNAPSHOT_LATCH: while the ring is enabled, at a multiple of CNT_PERIOD; in self-refresh SNAP_SEQ alone moves. [DEDUCED, assumption 73] -/
def execSnapshotLatch (s : State) : Out :=
  if s.obs.rcnt.en ∧ s.latchTick then
    let s1 := { s with obs := { s.obs with snapSeq := s.obs.snapSeq + 1 } }
    if s1.selfRefresh then .next s1
    else
      let (n, s2) := s1.takeFree
      let clr := s2.obs.clrPart != 0 || s2.obs.clrModule
      let (r, s3) := s2.ringPut s2.obs.rcnt snapRecLen fun lost => [s2.snapRecord n clr lost]
      .next ({ s3 with obs := { s3.obs with rcnt := r } }).clrNow
  else .next s

/-! ## The rings' enables (R403, R410) -/

def State.ring (s : State) : RingBlk → Ring
  | .cnt => s.obs.rcnt
  | .trace => s.obs.rtrace
  | .evt => s.obs.revt

def State.modRing (s : State) (b : RingBlk) (f : Ring → Ring) : State :=
  match b with
  | .cnt => { s with obs := { s.obs with rcnt := f s.obs.rcnt } }
  | .trace => { s with obs := { s.obs with rtrace := f s.obs.rtrace } }
  | .evt => { s with obs := { s.obs with revt := f s.obs.revt } }

def ringRecLen : RingBlk → Nat
  | .cnt => snapRecLen
  | .trace => 64
  | .evt => 32

/-- BAR0 base of the ring's block, and the block's number in event 0x6F2, in the order of Table 0.4. -/
def ringBase : RingBlk → Nat
  | .cnt => 0x500000
  | .trace => 0x580000
  | .evt => 0x700000
/-- The number of an observation ring in events (R403). [DEDUCED, assumption 73] -/
def ringNo : RingBlk → Nat
  | .cnt => 0
  | .trace => 1
  | .evt => 2

/-- The ring lies aligned inside its partition's DRAM, and meets no region of a loaded plan. -/
def State.ringFits (s : State) (r : Ring) (recLen : Nat) : Bool :=
  let q := r.part.toNat
  let n := r.size.toNat * recLen
  decide (q < s.partCnt) && Nat.ble 2 r.size.toNat && r.base.toNat % 4096 == 0
  && decide (dramLo s.partCnt q ≤ r.base.toNat) && decide (r.base.toNat + n ≤ dramLo s.partCnt (q + 1))
  && (List.range s.partCnt).all fun j => match (s.part j).plan with
    | none => true
    | some pl => pl.regions.all fun x => !meets r.base.toNat n x.base x.len

/-- Set EN to 1: the ring is enabled, or refused with event 0x6F2. A WR that a smaller SIZE left outside starts again at 0. -/
def State.ringOn (s : State) (b : RingBlk) : State :=
  let r := s.ring b
  if s.ringFits r (ringRecLen b) then s.modRing b fun r => { r with en := true, wr := if r.wr.toNat < r.size.toNat then r.wr else 0 }
  else (s.modRing b fun r => { r with en := false, refused := true }).log 0x6F2 r.part.toNat (a4 (ringNo b) ++ a1 r.part.toNat)

/-- RING_ENABLE. [DEDUCED, assumption 73] -/
def execRingEnable (b : RingBlk) (s : State) : Out :=
  .next (s.rwi (ringBase b + 0xC) [(s.ring b).part.toNat] fun s => s.ringOn b)

/-! ## Selectors (R413, R414) -/

/-- The figures of a tensor slot are latched. -/
def State.numwSel (s : State) (v : Word) : State :=
  let i := v.toNat % 4096
  { s with obs := { s.obs with nsel := BitVec.ofNat 12 i, nlatch := s.obs.slots.get {} i } }

/-- NUMW_SEL_WRITE. -/
def execNumwSelWrite (v : Word) (s : State) : Out := .next (s.numwSel v)

/-- Records of the internal log, the newest first; a continuation is newer than its event (R406). -/
def EventRec.records (e : EventRec) : List (List Byte) := if e.hasCont then [e.contBytes e.lost, e.bytes e.lost] else [e.bytes e.lost]

/-- Record `i` of the log; zeros where it holds none. -/
def logRecord : Nat → List EventRec → List Byte
  | _, [] => List.replicate 32 0
  | i, e :: es => if i < e.places then e.records.getD i [] else logRecord (i - e.places) es

/-- A record of the log is latched. -/
def State.evtLsel (s : State) (v : Word) : State :=
  let i := v.toNat % 8192
  { s with obs := { s.obs with lsel := BitVec.ofNat 13 i, lrec := logRecord i s.obs.log } }

/-- EVT_LSEL_WRITE. -/
def execEvtLselWrite (v : Word) (s : State) : Out := .next (s.evtLsel v)

/-- EVT_NEXT_LO_READ. -/
def execEvtNextLoRead (s : State) : Out :=
  .next { s with obs := { s.obs with hiSeq := BitVec.ofNat 32 (s.obs.seq.toNat / 2 ^ 32) } }

end Sys2Proof.Machine
end

