-- ==== Sys2Proof/Machine/Pcie.lean ====
section
/-!
DEFINITION. Machine/Pcie.lean: the PCIe link, the functions' windows and their notification rings (R416-R419, R425, R440).
-/

namespace Sys2Proof.Machine

/-! ## Notifications (R425) -/

/-- Records of a notification ring. -/
def noteRecs : Nat := 208

/-- The notification ring has no free record (R425). [DESIGN CHOICE, assumption 89] -/
def FnSt.noteFull (x : FnSt) : Bool := (x.ntail + 1) % noteRecs == x.nhead

/-- NOTIFICATION_POST: the oldest waiting notification goes to a free record, and MSI-X vector 1 rises. [DESIGN CHOICE, assumption 89] -/
def execNotificationPost (fn : Fn) (s : State) : Out :=
  let x := s.fn fn
  match x.waiting with
  | [] => .next s
  | m :: r =>
    if x.noteFull then .next s
    else .next (s.setFn fn { x with ring := x.ring.set x.ntail m, ntail := (x.ntail + 1) % noteRecs, waiting := r, msix1 := x.msix1 + 1 })

/-! ## BAR2 (R417) -/

/-- The partition of an access: a VF's own, or for PF0 the one that owns the address. -/
def State.winPart (s : State) (fn a : Nat) : Option Nat := if fn = 0 then ownerOf s.partCnt a else some (fn - 1)

/-- The window reaches offsets [off, off + len). -/
def FnSt.inWindow (x : FnSt) (off len : Nat) : Bool := decide (off + len ≤ 2 ^ x.log2.toNat * gib)

def State.readDone (s : State) (fn : Nat) (bs : List Byte) (poison : Bool) : State :=
  s.modFn fn fun x => { x with rdata := bs, rpoison := poison }

def zeros (n : Nat) : List Byte := List.replicate n 0

/-- BAR2_READ: the bytes go to the host. Beyond the window an unsupported request carries none; a VF without a partition, an address
outside the partition, and poison read as zeros. [DEDUCED, assumption 90] -/
def State.bar2Read (s : State) (fn off len : Nat) : State :=
  let x := s.fn fn
  let a := x.win.toNat + off
  if !x.inWindow off len then s.readDone fn [] false
  else match s.winPart fn a with
    | none => (s.fenceEvent 0 a 0xFD).readDone fn (zeros len) false
    | some q =>
      if s.partCnt ≤ q then s.readDone fn (zeros len) false
      else if !inPart s.partCnt q a len then (s.fenceEvent q a 0xFD).readDone fn (zeros len) false
      else match s.poisonIn a len with
        | some g => (s.poisonRead q g [0xFD]).readDone fn (zeros len) true
        | none => ((s.countGrains q (grainsOf a len)).touchRead q 0 a len).readDone fn (s.readBytes a len) false

/-- BAR2_READ. -/
def execBar2Read (fn : Fn) (off : BitVec 36) (len : BitVec 13) (s : State) : Out :=
  if s.host.linkUp then .next (s.bar2Read fn off.toNat len.toNat) else .next s

/-- While its partition runs, a write goes to INPUT regions and to bytes that no region covers. [DEDUCED, assumption 90] -/
def Plan.hostMayWrite (p : Plan) (a n : Nat) : Bool := p.regions.all fun r => r.use == 0x24 || !meets a n r.base r.len

/-- A host write of these bytes is let through: the partition is idle, holds no plan, or its plan lets the host write there.
[DEDUCED, assumption 90] -/
def State.mayWrite (s : State) (q a n : Nat) : Bool :=
  (s.part q).stat == .idle || (match (s.part q).plan with
    | none => true
    | some p => p.hostMayWrite a n)

/-- BAR2_WRITE: stored through the carve-out, or dropped; event 0x550 for an address outside and for a refused write. [DEDUCED, assumption 90] -/
def State.bar2Write (s : State) (fn off : Nat) (data : List Byte) : State :=
  let x := s.fn fn
  let a := x.win.toNat + off
  if !x.inWindow off data.length then s
  else match s.winPart fn a with
    | none => s.fenceEvent 0 a 0xFD
    | some q =>
      if s.partCnt ≤ q then s
      else if !inPart s.partCnt q a data.length then s.fenceEvent q a 0xFD
      else if !s.mayWrite q a data.length then s.fenceEvent q a 0xFD
      else (s.countGrains q (grainsOf a data.length)).store q 0 a data

/-- BAR2_WRITE. -/
def execBar2Write (fn : Fn) (off : BitVec 36) (data : List Byte) (s : State) : Out :=
  if s.host.linkUp then .next (s.bar2Write fn off.toNat data) else .next s

/-- BAR_RESIZE: 1-64 GiB, at once (R440). -/
def execBarResize (fn : Fn) (log2 : BitVec 3) (s : State) : Out :=
  if log2.toNat ≤ 6 then .next (s.modFn fn fun x => { x with log2 := log2 }) else .next s

/-! ## The link and its functions (R419) -/

/-- FUNCTION_LEVEL_RESET: the mailbox, the notification ring and the window base; the reply of a load under way is lost (R440).
[DEDUCED, assumption 68] -/
def execFunctionLevelReset (fn : Fn) (s : State) : Out :=
  let s1 := s.modFn fn fun x => { x with
    busy := false, resp := false, overrun := false, linkwait := false, req := [], reply := none, ntail := 0, nhead := 0, ring := [], win := 0 }
  .next ((List.range s1.partCnt).foldl (fun s q => s.modPart q fun p => { p with
    loading := p.loading.map fun (j : LoadJob) => if j.fn = some fn then { j with fn := none } else j }) s1)

/-- PCIE_LINK_LOSS: jobs go on. -/
def execPcieLinkLoss (s : State) : Out := .next { s with host := { s.host with linkUp := false } }

/-- A reply that waited for the link. -/
def FnSt.linked (x : FnSt) : FnSt :=
  if x.linkwait then { x with busy := false, linkwait := false, resp := true, msix0 := x.msix0 + 1 } else x

/-- PCIE_LINK_UP: the link trains beside bring-up once PERST_N is released (R388), and the replies that waited are given. -/
def execPcieLinkUp (s : State) : Out :=
  if s.power.on && !s.boot.perst then
    .next { s with host := { s.host with linkUp := true, fns := s.host.fns.map fun kv => (kv.1, kv.2.linked) } }
  else .next s

end Sys2Proof.Machine
end

