-- ==== Sys2Proof/Machine/Regs.lean ====
section
/-!
DEFINITION. Machine/Regs.lean: what the host reads in BAR0, and what its writes do (R8-R10, R84, R172, R185, R208, R209, R245, R246, R275,
R360, R375, R376, R379, R380, R396, R410-R414, R420, R436, R442-R444). No command reads a register but those whose reading acts;
`State.regRead` is the view that a read would show.
-/

namespace Sys2Proof.Machine

/-! ## Registers of an array -/

/-- Index `i` of an array register: `off` = base + stride·i with i below `count`. -/
def arr (off base stride count : Nat) : Option Nat :=
  if base ≤ off ∧ (off - base) % stride = 0 ∧ (off - base) / stride < count then some ((off - base) / stride) else none

/-- The first array that holds `off` answers; an offset that no register occupies reads as 0 (R10). -/
def arrs (off : Nat) : List (Nat × Nat × Nat × (Nat → Nat)) → Nat
  | [] => 0
  | (base, stride, count, f) :: r => match arr off base stride count with
    | some i => f i
    | none => arrs off r

/-- A 20-bit mask of the colours that `f` accepts. -/
def colourMask (f : Nat → Bool) : Nat := (List.range 20).foldl (fun n c => if f c then n + 2 ^ c else n) 0
def partMask (f : Nat → Bool) : Nat := (List.range 4).foldl (fun n q => if f q then n + 2 ^ q else n) 0
def lo32 (n : Nat) : Nat := n % 2 ^ 32
def hi32 (n : Nat) : Nat := n / 2 ^ 32 % 2 ^ 32
def wordAt (bs : List Byte) (w : Nat) : Nat := fieldLE bs (4 * w) 4

/-! ## IDENT, MODCTL (R396, R442) -/

def State.identRead (s : State) (off : Nat) : Nat :=
  if off = 0 then 0x31544A4F
  else if off = 4 then 0x018000B1
  else if off = 8 then lo32 s.host.serial.toNat
  else if off = 0xC then hi32 s.host.serial.toNat
  else if off = 0x10 then (s.copyOf s.host.activeB).ver.toNat + 65536 * s.host.romVer.toNat
  else 0

def State.modctlRead (s : State) (off : Nat) : Nat :=
  let b := s.boot
  if off = 4 then s.stageWord
  else if off = 8 then b.lastKind.toNat
  else if off = 0xC then b.stat.toNat
  else if off = 0x10 then b.cntModule.toNat + 256 * b.cntWarm.toNat + 65536 * b.cntPart.toNat
  else if off = 0x14 then b.quarWord
  else arrs off [
    (0x40, 4, 8, fun i => min 0x1FFF (b.stime.get 0 i)),
    (0x100, 8, 32, fun p => (b.disc.get 0 p).toNat),
    (0x104, 8, 32, fun p => (b.discBad.get 0 p).toNat)]

/-! ## PWR, CLK (R379, R380) -/

/-- A temperature in a signed 12-bit field: one above 127.94 °C reads as the field's largest. [DESIGN CHOICE, assumption 124] -/
def tempField (t : BitVec 16) : Nat := if 2047 < t.toInt then 2047 else (t.setWidth 12).toNat

def State.tempWord (s : State) (i : Nat) : Nat :=
  match s.power.temps.get [] i with
  | [] => 0
  | t :: _ => tempField t + (if s.power.excl.contains i then 0 else 4096)

def State.pwrRead (s : State) (off : Nat) : Nat :=
  let p := s.power
  if off = 0 then p.profile.toNat + (if s.hostMode 0 then 4 else 0)
  else if off = 4 then p.vin.toNat + (if p.throttle then 8192 else 0) + (if p.auxok then 16384 else 0)
  else if off = 8 then p.stat.toNat
  else if off = 0xC then p.est.toNat + 65536 * p.ts.toNat
  else if off = 0x10 then s.effCap + 65536 * p.capHost.toNat
  else if off = 0x14 then p.lvl.toNat + 256 * p.thm.toNat
  else if off = 0x18 then
    p.opCur + 16 * (match p.chg with | some c => c.target | none => p.opCur) + (if p.chg.isSome then 128 else 0) + 65536 * p.mhz
  else if off = 0x1C then p.droopCnt.toNat
  else if off = 0x20 then p.abandoned.toNat
  else if off = 0x30 then tempField p.tmax + 65536 * p.tsensor.toNat + 2 ^ 24 * min 127 p.excl.length
  else arrs off [
    (0x100, 4, 96, s.tempWord),
    (0x300, 4, 8, fun i => s.opFreqOf i + (if s.opValid i then 256 else 0) + 65536 * (vcodeOf (s.opFreqOf i) % 256)),
    (0x400, 4, 256, s.weight)]

def State.clkRead (s : State) (off : Nat) : Nat :=
  let c := s.clk
  let f (i : Nat) (b : Bool) : Nat := if b then 2 ^ i else 0
  if off = 0 then f 0 c.lock + f 1 c.hold + f 2 c.stepLock + f 3 c.head + 16 * c.hop.toNat
  else if off = 4 then c.stat.toNat
  else if off = 8 then lo32 c.tick.toNat
  else if off = 0xC then c.hiTick.toNat
  else if off = 0x10 then c.drift.toNat + 65536 * c.driftPort.toNat + 2 ^ 21 * c.driftCol.toNat
  else if off = 0x14 then c.tickOfs.toNat + 65536 * c.tickDir.toNat
  else if off = 0x20 then lo32 s.calendar.toNat
  else if off = 0x24 then c.hiCal.toNat
  else if off = 0x28 then c.setLo.toNat
  else if off = 0x2C then c.setHi.toNat
  else if off = 0x34 then c.slew.toNat
  else if off = 0x38 then f 0 c.valid + f 1 (Nat.ble 135 c.bkv.toNat) + 256 * c.bkv.toNat
  else 0

/-! ## SEC (R443) -/

def State.secRead (s : State) (off : Nat) : Nat :=
  let h := s.host
  let id (q : Nat) : Nat := match (s.part q).tkey with | some k => k.ident.toNat | none => 0
  if off = 0 then
    (if h.auth then 1 else 0) + (if h.auth && h.activeB then 2 else 0) + 4 * (if h.auth then s.keySlot.getD 0 else 0) + 8 * h.revoked.toNat + 32
      + 256 * h.secStat.toNat
  else if off = 4 then h.fuseSvn.toNat + 256 * (s.copyOf h.activeB).svn.toNat
  else if off = 0xC then partMask fun q => (s.part q).tkey.isSome
  else if off = 0x10 then h.msel.toNat
  else arrs off [
    (0x20, 4, 12, wordAt h.mval),
    (0x60, 8, 4, fun q => lo32 (id q)),
    (0x64, 8, 4, fun q => hi32 (id q))]

/-! ## LODE, COMB (R245, R246) -/

def txCode : TxSt → Nat
  | .dark => 0 | .calib => 1 | .training => 2 | .up => 3 | .heldSwitch => 4 | .retired => 5
def rxCode : RxSt → Nat
  | .dark => 0 | .calib => 1 | .training => 2 | .up => 3 | .closed => 4 | .retired => 5
def combCode : CombSt → Nat
  | .off => 0 | .warm => 1 | .service => 2 | .retired => 3 | .failed => 4

/-- Per-colour registers of a port. -/
def State.laneRead (s : State) (p c off : Nat) : Nat :=
  let t := s.tx p c
  let r := s.rx p c
  if off = 0 then txCode t.st + 8 * rxCode r.st + 256 * ((s.slot + c) % 20) + 65536 * ((s.slot + 20 - c) % 20)
  else if off = 4 then t.heat.toNat + 65536 * r.heat.toNat
  else if off = 8 then t.margin.toNat + 65536 * r.oma.toNat
  else if off = 0xC then t.retry.toNat
  else if off = 0x10 then r.unc.toNat
  else if off = 0x14 then r.corr.toNat
  else 0

/-- The LODE registers at byte `off` of their block (R245). A lane held for a switch or calibrating reads as lit. [DESIGN CHOICE, assumption 123] -/
def State.lodeRead (s : State) (off : Nat) : Nat :=
  let p := off / 4096
  let o := off % 4096
  if 32 ≤ p then 0
  else if o = 0 then p + 256 * (p / 4) + (if 16 ≤ p then 2048 else 0) + 4096 * portPlane p
  else if o = 0x10 then colourMask fun c => (s.tx p c).st != .dark && (s.tx p c).st != .retired
  else if o = 0x14 then colourMask fun c => (s.rx p c).st != .dark && (s.rx p c).st != .closed && (s.rx p c).st != .retired
  else if o = 0x20 then (colourMask fun c => (s.tx p c).st == .up) + 2 ^ 20 * (s.port p).stat.toNat
  else if o = 0x24 then colourMask fun c => (s.tx p c).st == .retired
  else if o = 0x28 then colourMask fun c => (s.rx p c).st == .retired
  else if o = 0x2C then colourMask fun c => (s.rx p c).st == .closed
  else if o = 0x30 then (s.island (p / 4)).temp.toNat + (if (s.island (p / 4)).inband then 4096 else 0)
  else if 0x100 ≤ o ∧ o < 0x380 then s.laneRead p ((o - 0x100) / 32) ((o - 0x100) % 32)
  else 0

def State.combRead (s : State) (off : Nat) : Nat :=
  let x := s.comb (off / 256)
  let o := off % 256
  if 16 ≤ off / 256 then 0
  else if o = 0 then combCode x.st + (if x.pend then 8 else 0) + 256 * x.w1c.toNat
  else if o = 4 then x.drive.toNat
  else if o = 8 then x.driveThr.toNat + 65536 * x.marginThr.toNat
  else if o = 0xC then x.age.toNat
  else if o = 0x10 then x.worst.toNat + 65536 * x.worstPort.toNat + 2 ^ 18 * x.worstCol.toNat
  else if o = 0x14 then (if x.pend then min 0x3FFF ((s.now - x.pendTick) / 156250) else 0) + 16384 * x.cause.toNat
  else if o = 0x18 then lo32 x.lastTick.toNat
  else if o = 0x1C then hi32 x.lastTick.toNat
  else 0

/-! ## ROUTE, SYNC (R208, R275) -/

def State.portRead (s : State) (p off : Nat) : Nat :=
  let x := s.port p
  if off = 0 then x.ptx.toNat
  else if off = 4 then x.prx.toNat
  else if off = 8 then x.prelay.toNat
  else if off = 0xC then min 0xFFFFFFFF (Config.cycles s.free (8 * p + 3)).toNat
  else if off = 0x10 then x.busySent.toNat + 65536 * x.busyRcvd.toNat
  else if off = 0x14 then min 82 x.slots.length + 256 * x.peak.toNat + 65536 * min 32 x.small.length
  else if off = 0x18 then x.pdrop.toNat
  else 0

def State.coordWord (s : State) : Nat := s.router.cx.toNat + 8 * s.router.cy.toNat + 64 * s.router.cz.toNat

def State.routeRead (s : State) (off : Nat) : Nat :=
  let r := s.router
  if off = 0 then s.partCnt + 8 * s.slot + 256 * s.boot.brd.toNat + 2048 * s.boot.pos.toNat
  else if off = 4 then s.coordWord
  else if off = 8 then s.extentBits
  else if off = 0x10 then r.stat.toNat
  else if off = 0x40 then r.rtsel.toNat
  else if off = 0x44 then r.rtent.toNat % 2 ^ 18
  else if off = 0x48 then r.rtent.toNat / 2 ^ 32 % 65536
  else if 0x1000 ≤ off ∧ off < 0x1800 then s.portRead ((off - 0x1000) / 64) ((off - 0x1000) % 64)
  else arrs off [
    (0x20, 4, 4, fun q => (s.part q).drain.toNat + 65536 * (s.part q).changes.toNat),
    (0x80, 4, 9, fun k => (r.dropcnt.get 0 k).toNat)]

def watchCode : WatchSt → Nat
  | .idle => 0 | .armed => 1 | .fired => 2 | .unalloc => 3

def State.syncRead (s : State) (off : Nat) : Nat :=
  let y := s.sync
  let m := y.dbgSem
  if off = 0 then s.partCnt + 65536 * 0x800
  else if off = 4 then y.stat.toNat
  else if off = 0x50 then y.ceCnt.toNat
  else if off = 0x100 then y.dbgSel.toNat
  else if off = 0x104 then m.value.toNat
  else if off = 0x108 then m.init.toNat
  else if off = 0x10C then m.incr.toNat
  else if off = 0x110 then
    m.lastEp.toNat + 2 ^ 20 * m.lastEng.toNat + (if m.lastRmt then 2 ^ 28 else 0) + (if m.alloc then 2 ^ 29 else 0)
  else if off = 0x114 then lo32 y.dbgTick.toNat
  else if off = 0x118 then hi32 y.dbgTick.toNat
  else if off = 0x11C then y.dbgArmed.toNat + 65536 * y.dbgFirst.toNat
  else if off = 0x120 then y.wSel.toNat
  else if off = 0x124 then (match y.wLatch with
    | none => 0xFF000000
    | some w => w.sem.toNat + 65536 * watchCode w.st + 2 ^ 24 * w.owner.toNat)
  else if off = 0x128 then (match y.wLatch with
    | none => 0
    | some w => unsgn 32 w.thr)
  else arrs off [
    (0x10, 8, 4, fun q => lo32 (s.part q).epoch.toNat),
    (0x14, 8, 4, fun q => hi32 (s.part q).epoch.toNat),
    (0x40, 4, 4, fun q => min 0xFFF (s.part q).heldQ.length + 65536 * (s.part q).heldPeak.toNat)]

/-! ## MEM, ENG (R84, R185) -/

def MemSt.rateWord (rate burst : Tab Nat) (q : Nat) : Nat := rate.get 0 q + 65536 * burst.get 0x10 q

/-- The Peat bank with the fewest spare lines left, the lowest of them. -/
def MemSt.worstBank (m : MemSt) : Nat :=
  (m.spareLines.foldl (fun (w : Nat × Nat) kv => if w.2 < kv.2 then kv else w) (0, 0)).1

/-- MEM_STACK(i).STATE. -/
def State.stackCode (s : State) (i : Nat) : Nat :=
  if s.boot.stacksBad.getLsbD i then 3
  else if s.boot.stage < 3 then (if s.boot.warm then 2 else 0) else 1

def State.memRead (s : State) (off : Nat) : Nat :=
  let m := s.mem
  if off = 0 then s.partCnt + 256 * ((List.range 8).foldl (fun n i => if s.stackCode i = 1 then n + 2 ^ i else n) 0)
  else if off = 0x40 then m.dramPeriod.toNat + 256 * m.peatPeriod.toNat
  else if off = 0x50 then m.ecc.toNat
  else if off = 0x54 then m.dce.toNat
  else if off = 0x58 then m.pce.toNat
  else if off = 0x5C then m.ueDram.toNat + 65536 * m.uePeat.toNat
  else if off = 0x60 then m.pagesLeft
  else if off = 0x64 then
    min 65535 (m.spareLines.foldl (fun n kv => n + kv.2) 0) + 65536 * (m.worstBank % 512)
      + 2 ^ 25 * (64 - min 64 (m.spareLines.get 0 m.worstBank))
  else if off = 0x70 then lo32 m.errAddr.toNat
  else if off = 0x74 then hi32 m.errAddr.toNat + 65536 * m.errKind.toNat + 2 ^ 20 * m.errPart.toNat
  else arrs off [
    (0x10, 4, 4, fun q => (s.part q).carveMib.toNat + (if (s.part q).carveHost then 1024 else 0)),
    (0x20, 4, 4, MemSt.rateWord m.drate m.dburst),
    (0x30, 4, 4, MemSt.rateWord m.prate m.pburst),
    (0x80, 4, 4, fun q => (s.part q).keyEpoch.toNat),
    (0x100, 16, 8, fun i => s.stackCode i + 256 * min 255 (m.stackRows.get 0 i))]

def runCode : EngRun → Nat
  | .idle => 0 | .running => 1 | .waiting => 2 | .halted => 3 | .rerun => 4 | .retired => 5

def State.engRead (s : State) (off : Nat) : Nat :=
  let left (k : Nat) : Nat := (s.sparesLeft k).length
  if off = 0 then left 0 + 256 * left 1 + 65536 * left 2 + 2 ^ 20 * left 3 + 2 ^ 24 * left 4
  else if off = 0x20 then s.engFlt.toNat
  else arrs off [
    (0x8, 4, 4, fun q => (s.part q).waitlim.toNat),
    (0x1000, 4, 200, fun e => (s.engMap e).phys.toNat + (if (s.engMap e).valid then 256 else 0)),
    (0x2000, 16, 200, fun e => runCode (s.eng e).run + 16 * (s.eng e).loops.length + 65536 * (s.eng e).phaseTag.toNat),
    (0x2004, 16, 200, fun e => (s.eng e).oldest),
    (0x2008, 16, 200, fun e => (s.eng e).waitSem.toNat + 65536 * (s.eng e).waitWatch.toNat),
    (0x200C, 16, 200, fun e => (s.eng e).retries.toNat)]

/-! ## CNT, TRACE, NUMW, EVT (R410-R414) -/

def Ring.read (r : Ring) (off : Nat) : Nat :=
  if off = 0 then lo32 r.base.toNat
  else if off = 4 then hi32 r.base.toNat + 65536 * r.part.toNat
  else if off = 8 then r.size.toNat
  else if off = 0xC then (if r.en then 1 else 0) + (if r.full then 2 else 0) + (if r.refused then 4 else 0)
  else if off = 0x10 then r.wr.toNat
  else if off = 0x14 then r.rd.toNat
  else if off = 0x18 then r.drop.toNat
  else 0

def State.cntRead (s : State) (off : Nat) : Nat :=
  if off < 0x1C then s.obs.rcnt.read off
  else if off = 0x20 then s.obs.period.toNat
  else if off = 0x24 then s.obs.preset.toNat
  else arrs off [
    (0x4000 + 2048, 4, 3584, fun i => (s.obs.sel.get 0 (512 + i)).toNat),
    (0x8000, 8, 4096, fun i => lo32 (s.counter s.free i)),
    (0x8004, 8, 4096, fun i => (s.obs.hiVal.get 0 i).toNat)]

def State.traceRead (s : State) (off : Nat) : Nat :=
  if off < 0x1C then s.obs.rtrace.read off
  else arrs off [(0x20, 4, 4, fun q =>
    (if s.obs.trEn.getLsbD q then 1 else 0) + 2 * (s.obs.trN.get 0x10 q).toNat + 64 * (s.obs.trKinds.get 0x1F q).toNat)]

def State.numwRead (s : State) (off : Nat) : Nat :=
  let x := s.obs.nlatch
  if off = 0 then s.obs.force.toNat
  else if off = 4 then s.obs.nsel.toNat
  else if off = 8 then lo32 x.step.toNat
  else if off = 0xC then x.rho.toNat
  else if off = 0x10 then lo32 x.sumU.toNat
  else if off = 0x14 then lo32 x.sumW.toNat
  else if off = 0x18 then hi32 x.sumU.toNat + 256 * hi32 x.sumW.toNat
  else if off = 0x20 then min 0xFFFFFFFF x.last.2.2.2
  else if off = 0x24 then min 0xFFFFFFFF x.last.2.2.1
  else if off = 0x28 then min 0xFFFFFFFF x.last.2.1
  else if off = 0x2C then min 0xFFFFFFFF x.last.1
  else 0

def State.evtRead (s : State) (off : Nat) : Nat :=
  if off < 0x1C then s.obs.revt.read off
  else if off = 0x20 then lo32 s.obs.seq.toNat
  else if off = 0x24 then s.obs.hiSeq.toNat
  else if off = 0x28 then s.obs.lsel.toNat
  else arrs off [(0x40, 4, 8, wordAt s.obs.lrec)]

/-! ## MBOX, and BAR4's control page (R420, R444) -/

/-- Unread notifications. -/
def FnSt.unread (x : FnSt) : Nat := (x.ntail + noteRecs - x.nhead) % noteRecs

/-- STATUS of a function (Table 17.2). -/
def FnSt.statusWord (x : FnSt) : Nat :=
  let f (i : Nat) (b : Bool) : Nat := if b then 2 ^ i else 0
  f 0 x.busy + f 1 x.resp + f 2 x.overrun + f 3 x.linkwait

/-- Proposals that wait for an answer. -/
def State.openDecisions (s : State) : List Decision := s.host.decisions.filter fun (d : Decision) => !d.answered && !d.expired

def State.mboxRead (s : State) (off : Nat) : Nat :=
  if off = 0x100 then
    min 255 s.openDecisions.length + 256 * (match s.openDecisions with | [] => 0 | d :: _ => d.ident.toNat % 2 ^ 24)
  else arrs off [
    (0, 4, 5, fun f => (s.fn f).statusWord + 256 * (s.fn f).unread + 65536 * (s.fn f).denied.toNat),
    (0x40, 16, 5, fun f => lo32 (s.fn f).win.toNat),
    (0x44, 16, 5, fun f => hi32 (s.fn f).win.toNat + 65536 * (s.fn f).log2.toNat)]

/-- BAR4 (Table 17.2): the reply buffer, the control page and the notification ring; what only the host writes reads as 0.
[DESIGN CHOICE, assumption 128] -/
def State.bar4Read (s : State) (f off : Nat) : Nat :=
  let x := s.fn f
  let word (bs : List Byte) (o : Nat) : Nat := fieldLE (bs ++ zeros 4) (o / 4 * 4) 4
  if 0x1000 ≤ off ∧ off < 0x2000 then
    match x.reply with
    | some m => word m.bytes (off - 0x1000)
    | none => 0
  else if off = 0x2004 then x.statusWord
  else if off = 0x2008 then x.ntail
  else if off = 0x200C then x.nhead
  else if off = 0x2010 then lo32 x.win.toNat
  else if off = 0x2014 then hi32 x.win.toNat
  else if 0x3000 ≤ off ∧ off < 0x10000 then
    match x.ring.find ((off - 0x3000) / 256) with
    | some m => word m.bytes ((off - 0x3000) % 256)
    | none => 0
  else 0

/-- MGMT_ALERT_N is asserted while a notification is unread in PF0's ring (R431). [DEDUCED, assumption 72] -/
def State.mgmtAlert (s : State) : Bool := (s.fn 0).unread != 0

/-! ## BAR0 (R10, R388) -/

/-- A module whose registers stand at their reset values, with what the tables take from the straps, the fuses, the calendar and the
non-volatile records. [DESIGN CHOICE, assumption 74] -/
def State.asReset (s : State) : State :=
  { boot := { brd := s.boot.brd, pos := s.boot.pos }
    clk := { sec := s.clk.sec, ns := s.clk.ns, hiCal := s.clk.hiCal, slew := s.clk.slew, valid := s.clk.valid }
    combs := s.combs.map fun kv => (kv.1, { age := kv.2.age })
    obs := { seq := s.obs.seq, hiSeq := s.obs.hiSeq }
    host := { copyA := s.host.copyA, copyB := s.host.copyB, activeB := s.host.activeB, fuseSvn := s.host.fuseSvn, revoked := s.host.revoked } }

/-- A block's registers (Table 0.4). -/
def State.blockRead (s : State) (off : Nat) : Nat :=
  if off < 0x20000 then 0
  else if off < 0x30000 then s.pwrRead (off - 0x20000)
  else if off < 0x40000 then s.clkRead (off - 0x30000)
  else if off < 0x50000 then s.secRead (off - 0x40000)
  else if 0x100000 ≤ off ∧ off < 0x120000 then s.lodeRead (off - 0x100000)
  else if 0x140000 ≤ off ∧ off < 0x141000 then s.combRead (off - 0x140000)
  else if 0x180000 ≤ off ∧ off < 0x190000 then s.routeRead (off - 0x180000)
  else if 0x200000 ≤ off ∧ off < 0x210000 then s.syncRead (off - 0x200000)
  else if 0x300000 ≤ off ∧ off < 0x310000 then s.memRead (off - 0x300000)
  else if 0x400000 ≤ off ∧ off < 0x410000 then s.engRead (off - 0x400000)
  else if 0x500000 ≤ off ∧ off < 0x510000 then s.cntRead (off - 0x500000)
  else if 0x580000 ≤ off ∧ off < 0x590000 then s.traceRead (off - 0x580000)
  else if 0x600000 ≤ off ∧ off < 0x610000 then s.numwRead (off - 0x600000)
  else if 0x700000 ≤ off ∧ off < 0x710000 then s.evtRead (off - 0x700000)
  else if 0x800000 ≤ off ∧ off < 0x810000 then s.mboxRead (off - 0x800000)
  else 0

/-- What BAR0 reads at `off`: IDENT and MODCTL always, the other blocks their reset values until ready. [DESIGN CHOICE, assumption 74] -/
def State.regRead (s : State) (off : Nat) : Word :=
  if off < 0x10000 then BitVec.ofNat 32 (s.identRead off)
  else if off < 0x20000 then BitVec.ofNat 32 (s.modctlRead (off - 0x10000))
  else BitVec.ofNat 32 ((if s.isReady then s else s.asReset).blockRead off)

/-- What a register reads. [DESIGN CHOICE, assumption 74] -/
def State.readAt (s : State) : RegAt → Word
  | .bar0 off => s.regRead off.toNat
  | .bar4 f off => BitVec.ofNat 32 (s.bar4Read f off.toNat)

end Sys2Proof.Machine
end

