-- ==== Sys2Proof/Machine/RegWrite.lean ====
section
/-!
DEFINITION. Machine/RegWrite.lean: writes of registers (R8-R10, R172, R208, R209, R246, R275, R360, R375, R379, R391, R396, R410-R414, R420,
R436, R443), and the reads that latch (R376). A write outside the range that a field's table gives leaves the field unchanged.
-/

namespace Sys2Proof.Machine

/-! ## Selectors (R209, R275, R443) -/

/-- The latest tick, not later than `now`, whose bits [25:4] are `lt`, with bits [3:0] zero. -/
def lastTickOf (now : Nat) (lt : BitVec 22) : Nat :=
  let t := now / 2 ^ 26 * 2 ^ 26 + 16 * lt.toNat
  if t ≤ now then t else t - 2 ^ 26

/-- Watches armed on semaphore `i`, in index order. -/
def State.armedOn (s : State) (i : Nat) : List Nat :=
  (s.watches.filter fun kv => kv.2.st == .armed && kv.2.sem.toNat == i).map fun kv => kv.1

/-- The snapshot of a semaphore entry. -/
def State.dbgSelWrite (s : State) (v : Word) : State :=
  let i := v.toNat % 65536
  let x := s.sem i
  let l := s.armedOn i
  { s with sync := { s.sync with
    dbgSel := BitVec.ofNat 16 i, dbgSem := x, dbgTick := BitVec.ofNat 64 (lastTickOf s.now x.lastTick)
    dbgArmed := BitVec.ofNat 7 l.length, dbgFirst := BitVec.ofNat 12 (l.headD 0) } }

/-- SYNC_DBG_SEL_WRITE. -/
def execSyncDbgSelWrite (v : Word) (s : State) : Out := .next (s.dbgSelWrite v)

/-- The snapshot of a watch. -/
def State.wselWrite (s : State) (v : Word) : State :=
  let i := v.toNat % 4096
  { s with sync := { s.sync with wSel := BitVec.ofNat 12 i, wLatch := some (s.watch i) } }

/-- SYNC_WSEL_WRITE. -/
def execSyncWselWrite (v : Word) (s : State) : Out := .next (s.wselWrite v)

/-- A rank-table entry is latched. -/
def State.rtselWrite (s : State) (v : Word) : State :=
  let x := fld v.toNat 0 18
  { s with router := { s.router with
    rtsel := BitVec.ofNat 32 x, rtent := BitVec.ofNat 64 (entBits (s.rankEnt (x % 4) (x / 4))) } }

/-- ROUTE_RTSEL_WRITE. -/
def execRouteRtselWrite (v : Word) (s : State) : Out := .next (s.rtselWrite v)

/-- A measurement is latched: an index that Table 17.9 does not list latches zeros. -/
def State.mselWrite (s : State) (v : Word) : State :=
  let i := v.toNat % 64
  { s with host := { s.host with msel := BitVec.ofNat 6 i, mval := s.host.meas.get (zeros 48) i } }

/-- SEC_MSEL_WRITE. -/
def execSecMselWrite (v : Word) (s : State) : Out := .next (s.mselWrite v)

/-- SEC_CMD: with its key, after ready, the fused security version rises to the running image's (R436). -/
def State.commitSvn (s : State) (v : Word) : State :=
  let svn := (s.copyOf s.host.activeB).svn
  if fld v.toNat 24 8 = 0xA5 ∧ v.getLsbD 0 ∧ s.isReady ∧ s.host.fuseSvn < svn then
    { s with host := { s.host with fuseSvn := svn } }
  else s

/-- COMMIT_SVN. -/
def execCommitSvn (v : Word) (s : State) : Out := .next (s.commitSvn v)

/-! ## Reads that latch (R376) -/

/-- CLK_TICK_LO_READ. -/
def execClkTickLoRead (s : State) : Out := .next (s.modClk fun c => { c with hiTick := BitVec.ofNat 32 (s.clk.tick.toNat / 2 ^ 32) })

/-- CLK_CAL_LO_READ. -/
def execClkCalLoRead (s : State) : Out := .next (s.modClk fun c => { c with hiCal := BitVec.ofNat 32 (s.calendar.toNat / 2 ^ 32) })

/-! ## Sluices (R172, R185) -/

/-- Rates of every partition but `q`. [DEDUCED, assumption 76] -/
def otherRates (t : Tab Nat) (q : Nat) : Nat := ((List.range 4).filter fun j => j != q).foldl (fun n j => n + t.get 0 j) 0

/-- A sluice register's write: RWI, and refused with event 0x540 when the rates of the partitions would pass 256.
[DEDUCED, assumption 76; DESIGN CHOICE, assumption 78] -/
def State.sluiceWrite (s : State) (peat : Bool) (q : Nat) (v : Word) : State :=
  let r := fld v.toNat 0 9
  let b := fld v.toNat 16 8
  s.rwi (0x300020 + (if peat then 16 else 0) + 4 * q) [q] fun s =>
    let rates := if peat then s.mem.prate else s.mem.drate
    if 256 < r + otherRates rates q then s.log 0x540 q (a1 q ++ a4 r)
    else
      let burst (t : Tab Nat) : Tab Nat := if b = 0 then t else t.set q b
      s.modMem fun m =>
        if peat then { m with prate := m.prate.set q r, pburst := burst m.pburst } else { m with drate := m.drate.set q r, dburst := burst m.dburst }

/-- SLUICE_WRITE. -/
def execSluiceWrite (peat : Bool) (q : Part) (v : Word) (s : State) : Out := .next (s.sluiceWrite peat q v)

/-! ## The module's place (R275, R391, R437) -/

/-- A field within its range, or its old value. [DEDUCED, assumption 73] -/
def withinOr {w : Nat} (lo hi v : Nat) (old : BitVec w) : BitVec w := if lo ≤ v ∧ v ≤ hi then BitVec.ofNat w v else old

/-- ROUTE_COORD and ROUTE_EXT: recorded, and measured anew. -/
def State.coordWrite (s : State) (ext : Bool) (v : Word) : State :=
  let n := v.toNat
  match s.busyAny with
  | some q => s.rwiRefused (if ext then 0x180008 else 0x180004) q
  | none =>
    let r := s.router
    let r1 : Router :=
      if ext then { r with ex := withinOr 1 8 (fld n 0 4) r.ex, ey := withinOr 1 8 (fld n 4 4) r.ey, ez := withinOr 1 48 (fld n 8 6) r.ez, extKnown := true }
      else { r with cx := BitVec.ofNat 3 (fld n 0 3), cy := BitVec.ofNat 3 (fld n 3 3), cz := withinOr 0 47 (fld n 6 6) r.cz, coordKnown := true }
    let s1 := { s with router := r1 }.measPlace
    if r1.coordKnown && r1.extKnown && !(r.coordKnown && r.extKnown) then s1.joinOuter else s1

/-- ROUTE_COORD_WRITE. -/
def execRouteCoordWrite (ext : Bool) (v : Word) (s : State) : Out := .next (s.coordWrite ext v)

/-! ## Power (R360, R361, R379) -/

/-- Valid points' frequencies rise strictly with the point's number. [DEDUCED, assumption 65] -/
def opsRise (f : Nat → Nat) (valid : Nat → Bool) : Bool :=
  (List.range 8).all fun i => (List.range i).all fun j => !valid i || !valid j || Nat.blt (f j) (f i)

/-- PWR_OPTAB(i): an entry other than OP0 may be cleared, or given a lower frequency than the factory's. [DEDUCED, assumption 65] -/
def State.optabWrite (s : State) (i : Nat) (v : Word) : State :=
  let f := fld v.toNat 0 8
  let ok := v.getLsbD 8
  let fs (j : Nat) : Nat := if j = i then f else s.opFreqOf j
  let vs (j : Nat) : Bool := if j = i then ok else s.opValid j
  if i = 0 ∨ factoryFreq i < f ∨ !opsRise fs vs then s
  else s.modPower fun p => { p with opFreq := p.opFreq.set i (BitVec.ofNat 8 f), opInvalid := p.opInvalid.set i (!ok) }

/-- A write of an RWI register of every partition. -/
def State.rwiAll (s : State) (off : Nat) (go : State → State) : State :=
  match s.busyAny with
  | some q => s.rwiRefused off q
  | none => go s

def State.pwrWrite (s : State) (off : Nat) (v : Word) : State :=
  if off = 0 then s.rwiAll 0x20000 fun s =>
    if fld v.toNat 0 2 = 3 then s else s.modPower fun p => { p with profile := BitVec.ofNat 2 v.toNat }
  else if off = 8 then s.modPower fun p => { p with stat := w1c p.stat v }
  else match arr off 0x300 4 8 with
    | some i => s.rwiAll (0x20000 + off) fun s => s.optabWrite i v
    | none => match arr off 0x400 4 256 with
      | some j => s.rwiAll (0x20000 + off) fun s => s.modPower fun p => { p with weights := p.weights.set j (BitVec.ofNat 16 v.toNat) }
      | none => s

/-! ## Clock and calendar (R375, R380) -/

def State.clkWrite (s : State) (off : Nat) (v : Word) : State :=
  if off = 4 then s.modClk fun c => { c with stat := w1c c.stat v }
  else if off = 0x28 then s.modClk fun c => { c with setLo := v }
  else if off = 0x2C then s.modClk fun c => { c with setHi := v }
  else if off = 0x30 then (if v.getLsbD 0 then s.calSetNow else s)
  else if off = 0x34 then (if -200000 ≤ v.toInt ∧ v.toInt ≤ 200000 then s.modClk fun c => { c with slew := v } else s)
  else s

/-! ## The other blocks -/

def State.modctlRegWrite (s : State) (off : Nat) (v : Word) : State :=
  if off = 0 then s.modctlWrite v
  else if off = 0xC then { s with boot := { s.boot with stat := w1c s.boot.stat v } }
  else s

def State.secWrite (s : State) (off : Nat) (v : Word) : State :=
  if off = 0 then { s with host := { s.host with secStat := w1c s.host.secStat (BitVec.ofNat 2 (fld v.toNat 8 2)) } }
  else if off = 8 then s.commitSvn v
  else if off = 0x10 then s.mselWrite v
  else s

def State.lodeWrite (s : State) (off : Nat) (v : Word) : State :=
  if off % 4096 = 0x20 ∧ off / 4096 < 32 then s.modPort (off / 4096) fun x => { x with stat := w1c x.stat (BitVec.ofNat 5 (fld v.toNat 20 5)) }
  else s

/-- COMB_THR: the thresholds within their ranges (R246). -/
def State.combWrite (s : State) (off : Nat) (v : Word) : State :=
  let i := off / 256
  let n := v.toNat
  if 16 ≤ i then s
  else if off % 256 = 0 then s.modComb i fun x => { x with w1c := w1c x.w1c (BitVec.ofNat 4 (fld n 8 4)) }
  else if off % 256 = 8 then s.rwiAll (0x140000 + off) fun s => s.modComb i fun x =>
    { x with driveThr := withinOr 500 950 (fld n 0 10) x.driveThr, marginThr := withinOr 50 300 (fld n 16 9) x.marginThr }
  else s

def State.routeWrite (s : State) (off : Nat) (v : Word) : State :=
  if off = 4 then s.coordWrite false v
  else if off = 8 then s.coordWrite true v
  else if off = 0x10 then { s with router := { s.router with stat := w1c s.router.stat v } }
  else if off = 0x40 then s.rtselWrite v
  else s

def State.syncWrite (s : State) (off : Nat) (v : Word) : State :=
  if off = 4 then { s with sync := { s.sync with stat := w1c s.sync.stat v } }
  else if off = 0x100 then s.dbgSelWrite v
  else if off = 0x120 then s.wselWrite v
  else s

def State.memWrite (s : State) (off : Nat) (v : Word) : State :=
  let n := v.toNat
  if off = 0x40 then s.modMem fun m =>
    { m with dramPeriod := withinOr 1 168 (fld n 0 8) m.dramPeriod, peatPeriod := withinOr 1 255 (fld n 8 8) m.peatPeriod }
  else if off = 0x50 then s.modMem fun m => { m with ecc := w1c m.ecc v }
  else match arr off 0x20 4 4 with
    | some q => s.sluiceWrite false q v
    | none => match arr off 0x30 4 4 with
      | some q => s.sluiceWrite true q v
      | none => s

def State.engWrite (s : State) (off : Nat) (v : Word) : State :=
  if off = 0x20 then { s with engFlt := w1c s.engFlt (BitVec.ofNat 4 v.toNat) }
  else match arr off 0x8 4 4 with
    | some q => s.rwi (0x400000 + off) [q] fun s => s.modPart q fun p => { p with waitlim := v }
    | none => s

/-- The ring registers (R410): RWI fields of the partition in PART, before and after the write. -/
def State.ringWrite (s : State) (b : RingBlk) (off : Nat) (v : Word) : State :=
  let r := s.ring b
  let n := v.toNat
  let at_ := ringBase b + off
  let q := r.part.toNat
  if off = 0 then s.rwi at_ [q] fun s => s.modRing b fun r =>
    { r with base := BitVec.ofNat 48 (r.base.toNat / 2 ^ 32 * 2 ^ 32 + n / 4096 * 4096) }
  else if off = 4 then s.rwi at_ [q, fld n 16 2] fun s => s.modRing b fun r =>
    { r with base := BitVec.ofNat 48 (r.base.toNat % 2 ^ 32 + fld n 0 16 * 2 ^ 32), part := BitVec.ofNat 2 (fld n 16 2) }
  else if off = 8 then s.rwi at_ [q] fun s => s.modRing b fun r => { r with size := withinOr 2 0xFFFFFF (fld n 0 24) r.size }
  else if off = 0xC then
    let s1 := s.rwi at_ [q] fun s => if v.getLsbD 0 then s.ringOn b else s.modRing b fun r => { r with en := false }
    if r.refused && v.getLsbD 2 then s1.modRing b fun r => { r with refused := false } else s1
  else if off = 0x14 then s.modRing b fun r => if fld n 0 24 < r.size.toNat then { r with rd := BitVec.ofNat 24 n } else r
  else s

/-- Events that a unit has (Table 16.3). -/
def unitHas (unit ev : Nat) : Bool :=
  if unit = 0xE0 then Nat.ble ev 8
  else Nat.ble ev 7 || (Nat.ble 16 ev && Nat.ble ev (match kindOf unit with
    | .tus => 19 | .sdg => 17 | .hmk => 17 | .mere => 18 | .clv => 19))

/-- CNT_SEL(i): an engine outside the partition or an event that its unit lacks leaves it unchanged (R400). -/
def State.selWrite (s : State) (i : Nat) (v : Word) : State :=
  let unit := fld v.toNat 0 8
  let ev := fld v.toNat 8 8
  let q := (i - 512) / (3584 / s.partCnt)
  let ok := unitHas unit ev && (unit == 0xE0 || (Nat.blt unit 200 && s.partOf unit == q))
  s.rwi (0x504000 + 4 * i) [q] fun s =>
    if ok then { s with obs := { s.obs with sel := s.obs.sel.set i (BitVec.ofNat 17 v.toNat) } } else s

/-- CNT_CFG: each partition's preset is its own; 3 leaves it unchanged. [DEDUCED, assumption 73] -/
def State.presetWrite (s : State) (v : Word) : State :=
  (List.range 4).foldl (fun s q =>
    let x := fld v.toNat (2 * q) 2
    s.rwi 0x500024 [q] fun s =>
      if x = 3 then s
      else
        let old := fld s.obs.preset.toNat (2 * q) 2
        { s with obs := { s.obs with preset := BitVec.ofNat 8 (s.obs.preset.toNat - old * 4 ^ q + x * 4 ^ q) } }) s

def State.cntWrite (s : State) (off : Nat) (v : Word) : State :=
  if off < 0x1C then s.ringWrite .cnt off v
  else if off = 0x20 then s.rwiAll 0x500020 fun s => { s with obs := { s.obs with period := withinOr 1563 1562500 (fld v.toNat 0 21) s.obs.period } }
  else if off = 0x24 then s.presetWrite v
  else if off = 0x28 then s.cntClr v
  else match arr off 0x4800 4 3584 with
    | some i => s.selWrite (512 + i) v
    | none => s

/-- TRACE_CFG(q). -/
def State.traceWrite (s : State) (off : Nat) (v : Word) : State :=
  if off < 0x1C then s.ringWrite .trace off v
  else match arr off 0x20 4 4 with
    | none => s
    | some q => s.rwi (0x580000 + off) [q] fun s =>
      let m : BitVec 4 := BitVec.ofNat 4 (2 ^ q)
      { s with obs := { s.obs with
        trEn := if v.getLsbD 0 then s.obs.trEn ||| m else s.obs.trEn &&& ~~~m
        trN := s.obs.trN.set q (withinOr 8 20 (fld v.toNat 1 5) (s.obs.trN.get 0x10 q))
        trKinds := s.obs.trKinds.set q (BitVec.ofNat 5 (fld v.toNat 6 5)) } }

/-- NUMW_FORCE: the step under way is a census step from now on, and stays one (R156, Table 6.7). [DEDUCED, assumption 87] -/
def State.numwForce (s : State) (v : BitVec 4) : State :=
  (List.range 4).foldl (fun s q => if v.getLsbD q then s.modPart q fun p => { p with censusNow := true } else s)
    { s with obs := { s.obs with force := v } }

def State.numwWrite (s : State) (off : Nat) (v : Word) : State :=
  if off = 0 then s.numwForce (BitVec.ofNat 4 v.toNat)
  else if off = 4 then s.numwSel v
  else s

def State.evtWrite (s : State) (off : Nat) (v : Word) : State :=
  if off < 0x1C then s.ringWrite .evt off v
  else if off = 0x28 then s.evtLsel v
  else s

/-- BAR4: the request buffer, and of the control page OVERRUN, NHEAD and the window base (Table 17.2). [DESIGN CHOICE, assumption 128] -/
def State.bar4Write (s : State) (f off : Nat) (v : Word) : State :=
  let n := v.toNat
  s.modFn f fun x =>
    if off < 0x1000 then { x with req := x.req.setBytes (off / 4 * 4) (leBytes 4 n) }
    else if off = 0x2004 then (if v.getLsbD 2 then { x with overrun := false } else x)
    else if off = 0x200C then (if n < noteRecs then { x with nhead := n } else x)
    else if off = 0x2010 then { x with win := BitVec.ofNat 48 (x.win.toNat / 2 ^ 32 * 2 ^ 32 + fld n 30 2 * gib) }
    else if off = 0x2014 then { x with win := BitVec.ofNat 48 (x.win.toNat % 2 ^ 32 + fld n 0 16 * 2 ^ 32) }
    else x

/-- A write of BAR0; an offset that no register occupies takes none (R10). [DESIGN CHOICE, assumption 74] -/
def State.bar0Write (s : State) (off : Nat) (v : Word) : State :=
  if off < 0x10000 then s
  else if off < 0x20000 then s.modctlRegWrite (off - 0x10000) v
  else if off < 0x30000 then s.pwrWrite (off - 0x20000) v
  else if off < 0x40000 then s.clkWrite (off - 0x30000) v
  else if off < 0x50000 then s.secWrite (off - 0x40000) v
  else if 0x100000 ≤ off ∧ off < 0x120000 then s.lodeWrite (off - 0x100000) v
  else if 0x140000 ≤ off ∧ off < 0x141000 then s.combWrite (off - 0x140000) v
  else if 0x180000 ≤ off ∧ off < 0x190000 then s.routeWrite (off - 0x180000) v
  else if 0x200000 ≤ off ∧ off < 0x210000 then s.syncWrite (off - 0x200000) v
  else if 0x300000 ≤ off ∧ off < 0x310000 then s.memWrite (off - 0x300000) v
  else if 0x400000 ≤ off ∧ off < 0x410000 then s.engWrite (off - 0x400000) v
  else if 0x500000 ≤ off ∧ off < 0x510000 then s.cntWrite (off - 0x500000) v
  else if 0x580000 ≤ off ∧ off < 0x590000 then s.traceWrite (off - 0x580000) v
  else if 0x600000 ≤ off ∧ off < 0x610000 then s.numwWrite (off - 0x600000) v
  else if 0x700000 ≤ off ∧ off < 0x710000 then s.evtWrite (off - 0x700000) v
  else s

/-- REGISTER_WRITE (R8). -/
def execRegisterWrite (reg : RegAt) (v : Word) (s : State) : Out :=
  match reg with
  | .bar0 off => .next (s.bar0Write off.toNat v)
  | .bar4 f off => .next (s.bar4Write f off.toNat v)

end Sys2Proof.Machine
end

