-- ==== Sys2Proof/Machine/Mgmt.lean ====
section
/-!
DEFINITION. Machine/Mgmt.lean: management over MCTP (R431-R434) and attestation over SPDM (R438). The forms of MCTP, PLDM and SPDM
messages are DMTF's: the codes here are taken from there, and what the manual does not state of an answer is a free value.
-/

namespace Sys2Proof.Machine

/-- A management message acts when its binding is open. -/
def State.mgmt (s : State) (b : Binding) (go : State → State) : State := if s.bindOpen b then go s else s

/-- An answer of type `typ`: what the model states, and a free rest. -/
def State.answerMgmt (s : State) (b : Binding) (typ : Byte) (kind : Nat) (head : List Byte) : State :=
  let (n, s1) := s.takeFree
  s1.mctpSend b typ (head ++ Config.mgmtBody kind n)

/-! ## MCTP control (R431, R432) -/

/-- The endpoint ID of a binding. -/
def State.eid (s : State) : Binding → Byte
  | .pcie _ => s.host.eidPcie
  | .i2c => s.host.eidI2c

def State.setEid (s : State) (b : Binding) (v : Byte) : State :=
  match b with
  | .pcie _ => { s with host := { s.host with eidPcie := v } }
  | .i2c => { s with host := { s.host with eidI2c := v } }

/-- MCTP_CONTROL: command 1 assigns the endpoint ID, command 2 reads it. [PRESUMED, assumption 46] -/
def execMctpControl (b : Binding) (cmd arg : Byte) (s : State) : Out :=
  .next (s.mgmt b fun s =>
    let s1 := if cmd = 1 then s.setEid b arg else s
    s1.answerMgmt b 0x00 0 (if cmd = 1 ∨ cmd = 2 then [cmd, s1.eid b] else [cmd]))

/-- MCTP_UNSUPPORTED_TYPE: dropped without an answer. -/
def execMctpUnsupportedType (_b : Binding) (_typ : Byte) (s : State) : Out := .next s

/-! ## PLDM (R433, R434) -/

/-- PLDM_BASE. -/
def execPldmBase (b : Binding) (_body : List Byte) (s : State) : Out := .next (s.mgmt b fun s => s.answerMgmt b 0x01 1 [])

/-- Sources of engine `e` in service, and as a warm spare. -/
def State.combsIn (s : State) (e : Nat) (st : CombSt) : Nat :=
  ([2 * e, 2 * e + 1].filter fun i => (s.comb i).st == st).length

/-- The sensors of Table 17.8 in its order: VIN, power, Tmax, eight islands, backup, sources in service and spare of each engine,
bring-up stage, quarantine, reserve pages left. -/
def State.sensors (s : State) : List Nat :=
  [s.power.vin.toNat, s.power.est.toNat, unsgn 32 s.power.tmax.toInt]
  ++ (List.range 8).map (fun e => (s.island e).temp.toNat)
  ++ [s.clk.bkv.toNat]
  ++ (List.range 8).map (fun e => s.combsIn e .service)
  ++ (List.range 8).map (fun e => s.combsIn e .warm)
  ++ [s.boot.stage, s.boot.quar.toNat, s.mem.pagesLeft]

/-- PLDM_PLATFORM: a reading of the sensor that the request's first byte numbers. [PRESUMED, assumption 46] -/
def execPldmPlatform (b : Binding) (body : List Byte) (s : State) : Out :=
  .next (s.mgmt b fun s =>
    let i := (body.headD 0).toNat
    match s.sensors[i]? with
    | some v => s.answerMgmt b 0x01 2 (a1 i ++ a4 v)
    | none => s.answerMgmt b 0x01 2 [])

/-- An image passes the checks of R435. -/
def State.imagePasses (s : State) (sigOk : Bool) (svn : BitVec 6) : Bool := sigOk && s.keySlot.isSome && decide (s.host.fuseSvn ≤ svn)

/-- The copy that did not boot takes the image; it is activated at the next module or cold reset. [DEDUCED, assumption 71] -/
def State.stageImage (s : State) (c : FwCopy) : State :=
  if s.host.activeB then { s with host := { s.host with copyA := c, nextB := false } }
  else { s with host := { s.host with copyB := c, nextB := true } }

/-- PLDM_FW_UPDATE. [DESIGN CHOICE, assumption 17; PRESUMED, assumption 46] -/
def execPldmFwUpdate (b : Binding) (sigOk : Bool) (svn : BitVec 6) (ver : BitVec 16) (image : List Byte) (s : State) : Out :=
  .next (s.mgmt b fun s =>
    if s.imagePasses sigOk svn then
      (s.stageImage { sigOk := true, svn := svn, ver := ver, hash := sha384 image }).answerMgmt b 0x01 5 [0]
    else
      let s1 := s.log 0xA03 0 (a4 (!s.host.activeB).toNat)
      ({ s1 with host := { s1.host with secStat := setBit s1.host.secStat 1 } }).answerMgmt b 0x01 5 [1])

/-! ## SPDM (R438) -/

/-- The connection of a binding. -/
def bindKey : Binding → Nat
  | .pcie f => f
  | .i2c => 5

def State.spdmOf (s : State) (b : Binding) : Spdm := s.host.spdm.get {} (bindKey b)
def State.setSpdm (s : State) (b : Binding) (x : Spdm) : State := { s with host := { s.host with spdm := s.host.spdm.set (bindKey b) x } }

/-- An SPDM 1.3 answer of response code `code`, and an SPDM error. [PRESUMED, assumption 46] -/
def State.spdmSay (s : State) (b : Binding) (code : Byte) (body : List Byte) : State := s.answerMgmt b 0x05 code.toNat ([0x13, code] ++ body)
/-- Answer an SPDM request with an error code (R438). [PRESUMED, assumption 46] -/
def State.spdmError (s : State) (b : Binding) (err : Byte) : State := s.mctpSend b 0x05 [0x13, 0x7F, err, 0]

/-- A request that the connection has not reached yet is unexpected. -/
def State.spdmWhen (s : State) (b : Binding) (ok : Spdm → Bool) (go : State → State) : State :=
  s.mgmt b fun s => if ok (s.spdmOf b) then go s else s.spdmError b 0x04

/-- GET_VERSION begins a connection. -/
def execGetVersion (b : Binding) (s : State) : Out := .next (s.mgmt b fun s => (s.setSpdm b { version := true }).spdmSay b 0x04 [])

/-- GET_CAPABILITIES. -/
def execGetCapabilities (b : Binding) (s : State) : Out :=
  .next (s.spdmWhen b (fun x => x.version) fun s => (s.setSpdm b { s.spdmOf b with caps := true }).spdmSay b 0x61 [])

/-- The algorithms of R438 as SPDM names them: ECDSA P-384, SHA-384, secp384r1, AES-256-GCM. [PRESUMED, assumption 46] -/
def spdmAlgs : List Byte := leBytes 4 0x80 ++ leBytes 4 0x02 ++ a2 0x10 ++ a2 0x02

/-- NEGOTIATE_ALGORITHMS. -/
def execNegotiateAlgorithms (b : Binding) (s : State) : Out :=
  .next (s.spdmWhen b (fun x => x.caps) fun s => (s.setSpdm b { s.spdmOf b with algs := true }).spdmSay b 0x63 spdmAlgs)

/-- A certificate slot: slot 0 holds Noveidun's chain to the device certificate, slot 1 that chain and the alias certificate bound to the
firmware image (R438). -/
def State.certSlot (s : State) (slot : Nat) : List Byte :=
  Config.deviceChain s.host.serial ++ if slot = 1 then Config.aliasCert (s.host.meas.get (zeros 48) 2) else []

/-- The signing key derives from the device's secret and the measurement of index 2 (R438). -/
def State.signingKey (s : State) : List Byte := Config.deriveKey Config.deviceSecret (s.host.meas.get (zeros 48) 2)

/-- A signed answer: what it says, and the signature over that and what the requester gave. [DESIGN CHOICE, assumption 127] -/
def State.spdmSigned (s : State) (b : Binding) (code : Byte) (body given : List Byte) : State :=
  let (n, s1) := s.takeFree
  s1.spdmSay b code (body ++ Config.ecdsaP384 s.signingKey (given ++ [0x13, code] ++ body) n)

/-- GET_DIGESTS: the SHA-384 of each slot. -/
def execGetDigests (b : Binding) (s : State) : Out :=
  .next (s.spdmWhen b (fun x => x.algs) fun s => s.spdmSay b 0x01 (sha384 (s.certSlot 0) ++ sha384 (s.certSlot 1)))

/-- Certificate slots 0 and 1. -/
def State.ofSlot (s : State) (b : Binding) (slot : Byte) (go : State → State) : State := if slot.toNat < 2 then go s else s.spdmError b 0x01

/-- GET_CERTIFICATE. -/
def execGetCertificate (b : Binding) (slot : Byte) (s : State) : Out :=
  .next (s.spdmWhen b (fun x => x.algs) fun s => s.ofSlot b slot fun s => s.spdmSay b 0x02 ([slot] ++ s.certSlot slot.toNat))

/-- CHALLENGE: signed with the device's signing key. -/
def execChallenge (b : Binding) (slot : Byte) (nonce : List Byte) (s : State) : Out :=
  .next (s.spdmWhen b (fun x => x.algs) fun s => s.ofSlot b slot fun s =>
    s.spdmSigned b 0x03 ([slot] ++ sha384 (s.certSlot slot.toNat)) nonce)

/-- Measurements that a binding's requester may obtain: a VF's are 1-3 and those of its own partition. -/
def measList (b : Binding) : List Nat :=
  let own (q : Nat) : List Nat := [16 + q, 20 + q]
  [1, 2, 3] ++ (match b with
    | .pcie f => if f.val = 0 then (List.range 4).map (16 + ·) ++ (List.range 4).map (20 + ·) else own (f - 1)
    | .i2c => (List.range 4).map (16 + ·) ++ (List.range 4).map (20 + ·))

/-- A measurement block: index and digest. -/
def State.measBlock (s : State) (i : Nat) : List Byte := a1 i ++ s.host.meas.get (zeros 48) i

/-- GET_MEASUREMENTS: index 0 asks for their number, 0xFF for all. -/
def execGetMeasurements (b : Binding) (index : Byte) (s : State) : Out :=
  .next (s.spdmWhen b (fun x => x.algs) fun s =>
    let l := measList b
    if index = 0 then s.spdmSay b 0x60 (a1 l.length)
    else if index = 0xFF then s.spdmSay b 0x60 (l.flatMap s.measBlock)
    else if l.contains index.toNat then s.spdmSay b 0x60 (s.measBlock index.toNat)
    else s.spdmError b 0x01)

/-- KEY_EXCHANGE begins a session's handshake; its answer is signed. -/
def execKeyExchange (b : Binding) (nonce : List Byte) (s : State) : Out :=
  .next (s.spdmWhen b (fun x => x.algs) fun s => (s.setSpdm b { s.spdmOf b with handshake := true }).spdmSigned b 0x64 [] nonce)

/-- The binding and the function in event 0xA20. -/
def bindArgs : Binding → List Byte
  | .pcie f => a4 0 ++ a4 f
  | .i2c => a4 1 ++ a4 0

/-- FINISH: the session is established, event 0xA20; a FINISH that does not verify ends the handshake. -/
def execFinish (b : Binding) (ok : Bool) (s : State) : Out :=
  .next (s.spdmWhen b (fun x => x.handshake) fun s =>
    if ok then
      ((s.setSpdm b { s.spdmOf b with handshake := false, session := true }).log 0xA20 0 (bindArgs b)).spdmSay b 0x65 []
    else (s.setSpdm b { s.spdmOf b with handshake := false }).spdmError b 0x06)

/-- HEARTBEAT. -/
def execHeartbeat (b : Binding) (s : State) : Out := .next (s.spdmWhen b (fun x => x.session) fun s => s.spdmSay b 0x68 [])

/-- END_SESSION. -/
def execEndSession (b : Binding) (s : State) : Out :=
  .next (s.spdmWhen b (fun x => x.session) fun s => (s.setSpdm b { s.spdmOf b with session := false }).spdmSay b 0x6C [])

/-- Request codes that the responder supports. [PRESUMED, assumption 46] -/
def spdmCodes : List Nat := [0x81, 0x82, 0x83, 0x84, 0xE0, 0xE1, 0xE3, 0xE4, 0xE5, 0xE8, 0xEC]

/-- SPDM_UNSUPPORTED_REQUEST: the error UnsupportedRequest. -/
def execSpdmUnsupportedRequest (b : Binding) (code : Byte) (s : State) : Out :=
  if spdmCodes.contains code.toNat then .next s else .next (s.mgmt b fun s => s.spdmError b 0x07)

end Sys2Proof.Machine
end

