-- ==== Sys2Proof/Machine/RingRx.lean ====
section
/-!
DEFINITION. Machine/RingRx.lean: the RING packets as they arrive (R281, R283-R290, R293, R472).
-/

namespace Sys2Proof.Machine

/-! ## The fields of Table 11.3 -/

def ringOf (k : Packet) : BitVec 16 := BitVec.ofNat 16 (fld k.addr.toNat 0 11)
def ringKind (k : Packet) : Nat := fld k.addr.toNat 11 3
def ringAtt (k : Packet) : BitVec 2 := BitVec.ofNat 2 (fld k.addr.toNat 14 2)
def ringBlock (k : Packet) : Nat := fld k.addr.toNat 16 32

/-- A RING packet of kind `kind` that passes its checks is handed to the Mere input, and its slot frees. -/
def ringRow (kind : Nat) (p c : Nat) (k : Packet) (s : State) (go : Nat → State → State) : Out :=
  if k.typ = 4 ∧ ringKind k = kind then
    .next (s.receive p c k fun s => s.accept p c k fun q _ s => go q ((s.markIn q k).freeSlot p c k))
  else .next s

/-- A packet for work that this module has not issued (R472): event 0x654 at most once per second per sender. [DEDUCED, assumption 48] -/
def State.strayRing (s : State) (q : Nat) (k : Packet) : State :=
  let (now, s1) := s.oncePerSec (rateKey 0x654 k.src.toNat)
  if now then s1.log 0x654 q (a3 k.src.toNat ++ a4 (ringOf k).toNat ++ a1 (ringKind k)) else s1

/-- A packet at an open instance: of a lower attempt it is dropped; of a higher one it raises the instance's attempt first. -/
def State.atAttempt (s : State) (q e : Nat) (i : RInst) (r : RingEnt) (a : BitVec 2) (go : RInst → State → State) : State :=
  if a.toNat < i.attempt.toNat then s
  else if i.attempt.toNat < a.toNat then
    let s1 := s.raiseTo q e i.key a r.pos
    match s1.inst e i.key with
    | some j => go j s1
    | none => s1
  else go i s

/-- The open instance of a pass that holds the packet's first block. [DEDUCED, assumption 48] -/
def State.openFor (s : State) (q : Nat) (k : Packet) (reduce : Bool) : Option (Nat × RInst × RingEnt) :=
  match s.findInst q fun i => i.ring == ringOf k && i.reduce == reduce && i.holds (ringBlock k) with
  | some (e, i) => (s.ringEnt q i.ring).map fun r => (e, i, r)
  | none => none

/-- The exponents of an EXP packet. -/
def expsOf (bs : List Byte) : List Int := (List.range (bs.length / 2)).map fun n => sgn 16 (fieldLE bs (2 * n) 2)

def State.expPacket (s : State) (q : Nat) (k : Packet) (down : Bool) : State :=
  match s.openFor q k false with
  | none => s.strayRing q k
  | some (e, i, r) => s.atAttempt q e i r (ringAtt k) fun i s =>
    let xs := expsOf k.payload
    let mine := if down then [] else ((List.range xs.length).map fun n => ringBlock k + n * r.l).filter i.holds
    s.withBlocks q e i mine fun s => s.expIn q e i r down (ringBlock k) xs

/-- RING_EXP_UP: the running maximum of a block's contributions (R281). -/
def execRingExpUp (p : Port) (c : Colour) (k : Packet) (s : State) : Out := ringRow 0 p c k s fun q s => s.expPacket q k false

/-- RING_EXP_DOWN: an agreed exponent (R281). -/
def execRingExpDown (p : Port) (c : Colour) (k : Packet) (s : State) : Out := ringRow 1 p c k s fun q s => s.expPacket q k true

/-- RING_SUM: a partial sum (R283, R285). -/
def execRingSum (p : Port) (c : Colour) (k : Packet) (s : State) : Out :=
  ringRow 2 p c k s fun q s =>
    match s.openFor q k true with
    | none => s.strayRing q k
    | some (e, i, r) => s.atAttempt q e i r (ringAtt k) fun i s => s.sumIn q e i r (ringBlock k) k.payload

/-! ## HELD at the twin (R288-R290) -/

/-- Bytes of a HELD payload of `n` blocks of width `w`. -/
def heldLen (w n : Nat) : Nat := 16 + roundUp (2 * n) 8 + n * (32 * w + 224)

/-- The width and the count that a HELD payload's length names. [DEDUCED, assumption 48] -/
def heldForm (len : Nat) : Option (Nat × Nat) :=
  [(24, 1), (24, 2), (24, 3), (24, 4), (40, 1), (40, 2)].find? fun x => heldLen x.1 x.2 == len

/-- The first block of the partner's instance: the twin's own plan runs the same reduce passes on a ring of the same INDEX. -/
def Plan.heldFirst (p : Plan) (ring b : Nat) : Nat :=
  (p.rranges.filter fun x => x.1 == ring && Nat.ble x.2.1 b).foldl (fun m x => max m x.2.1) 0

def State.heldAtt (s : State) (q : Nat) (key : BitVec 16 × Word) : BitVec 2 :=
  match (s.part q).heldAttempt.find? fun x => x.1 == key with
  | some x => x.2
  | none => 0

def State.setHeldAtt (s : State) (q : Nat) (key : BitVec 16 × Word) (a : BitVec 2) : State :=
  s.modPart q fun p => { p with heldAttempt := (key, a) :: p.heldAttempt.filter fun x => x.1 != key }

/-- The twin's Mere finds a mismatch (R288): nothing is written, the owner is asked for a new attempt; in attempt 3 R287 applies.
[DEDUCED, assumption 49] -/
def State.heldFault (s : State) (q : Nat) (k : Packet) (key : BitVec 16 × Word) (b : Nat) : State :=
  let a := ringAtt k
  if a = 3 then (s.log 0x652 q (a4 key.1.toNat ++ a4 key.2.toNat)).cannotContinue
  else
    let s1 := s.log 0x650 q (a4 key.1.toNat ++ a4 b ++ a1 (a + 1).toNat ++ a4 5)
    let s2 := match meresOf s.partCnt q with
      | e :: _ => s1.countMismatch q e key.1
      | [] => s1
    (s2.setHeldAtt q key (a + 1)).sendRetry q (BitVec.ofNat 32 k.src.toNat) key.1 key.2.toNat (a + 1) 0xFFFF

/-- A HELD packet: beyond SHARD_LEN, event 0x653 and the stop of R190; otherwise its blocks and exponents are written to the held
region and a HACK goes back. [DEDUCED, assumption 48] -/
def State.heldIn (s : State) (q : Nat) (k : Packet) : State :=
  match (s.part q).plan, s.ringEnt q (ringOf k), heldForm k.payload.length with
  | some pl, some r, some (w, n) =>
    let b := ringBlock k
    let key := (ringOf k, BitVec.ofNat 32 (pl.heldFirst (ringOf k).toNat b))
    let att := s.heldAtt q key
    if (ringAtt k).toNat < att.toNat then s
    else
      let s1 := if ringAtt k = att then s else s.setHeldAtt q key (ringAtt k)
      let eo := fieldLE k.payload 0 8
      let xo := fieldLE k.payload 8 8
      if r.shardLen < eo + n * 32 * w ∨ r.shardLen < xo + 2 * n then
        let s2 := s1.log 0x653 q (a3 k.src.toNat ++ a4 eo ++ a4 xo)
        if (s2.part q).started then s2.stopPart q 1 else s2
      else
        let body := k.payload.drop (16 + roundUp (2 * n) 8)
        match (List.range n).find? fun i => !(bodyBlock w n body i).2 with
        | some i => s1.heldFault q k key (b + i)
        | none =>
          let s0 := s1.countGrains q (grainsOf (r.heldBase + eo) (n * 32 * w) ++ grainsOf (r.heldBase + xo) (2 * n))
          let s2 := (s0.store q 0 (r.heldBase + eo) (body.take (n * 32 * w))).store q 0 (r.heldBase + xo) (sub k.payload 16 (2 * n))
          let s3 := s2.modPart q fun x => { x with heldGot := (List.range n).foldl (fun t i =>
            t.set ((ringOf k).toNat * 2 ^ 32 + b + i) (32 * w + 2)) x.heldGot }
          s3.ringSend q (BitVec.ofNat 32 k.src.toNat) (ringOf k) 4 (ringAtt k) b []
  | _, _, _ => s.strayRing q k

/-- RING_HELD (R289). -/
def execRingHeld (p : Port) (c : Colour) (k : Packet) (s : State) : Out := ringRow 3 p c k s fun q s => s.heldIn q k

/-- RING_HACK: the twin holds the packet's blocks; the owner's instance completes with the last one (R283, R289). -/
def execRingHack (p : Port) (c : Colour) (k : Packet) (s : State) : Out :=
  ringRow 4 p c k s fun q s =>
    match s.openFor q k true with
    | none => s.strayRing q k
    | some (e, i, _) =>
      if ringAtt k = i.attempt then
        (s.setInst e { i with hackWait := i.hackWait.drop fun b => b == ringBlock k }).ringCheck q e i.key
      else s

/-! ## READY and HREADY (R280, R290, R472) -/

/-- Blocks of D that waited for HREADY are read again and sent, unless the read meets poison (R178). -/
def State.pumpFrom (s : State) (q e : Nat) (i : RInst) : State :=
  match s.ringEnt q i.ring with
  | none => s
  | some r =>
    match (i.heldQueued.flatMap fun x => i.heldRuns r x.1 x.2).findSome? fun ab => s.poisonIn ab.1 ab.2 with
    | some g => if (s.part q).heldOpen then s.ringFault q e i.key i.first.toNat (.poison g) else s
    | none => s.pumpHeld q e i.key

/-- HREADY opens the held blocks of the next step: every instance sends those that wait. -/
def State.hreadyIn (s : State) (q : Nat) : State :=
  let s1 := s.modPart q fun p => { p with hreadyGot := p.hreadyGot + 1 }
  (meresOf s1.partCnt q).foldl (fun s e => (s.eng e).rinsts.foldl (fun s i => s.pumpFrom q e i) s) s1

/-- RING_READY: SUCC has issued the matching instance; one that is not issued here yet keeps the READY. -/
def execRingReady (p : Port) (c : Colour) (k : Packet) (s : State) : Out :=
  ringRow 5 p c k s fun q s =>
    let reduce := bitAt (fieldLE k.payload 0 1) 0
    if ringBlock k = 0xFFFFFFFF ∧ reduce then s.hreadyIn q
    else
      let key : RKey := (ringOf k, reduce, BitVec.ofNat 32 (ringBlock k))
      match s.findInst q fun i => i.key == key with
      | some (e, i) =>
        if i.succReady then s.modPart q fun p => { p with readyKept := key :: p.readyKept }
        else s.succIn q e key
      | none => s.modPart q fun p => { p with readyKept := key :: p.readyKept }

/-! ## NORM and RETRY -/

/-- RING_NORM: a child's value folds into the node, or the global s goes down (R293). A value of another ATTEMPT is kept for the roll
forward or the step that begins it (R343). [DEDUCED, assumption 48] -/
def execRingNorm (p : Port) (c : Colour) (k : Packet) (s : State) : Out :=
  ringRow 6 p c k s fun q s =>
    let t := (ringOf k).toNat
    let v : AF40 := BitVec.ofNat 40 (fieldLE k.payload 0 5)
    match s.treeEnt q t with
    | none => s
    | some r =>
      if bitAt (fieldLE k.payload 5 1) 0 then s.normDown q t r v
      else match r.children.findIdx? fun ch => ch.1.toNat == k.src.toNat with
        | some i =>
          let n := s.normNode q t
          if ringAtt k = (s.part q).normAtt then (s.setNorm q t { n with ups := n.ups.set i v }).normGo q t r
          else s.setNorm q t { n with early := n.early.set i v }
        | none => s

/-- RING_RETRY (R286, R288, R472): a member takes up the attempt once; one that has not issued the instance records it
for the exponent pass, which every range runs first. At the owner, position 0xFFFF is its twin's detection. [DEDUCED, assumption 49] -/
def execRingRetry (p : Port) (c : Colour) (k : Packet) (s : State) : Out :=
  ringRow 7 p c k s fun q s =>
    let a : BitVec 2 := BitVec.ofNat 2 (fieldLE k.payload 0 1)
    let pos := fieldLE k.payload 2 2
    let first : Word := BitVec.ofNat 32 (ringBlock k)
    let at_ (reduce : Bool) := s.findInst q fun i => i.key == (ringOf k, reduce, first)
    match (at_ true).or (at_ false) with
    | some (e, i) =>
      if a.toNat ≤ i.attempt.toNat then s
      else
        let own := match s.ringEnt q i.ring with | some r => r.pos | none => 0
        s.raiseTo q e i.key a (if pos = 0xFFFF then own else pos)
    | none =>
      let key : RKey := (ringOf k, false, first)
      let old := match (s.part q).ringAttempt.find? fun x => x.1 == key with | some x => x.2 | none => 0
      if a.toNat ≤ old.toNat then s
      else
        let s1 := s.modPart q fun p => { p with ringAttempt := (key, a) :: p.ringAttempt.filter fun x => x.1 != key }
        match s.ringEnt q (ringOf k) with
        | some r => if r.l ≤ 1 then s1 else s1.sendRetry q r.succ (ringOf k) first.toNat a pos
        | none => s1

end Sys2Proof.Machine
end

