-- ==== Sys2Proof/Machine/Dispatch.lean ====
section
/-! DEFINITION. Machine/Dispatch.lean: one arm for each command. -/

namespace Sys2Proof.Machine

def exec (i : Instr) (s : State) : Host.Outcome State Fault Refusal :=
  match i with
  | .nop e f => Sys2Proof.Machine.execNop e f s
  | .halt e f => Sys2Proof.Machine.execHalt e f s
  | .loop e f => Sys2Proof.Machine.execLoop e f s
  | .endl e f => Sys2Proof.Machine.execEndl e f s
  | .jmp e f => Sys2Proof.Machine.execJmp e f s
  | .phase e f => Sys2Proof.Machine.execPhase e f s
  | .setr e f => Sys2Proof.Machine.execSetr e f s
  | .swait e f => Sys2Proof.Machine.execSwait e f s
  | .swatch e f => Sys2Proof.Machine.execSwatch e f s
  | .sadd e f => Sys2Proof.Machine.execSadd e f s
  | .ssub e f => Sys2Proof.Machine.execSsub e f s
  | .ssig e f => Sys2Proof.Machine.execSsig e f s
  | .move e f => Sys2Proof.Machine.execMove e f s
  | .gather e f => Sys2Proof.Machine.execGather e f s
  | .scatter e f => Sys2Proof.Machine.execScatter e f s
  | .put e f => Sys2Proof.Machine.execPut e f s
  | .dispatch e f => Sys2Proof.Machine.execDispatch e f s
  | .mma e f => Sys2Proof.Machine.execMma e f s
  | .mmax e f => Sys2Proof.Machine.execMmax e f s
  | .accsp e f => Sys2Proof.Machine.execAccsp e f s
  | .accrs e f => Sys2Proof.Machine.execAccrs e f s
  | .acccb e f => Sys2Proof.Machine.execAcccb e f s
  | .epi e f => Sys2Proof.Machine.execEpi e f s
  | .vop e f => Sys2Proof.Machine.execVop e f s
  | .vred e f => Sys2Proof.Machine.execVred e f s
  | .vrng e f => Sys2Proof.Machine.execVrng e f s
  | .vcvt e f => Sys2Proof.Machine.execVcvt e f s
  | .rring e f => Sys2Proof.Machine.execRring e f s
  | .rnorm e f => Sys2Proof.Machine.execRnorm e f s
  | .upd e f => Sys2Proof.Machine.execUpd e f s
  | .commit e f => Sys2Proof.Machine.execCommit e f s
  | .nwatch e f => Sys2Proof.Machine.execNwatch e f s
  | .instructionComplete e => Sys2Proof.Machine.execInstructionComplete e s
  | .checkpointSaved e => Sys2Proof.Machine.execCheckpointSaved e s
  | .blockFault e cause addr => Sys2Proof.Machine.execBlockFault e cause addr s
  | .waitLimitExceeded e => Sys2Proof.Machine.execWaitLimitExceeded e s
  | .ssigRelease q sender seq => Sys2Proof.Machine.execSsigRelease q sender seq s
  | .barrierArrive q => Sys2Proof.Machine.execBarrierArrive q s
  | .commitBarrierComplete q => Sys2Proof.Machine.execCommitBarrierComplete q s
  | .syncScrub corrected uncorrectable => Sys2Proof.Machine.execSyncScrub corrected uncorrectable s
  | .laneFrameReceive p c cw => Sys2Proof.Machine.execLaneFrameReceive p c cw s
  | .alignmentBlockReceive p c b => Sys2Proof.Machine.execAlignmentBlockReceive p c b s
  | .ackTimeout p c => Sys2Proof.Machine.execAckTimeout p c s
  | .busyPauseEnd p c => Sys2Proof.Machine.execBusyPauseEnd p c s
  | .laneTrained p c d => Sys2Proof.Machine.execLaneTrained p c d s
  | .lossOfSignal p c => Sys2Proof.Machine.execLossOfSignal p c s
  | .lowMarginTimeout p c => Sys2Proof.Machine.execLowMarginTimeout p c s
  | .laneRetireDeadline p c d => Sys2Proof.Machine.execLaneRetireDeadline p c d s
  | .islandOutOfBand e temp => Sys2Proof.Machine.execIslandOutOfBand e temp s
  | .islandInBand e temp => Sys2Proof.Machine.execIslandInBand e temp s
  | .islandTimeout e => Sys2Proof.Machine.execIslandTimeout e s
  | .ringLockLoop p c d errMHz heat => Sys2Proof.Machine.execRingLockLoop p c d errMHz heat s
  | .ringRelockDone p c d ok heat => Sys2Proof.Machine.execRingRelockDone p c d ok heat s
  | .combDriveAdjust k => Sys2Proof.Machine.execCombDriveAdjust k s
  | .combSwitchStart e => Sys2Proof.Machine.execCombSwitchStart e s
  | .combSwitchDone e => Sys2Proof.Machine.execCombSwitchDone e s
  | .combSwitchForced e => Sys2Proof.Machine.execCombSwitchForced e s
  | .combSourceFail k => Sys2Proof.Machine.execCombSourceFail k s
  | .standbyCombFail k => Sys2Proof.Machine.execStandbyCombFail k s
  | .writeReceive p c k => Sys2Proof.Machine.execWriteReceive p c k s
  | .mcastReceive p c k => Sys2Proof.Machine.execMcastReceive p c k s
  | .signalReceive p c k => Sys2Proof.Machine.execSignalReceive p c k s
  | .packReceive p c k => Sys2Proof.Machine.execPackReceive p c k s
  | .linkReceive p c k => Sys2Proof.Machine.execLinkReceive p c k s
  | .packetRelay p c k => Sys2Proof.Machine.execPacketRelay p c k s
  | .packTimeout q peer => Sys2Proof.Machine.execPackTimeout q peer s
  | .lanestatePeriodic => Sys2Proof.Machine.execLanestatePeriodic s
  | .detourWaitTimeout plane slot => Sys2Proof.Machine.execDetourWaitTimeout plane slot s
  | .hello p c k => Sys2Proof.Machine.execHello p c k s
  | .drain p c k => Sys2Proof.Machine.execDrain p c k s
  | .drainComplete q => Sys2Proof.Machine.execDrainComplete q s
  | .drainTimeout q => Sys2Proof.Machine.execDrainTimeout q s
  | .drained p c k => Sys2Proof.Machine.execDrained p c k s
  | .rtab p c k => Sys2Proof.Machine.execRtab p c k s
  | .rtack p c k => Sys2Proof.Machine.execRtack p c k s
  | .resume p c k => Sys2Proof.Machine.execResume p c k s
  | .resumeTick q => Sys2Proof.Machine.execResumeTick q s
  | .fence p c k => Sys2Proof.Machine.execFence p c k s
  | .numans p c k => Sys2Proof.Machine.execNumans p c k s
  | .lanestate p c k => Sys2Proof.Machine.execLanestate p c k s
  | .admitDeclare p c k => Sys2Proof.Machine.execAdmitDeclare p c k s
  | .admitReport p c k => Sys2Proof.Machine.execAdmitReport p c k s
  | .admitOffer p c k => Sys2Proof.Machine.execAdmitOffer p c k s
  | .admitAccept p c k => Sys2Proof.Machine.execAdmitAccept p c k s
  | .admitDecline p c k => Sys2Proof.Machine.execAdmitDecline p c k s
  | .admitData p c k => Sys2Proof.Machine.execAdmitData p c k s
  | .admitChunkack p c k => Sys2Proof.Machine.execAdmitChunkack p c k s
  | .admitLive p c k => Sys2Proof.Machine.execAdmitLive p c k s
  | .admitGo p c k => Sys2Proof.Machine.execAdmitGo p c k s
  | .ringExpUp p c k => Sys2Proof.Machine.execRingExpUp p c k s
  | .ringExpDown p c k => Sys2Proof.Machine.execRingExpDown p c k s
  | .ringSum p c k => Sys2Proof.Machine.execRingSum p c k s
  | .ringHeld p c k => Sys2Proof.Machine.execRingHeld p c k s
  | .ringHack p c k => Sys2Proof.Machine.execRingHack p c k s
  | .ringReady p c k => Sys2Proof.Machine.execRingReady p c k s
  | .ringNorm p c k => Sys2Proof.Machine.execRingNorm p c k s
  | .ringRetry p c k => Sys2Proof.Machine.execRingRetry p c k s
  | .silenceTimeout slot => Sys2Proof.Machine.execSilenceTimeout slot s
  | .reportTimeout q rank => Sys2Proof.Machine.execReportTimeout q rank s
  | .recoveryHeld q => Sys2Proof.Machine.execRecoveryHeld q s
  | .offerTimeout q => Sys2Proof.Machine.execOfferTimeout q s
  | .noStandbyTimer q => Sys2Proof.Machine.execNoStandbyTimer q s
  | .spareLoadDone q => Sys2Proof.Machine.execSpareLoadDone q s
  | .replacementDeadline q => Sys2Proof.Machine.execReplacementDeadline q s
  | .plannedReplacement q => Sys2Proof.Machine.execPlannedReplacement q s
  | .warmNoticeTimeout q rank => Sys2Proof.Machine.execWarmNoticeTimeout q rank s
  | .numericsDeadline q => Sys2Proof.Machine.execNumericsDeadline q s
  | .hostCapExpire => Sys2Proof.Machine.execHostCapExpire s
  | .dramScrubPass hits => Sys2Proof.Machine.execDramScrubPass hits s
  | .peatScrubPass hits => Sys2Proof.Machine.execPeatScrubPass hits s
  | .pageRetireCopyDone => Sys2Proof.Machine.execPageRetireCopyDone s
  | .culvertHostRetry e => Sys2Proof.Machine.execCulvertHostRetry e s
  | .vinWarning v => Sys2Proof.Machine.execVinWarning v s
  | .vinRecovered v => Sys2Proof.Machine.execVinRecovered v s
  | .brownoutTimeout => Sys2Proof.Machine.execBrownoutTimeout s
  | .powerFailReset v => Sys2Proof.Machine.execPowerFailReset v s
  | .overvoltageTrip v => Sys2Proof.Machine.execOvervoltageTrip v s
  | .vinGood v => Sys2Proof.Machine.execVinGood v s
  | .aux12Lost => Sys2Proof.Machine.execAux12Lost s
  | .aux12Restored => Sys2Proof.Machine.execAux12Restored s
  | .powerInterval counts => Sys2Proof.Machine.execPowerInterval counts s
  | .capNotHeld => Sys2Proof.Machine.execCapNotHeld s
  | .opChangeStart => Sys2Proof.Machine.execOpChangeStart s
  | .pllLocked => Sys2Proof.Machine.execPllLocked s
  | .opRampEnd => Sys2Proof.Machine.execOpRampEnd s
  | .opChangeAbandon => Sys2Proof.Machine.execOpChangeAbandon s
  | .droopTrip detector => Sys2Proof.Machine.execDroopTrip detector s
  | .droopBurstEnd still => Sys2Proof.Machine.execDroopBurstEnd still s
  | .droopRelease => Sys2Proof.Machine.execDroopRelease s
  | .thermalSample temps bad => Sys2Proof.Machine.execThermalSample temps bad s
  | .shutdownNLow => Sys2Proof.Machine.execShutdownNLow s
  | .refLoss => Sys2Proof.Machine.execRefLoss s
  | .refRestore => Sys2Proof.Machine.execRefRestore s
  | .stepWordReceive w => Sys2Proof.Machine.execStepWordReceive w s
  | .stepWordSend => Sys2Proof.Machine.execStepWordSend s
  | .stepWordAbsent => Sys2Proof.Machine.execStepWordAbsent s
  | .refDriftCheck ppb p c => Sys2Proof.Machine.execRefDriftCheck ppb p c s
  | .backupChargeCheck bkv => Sys2Proof.Machine.execBackupChargeCheck bkv s
  | .calSet => Sys2Proof.Machine.execCalSet s
  | .perstNAssert => Sys2Proof.Machine.execPerstNAssert s
  | .perstNRelease => Sys2Proof.Machine.execPerstNRelease s
  | .modctlModuleReset v => Sys2Proof.Machine.execModctlModuleReset v s
  | .modctlWarmReset v => Sys2Proof.Machine.execModctlWarmReset v s
  | .modctlPartReset v => Sys2Proof.Machine.execModctlPartReset v s
  | .bringupStageEnd failed ms => Sys2Proof.Machine.execBringupStageEnd failed ms s
  | .bringupStageOverrun ms => Sys2Proof.Machine.execBringupStageOverrun ms s
  | .helloSend => Sys2Proof.Machine.execHelloSend s
  | .helloRepeat => Sys2Proof.Machine.execHelloRepeat s
  | .snapshotLatch => Sys2Proof.Machine.execSnapshotLatch s
  | .load r addr len => Sys2Proof.Machine.execLoad r addr len s
  | .loadDone q => Sys2Proof.Machine.execLoadDone q s
  | .start r seed first tick => Sys2Proof.Machine.execStart r seed first tick s
  | .startTick q => Sys2Proof.Machine.execStartTick q s
  | .stop r => Sys2Proof.Machine.execStop r s
  | .unload r => Sys2Proof.Machine.execUnload r s
  | .partcnt r n => Sys2Proof.Machine.execPartcnt r n s
  | .tkeySet r ident key => Sys2Proof.Machine.execTkeySet r ident key s
  | .tkeyClr r => Sys2Proof.Machine.execTkeyClr r s
  | .cap r watts ms => Sys2Proof.Machine.execCap r watts ms s
  | .decide r ident answer slot step => Sys2Proof.Machine.execDecide r ident answer slot step s
  | .hsig r sem n step => Sys2Proof.Machine.execHsig r sem n step s
  | .declare r coord => Sys2Proof.Machine.execDeclare r coord s
  | .reinstate r => Sys2Proof.Machine.execReinstate r s
  | .vacate r board => Sys2Proof.Machine.execVacate r board s
  | .modreset r => Sys2Proof.Machine.execModreset r s
  | .status r => Sys2Proof.Machine.execStatus r s
  | .notificationPost fn => Sys2Proof.Machine.execNotificationPost fn s
  | .bar2Read fn off len => Sys2Proof.Machine.execBar2Read fn off len s
  | .bar2Write fn off data => Sys2Proof.Machine.execBar2Write fn off data s
  | .functionLevelReset fn => Sys2Proof.Machine.execFunctionLevelReset fn s
  | .pcieLinkLoss => Sys2Proof.Machine.execPcieLinkLoss s
  | .barResize fn log2 => Sys2Proof.Machine.execBarResize fn log2 s
  | .mctpControl b cmd arg => Sys2Proof.Machine.execMctpControl b cmd arg s
  | .mctpUnsupportedType b typ => Sys2Proof.Machine.execMctpUnsupportedType b typ s
  | .pldmBase b body => Sys2Proof.Machine.execPldmBase b body s
  | .pldmPlatform b body => Sys2Proof.Machine.execPldmPlatform b body s
  | .pldmFwUpdate b sigOk svn ver image => Sys2Proof.Machine.execPldmFwUpdate b sigOk svn ver image s
  | .getVersion b => Sys2Proof.Machine.execGetVersion b s
  | .getCapabilities b => Sys2Proof.Machine.execGetCapabilities b s
  | .negotiateAlgorithms b => Sys2Proof.Machine.execNegotiateAlgorithms b s
  | .getDigests b => Sys2Proof.Machine.execGetDigests b s
  | .getCertificate b slot => Sys2Proof.Machine.execGetCertificate b slot s
  | .challenge b slot nonce => Sys2Proof.Machine.execChallenge b slot nonce s
  | .getMeasurements b index => Sys2Proof.Machine.execGetMeasurements b index s
  | .keyExchange b nonce => Sys2Proof.Machine.execKeyExchange b nonce s
  | .finish b ok => Sys2Proof.Machine.execFinish b ok s
  | .heartbeat b => Sys2Proof.Machine.execHeartbeat b s
  | .endSession b => Sys2Proof.Machine.execEndSession b s
  | .spdmUnsupportedRequest b code => Sys2Proof.Machine.execSpdmUnsupportedRequest b code s
  | .commitSvn v => Sys2Proof.Machine.execCommitSvn v s
  | .syncDbgSelWrite v => Sys2Proof.Machine.execSyncDbgSelWrite v s
  | .syncWselWrite v => Sys2Proof.Machine.execSyncWselWrite v s
  | .routeRtselWrite v => Sys2Proof.Machine.execRouteRtselWrite v s
  | .numwSelWrite v => Sys2Proof.Machine.execNumwSelWrite v s
  | .evtLselWrite v => Sys2Proof.Machine.execEvtLselWrite v s
  | .secMselWrite v => Sys2Proof.Machine.execSecMselWrite v s
  | .cntClrPart v => Sys2Proof.Machine.execCntClrPart v s
  | .cntClrModule => Sys2Proof.Machine.execCntClrModule s
  | .cntValLoRead n => Sys2Proof.Machine.execCntValLoRead n s
  | .clkTickLoRead => Sys2Proof.Machine.execClkTickLoRead s
  | .clkCalLoRead => Sys2Proof.Machine.execClkCalLoRead s
  | .evtNextLoRead => Sys2Proof.Machine.execEvtNextLoRead s
  | .ringEnable b => Sys2Proof.Machine.execRingEnable b s
  | .sluiceWrite peat q v => Sys2Proof.Machine.execSluiceWrite peat q v s
  | .routeCoordWrite ext v => Sys2Proof.Machine.execRouteCoordWrite ext v s
  | .registerWrite reg v => Sys2Proof.Machine.execRegisterWrite reg v s
  | .pcieLinkUp => Sys2Proof.Machine.execPcieLinkUp s
  | .replyHeaderRead fn => Sys2Proof.Machine.execReplyHeaderRead fn s
  | .mailboxUnknownOpcode r op => Sys2Proof.Machine.execMailboxUnknownOpcode r op s
  | .laneTrainingFailed p c d => Sys2Proof.Machine.execLaneTrainingFailed p c d s

end Sys2Proof.Machine
end

