-- ==== Sys2Proof/Machine/Step.lean ====
section
/-!
DEFINITION. Machine/Step.lean: one step takes the command at the front of the queue and runs it with the rest of the
queue; with no command waiting, one REF tick passes.
-/

namespace Sys2Proof.Machine

/-- The same state with the queue `l`. -/
def State.withPending (s : State) (l : List Instr) : State := { s with pending := l }

/-- One step. -/
def step (s : State) : Host.Outcome State Fault Refusal :=
  match s.pending with
  | [] => .next s.tickPasses
  | c :: rest => exec c (s.withPending rest)

/-- The command that a word spells, put at the front of the queue; the table gives no row bits, so none is. -/
def State.withFetchWord (s : State) (nbits w : Nat) : State :=
  match decodeTableWord nbits w with
  | some c => s.withPending (c :: s.pending)
  | none => s

end Sys2Proof.Machine
end

