-- ==== Sys2Proof/Safety.lean ====
section
/-!
DEFINITION. Safety.lean: what the statements call a state in good order, and a run without a stop.
-/

namespace Sys2Proof

open Machine

/-- The byte memory is in its canonical form. -/
def memoryInOrder (s : State) : Prop := Memory.wf s.mem.mem = true

/-- `n` steps end in a next state: no fault, no refusal. -/
def runsOn (n : Nat) (s : State) : Prop := ∃ t, Sys2Proof.core.run n s = .next t

end Sys2Proof
end

