-- ==== Sys2Proof/Certificates/Slice0/Obligations.lean ====
section
/-! DEFINITION. Certificates/Slice0/Obligations.lean: the statements for the provers, and the terms they are said in. -/

namespace Sys2Proof.Claim

open Sys2Proof.Machine

/-- The command that issues opcode `op` on engine `e`. -/
def issueOf (op : Op) (e : Eng) (f : Fields) : Instr :=
  match op with
  | .nop => .nop e f | .halt => .halt e f | .loop => .loop e f | .endl => .endl e f | .jmp => .jmp e f | .phase => .phase e f
  | .setr => .setr e f | .swait => .swait e f | .sadd => .sadd e f | .ssub => .ssub e f | .ssig => .ssig e f
  | .swatch => .swatch e f | .move => .move e f | .gather => .gather e f | .scatter => .scatter e f | .put => .put e f
  | .dispatch => .dispatch e f | .mma => .mma e f | .mmax => .mmax e f | .accsp => .accsp e f | .accrs => .accrs e f
  | .acccb => .acccb e f | .epi => .epi e f | .vop => .vop e f | .vred => .vred e f | .vrng => .vrng e f | .vcvt => .vcvt e f
  | .rring => .rring e f | .rnorm => .rnorm e f | .upd => .upd e f | .commit => .commit e f | .nwatch => .nwatch e f

/-- Engine `e` may issue `op f` now: the form is legal (R79), its partition runs, its stream holds this word at its next index, nothing
holds it there, the word and its constants can be read (R178), and its descriptors fit the operation. `p` is its plan. -/
abbrev mayIssueAny (op : Op) (e : Eng) (f : Fields) (s : State) (p : Plan) : Prop :=
  legalForm e.val op f = true ∧ s.issuing e.val op f = some p ∧ s.fetchPoison e.val op f = none ∧
  opFits op (kindOf e.val) f (s.eng e.val) (s.konst e.val) = true

/-- Engine `e` may issue `op f` now, and it is not the first instruction of a new pass (R48, R470). -/
abbrev mayIssue (op : Op) (e : Eng) (f : Fields) (s : State) (p : Plan) : Prop :=
  mayIssueAny op e f s p ∧ (s.eng e.val).lap = false

/-- No lane of the module has retired, so that the limit of R241 is not passed. -/
abbrev noneRetired (s : State) : Prop := ∀ p c, (s.tx p c).st ≠ .retired ∧ (s.rx p c).st ≠ .retired

/-- The DRAM copy of engine `e`'s instructions and constants can be read (R81). -/
abbrev reloadable (s : State) (e : Nat) : Prop :=
  ∀ pl st, s.streamOf e = some (pl, st) →
    s.poisonIn (pl.imgAt + st.imgInsn) (16 * st.insnCnt) = none ∧ s.poisonIn (pl.imgAt + st.imgConst) (32 * st.constCnt) = none

/-- No transmit lane has retired or gone out of traffic: every lit lane of a pair carries traffic (R260). -/
abbrev allCarry (s : State) : Prop := ∀ p c, (s.tx p c).st ≠ .retired ∧ (s.tx p c).outOfTraffic = false

/-- `a` lies in the lines where engine `e`'s instructions and constants are placed. -/
def inCode (s : State) (e a : Nat) : Bool :=
  match s.streamOf e with
  | none => false
  | some (_, st) =>
    (decide (st.insnAt ≤ a) && decide (a < st.insnAt + roundUp (16 * st.insnCnt) 64))
      || (decide (st.constAt ≤ a) && decide (a < st.constAt + roundUp (32 * st.constCnt) 64))

/-- The tensors of an instruction of engine `e` lie in the plan's regions, host space answers, and no source is poisoned where the engine's
own uncompleted writes do not cover it. -/
abbrev tensorsOk (s : State) (e : Nat) (p : Plan) (srcs dsts : List Tens) : Prop :=
  (srcs ++ dsts).all p.tensOk = true ∧ (((srcs ++ dsts).any fun t => t.host) = false ∨ s.host.linkUp = true) ∧
  (srcs.all fun t => (s.poisonOf e t).isNone) = true

/-- The registers, descriptors, tiles and loops of the engine are the same. -/
abbrev sameRegs (x y : Engine) : Prop :=
  y.g = x.g ∧ y.a = x.a ∧ y.t = x.t ∧ y.loops = x.loops ∧ y.tile0 = x.tile0 ∧ y.tile1 = x.tile1 ∧ y.phaseTag = x.phaseTag

/-- From `x` to `y` the engine issued the instruction `op f`: it went on by one index, and an entry in flight holds the writes `ws`. -/
abbrev launched (x y : Engine) (op : Op) (f : Fields) (ws : List WriteRun) : Prop :=
  y.pc = x.pc + 1 ∧ ∃ i, y.inflight = x.inflight ++ [i] ∧ i.index = x.pc ∧ i.opc = BitVec.ofNat 8 op.code ∧
    i.cs = f.cs ∧ i.csem = f.csem ∧ i.wait = .turn ∧ i.writes = ws

/-- `a` lies in the observation ring `r`, whose records have `n` bytes. -/
def inRing (r : Ring) (n a : Nat) : Bool := r.en && decide (r.base.toNat ≤ a) && decide (a < r.base.toNat + n * r.size.toNat)

/-- The trace and event rings are fit to be written: their next record lies inside them. -/
abbrev ringsFit (s : State) : Prop :=
  (s.obs.rtrace.en = true → s.obs.rtrace.wr.toNat < s.obs.rtrace.size.toNat) ∧
  (s.obs.revt.en = true → s.obs.revt.wr.toNat < s.obs.revt.size.toNat)

/-- Every byte outside the trace and event rings reads as before. -/
abbrev bytesKept (s t : State) : Prop :=
  ∀ a, inRing s.obs.rtrace 64 a = false → inRing s.obs.revt 32 a = false → t.readByte a = s.readByte a

/-- The registers and tiles of the engine are the same; but where `lap` says that the instruction begins a new pass, g31 counts it (R48). -/
abbrev fileKept (x y : Engine) (lap : Bool) : Prop :=
  (∀ i, ¬ (lap = true ∧ i = 31) → y.gVal i = x.gVal i) ∧ y.a = x.a ∧ y.t = x.t ∧ y.tile0 = x.tile0 ∧ y.tile1 = x.tile1

/-- What an engine's own instruction leaves alone beside memory: the other engines, the sync unit, the optical side, the router, the
clocks, the resets. -/
abbrev elsewhereKept (e : Nat) (s t : State) : Prop :=
  (∀ j, j ≠ e → t.eng j = s.eng j) ∧ t.pending = s.pending ∧ t.partCnt = s.partCnt ∧ t.engMaps = s.engMaps ∧
  t.deadPhys = s.deadPhys ∧ t.engFlt = s.engFlt ∧ t.sems = s.sems ∧ t.watches = s.watches ∧ t.sync = s.sync ∧ t.txl = s.txl ∧
  t.rxl = s.rxl ∧ t.ports = s.ports ∧ t.islands = s.islands ∧ t.combs = s.combs ∧ t.router = s.router ∧ t.clk = s.clk ∧ t.boot = s.boot

/-- What an engine's own instruction leaves alone even where it sends packets: the other engines, the sync unit, the clocks, the power block,
the resets, the queue, and the receiving side but for what a frame takes along of it: the NAK that it says and the counts that an
alignment block reports (R219, R222). -/
abbrev othersKept (e : Nat) (s t : State) : Prop :=
  (∀ j, j ≠ e → t.eng j = s.eng j) ∧ t.pending = s.pending ∧ t.partCnt = s.partCnt ∧ t.sems = s.sems ∧ t.watches = s.watches ∧
  t.sync = s.sync ∧ (∀ p c, ∃ a b d, t.rx p c = { s.rx p c with nakDue := a, corrI := b, uncI := d }) ∧ t.islands = s.islands ∧ t.combs = s.combs ∧ t.clk = s.clk ∧ t.power = s.power ∧ t.boot = s.boot

/-- The tile that an instruction names. -/
def tileAt (x : Engine) (f : Fields) : Tile := x.tile (f.mod.getLsbD 6)

/-- The tile as an MMA finds it, before any forced spill (R115, R126). -/
def mmaTile (x : Engine) (f : Fields) : Tile := x.tileFor f (modeOf (f.modF 0 2)) (if f.modF 0 2 = 1 then x.tens f.s3 else {})

/-- The tensors that an instruction reads at issue, as its meaning names them. -/
def srcsOf (s : State) (e : Nat) (op : Op) (f : Fields) : List Tens :=
  let x := s.eng e
  match op with
  | .move | .vcvt | .put | .vred => [x.tens f.s1]
  | .accrs => x.tens f.s1 :: if x.accrsSpills f then (tileAt x f).spillReads else []
  | .gather | .dispatch => [x.tens f.s1, x.tens f.s2]
  | .mma => (x.served (x.tens f.s1) (x.tens f.s2)).2 ++ if x.spillDue f then (mmaTile x f).spillReads else []
  | .mmax => (x.served (x.tens f.s1) (x.tens f.s2)).2
  | .scatter => [x.tens f.s1, x.tens f.s2] ++
      scatterReads (x.tens f.s1) (x.tens f.d) (x.tens f.s2) (s.rdOf e (x.tens f.s2)) (f.mod.getLsbD 0)
  | .acccb => (List.range (f.immF 0 2)).map fun j => (x.tens f.s1).partner (j + 1)
  | .epi => if isNo f.s1 then [] else [x.tens f.s1]
  | .vop => x.vopTens f
  | .rnorm => if isRfx (x.tens f.s1).code then [x.tens f.s1, x.tens f.d] else [x.tens f.s1]
  | .upd =>
    [x.tens f.d, x.tens f.s1, x.tens f.s2, x.tens (normSpec f)]
      ++ if (recipeOf (s.konst e (2 * f.immF 0 8)) (s.konst e (2 * f.immF 0 8 + 1))).alg ≤ 2 then [x.tens f.s3] else []
  | .nwatch => if isT f.s2 then [x.tens f.s2, x.tens f.s1] else []
  | _ => []

/-- The tensors that an instruction writes, and the operands that a Tussock serves without reading them (R118). -/
def dstsOf (s : State) (e : Nat) (op : Op) (f : Fields) : List Tens :=
  let x := s.eng e
  match op with
  | .move | .vcvt | .vred | .vop | .vrng | .gather | .scatter | .rnorm | .accsp => [x.tens f.d]
  | .dispatch => [x.tens f.d, x.tens f.s3]
  | .mma => (x.served (x.tens f.s1) (x.tens f.s2)).1 ++ if f.modF 0 2 = 1 then [x.tens f.s3] else []
  | .mmax => (x.served (x.tens f.s1) (x.tens f.s2)).1
  | .accrs => if x.accrsSpills f then [(tileAt x f).spill] else []
  | .epi => [x.epiTens f]
  | .upd =>
    [x.tens f.d, x.tens f.s2]
      ++ if (recipeOf (s.konst e (2 * f.immF 0 8)) (s.konst e (2 * f.immF 0 8 + 1))).alg ≤ 2 then [x.tens f.s3] else []
  | _ => []

/-- The instance that an RRING opens (R279). -/
def ringInst (s : State) (e : Nat) (f : Fields) : RInst :=
  let x := s.eng e
  { ring := BitVec.ofNat 16 (f.immF 0 16), reduce := f.mod.getLsbD 0, first := BitVec.ofNat 32 (f.immF 16 32), step := x.step
    nblk := (x.tens f.s1).nblk, s1 := x.tens f.s1, d := if f.mod.getLsbD 0 then x.tens f.d else {} }

/-- Engine `e` may issue `op f` under plan `p`, and its tensors are as `tensorsOk` says. -/
abbrev mayRun (op : Op) (e : Eng) (f : Fields) (s : State) (p : Plan) : Prop :=
  mayIssue op e f s p ∧ tensorsOk s e.val p (srcsOf s e.val op f) (dstsOf s e.val op f)

/-- The carve-outs agree with the DRAM: a line lies whole in its partition's DRAM and in one place of the list, and one that
is not dirty holds the DRAM's bytes. -/
def coherent (s : State) : Prop :=
  ∀ q, ((s.lines q).map fun x => x.addr).Nodup ∧ ∀ x ∈ s.lines q,
    x.addr % 256 = 0 ∧ x.data.length = 256 ∧ dramLo s.partCnt q ≤ x.addr ∧ x.addr + 256 ≤ dramLo s.partCnt (q + 1) ∧
    x.addr < dramPlan ∧ (x.dirty = false → ∀ k, k < 256 → x.data.getD k 0 = s.mem.mem.get 0 (x.addr + k))

/-- A HINT 2 read of the tensors drops the line of `a` (Table 7.2). -/
def discarded (ts : List Tens) (a : Nat) : Bool :=
  ts.any fun t => !t.host &&
    ((t.hint == 2 && t.rows.any fun pr => (linesOf (t.rowAddr pr.1 pr.2) t.rowBytes).contains (lineAddr a)) ||
     (t.shint == 2 && t.entRuns.any fun ab => (linesOf ab.1 ab.2).contains (lineAddr a)))

/-- A form that reads the tensors `ts` and stores nothing itself changes no byte that is read anywhere, but for the trace and event rings and for
the lines that a HINT 2 read discards (Table 7.2). -/
abbrev readsOnly (s t : State) (q : Nat) (ts : List Tens) : Prop :=
  Memory.wf s.mem.mem = true → ringsFit s → coherent s → s.partCnt = 1 ∨ s.partCnt = 2 ∨ s.partCnt = 4 →
  (∀ r ∈ ts, r.host = false → ∀ ab ∈ r.runs, inPart s.partCnt q ab.1 ab.2 = true) →
  ∀ a, inRing s.obs.rtrace 64 a = false → inRing s.obs.revt 32 a = false → discarded ts a = false → t.readByte a = s.readByte a

end Sys2Proof.Claim

open Sys2Proof Sys2Proof.Machine Sys2Proof.Claim

/-! ## Terms of the statements -/

/-- Every lit lane toward (`pl`, `ds`) carries traffic, and there is one: each packet of the pair goes on a direct lane (R259, R260). -/
abbrev Sys2Proof.Claim.lanesWhole (s : State) (pl ds : Nat) : Prop :=
  s.livePorts pl (txColour s.slot ds) = s.litPorts pl (txColour s.slot ds) ∧ s.litPorts pl (txColour s.slot ds) ≠ []

/-- Packet `k` passes every check that needs no plan, and ends at this module (R250, R251, R257, R264, R265). -/
abbrev Sys2Proof.Claim.endsHere (s : State) (k : Packet) : Prop :=
  k.crcOk = true ∧ k.len.toNat ≤ 4096 ∧ k.malformed = false ∧ (k.coord = false ∨ k.typ = 5) ∧ k.hops.toNat ≤ 60 ∧ k.dcoord = s.coord

/-- Partition `q`, whose plan is `pl`, takes packet `k` (R250, R254, R268); no packet of its own waits for that peer's window. -/
abbrev Sys2Proof.Claim.taken (s : State) (q : Nat) (pl : Plan) (k : Packet) : Prop :=
  epPart k.dest = q ∧ epRank k.dest ≤ 65535 ∧ (s.part q).plan = some pl ∧ k.jobtag = jobtagOf pl ∧
  (s.rankEnt q (epRank k.src)).valid = true ∧ epRank k.src ≤ 65535 ∧ k.gen = (s.rankEnt q (epRank k.src)).gen ∧
  (s.peer q k.src).txWait = []

/-- Packets of partition `q` to the endpoint `w` have a whole set of lanes for their next hop. -/
abbrev Sys2Proof.Claim.routed (s : State) (q : Nat) (w : Word) : Prop :=
  let ep : Endpoint := BitVec.ofNat 20 w.toNat
  s.destOk q ep = true ∧ ∃ pl ds, s.nextHop (s.rankEnt q (epRank ep)).coord (s.dirsTo (s.part q).plan (s.rankEnt q (epRank ep)).coord)
    = some (pl, ds) ∧ lanesWhole s pl ds

/-- RING packet `k` of kind `kind` passes its checks. -/
abbrev Sys2Proof.Claim.ringTaken (s : State) (q : Nat) (pl : Plan) (k : Packet) (kind : Nat) : Prop :=
  k.typ = 4 ∧ ringKind k = kind ∧ endsHere s k ∧ taken s q pl k

/-- Instance `i` of Mere `e` is the one that packet `k` is for, in the same attempt; `r` is its ring. -/
abbrev Sys2Proof.Claim.atInstance (s : State) (q e : Nat) (i : RInst) (r : RingEnt) (k : Packet) (reduce : Bool) : Prop :=
  s.openFor q k reduce = some (e, i, r) ∧ s.inst e i.key = some i ∧ ringAtt k = i.attempt

/-- MAINT packet `k` of subtype `st` reaches this module's firmware. -/
abbrev Sys2Proof.Claim.firmware (s : State) (k : Packet) (st : Nat) : Prop := k.typ = 5 ∧ k.addr.toNat % 256 = st ∧ endsHere s k

/-- The job tag that a MAINT payload begins with belongs to partition `q` here, and to none before it (R254). -/
abbrev Sys2Proof.Claim.jobOf (s : State) (k : Packet) (q : Nat) : Prop :=
  (List.range s.partCnt).find? (fun q => s.jobHere q (BitVec.ofNat 16 (fieldLE k.payload 0 2))) = some q

/-- The newest event of `t` is `code` with these arguments, and it is the only one that `s` had not logged. -/
abbrev Sys2Proof.Claim.logged (s t : State) (code : BitVec 12) (q : Nat) (args : List Byte) : Prop :=
  t.obs.seq = s.obs.seq + 1 ∧ (t.obs.log.head?.map fun e => (e.code, e.part, e.seq, e.args)) = some (code, BitVec.ofNat 2 q, s.obs.seq, args)

/-- The first event that `s` had not logged is `code` with these arguments, and the log of `t` holds it. -/
abbrev Sys2Proof.Claim.noted (s t : State) (code : BitVec 12) (q : Nat) (args : List Byte) : Prop :=
  ∃ e ∈ t.obs.log, e.code = code ∧ e.part = BitVec.ofNat 2 q ∧ e.seq = s.obs.seq ∧ e.args = args

/-- Rank `r` of partition `q` may be fenced, and the partition goes on as a hold: its plan `pl` is twinned and the pair is not lost. -/
abbrev Sys2Proof.Claim.fenceable (s : State) (q : Nat) (pl : Plan) (r : Nat) : Prop :=
  (s.part q).plan = some pl ∧ (s.part q).runs = true ∧ pl.shape.flags.getLsbD 0 = false ∧ s.pairLost q pl r = false ∧
  r < 65536 ∧ r ≠ s.rankOf q ∧ (s.rankEnt q r).valid = true ∧ (s.rankEnt q r).gen ≠ 0xFFFF

/-- Rank `r` has been fenced by its next generation, and partition `q` is held. -/
abbrev Sys2Proof.Claim.fenced (s t : State) (q r : Nat) : Prop :=
  (t.rankEnt q r).gen = (s.rankEnt q r).gen + 1 ∧ (t.part q).hold = .holding ∧ r ∈ (t.part q).fencedRanks ∧
  ∃ y, (t.part q).recov = some y ∧ r ∈ y.lost ∧ y.stage = .reports

/-- ADMIT packet `k` of OP `op` reaches this module's firmware, for partition `q` and a job that is here. -/
abbrev Sys2Proof.Claim.admits (s : State) (k : Packet) (op q : Nat) : Prop :=
  firmware s k 6 ∧ fieldLE k.payload 0 1 = op ∧ fieldLE k.payload 1 1 = q ∧ q < s.partCnt ∧
  s.jobHere q (BitVec.ofNat 16 (fieldLE k.payload 2 2)) = true

/-- The state that follows the loss of main power or a trip: the power stage is off, bring-up stands at stage 0, and no partition holds a plan. -/
abbrev Sys2Proof.Claim.turnedOff (t : State) : Prop := t.power.on = false ∧ t.boot.stage = 0 ∧ ∀ q, (t.part q).plan = none

/-- Request `r` comes over an open way, finds firmware free, and its sender may send it. -/
abbrev Sys2Proof.Claim.heard (s : State) (r : Req) (p : Perm) (mctp : Bool) : Prop :=
  s.wayOpen r = true ∧ (match r.via with | .mailbox f => (s.fn f).busy | .mctp _ => false) = false ∧ s.turnedAway r p mctp = none

/-- Request `r` of opcode `op` is answered with `status` and `payload` (R421, R432, Table 17.3). -/
def Sys2Proof.Claim.answered (t : State) (r : Req) (op status : Nat) (payload : List Byte) : Prop :=
  let m : Msg := ⟨BitVec.ofNat 16 op, r.tag, r.part, BitVec.ofNat 8 status, payload⟩
  match r.via with
  | .mailbox f => (t.fn f).reply = some m ∧ (t.fn f).busy = false ∧ (t.fn f).resp = true
  | .mctp b => (⟨b, 0x7E, m.bytes⟩ : MctpMsg) ∈ t.host.mctpOut

/-- One message of type `typ` that begins with `head` has gone out on binding `b`. -/
abbrev Sys2Proof.Claim.said (s t : State) (b : Binding) (typ : Byte) (head : List Byte) : Prop :=
  ∃ rest, t.host.mctpOut = s.host.mctpOut ++ [⟨b, typ, head ++ rest⟩]

/-- The partition count is 1, 2 or 4 (R28, R30) and the byte memory is in its canonical form. -/
abbrev Sys2Proof.Claim.inOrder (s : State) : Prop := (s.partCnt = 1 ∨ s.partCnt = 2 ∨ s.partCnt = 4) ∧ Memory.wf s.mem.mem = true

/-- What R190 leaves: no semaphore has changed, the partition is idle with its plan and its last committed step, and every engine of it has stopped. -/
abbrev Sys2Proof.Claim.stoppedBy710 (s t : State) (q : Nat) : Prop :=
  t.sems = s.sems ∧ t.sync.stat.getLsbD 0 = true ∧ (t.part q).stat = .idle ∧ (t.part q).plan = (s.part q).plan ∧
  (t.part q).lastCommit = (s.part q).lastCommit ∧
  (∀ j ∈ engsOf s.partCnt q, ((t.eng j).run = .idle ∨ (t.eng j).run = .retired) ∧ (t.eng j).inflight = [])

/-! ## Queue, ticks, words -/

/-- A step runs the command at the front of the queue, with the rest of the queue. The queue is the model's own. -/
def Obligations.StepRunsFront : Prop :=
  ∀ (c : Instr) (rest : List Instr) (s : State), step (s.withPending (c :: rest)) = exec c (s.withPending rest)

/-- A step on an empty queue is one REF tick (the model's choice, assumption 2): it answers a next state in which CLK_TICK, where REF or its
holdover runs, has counted 1, modulo 2^64 (R370), and the engines, the sync unit, the router, the memories, the power block, the host's side and the
observation are as they were. -/
def Obligations.IdleStepCountsTick : Prop :=
  ∀ (s : State), s.pending = [] → (s.clk.lock = true ∨ s.clk.hold = true) →
    ∃ t, step s = .next t ∧ t.clk.tick = s.clk.tick + 1 ∧ t.engs = s.engs ∧ t.sems = s.sems ∧ t.watches = s.watches ∧
      t.router = s.router ∧ t.mem = s.mem ∧ t.power = s.power ∧ t.host = s.host ∧ t.obs = s.obs ∧ t.boot = s.boot ∧
      t.pending = []

/-- Decoding the word of an instruction gives its opcode and every field back (Table 3.2, R46, R55). A word of 128 bits that decodes is the word of
what it decodes to (R46, R55). -/
def Obligations.DecodeEncodeAgree : Prop :=
  (∀ (op : Op) (f : Fields), decodeInsn (encodeInsn op f) = some (op, f)) ∧
  (∀ (w : Nat) (op : Op) (f : Fields), w < 2 ^ 128 → decodeInsn w = some (op, f) → encodeInsn op f = w)

/-- The opcode map (R55, Table 3.7): the opcodes are exactly those listed; a word with any other in its low 8 bits is no instruction; an opcode
that the table does not allow the issuing engine's kind stops as an illegal form, and so does CS = 1 on an opcode of the Control family. -/
def Obligations.OpcodeMap : Prop :=
  (Op.all.map fun o => o.code) = [0x00, 0x01, 0x02, 0x03, 0x04, 0x05, 0x06, 0x10, 0x11, 0x12, 0x13, 0x14, 0x20, 0x21, 0x22, 0x23, 0x24,
    0x30, 0x31, 0x32, 0x33, 0x34, 0x35, 0x40, 0x41, 0x42, 0x43, 0x50, 0x51, 0x60, 0x61, 0x70] ∧
  (∀ w : Nat, (Op.all.all fun o => o.code != w % 256) = true → decodeInsn w = none) ∧
  (∀ (op : Op) (e : Eng) (f : Fields) (s : State),
    (op.code / 16 = 2 ∧ kindOf e.val ≠ .clv) ∨ (op.code / 16 = 3 ∧ kindOf e.val ≠ .tus) ∨ (op.code / 16 = 4 ∧ kindOf e.val ≠ .sdg) ∨
      (op.code / 16 = 5 ∧ kindOf e.val ≠ .mere) ∨ (op.code / 16 = 6 ∧ kindOf e.val ≠ .hmk) ∨ (op.code / 16 = 7 ∧ kindOf e.val = .mere) ∨
      (op.code / 16 = 0 ∧ f.cs = true) →
    exec (issueOf op e f) s = .fault .illegalForm)

/-- An engine command whose form the chapter on instructions calls illegal stops with that fault (R79: no loaded stream holds one). An engine issues
only the word of its own stream at its own index, while its partition runs: any other issue leaves the state as it is (R2, R56; that nothing happens
is the model's choice, assumption 3). -/
def Obligations.IssueIsChecked : Prop :=
  (∀ (op : Op) (e : Eng) (f : Fields) (s : State), legalForm e.val op f = false → exec (issueOf op e f) s = .fault .illegalForm) ∧
  (∀ (op : Op) (e : Eng) (f : Fields) (s : State), legalForm e.val op f = true →
     ((∀ pl st, s.streamOf e.val = some (pl, st) → s.insnAt st (s.eng e.val).pc.toNat ≠ encodeInsn op f) ∨
      (s.part (s.partOf e.val)).runs = false) →
     exec (issueOf op e f) s = .next s)

/-! ## Control and sync -/

/-- NOP, HALT, LOOP, ENDL, JMP, PHASE and SETR complete at issue, in a partition that is not stopping: NOP only goes on (R62); HALT halts the engine
(R59); LOOP opens a loop and ENDL iterates or closes it (R58); JMP goes to its index, and a jump to index 0 ends the pass (R48, R59); PHASE takes its
tag (R60), and as the first instruction of a new pass it raises the step counter by 1 (R48); SETR loads its constant (R61). -/
def Obligations.ControlCompletes : Prop :=
  ∀ (e : Eng) (f : Fields) (s : State) (p : Plan), (s.part (s.partOf e.val)).stopNow = false →
    let x := s.eng e.val
    (mayIssue .nop e f s p → ∃ t, exec (.nop e f) s = .next t ∧ (t.eng e.val).pc = x.pc + 1 ∧ sameRegs x (t.eng e.val)) ∧
    (mayIssue .halt e f s p → ∃ t, exec (.halt e f) s = .next t ∧ (t.eng e.val).pc = x.pc + 1 ∧ (t.eng e.val).run = .halted ∧
      sameRegs x (t.eng e.val)) ∧
    (mayIssue .loop e f s p → ∃ t, exec (.loop e f) s = .next t ∧ (t.eng e.val).pc = x.pc + 1 ∧
      (t.eng e.val).loops = ⟨BitVec.ofNat 3 (specIdx f.d), 0, BitVec.ofNat 24 (f.immF 0 24), x.pc + 1⟩ :: x.loops ∧
      (t.eng e.val).kVal (specIdx f.d) = 0) ∧
    (∀ l r, x.loops = l :: r → mayIssue .endl e f s p → ∃ t, exec (.endl e f) s = .next t ∧
      (l.iter.toNat < l.last.toNat → (t.eng e.val).pc = l.start ∧ (t.eng e.val).loops = { l with iter := l.iter + 1 } :: r) ∧
      (¬ l.iter.toNat < l.last.toNat → (t.eng e.val).pc = x.pc + 1 ∧ (t.eng e.val).loops = r)) ∧
    (mayIssue .jmp e f s p → ∃ t, exec (.jmp e f) s = .next t ∧ (t.eng e.val).pc = BitVec.ofNat 24 (f.immF 0 24) ∧
      (t.eng e.val).lap = decide (f.immF 0 24 = 0) ∧ (t.eng e.val).step = x.step) ∧
    (mayIssue .phase e f s p → ∃ t, exec (.phase e f) s = .next t ∧ (t.eng e.val).pc = x.pc + 1 ∧
      (t.eng e.val).phaseTag = BitVec.ofNat 16 (f.immF 0 16) ∧ (t.eng e.val).step = x.step) ∧
    (mayIssueAny .phase e f s p → x.lap = true → ∃ t, exec (.phase e f) s = .next t ∧ (t.eng e.val).pc = x.pc + 1 ∧
      (t.eng e.val).phaseTag = BitVec.ofNat 16 (f.immF 0 16) ∧ (t.eng e.val).step = x.step + 1 ∧ (t.eng e.val).lap = false) ∧
    (mayIssue .setr e f s p → ∃ t, exec (.setr e f) s = .next t ∧ (t.eng e.val).pc = x.pc + 1 ∧
      (specFile f.d = 0 → (t.eng e.val).gVal (specIdx f.d) = BitVec.ofNat 64 (s.konst e.val (f.immF 0 24))) ∧
      (specFile f.d = 1 → (t.eng e.val).aVal (specIdx f.d) = BitVec.ofNat 256 (s.konst e.val (f.immF 0 24))) ∧
      (specFile f.d = 2 → (t.eng e.val).tVal (specIdx f.d) = BitVec.ofNat 256 (s.konst e.val (f.immF 0 24))))

/-- The frame of the Control and Sync families. A Control instruction leaves the memories, the sync unit, the optical side, the router, the clocks and
everything else of the module alone, but for the observation of them (the trace and event rings) and, for PHASE, its partition's phase and the power
block; the g, a and t registers and the tiles stay, but for SETR's destination and for g31 at the first instruction of a new pass. A HALT or JMP with
which a stopping partition comes to rest leaves the engine's registers and tiles and every byte outside the rings as they are (no lane having retired,
R241). SWAIT, SWATCH, SADD, SSUB and SSIG change no g, a or t register and no tile of any engine, and no byte outside the rings: beside the sync unit
and the observation they change nothing but, for SSIG, the way that its packet takes. Said of SADD, SSUB and of signals whose results stay in
range (R190), and of an SSIG to a valid rank (R253) whose pair's lanes all carry traffic (R260). -/
def Obligations.ControlFrame : Prop :=
  (∀ (op : Op) (e : Eng) (f : Fields) (s t : State) (p : Plan), op ∈ [Op.nop, .halt, .loop, .endl, .jmp, .phase, .setr] →
    mayIssueAny op e f s p → Memory.wf s.mem.mem = true → ringsFit s → exec (issueOf op e f) s = .next t →
    let x := s.eng e.val
    let y := t.eng e.val
    ((op = .halt ∨ op = .jmp → (s.part (s.partOf e.val)).stopNow = false) →
      elsewhereKept e.val s t ∧ bytesKept s t ∧ (op ≠ .phase → t.power = s.power) ∧ (x.lap = false → t.host = s.host) ∧
      (∀ i, ¬ (op = .setr ∧ specFile f.d = 0 ∧ i = specIdx f.d) → ¬ (x.lap = true ∧ i = 31) → y.gVal i = x.gVal i) ∧
      (∀ i, ¬ (op = .setr ∧ specFile f.d = 1 ∧ i = specIdx f.d) → y.aVal i = x.aVal i) ∧
      (∀ i, ¬ (op = .setr ∧ specFile f.d = 2 ∧ i = specIdx f.d) → y.tVal i = x.tVal i) ∧ y.tile0 = x.tile0 ∧ y.tile1 = x.tile1) ∧
    (op = .halt ∨ op = .jmp → noneRetired s → fileKept x y x.lap ∧ bytesKept s t)) ∧
  (∀ (op : Op) (e : Eng) (f : Fields) (s t : State) (p : Plan), op ∈ [Op.swait, .swatch, .sadd, .ssub, .ssig] →
    mayIssueAny op e f s p → Memory.wf s.mem.mem = true → ringsFit s →
    let q := s.partOf e.val
    let i := f.immF 0 16
    let n : Int := if op = .sadd then (f.immF 32 32 : Nat) else if op = .ssub then -(f.immF 32 32 : Nat) else 0
    let d : Endpoint := BitVec.ofNat 20 (f.immF 16 20)
    (op = .sadd ∨ op = .ssub → semRange ((s.sem i).value.toInt + n) = true) →
    (f.cs = true → semRange ((s.sem f.csem.toNat).value.toInt + (if f.csem.toNat = i then n else 0) + 1) = true) →
    (op = .ssig → s.destOk q d = true ∧ ∃ pl ds, s.nextHop (s.rankEnt q (epRank d)).coord (s.dirsTo (s.part q).plan (s.rankEnt q (epRank d)).coord)
      = some (pl, ds) ∧ lanesWhole s pl ds) →
    exec (issueOf op e f) s = .next t →
    (∀ j, fileKept (s.eng j) (t.eng j) (decide (j = e.val) && (s.eng j).lap)) ∧ bytesKept s t ∧ t.pending = s.pending ∧ t.partCnt = s.partCnt ∧
    t.engMaps = s.engMaps ∧ t.deadPhys = s.deadPhys ∧ t.islands = s.islands ∧ t.combs = s.combs ∧ t.clk = s.clk ∧ t.power = s.power ∧
    t.boot = s.boot ∧ ((s.eng e.val).lap = false → t.host = s.host) ∧
    (op ≠ .ssig → t.txl = s.txl ∧ t.rxl = s.rxl ∧ t.ports = s.ports ∧ t.router = s.router))

/-- A SWAIT whose threshold the semaphore has reached, or whose watch has fired with its condition, completes: the engine goes on, its watch is idle,
no semaphore changes (R64, R191); one that the block had passed before it faulted completes again without a test (R81). A SWAIT whose threshold is
not reached, on a watch not fired with its condition, arms the watch with its condition, and the engine waits at the SWAIT
(R191). SWATCH arms its watch with its condition and the engine goes on; a condition that holds already fires the watch at once. Here no engine
waits on the watch of the SWATCH. -/
def Obligations.WatchesGuard : Prop :=
  (∀ (e : Eng) (f : Fields) (s : State) (p : Plan), mayIssue .swait e f s p → (s.eng e.val).skipSwaits = 0 →
     (s.watch (syncWatch f)).reports (syncSem f) ((s.eng e.val).threshold f) = true ∨
       (s.eng e.val).threshold f ≤ (s.sem (syncSem f)).value.toInt →
     ∃ t, exec (.swait e f) s = .next t ∧ (t.eng e.val).pc = (s.eng e.val).pc + 1 ∧ (t.watch (syncWatch f)).st = .idle ∧
       t.sems = s.sems ∧ (∀ j, j ≠ syncWatch f → t.watch j = s.watch j) ∧ (∀ j, j ≠ e.val → t.eng j = s.eng j)) ∧
  (∀ (e : Eng) (f : Fields) (s : State) (p : Plan), mayIssue .swait e f s p → (s.eng e.val).skipSwaits = 0 →
     (s.sem (syncSem f)).value.toInt < (s.eng e.val).threshold f →
     (s.watch (syncWatch f)).reports (syncSem f) ((s.eng e.val).threshold f) = false →
     ∃ t, exec (.swait e f) s = .next t ∧ (t.eng e.val).run = .waiting ∧ (t.eng e.val).pc = (s.eng e.val).pc ∧
       (t.watch (syncWatch f)).st = .armed ∧ (t.watch (syncWatch f)).sem = BitVec.ofNat 16 (syncSem f) ∧
       (t.watch (syncWatch f)).thr = (s.eng e.val).threshold f ∧ t.sems = s.sems) ∧
  (∀ (e : Eng) (f : Fields) (s : State) (p : Plan), mayIssue .swait e f s p → 0 < (s.eng e.val).skipSwaits →
     ∃ t, exec (.swait e f) s = .next t ∧ (t.eng e.val).pc = (s.eng e.val).pc + 1 ∧ t.sems = s.sems ∧ t.watches = s.watches ∧
       (∀ j, j ≠ e.val → t.eng j = s.eng j)) ∧
  (∀ (e : Eng) (f : Fields) (s : State) (p : Plan), mayIssue .swatch e f s p →
     s.waitsOn (syncWatch f) (s.watch (syncWatch f)).owner.toNat = false →
     ∃ t, exec (.swatch e f) s = .next t ∧ (t.eng e.val).pc = (s.eng e.val).pc + 1 ∧
       (t.watch (syncWatch f)).sem = BitVec.ofNat 16 (syncSem f) ∧ (t.watch (syncWatch f)).thr = (s.eng e.val).threshold f ∧
       (t.watch (syncWatch f)).st =
         (if (s.eng e.val).threshold f ≤ (s.sem (syncSem f)).value.toInt then .fired else .armed) ∧ t.sems = s.sems)

/-- SADD adds n to its semaphore and SSUB subtracts n, where the result stays within ±2^20 (R189, R190); the last signaller is recorded; with CS = 1
the completion signal then adds 1 to CSEM's (R46, R189), and no other semaphore changes. Both wait to issue while an earlier instruction of the
engine is in flight (R189). -/
def Obligations.SaddSsubAdd : Prop :=
  ∀ (op : Op) (e : Eng) (f : Fields) (s : State) (p : Plan), op = .sadd ∨ op = .ssub → mayIssue op e f s p →
    let i := f.immF 0 16
    let n : Int := if op = .sadd then (f.immF 32 32 : Nat) else -(f.immF 32 32 : Nat)
    let c := f.csem.toNat
    ((s.eng e.val).inflight ≠ [] → exec (issueOf op e f) s = .next s) ∧
    ((s.eng e.val).inflight = [] → semRange ((s.sem i).value.toInt + n) = true →
      (f.cs = true → semRange ((s.sem c).value.toInt + (if c = i then n else 0) + 1) = true) →
      ∃ t, exec (issueOf op e f) s = .next t ∧ (t.eng e.val).pc = (s.eng e.val).pc + 1 ∧
        (t.sem i).value.toInt = (s.sem i).value.toInt + n + (if f.cs = true ∧ c = i then 1 else 0) ∧
        (t.sem i).lastEp = s.endpointOf (s.partOf e.val) ∧ (t.sem i).lastEng = BitVec.ofNat 8 e.val ∧ (t.sem i).lastRmt = false ∧
        (f.cs = true → (t.sem c).value.toInt = (s.sem c).value.toInt + (if c = i then n else 0) + 1) ∧
        (∀ j, j ≠ i → ¬ (f.cs = true ∧ j = c) → t.sem j = s.sem j))

/-- An operation that would take VALUE outside −2^20 to 2^20 is not applied (R190): event 0x710 is logged with the semaphore, its value and the
source, the partition stops every engine at once and goes idle with its plan loaded, and the last committed step stands. It is said of the one
operation that every SADD, SSUB, completion signal, released signal and host signal is, and of SADD, SSUB and completion signals themselves. Here
no lane has retired (R241), and in the first clause the engines have no step events that wait to be logged (R470). -/
def Obligations.SemaphoreOverflowStops : Prop :=
  (∀ (s : State) (q i : Nat) (n : Int) (src : Src), semRange ((s.sem i).value.toInt + n) = false → noneRetired s →
    (∀ e ∈ engsOf s.partCnt q, (s.eng e).idxRange = 0 ∧ (s.eng e).satCnt = 0 ∧ (s.eng e).keptCnt = 0 ∧ (s.eng e).dropCnt = 0) →
    let t := s.semAdd q i n src
    logged s t 0x710 q (a2 i ++ w4 (s.sem i).value ++ a3 src.ep.toNat ++ a1 src.eng.toNat) ∧ stoppedBy710 s t q) ∧
  (∀ (e : Eng) (f : Fields) (s : State) (p : Plan), (s.eng e.val).inflight = [] → noneRetired s →
    let i := f.immF 0 16
    let q := s.partOf e.val
    let n : Int := (f.immF 32 32 : Nat)
    (mayIssue .sadd e f s p → semRange ((s.sem i).value.toInt + n) = false → ∃ t, exec (.sadd e f) s = .next t ∧ stoppedBy710 s t q) ∧
    (mayIssue .ssub e f s p → semRange ((s.sem i).value.toInt - n) = false → ∃ t, exec (.ssub e f) s = .next t ∧ stoppedBy710 s t q)) ∧
  (∀ (e : Eng) (s : State) (i : InFlight), s.ready e.val = some i → (s.part (s.partOf e.val)).runs = true → i.mirror = none → i.cs = true → noneRetired s →
    semRange ((s.sem i.csem.toNat).value.toInt + 1) = false →
    ∃ t, exec (.instructionComplete e) s = .next t ∧ stoppedBy710 s t (s.partOf e.val))

/-- SSIG takes the next sequence number of its peer and is kept among the partition's own signals until it is applied, where the peer's window has
room and its next hop has a lane (R193, R200). SSIG to a rank whose entry is not valid is a fault of its block with cause 6: two events are logged,
0x410 and 0x600, and the engine returns to its last checkpoint (R81, R253). Here it is not itself rerunning, it has not faulted before, and its image
can be read. An SSIG waits to issue while an earlier instruction of the engine is in flight, or packets of earlier PUTs are still to be injected (R193). -/
def Obligations.SsigSendsOrFaults : Prop :=
  (∀ (e : Eng) (f : Fields) (s : State) (p : Plan), mayIssue .ssig e f s p →
     (s.eng e.val).inflight ≠ [] ∨ (s.part (s.partOf e.val)).injecting = true → exec (.ssig e f) s = .next s) ∧
  (∀ (e : Eng) (f : Fields) (s : State) (p : Plan) (pl ds port : Nat), mayIssue .ssig e f s p → (s.eng e.val).inflight = [] →
     (s.part (s.partOf e.val)).injecting = false →
     let q := s.partOf e.val
     let d : Endpoint := BitVec.ofNat 20 (f.immF 16 20)
     s.destOk q d = true → (s.peer q d).outstanding < 8192 →
     s.nextHop (s.rankEnt q (epRank d)).coord (s.dirsTo (s.part q).plan (s.rankEnt q (epRank d)).coord) = some (pl, ds) →
     s.pickLane (s.part q).plan pl ds = .direct port → (f.cs = true → semRange ((s.sem f.csem.toNat).value.toInt + 1) = true) →
     ∃ t, exec (.ssig e f) s = .next t ∧ (t.eng e.val).pc = (s.eng e.val).pc + 1 ∧
       (t.peer q d).txNext = (s.peer q d).txNext + 1 ∧ (t.part q).ownSigs = (s.part q).ownSigs ++ [(d, (s.peer q d).txNext)]) ∧
  (∀ (e : Eng) (f : Fields) (s : State) (p : Plan), mayIssue .ssig e f s p → (s.eng e.val).inflight = [] →
     (s.part (s.partOf e.val)).injecting = false → (s.eng e.val).rerunning = false → (s.eng e.val).faultTicks = [] →
     s.destOk (s.partOf e.val) (BitVec.ofNat 20 (f.immF 16 20)) = false → reloadable s e.val →
     ∃ t, exec (.ssig e f) s = .next t ∧ (t.eng e.val).run = .rerun ∧ (t.eng e.val).pc = (s.eng e.val).ckpt.pc ∧
       (t.eng e.val).retries = satInc (s.eng e.val).retries 1 ∧ t.router.stat.getLsbD 0 = true ∧ t.obs.seq = s.obs.seq + 2 ∧
       t.sems = s.sems)

/-! ## Compute -/

/-- MOVE, GATHER, SCATTER, DISPATCH, EPI, VOP, VRED, VRNG and VCVT complete their issue: the engine goes on by one index with its registers as they
were, and an entry in flight holds what they write, formed from their sources as they stood (R56, R66, R67, R69, R74-R76). GATHER and SCATTER count
the indices out of range; DISPATCH counts the choices that it drops, and those out of range (R67, R146, R147). What a GATHER writes for a plane that
its source lacks is a free value (assumption 22). -/
def Obligations.WritersLaunch : Prop :=
  ∀ (e : Eng) (f : Fields) (s : State) (p : Plan),
    let x := s.eng e
    let d := x.tens f.d
    let src := x.tens f.s1
    let ix := x.tens f.s2
    let rd := s.rdOf e.val d
    let rs := s.rdOf e.val src
    let ri := s.rdOf e.val ix
    let sofs := p.sofs d.recipe d.code
    (mayRun .move e f s p → ∃ t, exec (.move e f) s = .next t ∧ sameRegs x (t.eng e.val) ∧
      launched x (t.eng e.val) .move f (moveEmit false src d rs rd sofs (f.mod.getLsbD 0)).runs) ∧
    (mayRun .gather e f s p → ∃ t, exec (.gather e f) s = .next t ∧ sameRegs x (t.eng e.val) ∧
      (t.eng e.val).idxRange = x.idxRange + ix.badIndices ri d.dim1 src.dim1 ∧
      launched x (t.eng e.val) .gather f (d.writePlanes rd sofs fun pl r => some
        (if !inRows src.dim1 (ix.index ri r) then .zeros
         else if src.dim2 ≤ pl then missingRow d pl r
         else src.rowSrc d rs pl (ix.index ri r).toNat)).runs) ∧
    (mayRun .scatter e f s p → ∃ t, exec (.scatter e f) s = .next t ∧ sameRegs x (t.eng e.val) ∧
      (t.eng e.val).idxRange = x.idxRange + ix.badIndices ri src.dim1 d.dim1 ∧
      launched x (t.eng e.val) .scatter f (d.writePlanes rd sofs (scatterRow src d ix rs rd ri (f.mod.getLsbD 0))).runs) ∧
    (mayRun .dispatch e f s p →
      let a := fillOf ix ri src.dim1 d.dim2 d.dim1 (f.mod.getLsbD 0)
      ∃ t, exec (.dispatch e f) s = .next t ∧ sameRegs x (t.eng e.val) ∧
      (t.eng e.val).dropCnt = x.dropCnt + a.total + a.outside ∧ (t.eng e.val).idxRange = x.idxRange + a.outside ∧
      launched x (t.eng e.val) .dispatch f ((d.writePlanes rd sofs fun k r =>
        match a.placed.find? fun z => z.1 == k && z.2.1 == r with
        | some z => some (src.rowSrc d rs 0 z.2.2)
        | none => some .zeros).runs
        ++ a.report (x.tens f.s3) (s.rdOf e.val (x.tens f.s3)) d.dim2 src.dim1 (if f.mod.getLsbD 0 then 2 else 1))) ∧
    (mayRun .epi e f s p →
      let y := x.epiTens f
      ∃ t, exec (.epi e f) s = .next t ∧ sameRegs x (t.eng e.val) ∧
      launched x (t.eng e.val) .epi f (y.emit (s.rdOf e.val y) (p.sofs y.recipe y.code)
        ((List.range y.dim1).map fun i => (List.range y.dim0).map (x.epiVal f y rs i))).runs) ∧
    (mayRun .vop e f s p → ∃ t, exec (.vop e f) s = .next t ∧ sameRegs x (t.eng e.val) ∧
      launched x (t.eng e.val) .vop f (d.emit rd sofs (vopRows x rd f d)).runs) ∧
    (mayRun .vred e f s p → ∃ t, exec (.vred e f) s = .next t ∧ sameRegs x (t.eng e.val) ∧
      launched x (t.eng e.val) .vred f (d.emit rd sofs
        (cut d.dim0 (d.dim1 * d.dim2) (redAll src rd (f.modF 0 2) (f.mod.getLsbD 2)))).runs) ∧
    (mayRun .vrng e f s p → ∃ t, exec (.vrng e f) s = .next t ∧ sameRegs x (t.eng e.val) ∧
      launched x (t.eng e.val) .vrng f (d.emitBits rd (cut d.dim0 (d.dim1 * d.dim2) ((List.range d.count).map fun i =>
        rngBits (f.mod.getLsbD 0) (keepThreshold ((x.gVal (specIdx f.s2)).setWidth 32)).1 (rngWord (x.gVal 30) x.step f.imm i))))) ∧
    (mayRun .vcvt e f s p → ∃ t, exec (.vcvt e f) s = .next t ∧ sameRegs x (t.eng e.val) ∧
      launched x (t.eng e.val) .vcvt f (moveEmit true src d rs rd sofs (f.mod.getLsbD 0)).runs)

/-- MMA, MMAX, ACCRS and ACCCB change the tile that MOD[6] names and leave the other; ACCSP writes the tile's words to D and changes neither (R70,
R72, R73). The tile then holds: after an MMA the sums of its groups over the tile as the MMA finds it, which a forced spill has just emptied (R120-R128);
after an MMAX the sums of its passes (R105, R119); after an ACCRS S1's words, read after any forced spill of its own; after an ACCCB its words
combined with its partners' (R130). An MMA or ACCRS that spills waits for the copy of the last checkpoint (R80, R127). -/
def Obligations.MatrixCompletes : Prop :=
  ∀ (e : Eng) (f : Fields) (s : State) (p : Plan),
    let x := s.eng e.val
    let b := f.mod.getLsbD 6
    let s1 := x.tens f.s1
    let s2 := x.tens f.s2
    let rd := s.rdOf e.val s1
    (mayRun .mma e f s p → ¬ (x.spillDue f = true ∧ x.ckptBusy = true) →
      let u := if x.spillDue f then ((mmaTile x f).forceSpill rd).1 else mmaTile x f
      ∃ t, exec (.mma e f) s = .next t ∧ (t.eng e.val).pc = x.pc + 1 ∧
      (t.eng e.val).tile (!b) = x.tile (!b) ∧ ((t.eng e.val).tile b).mode = modeOf (f.modF 0 2) ∧
      ((t.eng e.val).tile b).cells = (mmaSums u s1 s2 rd (x.zeroing f)).1 ∧
      (t.eng e.val).g = x.g ∧ (t.eng e.val).a = x.a ∧ (t.eng e.val).t = x.t) ∧
    (mayRun .mma e f s p → x.spillDue f = true → x.ckptBusy = true → exec (.mma e f) s = .next s) ∧
    (mayRun .mmax e f s p → ∃ t, exec (.mmax e f) s = .next t ∧ (t.eng e.val).pc = x.pc + 1 ∧
      (t.eng e.val).tile (!b) = x.tile (!b) ∧ ((t.eng e.val).tile b).mode = .af40 ∧
      ((t.eng e.val).tile b).cells = (mmaxSums (x.tileFor f .af40 {}) s1 s2 rd (f.modF 0 2 == 1) (x.zeroing f)).1 ∧
      (t.eng e.val).g = x.g ∧ (t.eng e.val).a = x.a ∧ (t.eng e.val).t = x.t) ∧
    (mayRun .accsp e f s p → ∃ t, exec (.accsp e f) s = .next t ∧ sameRegs x (t.eng e.val) ∧
      launched x (t.eng e.val) .accsp f ((x.tens f.d).tileRuns fun r c => ((x.tile b).word r c).toNat)) ∧
    (mayRun .accrs e f s p → ¬ (x.accrsSpills f = true ∧ x.ckptBusy = true) →
      let ws := if x.accrsSpills f then ((tileAt x f).forceSpill rd).2 else []
      ∃ t, exec (.accrs e f) s = .next t ∧ (t.eng e.val).pc = x.pc + 1 ∧
      (t.eng e.val).tile (!b) = x.tile (!b) ∧
      ∀ i j, i < 32 → j < 32 → ((t.eng e.val).tile b).word i j = BitVec.ofNat 40 (s1.bits (overRuns ws rd) 0 i j)) ∧
    (mayRun .accrs e f s p → x.accrsSpills f = true → x.ckptBusy = true → exec (.accrs e f) s = .next s) ∧
    (mayRun .acccb e f s p → ∃ t, exec (.acccb e f) s = .next t ∧ (t.eng e.val).pc = x.pc + 1 ∧
      (t.eng e.val).tile (!b) = x.tile (!b) ∧ ((t.eng e.val).tile b).mode = (x.tile b).mode ∧
      ∀ i j, i < 32 → j < 32 → ((t.eng e.val).tile b).word i j = (combineCell ((x.tile b).mode == .int32) ((x.tile b).word i j)
        ((List.range (f.immF 0 2)).map fun k => BitVec.ofNat 40 ((s1.partner (k + 1)).bits rd 0 i j))).1)

/-- An INT8 MMA over one group of 32 that overwrites its tile leaves in each INT32 cell the sum of the 32 products of its row of A and its row of B,
and 0 in a cell whose row lies beyond DIM1 of A or of B (R70, R114, R128). VRNG's uniform FP32 elements are the function of R144 of the first Philox word: key
g30, counter g31 · 2^64 + IMM + e. -/
def Obligations.SumsAndRandomWords : Prop :=
  (∀ (e : Eng) (f : Fields) (s : State) (p : Plan), mayRun .mma e f s p → f.modF 0 2 = 2 →
     let x := s.eng e.val
     let a := x.tens f.s1
     let b := x.tens f.s2
     a.dim0 = 32 → b.dim0 = 32 → x.zeroing f = true →
     ∃ t, exec (.mma e f) s = .next t ∧ ∀ i j, i < 32 → j < 32 →
       ((t.eng e.val).tile (f.mod.getLsbD 6)).int i j = if i < a.dim1 ∧ j < b.dim1 then
         ((List.range 32).map fun k => sgn 8 (a.bits (s.rdOf e.val a) 0 i k) * sgn 8 (b.bits (s.rdOf e.val a) 0 j k)).foldl (· + ·) 0
       else 0) ∧
  (∀ (e : Eng) (f : Fields) (s : State) (p : Plan), mayRun .vrng e f s p → f.mod = 0 →
     let x := s.eng e.val
     let d := x.tens f.d
     ∃ t ws, exec (.vrng e f) s = .next t ∧ launched x (t.eng e.val) .vrng f ws ∧
       ∀ pl r c, pl < d.dim2 → r < d.dim1 → c < d.dim0 → ∃ w ∈ ws, w.addr = d.rowAddr pl r ∧
         fieldLE w.data (4 * c) 4 = fp32.put (.fin false (2 * (rngWord (x.gVal 30) x.step f.imm ((pl * d.dim1 + r) * d.dim0 + c) >>> 9) + 1) (-24)))

/-- An instruction that computes (MOVE, GATHER, SCATTER, DISPATCH, the Matrix and Vector families, UPD) changes, beside its own engine, nothing of
the other engines, the sync unit, the optical side, the router, the clocks or the resets; and no byte that is read anywhere changes at its issue,
but for the trace and event rings and for lines that a HINT 2 read of its own discards (R56, R163, R164). -/
def Obligations.ComputeFrame : Prop :=
  ∀ (op : Op) (e : Eng) (f : Fields) (s t : State) (p : Plan),
    op ∈ [Op.move, .gather, .scatter, .dispatch, .mma, .mmax, .accsp, .accrs, .acccb, .epi, .vop, .vred, .vrng, .vcvt, .upd] →
    mayRun op e f s p → Memory.wf s.mem.mem = true → ringsFit s → coherent s → s.partCnt = 1 ∨ s.partCnt = 2 ∨ s.partCnt = 4 →
    (∀ r ∈ srcsOf s e.val op f, r.host = false → ∀ ab ∈ r.runs, inPart s.partCnt (s.partOf e.val) ab.1 ab.2 = true) →
    exec (issueOf op e f) s = .next t →
    elsewhereKept e.val s t ∧
    ∀ a, inRing s.obs.rtrace 64 a = false → inRing s.obs.revt 32 a = false → discarded (srcsOf s e.val op f) a = false →
      t.readByte a = s.readByte a

/-- The carve-out is transparent (R163): from a coherent state, a store through HINT 0 or 1 inside a partition's DRAM leaves exactly the bytes that
DRAM alone would hold, and the carve-outs agree with the DRAM again. A HINT 1 read allocates lines and changes no byte; a HINT 2 read drops the
lines it served from, so that those bytes read as the DRAM holds them, and changes no other (Table 7.2, R163-R165). -/
def Obligations.CarveoutTransparent : Prop :=
  (∀ (s : State) (q : Nat) (hint : BitVec 2) (a : Nat) (bs : List Byte), Memory.wf s.mem.mem = true → coherent s →
     s.partCnt = 1 ∨ s.partCnt = 2 ∨ s.partCnt = 4 → q < s.partCnt → dramLo s.partCnt q ≤ a → a + bs.length ≤ dramLo s.partCnt (q + 1) →
     coherent (s.store q hint a bs) ∧ Memory.wf (s.store q hint a bs).mem.mem = true ∧
     (∀ k, k < bs.length → (s.store q hint a bs).readByte (a + k) = bs.getD k 0) ∧
     (∀ j, j < a ∨ a + bs.length ≤ j → (s.store q hint a bs).readByte j = s.readByte j)) ∧
  (∀ (s : State) (q a n : Nat), Memory.wf s.mem.mem = true → coherent s → s.partCnt = 1 ∨ s.partCnt = 2 ∨ s.partCnt = 4 →
     q < s.partCnt → dramLo s.partCnt q ≤ a → a + n ≤ dramLo s.partCnt (q + 1) →
     (∀ j, (s.touchRead q 0 a n).readByte j = s.readByte j) ∧
     coherent (s.touchRead q 1 a n) ∧ (∀ j, (s.touchRead q 1 a n).readByte j = s.readByte j) ∧
     coherent (s.touchRead q 2 a n) ∧
     (∀ j, (linesOf a n).contains (lineAddr j) = false → (s.touchRead q 2 a n).readByte j = s.readByte j) ∧
     (∀ j, a ≤ j → j < a + n → (s.touchRead q 2 a n).readByte j = s.mem.mem.get 0 j))

/-! ## Fabric, reduction and update -/

/-- PUT goes on by one index and becomes in-flight with nothing to write here; a unicast PUT whose packets fit in its peer's window takes one
sequence number for each packet, a multicast PUT takes none (R68, R193). Here every lane of its next hop carries traffic. A PUT to a rank whose entry is
not valid faults its block with cause 6, with events 0x410 and 0x600 (R81, R253); here it is not itself rerunning, it has not faulted before, and its
image can be read. -/
def Obligations.PutSends : Prop :=
  (∀ (e : Eng) (f : Fields) (s : State) (p : Plan), mayIssue .put e f s p → f.modF 3 4 = 0 → s.destOk (s.partOf e.val) (BitVec.ofNat 20 (f.immF 0 20)) = false →
     (s.eng e.val).rerunning = false → (s.eng e.val).faultTicks = [] → (∀ i r, (s.eng e.val).inflight = i :: r → i.chunks = []) → reloadable s e.val →
     ∃ t, exec (.put e f) s = .next t ∧ (t.eng e.val).run = .rerun ∧ (t.eng e.val).pc = (s.eng e.val).ckpt.pc ∧
       (t.eng e.val).retries = satInc (s.eng e.val).retries 1 ∧ t.router.stat.getLsbD 0 = true ∧ t.obs.seq = s.obs.seq + 2 ∧ t.sems = s.sems) ∧
  (∀ (e : Eng) (f : Fields) (s : State) (p : Plan) (pl ds : Nat), mayRun .put e f s p → lanesWhole s pl ds →
    let q := s.partOf e.val
    let x := s.eng e.val
    let t0 := x.tens f.s1
    let d : Endpoint := BitVec.ofNat 20 (f.immF 0 20)
    let n := (putPayloads p t0 (s.rdOf e.val t0) (x.ea (x.aVal (specIdx f.d % 16)))).2.length
    (f.modF 3 4 = 0 → s.destOk q d = true →
      s.nextHop (s.rankEnt q (epRank d)).coord (s.dirsTo (s.part q).plan (s.rankEnt q (epRank d)).coord) = some (pl, ds) →
      (s.peer q d).txWait = [] → (s.peer q d).outstanding + n ≤ 8192 →
      ∃ t, exec (.put e f) s = .next t ∧ sameRegs x (t.eng e.val) ∧ launched x (t.eng e.val) .put f [] ∧ othersKept e.val s t ∧
        readsOnly s t q [t0] ∧ (t.peer q d).txNext = (s.peer q d).txNext + BitVec.ofNat 16 n) ∧
    (∀ c, f.modF 3 4 ≠ 0 → p.shape.chains.find? (fun c => c.index.toNat == f.immF 0 16) = some c → c.next ≠ 0xFFFFFFFF →
      s.nextHop (BitVec.ofNat 17 c.next.toNat) (s.dirsTo (s.part q).plan (BitVec.ofNat 17 c.next.toNat)) = some (pl, ds) →
      ∃ t, exec (.put e f) s = .next t ∧ sameRegs x (t.eng e.val) ∧ launched x (t.eng e.val) .put f [] ∧ othersKept e.val s t ∧
        readsOnly s t q [t0] ∧ (t.part q).peers = (s.part q).peers))

/-- An RRING issues a new instance of its ring and waits for it (R279, R280): in a ring of several modules whose SUCC has not announced the match the
instance sends no block of its own yet; an exponent pass of a ring of one module is complete at once (R281). It waits to issue while four instances
are in flight (R280), and while the exponents that a reduce pass reads are not all written (R56). Here its descriptors lie in the plan's regions, and
every member that it names has a valid rank (R83, R253); in a ring of one module, none of its words is poisoned. -/
def Obligations.RringOpensInstance : Prop :=
  (∀ (e : Eng) (f : Fields) (s : State) (p : Plan), mayIssue .rring e f s p →
    4 ≤ (s.eng e.val).openInsts ∨ (f.mod.getLsbD 0 = true ∧ s.unwritten e.val ((s.eng e.val).tens f.s1).expRuns = true) →
    exec (.rring e f) s = .next s) ∧
  (∀ (e : Eng) (f : Fields) (s : State) (p : Plan) (r : RingEnt) (pl ds : Nat), mayIssue .rring e f s p → s.rringFree e.val f = true →
    let q := s.partOf e.val
    let x := s.eng e.val
    let ring := BitVec.ofNat 16 (f.immF 0 16)
    let k : RKey := (ring, f.mod.getLsbD 0, BitVec.ofNat 32 (f.immF 16 32))
    let pr : Endpoint := BitVec.ofNat 20 r.pred.toNat
    s.ringEnt q ring = some r → s.ringUnfit q (ringInst s e.val f) r = none → s.inst e.val k = none →
    (2 ≤ r.l → (s.part q).readyKept.contains k = false → s.destOk q pr = true →
      s.nextHop (s.rankEnt q (epRank pr)).coord (s.dirsTo (s.part q).plan (s.rankEnt q (epRank pr)).coord) = some (pl, ds) →
      lanesWhole s pl ds →
      ∃ t i, exec (.rring e f) s = .next t ∧ (t.eng e.val).pc = x.pc + 1 ∧ sameRegs x (t.eng e.val) ∧ othersKept e.val s t ∧
        t.mem = s.mem ∧ t.inst e.val k = some i ∧ i.done = false ∧ i.succReady = false ∧ i.sent0 = false ∧ i.nblk = (x.tens f.s1).nblk ∧
        ((t.eng e.val).inflight.getLast?.map fun y => (y.index, y.wait)) = some (x.pc, .ring ring k.2.1 k.2.2)) ∧
    (r.l ≤ 1 → f.mod = 0 → s.ringPoison (ringInst s e.val f) ((ringInst s e.val f).firstBlocks r) = none →
      ∃ t i, exec (.rring e f) s = .next t ∧ (t.eng e.val).pc = x.pc + 1 ∧ sameRegs x (t.eng e.val) ∧
      othersKept e.val s t ∧ t.inst e.val k = some i ∧ i.done = true ∧
      ((t.eng e.val).inflight.getLast?.map fun y => (y.index, y.wait)) = some (x.pc, .turn)))

/-- RNORM over an RFX tensor writes the new AF40 sum to D; over AF40 it forms this module's part of the tree's sum: a root without children has the
result at once, a leaf has nothing of its own left and waits for the result, and a node with children keeps its own part until their values are
there (R292, R293). It waits to issue while an earlier instruction of the Mere has still to write bytes of S1 or D (R56), and one that goes to a
tree while a bucket of the partition is not reduced (R18, R22). The one of a step that a spare rebuilds takes s as D holds it (R330). None changes a
byte of memory at its issue. -/
def Obligations.RnormSums : Prop :=
  (∀ (e : Eng) (f : Fields) (s : State) (p : Plan), mayIssue .rnorm e f s p →
    s.unwritten e.val (((s.eng e.val).tens f.s1).runs ++ ((s.eng e.val).tens f.d).runs) = true ∨
      (f.immF 0 16 ≠ 0xFFFF ∧ s.reducing (s.partOf e.val) = true) → exec (.rnorm e f) s = .next s) ∧
  (∀ (e : Eng) (f : Fields) (s : State) (p : Plan), mayRun .rnorm e f s p →
    let q := s.partOf e.val
    let x := s.eng e.val
    let a := x.tens f.s1
    let d := x.tens f.d
    s.unwritten e.val (a.runs ++ d.runs) = false → f.immF 0 16 = 0xFFFF ∨ s.reducing q = false →
    let tree := f.immF 0 16
    let v := toAf ((a.all (s.rdOf e.val a)).foldl (fun y z => af (y.add z)) .zero)
    (isRfx a.code = true → ∃ t, exec (.rnorm e f) s = .next t ∧ sameRegs x (t.eng e.val) ∧ elsewhereKept e.val s t ∧
      readsOnly s t q [a, d] ∧ launched x (t.eng e.val) .rnorm f
      [⟨d.ea, d.hint, d.host, leBytes 5 (normLocal a (s.rdOf e.val a) (BitVec.ofNat 40 (d.bits (s.rdOf e.val d) 0 0 0))).toNat⟩]) ∧
    (isRfx a.code = false → s.rebuilds q x.step = true → s.poisonOf e.val d = none → ∃ t, exec (.rnorm e f) s = .next t ∧
      sameRegs x (t.eng e.val) ∧ elsewhereKept e.val s t ∧ readsOnly s t q [a, d] ∧
      launched x (t.eng e.val) .rnorm f [⟨d.ea, d.hint, d.host, leBytes 5 (d.bits (s.rdOf e.val d) 0 0 0)⟩]) ∧
    (∀ r, isRfx a.code = false → s.rebuilds q x.step = false → s.treeEnt q tree = some r → r.children = [] → r.pred = 0xFFFFFFFF →
      ∃ t, exec (.rnorm e f) s = .next t ∧ (t.eng e.val).pc = x.pc + 1 ∧ sameRegs x (t.eng e.val) ∧
        elsewhereKept e.val s t ∧ readsOnly s t q [a] ∧ (t.normNode q tree).result = some v) ∧
    (∀ r, isRfx a.code = false → s.rebuilds q x.step = false → s.treeEnt q tree = some r → r.children ≠ [] → (s.normNode q tree).ups = [] →
      ∃ t, exec (.rnorm e f) s = .next t ∧ (t.eng e.val).pc = x.pc + 1 ∧ sameRegs x (t.eng e.val) ∧
        elsewhereKept e.val s t ∧ readsOnly s t q [a] ∧ (t.normNode q tree).own = some v ∧ (t.normNode q tree).waiting = true) ∧
    (∀ r, isRfx a.code = false → s.rebuilds q x.step = false → s.treeEnt q tree = some r → r.children = [] → r.pred ≠ 0xFFFFFFFF → routed s q r.pred →
      ∃ t, exec (.rnorm e f) s = .next t ∧ (t.eng e.val).pc = x.pc + 1 ∧ sameRegs x (t.eng e.val) ∧
        othersKept e.val s t ∧ readsOnly s t q [a] ∧ (t.normNode q tree).own = none ∧ (t.normNode q tree).kept = some v ∧
        (t.normNode q tree).waiting = true))

/-- UPD with a finite s launches with the writes of its chunks, from the first that no checkpoint records as complete, and counts what it kept (R148,
R149, R151, R152). With an s that is not finite, outside a mirror region, it writes nothing, event 0x810 says so, and the step is skipped (R150, R156);
under host-assisted numerics it waits for the answer. A UPD into a mirror region waits for its partner's commit and for its mirror stream (R18, R338),
and does nothing in a step that it has recorded already (R337). NWATCH goes on by one index and leaves the registers and the sync unit alone; with
MOD[0] in a census step it binds its thresholds to S1's TID (R154, R156). -/
def Obligations.UpdatesAndWatches : Prop :=
  (∀ (e : Eng) (f : Fields) (s : State) (p : Plan), mayRun .upd e f s p →
     let q := s.partOf e.val
     let x := s.eng e.val
     let d := x.tens f.d
     let st := x.tens (normSpec f)
     let r := recipeOf (s.konst e.val (2 * f.immF 0 8)) (s.konst e.val (2 * f.immF 0 8 + 1))
     let sBits := st.bits (s.rdOf e.val st) 0 0 0
     let sv := af40.read sBits
     let rs := s.updResults e.val f r sv
     let cs := updChunks d (x.tens f.s2) (x.tens f.s3) (decide (r.alg ≤ 2)) x.updFrom ((cut chunkLen rs.length rs).drop x.updFrom.chunks)
     (s.mirrorStreamOpen q = true ∨ s.mirrorEarly e.val f = true → exec (.upd e f) s = .next s) ∧
     (s.mirrorStreamOpen q = false → s.mirrorEarly e.val f = false →
       (p.isMirror d.ea = true → x.mirrorRec.find d.ea = some x.step → ∃ t, exec (.upd e f) s = .next t ∧ sameRegs x (t.eng e.val) ∧
         launched x (t.eng e.val) .upd f [] ∧ (t.eng e.val).keptCnt = x.keptCnt) ∧
       (p.isMirror d.ea = false →
         (sv.finite = true → ∃ t, exec (.upd e f) s = .next t ∧ sameRegs x (t.eng e.val) ∧
           launched x (t.eng e.val) .upd f (cs.flatMap fun c => c.runs) ∧ (t.part q).skipStep = (s.part q).skipStep ∧
           (t.eng e.val).keptCnt = x.keptCnt + ((cs.getLast?.map fun c => c.prog).getD x.updFrom).kept) ∧
         (sv.finite = false → p.hostNumerics = false → ∃ t, exec (.upd e f) s = .next t ∧ sameRegs x (t.eng e.val) ∧
           launched x (t.eng e.val) .upd f [] ∧ (t.part q).skipStep = some x.step ∧ (t.part q).censusLeft = 16 ∧
           logged s t 0x810 q (a8 x.step.toNat ++ a5 sBits)) ∧
         (sv.finite = false → p.hostNumerics = true → (s.part q).numAnswer = none → ∃ t i, exec (.upd e f) s = .next t ∧
           sameRegs x (t.eng e.val) ∧ (t.eng e.val).pc = x.pc + 1 ∧ (t.eng e.val).inflight = x.inflight ++ [i] ∧ i.wait = .numerics ∧
           i.writes = [] ∧ (t.part q).skipStep = some x.step)))) ∧
  (∀ (e : Eng) (f : Fields) (s : State) (p : Plan), mayRun .nwatch e f s p →
     ((s.eng e.val).inflight.all fun i => i.opc != 0x60) = true →
     let q := s.partOf e.val
     let x := s.eng e.val
     ∃ t, exec (.nwatch e f) s = .next t ∧ (t.eng e.val).pc = x.pc + 1 ∧ sameRegs x (t.eng e.val) ∧ elsewhereKept e.val s t ∧
       readsOnly s t q (srcsOf s e.val .nwatch f) ∧
       (f.mod.getLsbD 0 = true → (s.part q).censusNow = true → (x.tens f.s1).tid ≠ 0 →
         (t.obs.slots.get {} (numSlot s.partCnt q (x.tens f.s1).tid)).bound = some (BitVec.ofNat 160 (s.konst e.val (f.immF 0 16)))))

/-- COMMIT enters the commit barrier: its engine goes on by one index and an entry in flight waits for the barrier (R295). A COMMIT of a step whose
barrier already lies behind its partition enters none (R330). COMMIT issues nothing while the supply's throttle holds (R354), nor while an earlier
instruction of its engine is in flight. -/
def Obligations.CommitWaits : Prop :=
  (∀ (e : Eng) (f : Fields) (s : State) (p : Plan), mayIssue .commit e f s p → (s.eng e.val).inflight = [] → s.power.throttle = false →
     let q := s.partOf e.val
     let x := s.eng e.val
     ((s.part q).epoch.toNat ≤ x.step.toNat → ∃ t i, exec (.commit e f) s = .next t ∧ sameRegs x (t.eng e.val) ∧
       (t.eng e.val).pc = x.pc + 1 ∧ (t.eng e.val).inflight = [i] ∧ i.index = x.pc ∧ i.wait = .barrier ∧ i.writes = [] ∧
       (t.part q).barSem = BitVec.ofNat 16 (f.immF 0 16) ∧ elsewhereKept e.val s t ∧ t.mem = s.mem) ∧
     (x.step.toNat < (s.part q).epoch.toNat → ∃ t, exec (.commit e f) s = .next t ∧ sameRegs x (t.eng e.val) ∧
       (t.eng e.val).pc = x.pc + 1 ∧ (t.eng e.val).barrierEntry = none ∧ elsewhereKept e.val s t ∧
       readsOnly s t q [])) ∧
  (∀ (e : Eng) (f : Fields) (s : State) (p : Plan), mayIssue .commit e f s p → s.power.throttle = true ∨ (s.eng e.val).inflight ≠ [] →
    exec (.commit e f) s = .next s)

/-! ## What happens to engines -/

/-- The oldest instruction in flight that waits for nothing but its turn completes (R56): its writes become visible, in order, and every byte
outside them and outside the trace and event rings reads as before. Here its writes stay in module memory and allocate no carve-out line, and it is
no mirror UPD, and no lane has retired (R241). A completion with CS = 1 adds 1 to its semaphore (R46, R189); with CS = 0 no semaphore changes. The instruction leaves the list of
those in flight. Here the result stays in range, and the engine does not itself wait with a completion signal of its own. -/
def Obligations.CompletionActs : Prop :=
  (∀ (e : Eng) (s : State) (i : InFlight), s.ready e.val = some i → i.mirror = none → noneRetired s → Memory.wf s.mem.mem = true → ringsFit s →
     (i.writes.all fun w => !w.host && w.hint != 1) = true →
     ∃ t, exec (.instructionComplete e) s = .next t ∧
       (∀ a, inRing s.obs.rtrace 64 a = false → inRing s.obs.revt 32 a = false →
         (i.writes.all fun w => decide (a < w.addr) || decide (w.addr + w.data.length ≤ a)) = true → t.readByte a = s.readByte a) ∧
       (∀ w k, i.writes = [w] → coherent s → k < w.data.length → inRing s.obs.rtrace 64 (w.addr + k) = false →
         inRing s.obs.revt 32 (w.addr + k) = false → t.readByte (w.addr + k) = w.data.getD k 0)) ∧
  (∀ (e : Eng) (s : State) (i : InFlight), s.ready e.val = some i → (s.part (s.partOf e.val)).runs = true →
     (s.part (s.partOf e.val)).stopNow = false → i.mirror = none → (s.eng e.val).waitCs = false →
     (i.cs = true → semRange ((s.sem i.csem.toNat).value.toInt + 1) = true) →
     ∃ t, exec (.instructionComplete e) s = .next t ∧ (t.eng e.val).inflight.length + 1 = (s.eng e.val).inflight.length ∧
       (i.cs = false → t.sems = s.sems) ∧
       (i.cs = true → (t.sem i.csem.toNat).value.toInt = (s.sem i.csem.toNat).value.toInt + 1 ∧
         ∀ j, j ≠ i.csem.toNat → t.sem j = s.sem j))

/-- CHECKPOINT_SAVED ends the copy of the last checkpoint (R80), CULVERT_HOST_RETRY ends a pause between host attempts (R174), and nothing else
changes. ENG_WAITLIM of a partition: a waiting engine passes it once: event 0x640 is logged, ENG_FLT bit 0 is set, and the engine waits on. -/
def Obligations.PausesAndLimits : Prop :=
  (∀ (e : Eng) (s : State),
     (∃ t, exec (.checkpointSaved e) s = .next t ∧ t.eng e.val = { s.eng e.val with ckptBusy := false } ∧
       (∀ j, j ≠ e.val → t.eng j = s.eng j) ∧ t = { s with engs := t.engs }) ∧
     (∃ t, exec (.culvertHostRetry e) s = .next t ∧ t.eng e.val = { s.eng e.val with hostPause := false } ∧
       (∀ j, j ≠ e.val → t.eng j = s.eng j) ∧ t = { s with engs := t.engs })) ∧
  (∀ (e : Eng) (s : State), (s.eng e.val).run = .waiting → (s.part (s.partOf e.val)).waitlim ≠ 0 →
     ((s.eng e.val).waitLogged = false → ∃ t, exec (.waitLimitExceeded e) s = .next t ∧ t.obs.seq = s.obs.seq + 1 ∧
       t.engFlt.getLsbD 0 = true ∧ t.eng e.val = { s.eng e.val with waitLogged := true } ∧ t.sems = s.sems ∧ t.parts = s.parts) ∧
     ((s.eng e.val).waitLogged = true → exec (.waitLimitExceeded e) s = .next s))

/-- A fault of a block of an engine that has no commit and no chunk of a UPD under way, is not itself rerunning and has not faulted before restores
the last checkpoint and runs the block again; nothing that the block had not completed becomes visible: beside the rings and the lines of the stream's
own instructions and constants, which are reloaded from the image, every byte reads as before (R81, R83). Here the image can be read, and a range
fault lies in the partition. So it is where an instruction that reads and writes tensors names bytes outside its plan's regions (cause 3) or reads a
poisoned granule (cause 5, R178): it faults its block at its issue, and no semaphore changes; here
host space can be reached. -/
def Obligations.BlockFaultReruns : Prop :=
  (∀ (op : Op) (e : Eng) (f : Fields) (s : State) (p : Plan),
    op ∈ [Op.move, .gather, .scatter, .dispatch, .mmax, .accsp, .acccb, .epi, .vop, .vred, .vrng, .vcvt] → mayIssue op e f s p →
    (s.eng e.val).rerunning = false → (s.eng e.val).faultTicks = [] → (s.eng e.val).barrierEntry = none →
    (∀ i r, (s.eng e.val).inflight = i :: r → i.chunks = []) → reloadable s e.val →
    let ts := srcsOf s e.val op f ++ dstsOf s e.val op f
    ((ts.any fun t => t.host) = false ∨ s.host.linkUp = true) →
    ts.all p.tensOk = false ∨ ((srcsOf s e.val op f).any fun t => (s.poisonOf e.val t).isSome) = true →
    ∃ t, exec (issueOf op e f) s = .next t ∧ (t.eng e.val).run = .rerun ∧ (t.eng e.val).pc = (s.eng e.val).ckpt.pc ∧ (t.eng e.val).inflight = [] ∧
      (t.eng e.val).retries = satInc (s.eng e.val).retries 1 ∧ t.engFlt.getLsbD 1 = true ∧ t.sems = s.sems ∧ t.watches = s.watches) ∧
  (∀ (e : Eng) (cause : Byte) (addr : Addr) (s : State), (s.part (s.partOf e.val)).runs = true → (s.eng e.val).faultable = true →
    cause = 1 ∨ cause = 2 ∨ cause = 3 → (kindOf e.val).code ≠ 3 → (s.eng e.val).rerunning = false → (s.eng e.val).faultTicks = [] →
    (s.eng e.val).barrierEntry = none → (∀ i r, (s.eng e.val).inflight = i :: r → i.chunks = []) → reloadable s e.val →
    (cause = 3 → inPart s.partCnt (s.partOf e.val) addr.toNat 1 = true) → Memory.wf s.mem.mem = true → ringsFit s →
    let x := s.eng e.val
    ∃ t, exec (.blockFault e cause addr) s = .next t ∧ (t.eng e.val).run = .rerun ∧ (t.eng e.val).rerunning = true ∧
      (t.eng e.val).pc = x.ckpt.pc ∧ (t.eng e.val).g = x.ckpt.g ∧ (t.eng e.val).a = x.ckpt.a ∧ (t.eng e.val).t = x.ckpt.t ∧
      (t.eng e.val).loops = x.ckpt.loops ∧ (t.eng e.val).tile0 = x.ckpt.tile0 ∧ (t.eng e.val).tile1 = x.ckpt.tile1 ∧
      (t.eng e.val).inflight = [] ∧ (t.eng e.val).retries = satInc x.retries 1 ∧ t.engFlt.getLsbD 1 = true ∧
      t.obs.seq = s.obs.seq + 1 ∧ t.sems = s.sems ∧
      ∀ a, inRing s.obs.rtrace 64 a = false → inRing s.obs.revt 32 a = false → inCode s e.val a = false → t.readByte a = s.readByte a)

/-! ## The sync unit -/

/-- A remote signal whose turn has come is applied to its REMOTE semaphore when its epoch is the partition's (R194, R196, R202), and deferred when
it is the next one's; before its turn, SSIG_RELEASE does nothing (R194). Here no commit barrier is under way. The re-base subtracts INCR from every
allocated semaphore of the partition, modulo 2^32, and changes no other partition's (R201). -/
def Obligations.SignalsAndRebase : Prop :=
  (∀ (q : Part) (sender : Endpoint) (seq : BitVec 16) (s : State) (h : HeldSig), (s.part q).barStage = 0 →
     (s.part q).arrived = false →
     (s.part q).heldQ.find? (fun h => h.sender == sender && h.seq == seq && !h.deferred) = some h →
     let ep := (s.part q).epoch.toNat % 4
     ((s.peer q sender).allBelow seq = true → h.epochBits.toNat = ep → s.remoteOk q h.sem.toNat = true →
       semRange ((s.sem h.sem.toNat).value.toInt + (h.n.toNat : Int)) = true →
       ∃ t, exec (.ssigRelease q sender seq) s = .next t ∧
         (t.sem h.sem.toNat).value.toInt = (s.sem h.sem.toNat).value.toInt + h.n.toNat ∧ (t.sem h.sem.toNat).lastRmt = true ∧
         (t.sem h.sem.toNat).lastEp = sender ∧ (t.part q).heldQ = (s.part q).heldQ.erase h ∧
         ∀ j, j ≠ h.sem.toNat → t.sem j = s.sem j) ∧
     ((s.peer q sender).allBelow seq = true → h.epochBits.toNat = (ep + 1) % 4 →
       ∃ t, exec (.ssigRelease q sender seq) s = .next t ∧ t.sems = s.sems ∧
         (t.part q).heldQ = (s.part q).heldQ.erase h ++ [{ h with deferred := true }]) ∧
     ((s.peer q sender).allBelow seq = false → exec (.ssigRelease q sender seq) s = .next s)) ∧
  (∀ (s : State) (q i : Nat), (semIn s.partCnt q i = true → (s.sem i).alloc = true →
       ((s.rebase q).sem i).value = BitVec.ofInt 32 ((s.sem i).value.toInt - (s.sem i).incr.toInt) ∧
       ((s.rebase q).sem i).init = (s.sem i).init ∧ ((s.rebase q).sem i).lastEp = (s.sem i).lastEp) ∧
     (semIn s.partCnt q i = false → (s.rebase q).sem i = s.sem i) ∧
     ((s.rebase q).part q).epoch = (s.part q).epoch + 1 ∧ ((s.rebase q).part q).lastCommit = (s.part q).epoch)

/-- A partition arrives at its commit barrier once every Hummock of its plan waits in COMMIT and every SSIG it has sent has been applied (R295 step
1); the list of its own signals is then empty. Here a child has still to report. When the barrier is complete, the step that ends becomes the last
committed one and the epoch rises by 1 (R201, R295), provided that every semaphore came to INIT + INCR (R203). Here no lane has retired (R241), and no
mirror UPD is under way. -/
def Obligations.BarrierCommits : Prop :=
  (∀ (q : Part) (s : State) (pl : Plan) (r : RingEnt), (s.part q).plan = some pl → (s.part q).runs = true →
     (s.part q).arrived = false → (pl.hummocks.all fun e => (s.eng e).barrierEntry.isSome) = true → s.sigsApplied q = true →
     pl.barrier = some r → s.barSem q < r.children.length →
     ∃ t, exec (.barrierArrive q) s = .next t ∧ (t.part q).arrived = true ∧ (t.part q).barStage = 1 ∧ (t.part q).ownSigs = [] ∧
       t.sems = s.sems ∧ t.engs = s.engs ∧ t.router = s.router) ∧
  (∀ (q : Part) (s : State) (pl : Plan), (s.part q).plan = some pl → (s.part q).arrived = true → (s.part q).barStage = 5 →
     ((s.part q).barPeerSeq.all fun x => serialLe x.2 (s.peer q x.1).txAcked) = true → (s.commitsDone q).mismatches q = [] →
     noneRetired s → (∀ e i r, (s.eng e).inflight = i :: r → i.mirror = none) →
     ∃ t, exec (.commitBarrierComplete q) s = .next t ∧ (t.part q).epoch = (s.part q).epoch + 1 ∧
       (t.part q).lastCommit = (s.part q).epoch ∧ (t.part q).plan = some pl)

/-- The scrubber of the sync store: each corrected word counts, and a word that it cannot correct ends the module's work, which quarantines itself
(R205). Errors that a scrubber meets (R176-R178): every word that is uncorrectable is poisoned and counted; a corrected error first seen at its
place is counted and remembered, and changes no byte. When a page's copy ends the page is remapped (R179). -/
def Obligations.ErrorsAreCounted : Prop :=
  (∀ (s : State) (l u : List Word), s.boot.quar = false →
     (∃ t, exec (.syncScrub l []) s = .next t ∧ t.sync.ceCnt.toNat = min (s.sync.ceCnt.toNat + l.length) (2 ^ 32 - 1) ∧
       t.sems = s.sems ∧ t.watches = s.watches ∧ t.boot = s.boot) ∧
     (u ≠ [] → ∃ t, exec (.syncScrub l u) s = .next t ∧ t.boot.quar = true ∧ t.sync.stat.getLsbD 7 = true)) ∧
  ((∀ (hits : List ScrubHit) (s : State), (hits.all fun h => h.uncorrectable && isDram h.addr.toNat) = true → ringsFit s →
     Memory.wf s.mem.mem = true → ∃ t, exec (.dramScrubPass hits) s = .next t ∧ bytesKept s t ∧
       (∀ h ∈ hits, granule h.addr.toNat ∈ t.mem.poison) ∧ t.mem.ueDram = satInc s.mem.ueDram hits.length ∧ t.engs = s.engs) ∧
   (∀ (hits : List ScrubHit) (s : State), (hits.all fun h => h.uncorrectable && isPeat h.addr.toNat) = true → ringsFit s →
     Memory.wf s.mem.mem = true → ∃ t, exec (.peatScrubPass hits) s = .next t ∧ bytesKept s t ∧
       (∀ h ∈ hits, granule h.addr.toNat ∈ t.mem.poison) ∧ t.mem.uePeat = satInc s.mem.uePeat hits.length ∧ t.engs = s.engs) ∧
   (∀ (h : ScrubHit) (s : State), h.uncorrectable = false → s.seenBefore (granule h.addr.toNat) h.bit.toNat = false →
     (isDram h.addr.toNat = true → ∃ t, exec (.dramScrubPass [h]) s = .next t ∧ t.mem.dce = satInc s.mem.dce 1 ∧
       (granule h.addr.toNat, h.bit.toNat, s.now) ∈ t.mem.ceSeen ∧ t.mem.poison = s.mem.poison ∧ t.mem.errKind = 1) ∧
     (isPeat h.addr.toNat = true → ∃ t, exec (.peatScrubPass [h]) s = .next t ∧ t.mem.pce = satInc s.mem.pce 1 ∧
       (granule h.addr.toNat, h.bit.toNat, s.now) ∈ t.mem.ceSeen ∧ t.mem.poison = s.mem.poison ∧ t.mem.errKind = 3)) ∧
   (∀ (c : CopyJob) (r : List CopyJob) (s : State), s.mem.copies = c :: r → ∃ t, exec .pageRetireCopyDone s = .next t ∧
     t.mem.copies = r ∧ t.mem.pages = s.mem.pages ++ [(c.item, c.reserve)] ∧ t.mem.ecc.getLsbD 5 = true ∧ t.engs = s.engs))

/-! ## Lanes, islands, comb sources -/

/-- A frame on a lane that hears (R218, R222): an IDLE frame without a NAK counts its corrected symbols; the next data frame in order, where no
packet is coming in and none begins in it, moves the lane to the frame after it; a word that cannot be decoded is counted, the lane stays at its
frame and has to ask for a repeat. An alignment block on an up lane brings the far end's report of the lane that runs the other way (R219, R224); its
STATE 1 gives the notice of a dark interval, through which the lane trains (R233), and its STATE 2 darkens the lane (R219). The sender's clock of 4 µs
resends every frame not acknowledged, each up to 16 times over, and counts them (R222, R245), and the end of a BUSY pause ends the pause (R266). -/
def Obligations.FramesMove : Prop :=
  (∀ (p : Port) (c : Colour) (cw : List (BitVec 10)) (s : State), (s.rx p c).hears = true →
     (∀ w n, decodeFrame cw = some (w, n) → w.nak = false → w.idle = true →
       ∃ t, exec (.laneFrameReceive p c cw) s = .next t ∧ (t.rx p c).corr = satInc (s.rx p c).corr n ∧
         (t.rx p c).lastHeard = s.now ∧ (t.rx p c).expect = (s.rx p c).expect) ∧
     (∀ w n, decodeFrame cw = some (w, n) → w.nak = false → w.idle = false → w.fsn = (s.rx p c).expect → (s.rx p c).asm = [] →
       (s.rx p c).restart = none → 315 ≤ w.first.toNat →
       ∃ t, exec (.laneFrameReceive p c cw) s = .next t ∧ (t.rx p c).expect = (s.rx p c).expect + 1 ∧ (t.rx p c).nak = false) ∧
     (decodeFrame cw = none → (s.rx p c).uncTicks.length < 1000 →
       ∃ t, exec (.laneFrameReceive p c cw) s = .next t ∧ (t.rx p c).unc = satInc (s.rx p c).unc 1 ∧ (t.rx p c).nak = true ∧
         (t.rx p c).expect = (s.rx p c).expect)) ∧
  (∀ (p : Port) (c : Colour) (b : AlignBlock) (s : State), (s.rx p c).st = .up →
     let q := pairedPort b.rptPort
     let bc := backColour c
     (b.state = 0 → b.rptOma ≠ noSignal → ∃ t, exec (.alignmentBlockReceive p c b) s = .next t ∧
       (t.tx q bc).omas = (b.rptOma :: (s.tx q bc).omas).take 40 ∧ (t.tx q bc).margin = marginOf (t.tx q bc).omas ∧
       (t.rx p c).lastHeard = s.now ∧ (t.rx p c).st = .up) ∧
     (b.state = 1 → ∃ t, exec (.alignmentBlockReceive p c b) s = .next t ∧ (t.rx p c).noticeUntil = s.now + 6250 ∧
       (t.rx p c).st = .training) ∧
     (b.state = 2 → ∃ t, exec (.alignmentBlockReceive p c b) s = .next t ∧ (t.rx p c).st = .dark)) ∧
  (∀ (p : Port) (c : Colour) (s : State) (f : Frame) (r : List Frame), (s.tx p c).unacked = f :: r →
     ((s.tx p c).flows = true → ((f :: r).all fun f => decide ((s.tx p c).resends.get 0 f.fsn.toNat < 16)) = true →
       ((f :: r).map fun f => f.fsn).Nodup → ∃ t, exec (.ackTimeout p c) s = .next t ∧
       (∀ x ∈ f :: r, (t.tx p c).resends.get 0 x.fsn.toNat = (s.tx p c).resends.get 0 x.fsn.toNat + 1) ∧ (t.tx p c).unacked = (s.tx p c).unacked ∧
       (t.tx p c).retry = satInc (s.tx p c).retry (r.length + 1) ∧
       (t.tx p c).out.length = (s.tx p c).out.length + (r.length + 1) ∧ (t.port p).stat.getLsbD 1 = true) ∧
     (∀ n, (s.tx p c).pausedBusy = some n → ∃ t, exec (.busyPauseEnd p c) s = .next t ∧ (t.tx p c).pausedBusy = none))

/-- Training (R217, R221, R238, R240): a lane that has trained comes up from FSN 0 (said of a transmit lane for which nothing waits); one that failed
its training trains again, unless it has retrained twice within 10 s; one that failed at the host's request retires. Loss of signal without a notice retrains its lane under cause 2 (R238); a lasting low margin
with no comb switch to hope for retires its transmit lane (Table 9.9), unless lane retirement is host-assisted; and a proposal to retire a lane that
nobody answered carries the retirement out (R240, R41). -/
def Obligations.LanesTrainAndFall : Prop :=
  (∀ (p : Port) (c : Colour) (s : State), (s.island (p.val / 4)).blocks = false →
     ((s.rx p c).st = .training → ∃ t, exec (.laneTrained p c .rx) s = .next t ∧ (t.rx p c).st = .up ∧ (t.rx p c).expect = 0) ∧
     ((s.tx p c).st = .training → (s.tx p c).unacked = [] → (s.tx p c).queue = [] → s.router.relayq = [] →
       ∃ t, exec (.laneTrained p c .tx) s = .next t ∧ (t.tx p c).st = .up ∧ (t.tx p c).nextFsn = 0) ∧
     ((s.rx p c).st = .training → (s.rx p c).hostTry = false → (s.recent (s.rx p c).retrains).length < 2 → (s.rx p c).declining = false →
       ∃ t, exec (.laneTrainingFailed p c .rx) s = .next t ∧ (t.rx p c).st = .training ∧
         (t.rx p c).retrains = s.now :: s.recent (s.rx p c).retrains ∧ t.obs.seq = s.obs.seq + 1) ∧
     ((s.rx p c).st = .training → (s.rx p c).hostTry = true →
       ∃ t, exec (.laneTrainingFailed p c .rx) s = .next t ∧ (t.rx p c).st = .retired)) ∧
  (∀ (p : Port) (c : Colour) (s : State),
     ((s.rx p c).st = .up → (s.rx p c).noticeUntil ≤ s.now → (s.recent (s.rx p c).retrains).length < 2 →
       ∃ t, exec (.lossOfSignal p c) s = .next t ∧ (t.rx p c).st = .training ∧ (t.rx p c).trainCause = 2 ∧ (t.rx p c).oma = noSignal ∧
         (t.port p).stat.getLsbD 4 = true) ∧
     ((s.tx p c).st = .up → (s.tx p c).margin ≠ noSignal → (s.tx p c).margin.toInt < -100 → s.switchable (p.val / 4) = false →
       s.hostMode 2 = false → (s.tx p c).held = [] → (s.tx p c).waitq = [] →
       ∃ t, exec (.lowMarginTimeout p c) s = .next t ∧ (t.tx p c).st = .retired) ∧
     (∀ d, s.awaiting (.lane p c .rx) = some d → (s.rx p c).st ≠ .retired →
       ∃ t, exec (.laneRetireDeadline p c .rx) s = .next t ∧ (t.rx p c).st = .retired))

/-- A ring within 10 GHz of its line takes the loop's heater code; beyond, lock is lost and the lane carries no traffic until a relock, the third
failure of which in a row is a permanent fault (R227, R228). Said of receive lanes, without host-assisted lane retirement. A thermal island (R226): out of its band, the excursion is noted
once, and beyond 75 to 85 °C every up lane of its engine stops; back in band, the excursion is over; out of it too long, the island is lost. -/
def Obligations.HeatHoldsLines : Prop :=
  (∀ (p : Port) (c : Colour) (err : Nat) (heat : BitVec 16) (s : State),
     (err ≤ 10000 → ∃ t, exec (.ringLockLoop p c .rx err heat) s = .next t ∧ t.rx p c = { s.rx p c with heat := heat } ∧ t.txl = s.txl) ∧
     (10000 < err → (s.rx p c).locked = true → ∃ t, exec (.ringLockLoop p c .rx err heat) s = .next t ∧ (t.rx p c).locked = false ∧
       (t.rx p c).hears = false ∧ (t.port p).stat.getLsbD 2 = true) ∧
     ((s.rx p c).locked = false → ∃ t, exec (.ringRelockDone p c .rx true heat) s = .next t ∧ (t.rx p c).locked = true ∧
       (t.rx p c).heat = heat ∧ (t.rx p c).relocks = 0 ∧ t.obs.seq = s.obs.seq + 1) ∧
     ((s.rx p c).locked = false → (s.rx p c).relocks < 2 → ∃ t, exec (.ringRelockDone p c .rx false heat) s = .next t ∧
       (t.rx p c).locked = false ∧ (t.rx p c).relocks = (s.rx p c).relocks + 1) ∧
     ((s.rx p c).locked = false → (s.rx p c).relocks = 2 → s.hostMode 2 = false →
       ∃ t, exec (.ringRelockDone p c .rx false heat) s = .next t ∧ (t.rx p c).st = .retired)) ∧
  (∀ (e : Phot) (temp : BitVec 12) (s : State),
     (inBand temp = false → (s.island e).stopped = false → (s.island e).lost = false →
       ∃ t, exec (.islandOutOfBand e temp) s = .next t ∧ (t.island e).inband = false ∧ (t.island e).excursion = true ∧
         (t.island e).temp = temp ∧ (t.island e).stopped = !inWide temp ∧
         (inWide temp = false → ∀ p c, p < 32 → c < 20 → p / 4 = e.val → (t.tx p c).st ≠ .up ∧ (t.rx p c).st ≠ .up) ∧
         (inWide temp = true → t.txl = s.txl ∧ t.rxl = s.rxl)) ∧
     (inBand temp = true → (s.island e).stopped = false → ∃ t, exec (.islandInBand e temp) s = .next t ∧ (t.island e).inband = true ∧
       (t.island e).excursion = false ∧ (t.island e).temp = temp) ∧
     ((s.island e).lost = false → ∃ t, exec (.islandTimeout e) s = .next t ∧ (t.island e).lost = true))

/-- A comb source in service (R231, R235): its drive moves by 0.2 % toward its worst lane's margin, between 30 % and 100 %; at 100 % with a margin
below 0 dB it has failed; when it fails, it is marked failed. A standby that fails is marked failed too (R236). A comb switch (R233, R234, Table 9.8): it starts in its window with the approval
it needs, or is forced; while it lasts the engine's up lanes are held; when it is done the standby serves with the former drive, and the former
source is retired. -/
def Obligations.CombsServe : Prop :=
  (∀ (k : CombId) (s : State),
     (∀ p c, (s.comb k).st = .service → (s.comb k).switching = false → s.worstLane (k.val / 2) = some (p, c) →
       let m := (s.tx p c).margin
       let d := if m.toInt < 200 then min 1000 ((s.comb k).drive.toNat + 2)
         else if 250 < m.toInt then max 300 ((s.comb k).drive.toNat - 2) else (s.comb k).drive.toNat
       ∃ t, exec (.combDriveAdjust k) s = .next t ∧ (t.comb k).worst = (if 1000 ≤ d ∧ m.toInt < 0 then noSignal else m) ∧ (t.comb k).drive = BitVec.ofNat 10 d ∧
         (t.comb k).st = (if 1000 ≤ d ∧ m.toInt < 0 then .failed else .service)) ∧
     ((s.comb k).st = .service → ∃ t, exec (.combSourceFail k) s = .next t ∧ (t.comb k).st = .failed ∧ (t.comb k).w1c.getLsbD 2 = true) ∧
     ((s.comb k).st = .warm → ∃ t, exec (.standbyCombFail k) s = .next t ∧ (t.comb k).st = .failed ∧
       (t.comb k).w1c.getLsbD 2 = true)) ∧
  (∀ (e : Phot) (s : State),
     (∀ i, s.pendingComb e = some i → (s.comb i).approved = true → s.windowOpen e = true → (s.island e).blocks = false →
       ∃ t, exec (.combSwitchStart e) s = .next t ∧ (t.comb i).switching = true ∧ (t.comb i).forced = false ∧
         ∀ p c, p < 32 → c < 20 → p / 4 = e.val → (s.tx p c).st = .up → (t.tx p c).st = .heldSwitch) ∧
     (∀ i, s.pendingComb e = some i → (s.island e).blocks = false → ∃ t, exec (.combSwitchForced e) s = .next t ∧
       (t.comb i).switching = true ∧ (t.comb i).forced = true) ∧
     (∀ i, [2 * e.val, 2 * e.val + 1].find? (fun i => (s.comb i).switching) = some i → (s.comb i).st = .service →
       ∃ t, exec (.combSwitchDone e) s = .next t ∧ (t.comb i).st = .retired ∧ (t.comb i).switching = false ∧
         (t.comb (otherComb i)).st = .service ∧ (t.comb (otherComb i)).drive = (s.comb i).drive))

/-! ## Packets -/

/-- A WRITE that its partition takes is committed where the plan declares remote writes (R265, R269): exactly its bytes change. Anywhere else, but
for the mirror stream's bytes into MIRROR (R338, R466), nothing is written beside the rings, ROUTE_STAT bit 7 is set, and a started partition stops
(R268). A MCAST packet at a member of its chain is committed like a WRITE, and the last of a PUT's `n` packets adds 1 to the chain's arrival semaphore
(R197, R271). Said of the chain's last module, and of a module none of whose lanes has retired (R241). -/
def Obligations.WritesCommit : Prop :=
  (∀ (p : Port) (c : Colour) (k : Packet) (s : State) (q : Nat) (pl : Plan), k.typ = 0 → endsHere s k → taken s q pl k →
     Memory.wf s.mem.mem = true → coherent s →
     let bs := arrivalBytes k.wfmt.toNat k.payload
     (pl.remoteOk k.addr.toNat bs.length = true → ∃ t, exec (.writeReceive p c k) s = .next t ∧
       (∀ i, i < bs.length → t.readByte (k.addr.toNat + i) = bs.getD i 0) ∧
       (∀ a, a < k.addr.toNat ∨ k.addr.toNat + bs.length ≤ a → t.readByte a = s.readByte a) ∧ t.engs = s.engs ∧ t.sems = s.sems) ∧
     (pl.remoteOk k.addr.toNat bs.length = false → s.mirrorOk q pl k bs.length = false → (s.part q).started = true →
       noneRetired s → ringsFit s → ∃ t, exec (.writeReceive p c k) s = .next t ∧ (t.part q).stat = .idle ∧ t.router.stat.getLsbD 7 = true ∧ bytesKept s t)) ∧
  (∀ (p : Port) (c : Colour) (k : Packet) (put n : Word) (s : State) (q : Nat) (pl : Plan) (e : ChainEnt), k.typ = 1 → endsHere s k → taken s q pl k →
     Memory.wf s.mem.mem = true → coherent s → ringsFit s → noneRetired s →
     pl.shape.chains.find? (fun e => e.index == k.chain) = some e → e.member = true → e.next = 0xFFFFFFFF →
     let bs := arrivalBytes k.wfmt.toNat k.payload
     pl.remoteOk k.addr.toNat bs.length = true → (n.toNat ≤ (s.part q).arrivals.get 0 (put.toNat * 65536 + e.index.toNat) + 1 → s.remoteOk q e.sem.toNat = true ∧
       semRange ((s.sem e.sem.toNat).value.toInt + 1) = true) → ∃ t, exec (.mcastReceive p c ⟨k, put, n⟩) s = .next t ∧
       (¬ n.toNat ≤ (s.part q).arrivals.get 0 (put.toNat * 65536 + e.index.toNat) + 1 → t.sems = s.sems) ∧
       (n.toNat ≤ (s.part q).arrivals.get 0 (put.toNat * 65536 + e.index.toNat) + 1 →
         (t.sem e.sem.toNat).value.toInt = (s.sem e.sem.toNat).value.toInt + 1 ∧ ∀ j, j ≠ e.sem.toNat → t.sem j = s.sem j) ∧
       (∀ i, i < bs.length → inRing s.obs.rtrace 64 (k.addr.toNat + i) = false → inRing s.obs.revt 32 (k.addr.toNat + i) = false →
         t.readByte (k.addr.toNat + i) = bs.getD i 0) ∧
       (∀ a, inRing s.obs.rtrace 64 a = false → inRing s.obs.revt 32 a = false → a < k.addr.toNat ∨ k.addr.toNat + bs.length ≤ a →
         t.readByte a = s.readByte a))

/-- A SIGNAL whose lower numbers are all committed and whose epoch is the partition's adds to its REMOTE semaphore on arrival; one that comes before
its turn is held, while the queue has room; one that was committed before changes no semaphore (R194, R198). Here no commit barrier is under way. -/
def Obligations.SignalAddsInOrder : Prop :=
  ∀ (p : Port) (c : Colour) (k : Packet) (s : State) (q : Nat) (pl : Plan), k.typ = 2 → endsHere s k → taken s q pl k →
    (s.part q).barStage = 0 → (s.part q).arrived = false →
    let h := sigOf k
    ((s.peer q k.src).has k.pseq = true → ∃ t, exec (.signalReceive p c k) s = .next t ∧ t.sems = s.sems ∧
      (t.part q).heldQ = (s.part q).heldQ) ∧
    ((s.peer q k.src).has k.pseq = false → ((s.part q).heldQ.any fun y => y.sender == k.src && y.seq == k.pseq) = false →
      ((s.peer q k.src).allBelow k.pseq = true → h.epochBits.toNat = (s.part q).epoch.toNat % 4 → s.remoteOk q h.sem.toNat = true →
        semRange ((s.sem h.sem.toNat).value.toInt + (h.n.toNat : Int)) = true →
        ∃ t, exec (.signalReceive p c k) s = .next t ∧
          (t.sem h.sem.toNat).value.toInt = (s.sem h.sem.toNat).value.toInt + h.n.toNat ∧
          (∀ j, j ≠ h.sem.toNat → t.sem j = s.sem j) ∧ (t.part q).heldQ = (s.part q).heldQ) ∧
      ((s.peer q k.src).allBelow k.pseq = false → (s.part q).heldQ.length < heldCap s.partCnt →
        ∃ t, exec (.signalReceive p c k) s = .next t ∧ t.sems = s.sems ∧ (t.part q).heldQ = (s.part q).heldQ ++ [h]))

/-- A watermark that comes back frees its peer's window up to it (R195), carried by a PACK; credits that come back in a LINK packet are added to the
lane that CHAIN names (R248); and a watermark not yet sent leaves in a PACK after its delay, which for a module one hop away goes on a lane at once
(R267). -/
def Obligations.WindowsAndCredits : Prop :=
  (∀ (p : Port) (c : Colour) (k : Packet) (s : State) (q : Nat) (pl : Plan), k.typ = 3 → endsHere s k → taken s q pl k →
    k.packv = true → serialLe (s.peer q k.src).txAcked k.pack = true → serialLe k.pack ((s.peer q k.src).txNext - 1) = true →
    ∃ t, exec (.packReceive p c k) s = .next t ∧ (t.peer q k.src).txAcked = k.pack ∧
      (t.peer q k.src).txNext = (s.peer q k.src).txNext ∧ t.sems = s.sems) ∧
  (∀ (p : Port) (c : Colour) (k : Packet) (s : State) (i : Nat), k.typ = 6 → k.crcOk = true → k.malformed = false → k.len = 0 →
    let r := fld k.chain.toNat 0 5
    let b := fld k.chain.toNat 5 5
    b < 20 → i < 12 → (s.tx r b).waitq = [] →
    ∃ t, exec (.linkReceive p c k) s = .next t ∧
      (t.tx r b).credits.get 0 i = (s.tx r b).credits.get 0 i + fld k.addr.toNat (4 * i) 4) ∧
  (∀ (q : Part) (peer : Endpoint) (s : State), (s.peer q peer).ackDirty = true → s.destOk q peer = true →
    ∃ t, exec (.packTimeout q peer) s = .next t ∧ (t.peer q peer).ackDirty = false ∧
      ∀ pl ds, let d := (s.rankEnt q (epRank peer)).coord
        s.nextHop d (s.dirsTo (s.part q).plan d) = some (pl, ds) → s.landing pl ds = d → lanesWhole s pl ds →
        ∃ x, t.router.txq = s.router.txq ++ [x] ∧ x.colour = txColour s.slot ds ∧ x.pkt.typ = 3 ∧ x.pkt.dest = peer ∧
          x.pkt.packv = (s.peer q peer).rxAny ∧ x.pkt.pack = (s.peer q peer).pack)

/-- A whole packet for another module, which takes no pool slot that cannot be read, is relayed: it is counted, and no partition of this module is
touched (R256, R264). The periodic report of the lanes goes to every live active carr-mate (R471), said of pairs whose lanes all carry traffic or that
no SHAPE lights; and a detoured packet that has waited too long ends the module's work (R471). -/
def Obligations.RelaysAndReports : Prop :=
  (∀ (p : Port) (c : Colour) (k : Packet) (s : State) (pl ds : Nat), k.crcOk = true → k.len.toNat ≤ 4096 → k.malformed = false →
     k.coord = false → k.hops.toNat ≤ 60 → k.typ ≠ 5 → k.typ ≠ 6 → k.dcoord ≠ s.coord → (s.port p).slots.contains (c.val, k) = false →
     s.nextHop k.dcoord k.dirs = some (pl, ds) → lanesWhole s pl ds →
     ∃ t, exec (.packetRelay p c k) s = .next t ∧ (t.port p).prelay = satInc (s.port p).prelay 1 ∧ t.parts = s.parts ∧
       t.engs = s.engs ∧ t.sems = s.sems ∧ t.mem = s.mem) ∧
  ((∀ s : State, (∀ j ∈ s.mates, j ≤ 15 → s.litPorts 0 (txColour s.slot j) = [] ∨ lanesWhole s 0 j) →
     ∃ t l, exec .lanestatePeriodic s = .next t ∧ t.router.txq = s.router.txq ++ l ∧
     (l.map fun x => (x.pkt.typ, x.pkt.dcoord, x.pkt.addr, x.pkt.payload))
       = ((s.mates.filter fun j => Nat.ble j 15).map fun j => ((5 : BitVec 4), s.carrCoord j, (0x0A : BitVec 48), s.laneReport)) ∧
     t.parts = s.parts ∧ t.mem = s.mem) ∧
   (∀ (plane : BitVec 3) (slot : Colour) (s : State), s.boot.quar = false →
     (s.router.relayq.any fun w => w.plane == plane && w.slot.toNat == slot.val) = true →
     ∃ t, exec (.detourWaitTimeout plane slot) s = .next t ∧ t.boot.quar = true ∧ t.router.stat.getLsbD 6 = true))

/-- Exponents (R281): an agreed one that comes down is written and kept; a running maximum that has come to its closing module becomes the agreed
exponent there. Said of packets of one exponent. Partial sums and their delivery (R283, R289): at a segment's last module, without a twin, a block
of a good SUM packet is closed; a HACK ends the wait for its block. Here no word of the block that the Mere reads is poisoned (R178). -/
def Obligations.RingBlocksAgree : Prop :=
  (∀ (p : Port) (c : Colour) (k : Packet) (s : State) (q e : Nat) (pl : Plan) (i : RInst) (r : RingEnt), k.payload.length = 2 →
     2 ≤ r.l → atInstance s q e i r k false →
     (ringTaken s q pl k 1 → (r.pos + 1) % r.l = ringBlock k % r.l → ∃ t j, exec (.ringExpDown p c k) s = .next t ∧
       t.inst e i.key = some j ∧ j.agreed.find (ringBlock k) = some (BitVec.ofNat 16 (fieldLE k.payload 0 2))) ∧
     (ringTaken s q pl k 0 → r.pos = ringBlock k % r.l → s.ringPoison i [ringBlock k] = none → routed s q r.succ → ∃ t j, exec (.ringExpUp p c k) s = .next t ∧
       t.inst e i.key = some j ∧ (j.agreed.find (ringBlock k)).isSome = true)) ∧
  (∀ (p : Port) (c : Colour) (k : Packet) (s : State) (q e : Nat) (pl : Plan) (i : RInst) (r : RingEnt), atInstance s q e i r k true →
     (ringTaken s q pl k 2 → 2 ≤ r.l → s.ringPoison i [ringBlock k] = none → i.heldQueued = [] → s.twinOff q = true →
       k.payload.length = 32 * fmtBits i.s1.code + 224 → i.added.get false (ringBlock k) = false →
       roleOf r.l r.pos (segOf i.nblk r.l (ringBlock k - i.first.toNat)) = r.l - 1 →
       (bodyBlock (fmtBits i.s1.code) 1 k.payload 0).2 = true →
       ∃ t j, exec (.ringSum p c k) s = .next t ∧ t.inst e i.key = some j ∧ j.added.get false (ringBlock k) = true ∧ t.sems = s.sems) ∧
     (ringTaken s q pl k 4 → ∃ t j, exec (.ringHack p c k) s = .next t ∧ t.inst e i.key = some j ∧
       (∀ n, (n, true) ∈ j.hackWait → n ≠ ringBlock k)))

/-- HELD at the twin (R288, R289): a good packet inside SHARD_LEN writes its blocks to the held region; one beyond it writes nothing and stops the
partition as R190 gives. READY, NORM and RETRY ahead of their time (R280, R290, R293, R472): a READY for an instance not issued yet is kept; HREADY
is counted toward the next step's held blocks; a child's value of the node's own attempt waits at a node that has no sum of its own yet; a new attempt
is recorded. Here no lane has retired (R241). -/
def Obligations.HeldAndEarlyPackets : Prop :=
  (∀ (p : Port) (c : Colour) (k : Packet) (s : State) (q w n : Nat) (pl : Plan) (r : RingEnt), ringTaken s q pl k 3 →
     s.ringEnt q (ringOf k) = some r → heldForm k.payload.length = some (w, n) → (s.part q).heldAttempt = [] →
     Memory.wf s.mem.mem = true → coherent s →
     let eo := fieldLE k.payload 0 8
     let xo := fieldLE k.payload 8 8
     let body := k.payload.drop (16 + roundUp (2 * n) 8)
     (eo + n * 32 * w ≤ r.shardLen → xo + 2 * n ≤ r.shardLen → (xo + 2 * n ≤ eo ∨ eo + n * 32 * w ≤ xo) →
       ((List.range n).all fun i => (bodyBlock w n body i).2) = true → routed s q (BitVec.ofNat 32 k.src.toNat) →
       ∃ t, exec (.ringHeld p c k) s = .next t ∧
         (∀ i, i < n * 32 * w → t.readByte (r.heldBase + eo + i) = body.getD i 0) ∧
         (∀ i, i < 2 * n → t.readByte (r.heldBase + xo + i) = k.payload.getD (16 + i) 0)) ∧
     (r.shardLen < eo + n * 32 * w → (s.part q).started = true → noneRetired s → ringsFit s →
       ∃ t, exec (.ringHeld p c k) s = .next t ∧ (t.part q).stat = .idle ∧ bytesKept s t)) ∧
  (∀ (p : Port) (c : Colour) (k : Packet) (s : State) (q : Nat) (pl : Plan),
     (ringTaken s q pl k 5 → ringBlock k ≠ 0xFFFFFFFF →
       s.findInst q (fun i => i.key == (ringOf k, bitAt (fieldLE k.payload 0 1) 0, BitVec.ofNat 32 (ringBlock k))) = none →
       ∃ t, exec (.ringReady p c k) s = .next t ∧
         (t.part q).readyKept = (ringOf k, bitAt (fieldLE k.payload 0 1) 0, BitVec.ofNat 32 (ringBlock k)) :: (s.part q).readyKept ∧
         t.engs = s.engs) ∧
     (ringTaken s q pl k 5 → ringBlock k = 0xFFFFFFFF → bitAt (fieldLE k.payload 0 1) 0 = true →
       (∀ e ∈ meresOf s.partCnt q, (s.eng e).rinsts = []) → ∃ t, exec (.ringReady p c k) s = .next t ∧
         (t.part q).hreadyGot = (s.part q).hreadyGot + 1 ∧ t.engs = s.engs) ∧
     (∀ r i, ringTaken s q pl k 6 → s.treeEnt q (ringOf k).toNat = some r → bitAt (fieldLE k.payload 5 1) 0 = false →
       r.children.findIdx? (fun ch => ch.1.toNat == k.src.toNat) = some i → ringAtt k = (s.part q).normAtt → (s.normNode q (ringOf k).toNat).own = none →
       ∃ t, exec (.ringNorm p c k) s = .next t ∧
         (t.normNode q (ringOf k).toNat).ups.get 0 i = BitVec.ofNat 40 (fieldLE k.payload 0 5) ∧
         (t.normNode q (ringOf k).toNat).own = none) ∧
     (∀ r, ringTaken s q pl k 7 → s.ringEnt q (ringOf k) = some r → 2 ≤ r.l → routed s q r.succ → fieldLE k.payload 0 1 % 4 ≠ 0 →
       s.findInst q (fun i => i.key == (ringOf k, true, BitVec.ofNat 32 (ringBlock k))) = none →
       s.findInst q (fun i => i.key == (ringOf k, false, BitVec.ofNat 32 (ringBlock k))) = none → (s.part q).ringAttempt = [] →
       ∃ t, exec (.ringRetry p c k) s = .next t ∧
         (t.part q).ringAttempt = [((ringOf k, false, BitVec.ofNat 32 (ringBlock k)), BitVec.ofNat 2 (fieldLE k.payload 0 1))]))

/-! ## Firmware and recovery (chapter 13) -/

/-- HELLO (R392): a colour whose coordinate and extents are as this module expects is recorded as discovered; one with another coordinate is
recorded as wrong and goes dark, and event 0xB41 is logged. DRAIN begins a drain that names its step (R272); a
drain that its time limit catches is logged and goes on; a MAINT message of a job that is not here is dropped and counted (R254). RTAB keeps its
entries for the named tick; RESUME names the tick (R272, R341). Until then neither changes the rank table. A numerics answer (R150, R427) to a
running partition is kept; answer 1 lets the UPDs that wait for it complete, and answer 2 stops the partition with the step uncommitted (no lane
having retired, R241). A carr-mate's LANESTATE is kept for the choice of detours (R260, R471). An RTAB and an answer that go on are said of a module
all of whose lit lanes carry traffic. -/
def Obligations.FirmwareMessages : Prop :=
  (∀ (p : Port) (c : Colour) (k : Packet) (s : State), firmware s k 1 →
     let got : BitVec 17 := BitVec.ofNat 17 (fieldLE k.payload 0 3)
     let want := s.landing (portPlane p) (rxSource s.slot c)
     (got = want → fieldLE k.payload 3 2 = s.extentBits → ∃ t, exec (.hello p c k) s = .next t ∧
       (t.boot.disc.get 0 p.val).getLsbD c.val = true ∧ t.boot.discBad = s.boot.discBad) ∧
     (got ≠ want → ∃ t, exec (.hello p c k) s = .next t ∧ (t.boot.discBad.get 0 p.val).getLsbD c.val = true ∧
       t.boot.disc = s.boot.disc ∧ t.boot.stat.getLsbD 4 = true ∧
       ((s.rx p c).st ≠ .retired → (s.rx p c).st ≠ .closed → (t.rx p c).st = .dark) ∧
       logged s t 0xB41 0 (a1 p ++ a1 c ++ a4 want.toNat ++ a4 got.toNat))) ∧
  ((∀ (p : Port) (c : Colour) (k : Packet) (s : State) (q : Nat), firmware s k 2 →
     (jobOf s k q → ∃ t, exec (.drain p c k) s = .next t ∧ (t.part q).drain = 1 ∧
       (t.part q).drainStep = BitVec.ofNat 64 (fieldLE k.payload 2 8) ∧ t.engs = s.engs ∧ t.sems = s.sems) ∧
     ((List.range s.partCnt).find? (fun q => s.jobHere q (BitVec.ofNat 16 (fieldLE k.payload 0 2))) = none →
       ∃ t, exec (.drain p c k) s = .next t ∧ t.parts = s.parts ∧ t.router.stat.getLsbD 2 = true ∧
         (t.port p).pdrop = satInc (s.port p).pdrop 1)) ∧
   (∀ (q : Part) (s : State), (s.part q).drain = 1 → (s.part q).drainDue = true →
     ∃ t, exec (.drainTimeout q) s = .next t ∧ t.obs.seq = s.obs.seq + 1 ∧ t.parts = s.parts ∧ t.engs = s.engs)) ∧
  (∀ (p : Port) (c : Colour) (k : Packet) (s : State) (q : Nat), jobOf s k q →
     (firmware s k 4 → allCarry s → ∃ t, exec (.rtab p c k) s = .next t ∧ (t.part q).pendingTab = (s.part q).pendingTab ++ rtabPairs k.payload ∧
       t.router.rtab = s.router.rtab) ∧
     (firmware s k 5 → ∃ t, exec (.resume p c k) s = .next t ∧ (t.part q).resumeAt = some (BitVec.ofNat 64 (fieldLE k.payload 2 8)) ∧
       (t.part q).goAt = none ∧ (t.part q).epoch = (s.part q).epoch ∧ t.router.rtab = s.router.rtab)) ∧
  (∀ (p : Port) (c : Colour) (k : Packet) (s : State),
     (∀ q, firmware s k 9 → jobOf s k q → (s.part q).runs = true → allCarry s →
       let step : Dword := BitVec.ofNat 64 (fieldLE k.payload 2 8)
       (fieldLE k.payload 10 1 = 1 → ∃ t, exec (.numans p c k) s = .next t ∧ (t.part q).numAnswer = some (step, 1) ∧
         ∀ e ∈ engsOf s.partCnt q, ∀ i ∈ (t.eng e).inflight, ¬ (i.wait = .numerics ∧ i.step = step)) ∧
       (fieldLE k.payload 10 1 = 2 → noneRetired s → ∃ t, exec (.numans p c k) s = .next t ∧ (t.part q).stat = .idle ∧
         (t.part q).lastCommit = (s.part q).lastCommit)) ∧
     (firmware s k 0x0A → sameCarr (BitVec.ofNat 17 (fieldLE k.payload 0 3)) s.coord = true →
       ∃ t, exec (.lanestate p c k) s = .next t ∧
         t.router.reports.get [] (cSlot (BitVec.ofNat 17 (fieldLE k.payload 0 3))) =
           (List.range 32).map fun i => BitVec.ofNat 20 (fieldLE k.payload (4 + 4 * i) 4)))

/-- At the named tick with no table entry pending (R272, R342): a drained partition issues again; a held one replays its step: every engine of it
that has work stands at instruction 0 of the step that the epoch names with nothing in flight, and every allocated semaphore is at INIT (R204). A host
signal for that step that came in the hold is added to it then (R440). Here no lane has retired (R241), no board is being emptied, no engine has yet to
end a pass of the step before, and the RESUME does not name the partition's own step as committed (R341). -/
def Obligations.ResumeReplays : Prop :=
  ∀ (q : Part) (s : State) (pl : Plan) (n : Dword), (s.part q).plan = some pl → (s.part q).runs = true → (s.part q).spare = none →
    (s.part q).resumeAt = some n → (s.part q).pendingTab = [] → (s.part q).decidedC ≠ some (s.part q).epoch → s.host.vacating = none → noneRetired s →
    ((s.part q).hold = .none → ∃ t, exec (.resumeTick q) s = .next t ∧ (t.part q).drain = 0 ∧ (t.part q).resumeAt = none ∧
      t.engs = s.engs ∧ t.sems = s.sems ∧ t.obs.seq = s.obs.seq + 1) ∧
    ((s.part q).hold ≠ .none → ∃ t, exec (.resumeTick q) s = .next t ∧ (t.part q).hold = .none ∧ (t.part q).drain = 0 ∧
      (t.part q).epoch = (s.part q).epoch ∧
      (∀ e ∈ engsOf s.partCnt q, (s.eng e).run = .running ∨ (s.eng e).run = .waiting ∨ (s.eng e).run = .rerun →
        (s.eng e).lap = false → (t.eng e).run = .running ∧ (t.eng e).pc = 0 ∧ (t.eng e).step = (s.part q).epoch ∧ (t.eng e).inflight = []) ∧
      ((s.part q).hsigs.filter (fun h => h.step == (s.part q).epoch) = [] →
        ∀ i, semIn s.partCnt q i = true → (s.sem i).alloc = true → (t.sem i).value = BitVec.ofInt 32 (s.sem i).init.toInt) ∧
      (∀ h, (s.part q).hsigs.filter (fun h => h.step == (s.part q).epoch) = [h] → semIn s.partCnt q h.sem.toNat = true →
        (s.sem h.sem.toNat).alloc = true → semRange ((s.sem h.sem.toNat).init.toInt + (h.n.toNat : Int)) = true →
        (t.sem h.sem.toNat).value = BitVec.ofInt 32 ((s.sem h.sem.toNat).init.toInt + (h.n.toNat : Int))))

/-- FENCE of another rank by its next generation (R255, R328, R329): the rank's entry takes the generation, the numbers kept for its packets are gone, and a
running twinned partition whose pair is not lost begins the recovery hold, the pair being in its resync window from then on (R344); a FENCE with the
present generation changes nothing of the partition. Here all lit lanes carry traffic, for the FENCEs that a steward passes on. -/
def Obligations.FenceBeginsHold : Prop :=
  ∀ (p : Port) (c : Colour) (k : Packet) (s : State) (q : Nat) (pl : Plan), firmware s k 7 → fieldLE k.payload 2 1 = q → q < s.partCnt →
    s.jobHere q (BitVec.ofNat 16 (fieldLE k.payload 0 2)) = true → (s.part q).plan = some pl → allCarry s →
    let r := fieldLE k.payload 4 4
    let gen : BitVec 16 := BitVec.ofNat 16 (fieldLE k.payload 8 2)
    r < 65536 → (s.rankEnt q r).valid = true →
    (gen = (s.rankEnt q r).gen + 1 → gen ≠ 0 → r ≠ s.rankOf q → (s.part q).runs = true → pl.shape.flags.getLsbD 0 = false →
      s.pairLost q pl r = false → ∃ t, exec (.fence p c k) s = .next t ∧ (t.rankEnt q r).gen = gen ∧ (t.part q).hold = .holding ∧
        (t.part q).fencedRanks = r :: (s.part q).fencedRanks ∧ r ∈ (t.part q).windows ∧ t.engs = s.engs ∧ t.sems = s.sems ∧
        ∀ ep : Endpoint, epRank ep = r → t.peer q ep = {}) ∧
    (gen = (s.rankEnt q r).gen → ∃ t, exec (.fence p c k) s = .next t ∧ t.parts = s.parts ∧ t.engs = s.engs ∧ t.router.rtab = s.router.rtab)

/-- Losses found (R325, R327, R328): a declaration that reaches the coordinator, a slot that two live mates, or all when fewer live, have not heard
for 200 µs, a rank that sends no REPORT within 10 ms,
and a rank that gave its warm notice and did not return, each are declared lost and fenced by the next generation. An OP that Table 13.6 does not
list is dropped and counted (R350). Here the partition runs a twinned plan, the rank's pair is not lost, its module serves this rank alone and no other coordinator leads the job; and all
lit lanes carry traffic. -/
def Obligations.LossesFence : Prop :=
  (∀ (p : Port) (c : Colour) (k : Packet) (s : State) (q : Nat) (pl : Plan), admits s k 1 q →
    let r := fieldLE k.payload 4 4
    fenceable s q pl r → s.leads (BitVec.ofNat 17 (fieldLE k.payload 8 4)) = true → fieldLE k.payload 16 1 ≠ 5 →
    (s.part q).recov = none → (s.part q).hold = .none → allCarry s →
    ∃ t, exec (.admitDeclare p c k) s = .next t ∧ fenced s t q r) ∧
  (∀ (p : Port) (c : Colour) (k : Packet) (s : State), firmware s k 6 → 9 < fieldLE k.payload 0 1 →
    ∃ t, exec (.admitDeclare p c k) s = .next t ∧ t.parts = s.parts ∧ (t.port p).pdrop = satInc (s.port p).pdrop 1 ∧
      t.router.stat.getLsbD 3 = true ∧ logged s t 0x413 0 (a4 5 ++ a1 p)) ∧
  (∀ (slot : Colour) (told : BitVec 20) (s : State) (q : Nat) (pl : Plan) (r : Nat), slot.val ≠ s.slot → s.leads (s.carrCoord slot.val) = true →
    s.silentAt slot.val told = true → fenceable s q pl r → (∀ i, (s.part i).recov = none) → allCarry s →
    (s.part q).hold = .none → s.ranksAt (s.carrCoord slot.val) = [(q, r)] →
    ∃ t, exec (.silenceTimeout ⟨slot, told⟩) s = .next t ∧ fenced s t q r) ∧
  (∀ (slot : Colour) (told : BitVec 20) (s : State), s.silentAt slot.val told = false → exec (.silenceTimeout ⟨slot, told⟩) s = .next s) ∧
  (∀ (q : Part) (rank : BitVec 18) (s : State) (pl : Plan) (x : Recov), fenceable s q pl rank.toNat → (s.part q).recov = some x → allCarry s →
    s.ranksAt (s.rankEnt q rank.toNat).coord = [(q.val, rank.toNat)] → rank.toNat ∉ x.lost →
    (x.stage = .reports → (x.reports.any fun y => y.rank == rank.toNat) = false → x.warmNotice.contains rank.toNat = false →
      ∃ t, exec (.reportTimeout q rank) s = .next t ∧ fenced s t q rank.toNat) ∧
    (x.warmNotice.contains rank.toNat = true → (x.accepted.find? fun a => a.1 == rank.toNat) = none →
      ∃ t, exec (.warmNoticeTimeout q rank) s = .next t ∧ fenced s t q rank.toNat))

/-- Holds and reports (R329, R330, R346, R272, R384): a partition whose engines and traffic have come to rest is held; a REPORT is kept at the
coordinator while others are still to come, and one that names MSTEP all ones is a warm notice, which takes back the report given before; a planned
replacement begins with a DRAIN of the step that commits next, and waits while a twin of a wanted rank is inside a resync window; a drained partition
says so, and a DRAINED is counted. Here all lit lanes carry traffic, and the module has not declared itself slow. -/
def Obligations.HoldsReport : Prop :=
  (∀ (q : Part) (s : State) (pl : Plan), (s.part q).plan = some pl → (s.part q).hold = .holding →
    ((engsOf s.partCnt q).all s.engHeld) = true → s.holdQuiet q = true → s.midMirror q = false → allCarry s →
    ∃ t, exec (.recoveryHeld q) s = .next t ∧ (t.part q).hold = .held ∧ t.engs = s.engs ∧ t.sems = s.sems) ∧
  (∀ (p : Port) (c : Colour) (k : Packet) (s : State) (q : Nat) (pl : Plan) (x : Recov), admits s k 2 q → (s.part q).plan = some pl →
    (s.part q).recov = some x →
    let r := fieldLE k.payload 4 4
    let c8 : Dword := BitVec.ofNat 64 (fieldLE k.payload 16 8)
    let m : Dword := BitVec.ofNat 64 (fieldLE k.payload 24 8)
    (m = 0xFFFFFFFFFFFFFFFF → ∃ t y, exec (.admitReport p c k) s = .next t ∧ (t.part q).recov = some y ∧ r ∈ y.warmNotice ∧
      y.reports = x.reports.filter fun z => z.rank != r) ∧
    (∀ r0, m ≠ 0xFFFFFFFFFFFFFFFF → r0 < pl.shape.ranks.length → r0 ≠ r → x.lost.contains r0 = false → (s.rankEnt q r0).valid = true →
      (x.reports.any fun y => y.rank == r0) = false → ∃ t y, exec (.admitReport p c k) s = .next t ∧ (t.part q).recov = some y ∧
      y.reports = x.reports.filter (fun z => z.rank != r) ++ [⟨r, c8, m, BitVec.ofNat 8 (fieldLE k.payload 32 1)⟩] ∧
      y.stage = x.stage ∧ r ∉ y.warmNotice)) ∧
  (∀ (q : Part) (s : State) (pl : Plan), (s.part q).plan = some pl → (s.part q).runs = true → s.wantedRanks q ≠ [] →
    (s.part q).recov = none → (s.part q).hold = .none →
    (((s.wantedRanks q).all fun r => !s.inWindow q pl r) = true → allCarry s → ∃ t x, exec (.plannedReplacement q) s = .next t ∧ (t.part q).drain = 1 ∧
      (t.part q).drainStep = (s.part q).epoch ∧ (t.part q).slowRanks = (s.part q).slowRanks.filter (fun r => !(s.wantedRanks q).contains r) ∧
      (t.part q).recov = some x ∧ x.jobtag = jobtagOf pl ∧ x.stage = .draining ∧ x.wanted = s.wantedRanks q ∧ t.engs = s.engs) ∧
    (((s.wantedRanks q).all fun r => !s.inWindow q pl r) = false → exec (.plannedReplacement q) s = .next s)) ∧
  (∀ (q : Part) (s : State), (s.part q).drain = 1 → (s.part q).drainDue = true → s.atZero q = true → s.fabricQuiet q = true →
    (s.part q).recov = none → s.host.slowLeaves = false → allCarry s → ∃ t, exec (.drainComplete q) s = .next t ∧ (t.part q).drain = 2 ∧ t.engs = s.engs ∧ t.sems = s.sems) ∧
  (∀ (p : Port) (c : Colour) (k : Packet) (s : State) (q : Nat) (pl : Plan) (x : Recov), firmware s k 3 → fieldLE k.payload 2 1 = q →
    q < s.partCnt → s.jobHere q (BitVec.ofNat 16 (fieldLE k.payload 0 2)) = true → (s.part q).plan = some pl →
    (s.part q).recov = some x → x.drained + 1 < (s.others q pl []).length →
    ∃ t, exec (.drained p c k) s = .next t ∧ (t.part q).recov = some { x with drained := x.drained + 1 } ∧ t.engs = s.engs)

/-- Offers (R331, R332, R333, R41): an idle standby of the same partition count that is not quarantined accepts an offer; the coordinator notes an ACCEPT, passes over a
module that declines or is silent, and, when no standby is left, forgets whom it has passed over and tells it; an unanswered proposal expires with
event 0x9F0, and a replacement goes on, a numerics decision skips the step. Here all lit lanes carry traffic. -/
def Obligations.SparesOffered : Prop :=
  (∀ (p : Port) (c : Colour) (k : Packet) (s : State) (q j : Nat), firmware s k 6 → fieldLE k.payload 0 1 = 3 →
    fieldLE k.payload 1 1 = q → q < s.partCnt → s.stewardNear (BitVec.ofNat 17 (fieldLE k.payload 8 4)) = some j → s.boot.quar = false → allCarry s →
    let why := s.declines q (fieldLE k.payload 16 1) (BitVec.ofNat 17 (fieldLE k.payload 8 4))
    (why = 0 → ∃ t, exec (.admitOffer p c k) s = .next t ∧
      (t.part q).spare = some (BitVec.ofNat 32 (fieldLE k.payload 36 4), BitVec.ofNat 20 (fieldLE k.payload (20 + 4 * q) 4)) ∧
      (t.part q).spareRank = fieldLE k.payload 4 4 ∧ (t.part q).spareTag = BitVec.ofNat 16 (fieldLE k.payload 2 2)) ∧
    (why ≠ 0 → ∃ t, exec (.admitOffer p c k) s = .next t ∧ t.parts = s.parts)) ∧
  (∀ (p : Port) (c : Colour) (k : Packet) (s : State) (q : Nat) (pl : Plan) (x : Recov), (s.part q).plan = some pl →
    (s.part q).recov = some x → allCarry s →
    let r := fieldLE k.payload 4 4
    let j := cSlot (BitVec.ofNat 17 (fieldLE k.payload 8 4))
    x.offeredTo = some j →
    (admits s k 4 q → x.resync = BitVec.ofNat 32 (fieldLE k.payload 16 4) → x.offerRank = r → pl.twinOf r ≠ pl.shape.self →
      ∃ t y, exec (.admitAccept p c k) s = .next t ∧ (t.part q).recov = some y ∧ y.accepted = x.accepted ++ [(r, j)] ∧
        (y.stage = .offering ∨ y.stage = .admitting)) ∧
    (admits s k 5 q → ∃ t y, exec (.admitDecline p c k) s = .next t ∧ (t.part q).recov = some y ∧ y.passed = j :: x.passed ∧
      y.offeredTo ≠ some j ∧ noted s t 0x906 q (a4 j ++ a1 (fieldLE k.payload 16 1)))) ∧
  (∀ (q : Part) (s : State) (x : Recov), (s.part q).recov = some x → allCarry s → q.val < s.partCnt →
    (∀ j, x.offeredTo = some j → ∃ t y, exec (.offerTimeout q) s = .next t ∧ (t.part q).recov = some y ∧ y.passed = j :: x.passed ∧
      y.offeredTo ≠ some j ∧ noted s t 0x906 q (a4 j ++ a1 0)) ∧
    (∀ r, x.stage = .offering → x.offeredTo = none → (x.lost.find? fun r => !x.accepted.any fun a => a.1 == r) = some r →
      s.candidates q { x with passed := [] } r = [] →
      ∃ t y, exec (.noStandbyTimer q) s = .next t ∧ (t.part q).recov = some y ∧ y.passed = [] ∧
        logged s t 0x931 q (a3 (s.carrCoord 0).toNat ++ a4 (x.lost.length - x.accepted.length))) ∧
    (∀ d, s.awaiting (.replace q) = some d → ∃ t y, exec (.replacementDeadline q) s = .next t ∧
      noted s t 0x9F0 q (a4 3 ++ w4 d.ident) ∧ (∀ z ∈ t.host.decisions, z.ident = d.ident → z.expired = true) ∧
      (t.part q).recov = some y ∧ y.stage ≠ .await)) ∧
  (∀ (q : Part) (s : State) (d : Decision) (step : Dword),
    (s.host.decisions.find? fun d => !d.answered && !d.expired && (match d.what with | .numerics j _ => j == q.val | _ => false)) = some d →
    d.what = .numerics q step → allCarry s → ∃ t, exec (.numericsDeadline q) s = .next t ∧
      ((∀ r, (s.part q).barNode = some r → r.children = []) → logged s t 0x9F0 q (a4 4 ++ w4 d.ident)) ∧
      (t.part q).numAnswer = some (step, 1) ∧ (∀ z ∈ t.host.decisions, z.ident = d.ident → z.expired = true))

/-- Admission (R331, R332, R338, R339, R341, R343): a chunk's data is written where it says, and nothing else beside the rings (said of a chunk after
chunk 0 and before the last); a CHUNKACK with the chunk's CRC lets the next chunk go, any other leaves the stream at its chunk; a load that is refused
leaves no spare role and event 0xB20, one whose plan demands another tenant key no spare role either, any other a plan; a LIVE is noted, and with the
last one the tables' stage begins; the last RTACK names the tick 7,813 ahead; GO names it at the others, whose COMMIT semaphore is at INIT from then
on. Here no memory is poisoned and all lit lanes carry traffic. -/
def Obligations.SparesAdmitted : Prop :=
  (∀ (p : Port) (c : Colour) (k : Packet) (s : State) (q : Nat) (j : Journal), firmware s k 6 → fieldLE k.payload 0 1 = 6 →
    fieldLE k.payload 1 1 = q → q < s.partCnt → s.dataKnown (fieldLE k.payload 16 4) q (BitVec.ofNat 16 (fieldLE k.payload 2 2)) = true →
    Memory.wf s.mem.mem = true → coherent s → s.partCnt = 1 ∨ s.partCnt = 2 ∨ s.partCnt = 4 → allCarry s →
    let bs := k.payload.drop 16
    let chunk := fieldLE bs 4 4
    let o := fieldLE bs 8 8
    let d := bs.drop 16
    (s.host.journals.find? fun j => !j.sender && !j.mirror && j.part == q && j.resync == BitVec.ofNat 32 (fieldLE bs 0 4)) = some j →
    j.open_ = true → chunk = j.last → chunk ≠ 0 → chunk + 1 < j.chunks → ringsFit s → dramLo s.partCnt q ≤ o → o + d.length ≤ dramLo s.partCnt (q + 1) →
    ∃ t, exec (.admitData p c k) s = .next t ∧
      (∀ i, i < d.length → inRing s.obs.rtrace 64 (o + i) = false → inRing s.obs.revt 32 (o + i) = false → t.readByte (o + i) = d.getD i 0) ∧
      (∀ a, inRing s.obs.rtrace 64 a = false → inRing s.obs.revt 32 a = false → a < o ∨ o + d.length ≤ a → t.readByte a = s.readByte a)) ∧
  (∀ (p : Port) (c : Colour) (k : Packet) (s : State) (q : Nat) (j : Journal) (x : Piece), admits s k 7 q →
    (s.host.journals.find? fun j => j.sender && j.open_ && j.part == q && j.resync.toNat == fieldLE k.payload 16 4) = some j →
    j.last = fieldLE k.payload 20 4 → (s.chunksOf j)[j.last]? = some x → j.mirror = false → j.last + 1 < j.chunks → allCarry s → s.mem.poison = [] →
    (crc32c (s.pieceBytes x) = BitVec.ofNat 32 (fieldLE k.payload 24 4) → ∃ t, exec (.admitChunkack p c k) s = .next t ∧
      { j with last := j.last + 1, crcs := j.crcs ++ [BitVec.ofNat 32 (fieldLE k.payload 24 4)] } ∈ t.host.journals) ∧
    (crc32c (s.pieceBytes x) ≠ BitVec.ofNat 32 (fieldLE k.payload 24 4) → ∃ t, exec (.admitChunkack p c k) s = .next t ∧
      t.host.journals = s.host.journals)) ∧
  (∀ (q : Part) (s : State) (w : Word × Endpoint) (j : LoadJob), (s.part q).spare = some w → (s.part q).loading = some j → allCarry s → s.mem.poison = [] →
    let s1 := (s.readOnward q [(j.addr, j.len)]).2
    ∃ t, exec (.spareLoadDone q) s = .next t ∧ (t.part q).loading = none ∧
      (match checkImage s1 (s.part q).tkey (s1.image q j true) with
       | some r => (t.part q).spare = none ∧ (t.part q).plan = (s.part q).plan ∧ noted s t 0xB20 q (a1 r.reason ++ a4 r.off)
       | none => if (s1.image q j true).keyWrong (s.part q).tkey = true then (t.part q).spare = none ∧ (t.part q).plan = (s.part q).plan
           else (t.part q).plan.isSome = true)) ∧
  (∀ (p : Port) (c : Colour) (k : Packet) (s : State) (q : Nat) (pl : Plan) (x : Recov), (s.part q).plan = some pl →
    (s.part q).recov = some x → allCarry s →
    let r := fieldLE k.payload 4 4
    (admits s k 8 q → x.accepted.contains (r, cSlot (BitVec.ofNat 17 (fieldLE k.payload 8 4))) = true → x.live.contains r = false →
      x.stage ≠ .tables → ∃ t y, exec (.admitLive p c k) s = .next t ∧ (t.part q).recov = some y ∧ y.live = r :: x.live ∧
        ((x.lost.all fun k => k == r || x.live.contains k) = false →
          logged s t 0x905 q (a3 r ++ a4 (cSlot (s.rankEnt q r).coord) ++ a4 (cSlot (BitVec.ofNat 17 (fieldLE k.payload 8 4))))) ∧
        y.stage = (if (x.lost.all fun k => k == r || x.live.contains k) = true then .tables else x.stage)) ∧
    (firmware s k 8 → jobOf s k q → x.stage = .tables →
      (x.rtacks + 1 < (s.tableTargets q pl x).length → ∃ t, exec (.rtack p c k) s = .next t ∧
        (t.part q).recov = some { x with rtacks := x.rtacks + 1 }) ∧
      ((s.tableTargets q pl x).length ≤ x.rtacks + 1 → ∃ t, exec (.rtack p c k) s = .next t ∧ (t.part q).recov = none ∧
        (t.part q).resumeAt = (if x.rollForward then none else some (s.clk.tick + 7813)) ∧
        (t.part q).goAt = (if x.rollForward then some (s.clk.tick + 7813) else none)))) ∧
  (∀ (p : Port) (c : Colour) (k : Packet) (s : State) (q : Nat), admits s k 9 q → ∃ t, exec (.admitGo p c k) s = .next t ∧
    (t.part q).goAt = some (BitVec.ofNat 64 (fieldLE k.payload 16 8)) ∧ (t.part q).resumeAt = none ∧ t.engs = s.engs ∧
    (let i := (s.part q).barSem.toNat
     semIn s.partCnt q i = true → (s.sem i).alloc = true → (t.sem i).value = BitVec.ofInt 32 (s.sem i).init.toInt))

/-! ## Power, heat, clocks, resets (chapters 14, 15) -/

/-- The supply (R353, R354): below 38.0 V a module that is on throttles, from 39.0 V it goes on; 10 ms of dip or an overvoltage turn it off for
good; 34.0 V resets it cold; above 40.0 V it turns on. AUX12's loss and return are noted. -/
def Obligations.SupplyFollowsVin : Prop :=
  (∀ (v : BitVec 13) (s : State),
    (s.power.on = true → 3400 < v.toNat → v.toNat < 3800 → s.power.throttle = false → ∃ t, exec (.vinWarning v) s = .next t ∧ t.power.throttle = true ∧
      t.power.vin = v ∧ t.power.lowest = v ∧ t.power.stat.getLsbD 0 = true ∧ logged s t 0x101 0 (a2 v.toNat) ∧ t.engs = s.engs) ∧
    (s.power.throttle = true → s.standbyUp = true → 3900 ≤ v.toNat → v.toNat ≤ 6300 → ∃ t, exec (.vinRecovered v) s = .next t ∧ t.power.throttle = false ∧
      t.power.vin = v ∧ logged s t 0x102 0 (a4 (s.now - s.power.dipTick) ++ a2 s.power.lowest.toNat) ∧ t.engs = s.engs) ∧
    (v.toNat ≤ 3400 → 3400 < s.power.vin.toNat → ∃ t, exec (.powerFailReset v) s = .next t ∧ turnedOff t ∧ t.power.vin = v) ∧
    (s.power.on = true → 6300 < v.toNat → ∃ t, exec (.overvoltageTrip v) s = .next t ∧ turnedOff t ∧ t.power.offLatched = true) ∧
    (4000 < v.toNat → s.power.on = false → s.power.tripped = false → s.power.offLatched = false →
      ∃ t, exec (.vinGood v) s = .next t ∧ t.power.on = true ∧ t.power.vin = v ∧ t.boot.stage = s.boot.stage)) ∧
  (∀ s : State, s.power.throttle = true → ∃ t, exec .brownoutTimeout s = .next t ∧ turnedOff t ∧ t.power.offLatched = true) ∧
  (∀ s : State, s.power.auxok = true → 3401 ≤ s.power.vin.toNat → ∃ t, exec .aux12Lost s = .next t ∧ t.power.auxok = false ∧
    t.power.stat.getLsbD 7 = true ∧ logged s t 0x105 0 (a4 0)) ∧
  (∀ s : State, s.power.auxok = false → 3401 ≤ s.power.vin.toNat → ∃ t, exec .aux12Restored s = .next t ∧ t.power.auxok = true ∧
    t.power.stat.getLsbD 7 = true ∧ logged s t 0x105 0 (a4 1))

/-- The cap loop (R355-R357): an interval whose estimate, raised by 3 %, is at or below the cap raises no level, one above it lowers none, and the level stays at
most 56; a cap not held is told once per phase; a host cap's interval ends. Heat (R365-R368): the hottest sensor sets the thermal level, and 115.0
°C or SHUTDOWN_N turns the power stage off. -/
def Obligations.CapAndHeat : Prop :=
  (∀ (counts : List (Byte × Word)) (s : State), s.power.lvl.toNat ≤ 56 →
    let e := Config.pLeak (vcodeOf (s.opFreqOf s.power.opCur)) s.power.hottestValid.2.toInt * wattUnit + s.activity counts fun _ => true
    ∃ t, exec (.powerInterval counts) s = .next t ∧ t.power.lvl.toNat ≤ 56 ∧ t.power.capEff = BitVec.ofNat 11 s.effCap ∧
      (103 * e ≤ 100 * s.effCap * wattUnit → t.power.lvl.toNat ≤ s.power.lvl.toNat) ∧
      (100 * s.effCap * wattUnit < 103 * e → s.power.lvl.toNat ≤ t.power.lvl.toNat) ∧ t = { s with power := t.power }) ∧
  (∀ s : State, s.power.over56 = true → s.power.capMissed = false → ∃ t, exec .capNotHeld s = .next t ∧ t.power.capMissed = true ∧
    t.power.stat.getLsbD 1 = true ∧ logged s t 0x110 0 (a2 s.power.capEff.toNat ++ a2 s.power.est.toNat)) ∧
  (∀ s : State, s.power.capOpen = true → ∃ t, exec .hostCapExpire s = .next t ∧ t.power.capOpen = false ∧
    t.power.capHost = s.power.capHost ∧ logged s t 0x9F0 0 (a4 0 ++ w4 0)) ∧
  (∀ (temps : List (BitVec 16)) (bad : List (BitVec 7)) (s : State), s.power.on = true →
    let y := (((temps.take 96).mapIdx fun i t => (i, t)).foldl (fun (s : State) x => s.readSensor bad x.1 x.2) s).power
    (y.hottest.2.toInt < 1840 → ∃ t, exec (.thermalSample temps bad) s = .next t ∧ t.power.tmax = y.hottest.2 ∧
      t.power.on = true ∧ t.power.tripped = s.power.tripped ∧
      t.power.thm = BitVec.ofNat 6 (if 1680 ≤ y.hottest.2.toInt ∨ y.rising.isSome = true then min 56 (s.power.thm.toNat + 4)
        else if y.hottest.2.toInt < 1648 then s.power.thm.toNat - 1 else s.power.thm.toNat)) ∧
    (1840 ≤ y.hottest.2.toInt → ∃ t, exec (.thermalSample temps bad) s = .next t ∧ turnedOff t ∧ t.power.tripped = true ∧
      t.boot.faultN = true)) ∧
  (∀ s : State, s.power.on = true → ∃ t, exec .shutdownNLow s = .next t ∧ turnedOff t ∧ t.power.tripped = true ∧ t.power.thermN = true ∧
    t.boot.faultN = true)

/-- Operating points and droop (R362-R364): the idle PLL locks for the next point; a lowering change switches the clock at its start, a raise at its
end; a change that finds no time is abandoned with event 0x121. A trip begins a burst, which is counted; a burst ends, or a new one begins while a
detector stays tripped; with no burst the droop is released. -/
def Obligations.PointsAndDroop : Prop :=
  (∀ s : State, ∃ t, exec .pllLocked s = .next t ∧ t.power.pllMhz = some (s.opMhz s.nextPoint) ∧ t = { s with power := t.power }) ∧
  (∀ (s : State) (c : OpChange), s.power.chg = some c →
    (c.step = 0 → s.power.released = true → s.power.pllMhz = some (s.opMhz c.target) →
      (c.raise = false → ∃ t, exec .opChangeStart s = .next t ∧ t.power.opCur = c.target ∧ t.power.mhz = s.opMhz c.target ∧
        t.power.chg = some { c with step := 1 }) ∧
      (c.raise = true → s.power.throttle = false → ∃ t, exec .opChangeStart s = .next t ∧ t.power.opCur = s.power.opCur ∧
        t.power.mhz = s.power.mhz ∧ t.power.chg = some { c with step := 1 }) ∧
      (c.raise = true → s.power.throttle = true → exec .opChangeStart s = .next s)) ∧
    (c.step = 1 → s.power.opWant = c.target →
      (c.raise = false → ∃ t, exec .opRampEnd s = .next t ∧ t.power.chg = none ∧ t.power.opCur = s.power.opCur) ∧
      (c.raise = true → s.power.released = true → s.power.throttle = false → ∃ t, exec .opRampEnd s = .next t ∧ t.power.chg = none ∧
        t.power.opCur = c.target ∧ t.power.mhz = s.opMhz c.target)) ∧
    (c.raise = true ∨ c.step = 0 → s.power.opWant = c.target → ∃ t, exec .opChangeAbandon s = .next t ∧ t.power.chg = none ∧
      t.power.abandoned = satInc s.power.abandoned 1 ∧ t.power.opCur = s.power.opCur ∧ t.power.stat.getLsbD 2 = true ∧
      logged s t 0x121 0 (a4 c.from_ ++ a4 c.target ++ a2 c.tag.toNat))) ∧
  (∀ (d : BitVec 6) (s : State), s.power.on = true → s.power.burst = false → ∃ t, exec (.droopTrip d) s = .next t ∧
    t.power.droopNow = true ∧ t.power.burst = true ∧ t.power.droopCnt = satInc s.power.droopCnt 1 ∧ t.power.stat.getLsbD 3 = true) ∧
  (∀ s : State, s.power.burst = true →
    (∃ t, exec (.droopBurstEnd false) s = .next t ∧ t.power.burst = false ∧ t.power.droopCnt = s.power.droopCnt) ∧
    (∃ t, exec (.droopBurstEnd true) s = .next t ∧ t.power.burst = true ∧ t.power.droopCnt = satInc s.power.droopCnt 1)) ∧
  (∀ s : State, s.power.burst = false → ∃ t, exec .droopRelease s = .next t ∧ t.power.droopNow = false ∧ t = { s with power := t.power })

/-- REF, STEP and the calendar (R370-R375, R455, R456): the loss of REF starts the holdover and its return ends it; the first STEP word sets the
count to its tick plus 4, a later one only compares; at a multiple of 65,536 a word leaves; without words a module heads the chain; the drift check
keeps the worst lane; a weak backup is told; SET moves the calendar, and never back once it is valid. -/
def Obligations.ClocksFollow : Prop :=
  (∀ s : State, s.clk.lock = true → ∃ t, exec .refLoss s = .next t ∧ t.clk.lock = false ∧ t.clk.hold = true ∧ t.clk.tick = s.clk.tick ∧
    t.clk.stat.getLsbD 0 = true ∧ logged s t 0x1C0 0 (a8 s.now)) ∧
  (∀ s : State, s.clk.hold = true → ∃ t, exec .refRestore s = .next t ∧ t.clk.lock = true ∧ t.clk.hold = false ∧ t.clk.tick = s.clk.tick ∧
    logged s t 0x1C1 0 (a4 (s.now - s.clk.holdTick))) ∧
  (∀ (w : BitVec 96) (s : State), stepWordOk w = true → s.clk.counting = true →
    let n : Dword := BitVec.ofNat 64 (fld w.toNat 16 64) + 4
    (s.clk.stepLock = false → ∃ t, exec (.stepWordReceive w) s = .next t ∧ t.clk.tick = n ∧ t.clk.stepLock = true ∧ t.clk.head = false) ∧
    (s.clk.stepLock = true → 8 ≤ s.boot.stage → n ≠ s.clk.tick → s.clk.misTick = none → ∃ t, exec (.stepWordReceive w) s = .next t ∧
      t.clk.tick = s.clk.tick ∧ t.clk.stat.getLsbD 2 = true ∧ t.obs.seq = s.obs.seq + 1)) ∧
  (∀ s : State, s.clk.stepLock = true → s.clk.counting = true → s.now % 65536 = 0 →
    (s.clk.head = true → ∃ t, exec .stepWordSend s = .next t ∧ t.clk.stepOut = s.clk.stepOut ++ [stepWord s.clk.tick 0]) ∧
    (s.clk.head = false → s.clk.hop ≠ 63 → ∃ t, exec .stepWordSend s = .next t ∧
      t.clk.stepOut = s.clk.stepOut ++ [stepWord s.clk.tick (s.clk.hop.toNat + 1)]) ∧
    (s.clk.head = false → s.clk.hop = 63 → exec .stepWordSend s = .next s)) ∧
  (∀ s : State, s.clk.counting = true → s.clk.stepLock = false → ∃ t, exec .stepWordAbsent s = .next t ∧ t.clk.stepLock = true ∧
    t.clk.head = true ∧ t.clk.hop = 0 ∧
    t.clk.tick = BitVec.ofNat 64 ((s.clk.sec.toNat * 1000000000 + s.clk.ns.toNat) * 10 / 64)) ∧
  (∀ (ppb : BitVec 16) (p : Port) (c : Colour) (s : State),
    (ppb.toInt.natAbs ≤ 100 → ∃ t, exec (.refDriftCheck ppb p c) s = .next t ∧ t.clk.drift = ppb ∧ t.clk.driftRun = 0 ∧ t.obs = s.obs) ∧
    (100 < ppb.toInt.natAbs → 9 ≤ s.clk.driftRun → s.clk.driftTick = none → ∃ t, exec (.refDriftCheck ppb p c) s = .next t ∧
      t.clk.drift = ppb ∧ t.clk.driftPort.toNat = p.val ∧ t.clk.driftCol.toNat = c.val ∧ t.clk.stat.getLsbD 1 = true ∧
      t.obs.seq = s.obs.seq + 1)) ∧
  (∀ (bkv : Byte) (s : State),
    (135 ≤ bkv.toNat → ∃ t, exec (.backupChargeCheck bkv) s = .next t ∧ t.clk.bkv = bkv ∧ t.obs = s.obs) ∧
    (bkv.toNat < 135 → ∃ t, exec (.backupChargeCheck bkv) s = .next t ∧ t.clk.bkv = bkv ∧ t.clk.stat.getLsbD 6 = true ∧
      logged s t 0x1E2 0 (a2 (2 * bkv.toNat)))) ∧
  (∀ s : State,
    let ns := fld s.clk.setLo.toNat 0 30
    let sec := fld s.clk.setLo.toNat 30 2 + 4 * s.clk.setHi.toNat
    let new : Dword := BitVec.ofNat 64 (sec * 2 ^ 30 + ns)
    (ns < 1000000000 → s.clk.valid = false ∨ s.calendar ≤ new → ∃ t, exec .calSet s = .next t ∧ t.clk.sec.toNat = sec ∧
      t.clk.ns.toNat = ns ∧ t.clk.valid = true ∧ t.clk.stat.getLsbD 4 = true) ∧
    (s.clk.valid = true → new < s.calendar → ∃ t, exec .calSet s = .next t ∧ t.calendar = s.calendar ∧ t.clk.stat.getLsbD 5 = true))

/-- The resets (R381-R386, R396, R451): PERST_N low and a module reset through MODCTL_RESET begin bring-up at stage 0 and count; a warm reset that
nothing blocks begins it at stage 1 and keeps every plan and every epoch; a partition reset leaves its partitions without a plan and the others'
plans alone (no lane having retired, R241); without the key C3H nothing happens. Where they send messages, all lit lanes carry traffic. -/
def Obligations.ResetsLeave : Prop :=
  (∀ s : State, s.boot.perst = false → s.power.on = true → ∃ t, exec .perstNAssert s = .next t ∧ t.boot.perst = true ∧ t.boot.stage = 0 ∧
    t.boot.lastKind = 1 ∧ t.boot.cntModule = satInc s.boot.cntModule 1 ∧ (∀ q, (t.part q).plan = none) ∧ t.clk.sec = s.clk.sec ∧
    t.host.fuseSvn = s.host.fuseSvn) ∧
  (∀ s : State, (s.boot.pwrGood = true → ∃ t, exec .perstNRelease s = .next t ∧ t.boot.perst = false) ∧
    (s.boot.pwrGood = false → ∃ t, exec .perstNRelease s = .next t ∧ t.boot.perst = s.boot.perst ∧ t.boot.perstRelease = true)) ∧
  (∀ (v : Word) (s : State),
    (fld v.toNat 24 8 ≠ 0xC3 → exec (.modctlModuleReset v) s = .next s ∧ exec (.modctlWarmReset v) s = .next s ∧
      exec (.modctlPartReset v) s = .next s) ∧
    (fld v.toNat 24 8 = 0xC3 → v.getLsbD 0 = true → s.power.on = true → ∃ t, exec (.modctlModuleReset v) s = .next t ∧ t.boot.stage = 0 ∧
      t.boot.lastKind = 2 ∧ t.boot.cntModule = satInc s.boot.cntModule 1 ∧ t.power.on = true ∧ ∀ q, (t.part q).plan = none) ∧
    (fld v.toNat 24 8 = 0xC3 → v.getLsbD 0 = false → v.getLsbD 1 = true → fld v.toNat 4 4 = 0 → 8 ≤ s.boot.stage →
      (s.warmBlocked = none → allCarry s → ∃ t, exec (.modctlWarmReset v) s = .next t ∧ t.boot.stage = 1 ∧ t.boot.warm = true ∧ t.boot.lastKind = 4 ∧
        t.boot.cntWarm = satInc s.boot.cntWarm 1 ∧ ∀ q, (t.part q).plan = (s.part q).plan ∧ (t.part q).epoch = (s.part q).epoch ∧
          (t.part q).lastCommit = (s.part q).lastCommit) ∧
      (∀ q b, s.warmBlocked = some (q, b) → ∃ t, exec (.modctlWarmReset v) s = .next t ∧ t.boot.stage = s.boot.stage ∧
        t.boot.stat.getLsbD 1 = true ∧ logged s t 0xB10 q (a1 q ++ a4 b) ∧ t.parts = s.parts)) ∧
    (fld v.toNat 24 8 = 0xC3 → v.getLsbD 0 = false → v.getLsbD 1 = false → fld v.toNat 4 4 ≠ 0 → 8 ≤ s.boot.stage → s.partCnt ≤ 4 →
      noneRetired s → allCarry s → ∃ t, exec (.modctlPartReset v) s = .next t ∧ t.boot.stage = s.boot.stage ∧
        (∀ q, q < s.partCnt → v.getLsbD (4 + q) = true → (t.part q).plan = none ∧ (t.part q).stat = .idle) ∧
        (∀ q, q < s.partCnt → v.getLsbD (4 + q) = false → (t.part q).plan = (s.part q).plan)))

/-- Bring-up (R388-R393): a stage without failures leads to the next, stage 1 not before its tick count is set, where REF is there; banks without enough spare lines stop it in stage 3 with its cause; stage 7
ends in ready, FAULT_N following quarantine. A stage that overruns is told and goes on. In stage 7 a HELLO leaves on every colour that is up, at
most 16 times; after ready on those that have trained again. -/
def Obligations.BringUpAdvances : Prop :=
  (∀ (failed : List (BitVec 11)) (ms : BitVec 13) (s : State), s.stageMayEnd = true → s.boot.warm = false →
    (s.boot.stage = 0 → ∃ t, exec (.bringupStageEnd failed ms) s = .next t ∧ t.boot.stage = 1 ∧ t.boot.pwrGood = true ∧
      t.clk.lock = s.clk.refIn ∧ t.boot.stime.get 0 0 = ms.toNat) ∧
    (s.boot.stage = 1 → s.clk.stepLock = false → s.clk.refIn = true → failed.contains 4 = false → exec (.bringupStageEnd failed ms) s = .next s) ∧
    (s.boot.stage = 3 → failed = [] → ∃ t, exec (.bringupStageEnd failed ms) s = .next t ∧ t.boot.stage = 4 ∧ t.boot.failed = false) ∧
    (s.boot.stage = 3 → failed ≠ [] → ∃ t, exec (.bringupStageEnd failed ms) s = .next t ∧ t.boot.stage = 3 ∧ t.boot.failed = true ∧
      t.boot.cause = 3 ∧ t.boot.faultN = true ∧ t.boot.stat.getLsbD 2 = true ∧ logged s t 0xB30 0 (a1 3 ++ a1 3)) ∧
    (s.boot.stage = 7 → s.boot.partWanted = 0 → s.boot.warmWanted = none → s.boot.reinstating = false →
      ∃ t, exec (.bringupStageEnd failed ms) s = .next t ∧ t.isReady = true ∧ t.boot.faultN = s.boot.quar ∧ t.boot.stat.getLsbD 0 = true ∧
        t.obs.seq = s.obs.seq + 1 ∧ t.parts = s.parts)) ∧
  (∀ (ms : BitVec 13) (s : State), s.power.on = true → s.boot.failed = false → s.boot.stage < 8 →
    ∃ t, exec (.bringupStageOverrun ms) s = .next t ∧ t.boot.stage = s.boot.stage ∧ t.boot.stat.getLsbD 3 = true ∧
      logged s t 0xB31 0 (a1 s.boot.stage ++ a4 ms.toNat)) ∧
  (∀ s : State, s.boot.stage = 7 → s.boot.helloCnt < 16 → s.boot.brd.toNat < 5 → ∃ t, exec .helloSend s = .next t ∧
    t.boot.helloCnt = s.boot.helloCnt + 1 ∧
    t.router.txq.length = s.router.txq.length + (allLanes.filter fun x => (s.tx x.1 x.2).st == .up).length) ∧
  (∀ s : State, s.isReady = true → s.boot.brd.toNat < 5 → ∃ t, exec .helloRepeat s = .next t ∧
    ∀ (p : Port) (c : Colour), (s.tx p c).helloDue = true → (s.tx p c).st = .up → (t.tx p c).helloDue = false ∧ (t.tx p c).st = .up)

/-! ## Host, management, registers (chapters 16, 17) -/

/-- A job's life (R32-R36, R45, R421, Table 17.12): LOAD begins the checks and keeps its function busy; LOAD_DONE leaves a plan, or a refusal with
event 0xB20; START names its seed, step and tick, returns semaphores to INIT and sets the sync epoch (R199, R424); at the tick the engines of an
untwinned plan, each on a working engine, begin at instruction 0; STOP makes a running partition stop, and UNLOAD leaves no plan. Here no lane has
retired (R241), and no memory is poisoned. -/
def Obligations.JobsRun : Prop :=
  (∀ (r : Req) (addr len : Dword) (f : Fn) (s : State), r.via = .mailbox f → heard s r .vf false →
    let q := r.part.toNat
    (s.part q).state = .noPlan → s.isReady = true → addr.toNat % 4096 = 0 → dramLo s.partCnt q ≤ addr.toNat →
    addr.toNat + len.toNat ≤ dramLo s.partCnt (q + 1) → len.toNat ≤ 0x40000000 →
    ∃ t, exec (.load r addr len) s = .next t ∧ (t.part q).loading = some { addr := addr.toNat, len := len.toNat, fn := some f, tag := r.tag } ∧ (t.fn f).busy = true ∧
      t.engs = s.engs ∧ t.mem = s.mem) ∧
  (∀ (q : Part) (s : State) (j : LoadJob), (s.part q).loading = some j → (s.part q).spare = none → s.mem.poison = [] →
    let s1 := (s.readOnward q [(j.addr, j.len)]).2
    ∃ t, exec (.loadDone q) s = .next t ∧ (t.part q).loading = none ∧
      (∀ f, j.fn = some f → s.host.linkUp = true → (t.fn f).busy = false ∧ (t.fn f).resp = true) ∧
      (match checkImage s1 (s.part q).tkey (s1.image q j false) with
       | some r => (t.part q).plan = (s.part q).plan ∧ logged s t 0xB20 q (a1 r.reason ++ a4 r.off)
       | none => (t.part q).plan = some ((s1.image q j false).plan s1 (s1.keyIdOf q)) ∧ (t.part q).stat = .idle)) ∧
  (∀ (r : Req) (seed first tick : Dword) (s : State) (pl : Plan), heard s r .vf false →
    let q := r.part.toNat
    (s.part q).state = .idle → (s.part q).plan = some pl → s.now ≤ tick.toNat → noneRetired s →
    ∃ t, exec (.start r seed first tick) s = .next t ∧ (t.part q).stat = .pending ∧ (t.part q).seed = seed ∧ (t.part q).first = first ∧
      (t.part q).startTick = tick ∧ (t.part q).epoch = first ∧ answered t r 2 0 [] ∧ t.engs = s.engs ∧
      ∀ i, semIn s.partCnt q i = true → (s.sem i).alloc = true → (t.sem i).value = BitVec.ofInt 32 (s.sem i).init.toInt) ∧
  (∀ (q : Part) (s : State) (pl : Plan), (s.part q).plan = some pl → (s.part q).stat = .pending →
    pl.shape.flags.getLsbD 0 = true → (pl.streams.all fun st => (s.engMap st.eng).valid) = true → ∃ t, exec (.startTick q) s = .next t ∧ (t.part q).stat = .running ∧
      (t.part q).epoch = (s.part q).first ∧ t.sems = s.sems ∧
      (∀ st ∈ pl.streams, (s.eng st.eng).run ≠ .retired → (t.eng st.eng).run = .running ∧ (t.eng st.eng).pc = 0 ∧
        (t.eng st.eng).gVal 30 = (s.part q).seed ∧ (t.eng st.eng).gVal 31 = (s.part q).first ∧ (t.eng st.eng).inflight = [])) ∧
  (∀ (r : Req) (s : State), heard s r .vf false →
    let q := r.part.toNat
    ((s.part q).state = .running → (s.part q).stat = .running → ∃ t, exec (.stop r) s = .next t ∧ (t.part q).stat = .stopping ∧
      answered t r 3 0 [] ∧ t.engs = s.engs) ∧
    ((s.part q).state = .idle → ∃ t, exec (.unload r) s = .next t ∧ (t.part q).plan = none ∧ (t.part q).carveMib = 0 ∧
      answered t r 4 0 [] ∧ ∀ i, semIn s.partCnt q i = true → t.sem i = {}))

/-- The module-wide requests (R30, R31, R42, R348, R349, R356, R423, R426, R428, R430): PARTCNT, tenant keys, a host cap, an approval of a comb
switch, host signals, a declaration passed to the steward, a reinstatement, a board to empty, a module reset, STATUS, and an opcode that Table 17.5
does not list (R422). -/
def Obligations.RequestsAnswered : Prop :=
  (∀ (r : Req) (n : Byte) (s : State), heard s r .pf false → n = 1 ∨ n = 2 ∨ n = 4 → n.toNat ≠ s.partCnt →
    ((List.range s.partCnt).any fun q => (s.part q).plan.isSome || (s.part q).loading.isSome) = false → s.isReady = true →
    ∃ t, exec (.partcnt r n) s = .next t ∧ t.partCnt = n.toNat ∧ answered t r 5 0 [] ∧ (∀ q, q < s.partCnt → (t.part q).tkey = none)) ∧
  (∀ (r : Req) (ident : Dword) (key : List Byte) (s : State), heard s r .pf false →
    let q := r.part.toNat
    q < s.partCnt → (s.part q).plan = none → (s.part q).loading = none →
    (key.length = 96 → ∃ t, exec (.tkeySet r ident key) s = .next t ∧
      (if Config.onCurve key = true then (t.part q).tkey = some ⟨ident, key⟩ ∧ answered t r 6 0 []
       else (t.part q).tkey = (s.part q).tkey ∧ answered t r 6 3 [])) ∧
    (∃ t, exec (.tkeyClr r) s = .next t ∧ (t.part q).tkey = none ∧ answered t r 7 0 [])) ∧
  (∀ (r : Req) (watts ms : BitVec 16) (s : State), heard s r .pf true → 300 ≤ watts.toNat → watts.toNat ≤ 1500 → 1 ≤ ms.toNat →
    ms.toNat ≤ 1000 → s.hostMode 0 = true → ∃ t, exec (.cap r watts ms) s = .next t ∧ t.power.capHost.toNat = watts.toNat ∧
      t.power.capOpen = true ∧ answered t r 8 0 []) ∧
  (∀ (r : Req) (ident : Word) (slot : Byte) (step : Dword) (s : State) (d : Decision) (i : Nat), heard s r .any true → reqFn r = 0 →
    (s.host.decisions.find? fun d => d.ident == ident) = some d → d.what = .comb i → d.answered = false →
    (d.expired = false → s.now ≤ d.deadline.toNat → (s.comb i).decision = some ident →
      ∃ t, exec (.decide r ident 1 slot step) s = .next t ∧ (t.comb i).approved = true ∧ answered t r 9 0 [] ∧
        ∀ z ∈ t.host.decisions, z.ident = ident → z.answered = true) ∧
    (d.expired = true → ∃ t, exec (.decide r ident 1 slot step) s = .next t ∧ t.combs = s.combs ∧ answered t r 9 7 [] ∧
      logged s t 0x9F0 0 (a4 1 ++ w4 ident))) ∧
  (∀ (r : Req) (sem : BitVec 16) (n : Word) (step : Dword) (s : State), heard s r .vf false →
    let q := r.part.toNat
    n ≠ 0 → n.toNat ≤ 1048575 → (s.part q).plan.isSome = true → s.remoteOk q sem.toNat = true →
    (step = (s.part q).epoch → (s.part q).hold = .none → (s.part q).spare = none → semRange ((s.sem sem.toNat).value.toInt + (n.toNat : Int)) = true →
      ∃ t, exec (.hsig r sem n step) s = .next t ∧ (t.sem sem.toNat).value.toInt = (s.sem sem.toNat).value.toInt + n.toNat ∧
        (∀ j, j ≠ sem.toNat → t.sem j = s.sem j) ∧ answered t r 10 0 []) ∧
    ((s.part q).epoch.toNat < step.toNat ∨ (step = (s.part q).epoch ∧ (s.part q).hold ≠ .none) → ∃ t, exec (.hsig r sem n step) s = .next t ∧ t.sems = s.sems ∧
      (t.part q).hsigs = (s.part q).hsigs ++ [⟨sem, n, step⟩] ∧ answered t r 10 0 []) ∧
    (step.toNat < (s.part q).epoch.toNat → ∃ t, exec (.hsig r sem n step) s = .next t ∧ t.sems = s.sems ∧ answered t r 10 4 [])) ∧
  (∀ (r : Req) (coord : BitVec 17) (s : State) (j : Nat), heard s r .pf true → s.servesAt coord = false →
    s.stewardNear coord = some j → j ≠ s.slot → s.litPorts 0 (txColour s.slot j) = [] ∨ lanesWhole s 0 j → ∃ t, exec (.declare r coord) s = .next t ∧ answered t r 11 0 [] ∧
      t.router.txq.length = s.router.txq.length + 1 ∧ t.parts = s.parts) ∧
  (∀ (r : Req) (s : State), heard s r .pf true →
    (s.boot.quar = true → s.boot.stage < 8 → ∃ t, exec (.reinstate r) s = .next t ∧ t.boot.quar = false ∧ t.boot.warmWanted = some 5 ∧
      answered t r 12 0 []) ∧
    (s.boot.quar = true → 8 ≤ s.boot.stage → allCarry s → (∀ q, (s.part q).loading = none) → ∃ t, exec (.reinstate r) s = .next t ∧ t.boot.quar = false ∧ t.boot.stage = 1 ∧
      t.boot.warm = true ∧ answered t r 12 0 []) ∧
    (s.boot.quar = false → ∃ t, exec (.reinstate r) s = .next t ∧ t.boot = s.boot ∧ answered t r 12 4 []) ∧
    (s.power.on = true → ∃ t, exec (.modreset r) s = .next t ∧ t.boot.stage = 0 ∧ t.boot.lastKind = 2 ∧
      t.boot.cntModule = satInc s.boot.cntModule 1 ∧ ∀ q, (t.part q).plan = none)) ∧
  (∀ (r : Req) (board : Byte) (s : State), heard s r .pf true →
    (4 < board.toNat → ∃ t, exec (.vacate r board) s = .next t ∧ t.parts = s.parts ∧ answered t r 13 3 []) ∧
    (board.toNat ≤ 4 → s.isSteward = true → (∃ q, q < s.partCnt ∧ s.boardRanks q board.toNat ≠ []) →
      ∃ t, exec (.vacate r board) s = .next t ∧ t.host.vacating = some (BitVec.ofNat 3 board.toNat) ∧ answered t r 13 0 [] ∧
        ∀ q, q < s.partCnt → ∀ k ∈ s.boardRanks q board.toNat, k ∈ (t.part q).slowRanks) ∧
    (∀ j, board.toNat ≤ 4 → s.isSteward = false → s.stewardSlot = some j → j ≠ s.slot →
      s.litPorts 0 (txColour s.slot j) = [] ∨ lanesWhole s 0 j → ∃ t, exec (.vacate r board) s = .next t ∧ answered t r 13 0 [] ∧
        t.router.txq.length = s.router.txq.length + 1 ∧ t.parts = s.parts)) ∧
  (∀ (r : Req) (op : BitVec 16) (s : State), heard s r .any true →
    (∃ t, exec (.status r) s = .next t ∧ answered t r 15 0 s.statusBytes ∧ t.parts = s.parts ∧ t.boot = s.boot) ∧
    (∃ t, exec (.mailboxUnknownOpcode r op) s = .next t ∧ answered t r op.toNat 5 [] ∧ t.parts = s.parts ∧ t.boot = s.boot))

/-- The functions' windows and rings (R417, R419, R421, R425, R440): a waiting notification goes to a free record; reads and writes of a window
reach the bytes of the function's partition and no other; a function-level reset, a lost link and a link that returns leave the jobs alone. -/
def Obligations.HostWindows : Prop :=
  (∀ (f : Fn) (s : State) (m : Msg) (l : List Msg), (s.fn f).waiting = m :: l → (s.fn f).noteFull = false →
    ∃ t, exec (.notificationPost f) s = .next t ∧ (t.fn f).ring.find (s.fn f).ntail = some m ∧
      (t.fn f).ntail = ((s.fn f).ntail + 1) % 208 ∧ (t.fn f).waiting = l ∧ (t.fn f).msix1 = (s.fn f).msix1 + 1 ∧ t.parts = s.parts) ∧
  (∀ (f : Fn) (off : BitVec 36) (len : BitVec 13) (s : State) (q : Nat), s.host.linkUp = true →
    let a := (s.fn f).win.toNat + off.toNat
    (s.fn f).inWindow off.toNat len.toNat = true → s.winPart f a = some q → q < s.partCnt → inPart s.partCnt q a len.toNat = true →
    s.poisonIn a len.toNat = none → ∃ t, exec (.bar2Read f off len) s = .next t ∧ (t.fn f).rdata = s.readBytes a len.toNat ∧
      (t.fn f).rpoison = false ∧ t.mem = s.mem) ∧
  (∀ (f : Fn) (off : BitVec 36) (data : List Byte) (s : State) (q : Nat), s.host.linkUp = true → Memory.wf s.mem.mem = true → coherent s →
    s.partCnt = 1 ∨ s.partCnt = 2 ∨ s.partCnt = 4 →
    let a := (s.fn f).win.toNat + off.toNat
    (s.fn f).inWindow off.toNat data.length = true → s.winPart f a = some q → q < s.partCnt →
    inPart s.partCnt q a data.length = true →
    (s.mayWrite q a data.length = true → ∃ t, exec (.bar2Write f off data) s = .next t ∧
      (∀ i, i < data.length → t.readByte (a + i) = data.getD i 0) ∧
      (∀ b, b < a ∨ a + data.length ≤ b → t.readByte b = s.readByte b) ∧ t.parts = s.parts ∧ t.engs = s.engs) ∧
    (s.mayWrite q a data.length = false → ringsFit s → ∃ t, exec (.bar2Write f off data) s = .next t ∧ bytesKept s t ∧
      t.mem.ecc.getLsbD 10 = true ∧ logged s t 0x550 q (a6 a ++ a1 q ++ a1 0xFD))) ∧
  (∀ (f : Fn) (s : State), ∃ t, exec (.functionLevelReset f) s = .next t ∧ (t.fn f).busy = false ∧ (t.fn f).resp = false ∧
    (t.fn f).reply = none ∧ (t.fn f).ntail = 0 ∧ (t.fn f).nhead = 0 ∧ (t.fn f).win = 0 ∧ (t.fn f).log2 = (s.fn f).log2 ∧
    (∀ q, (t.part q).plan = (s.part q).plan ∧ (t.part q).stat = (s.part q).stat) ∧ t.engs = s.engs ∧ t.mem = s.mem) ∧
  (∀ s : State, ∃ t, exec .pcieLinkLoss s = .next t ∧ t.host.linkUp = false ∧ t = { s with host := t.host }) ∧
  (∀ s : State, s.power.on = true → s.boot.perst = false → ∃ t, exec .pcieLinkUp s = .next t ∧ t.host.linkUp = true ∧
    (∀ f : Nat, (s.fn f).linkwait = true → (t.fn f).resp = true ∧ (t.fn f).busy = false ∧ (t.fn f).linkwait = false) ∧
    t = { s with host := t.host }) ∧
  (∀ (f : Fn) (n : BitVec 3) (s : State), n.toNat ≤ 6 → ∃ t, exec (.barResize f n) s = .next t ∧ t.fn f = { s.fn f with log2 := n } ∧
    t = { s with host := t.host }) ∧
  (∀ (f : Fn) (s : State), ∃ t, exec (.replyHeaderRead f) s = .next t ∧ t.fn f = { s.fn f with resp := false } ∧
    t = { s with host := t.host })

/-- MCTP and PLDM (R431-R434): command 1 assigns the binding's endpoint ID and command 2 reads it; a type that is not supported is dropped; a sensor
of Table 17.8 is read; a firmware image that passes goes to the copy that did not boot, any other is refused with event 0xA03 and leaves both
copies. The forms of DMTF's messages are the model's (PRESUMED, assumption 46). -/
def Obligations.ManagementAnswers : Prop :=
  ∀ (b : Binding) (s : State), s.bindOpen b = true →
    (∀ arg, ∃ t, exec (.mctpControl b 1 arg) s = .next t ∧ t.eid b = arg ∧ said s t b 0 [1, arg]) ∧
    (∀ arg, ∃ t, exec (.mctpControl b 2 arg) s = .next t ∧ t.eid b = s.eid b ∧ said s t b 0 [2, s.eid b]) ∧
    (∀ typ, exec (.mctpUnsupportedType b typ) s = .next s) ∧
    (∀ body, ∃ t, exec (.pldmBase b body) s = .next t ∧ said s t b 1 []) ∧
    (∀ body v, s.sensors[(body.headD 0).toNat]? = some v → ∃ t, exec (.pldmPlatform b body) s = .next t ∧
      said s t b 1 (a1 (body.headD 0).toNat ++ a4 v)) ∧
    (∀ svn ver image, s.host.fuseSvn ≤ svn → s.keySlot.isSome = true → ∃ t, exec (.pldmFwUpdate b true svn ver image) s = .next t ∧
      t.copyOf (!s.host.activeB) = { sigOk := true, svn := svn, ver := ver, hash := sha384 image } ∧
      t.copyOf s.host.activeB = s.copyOf s.host.activeB ∧ t.host.nextB = !s.host.activeB) ∧
    (∀ svn ver image, ∃ t, exec (.pldmFwUpdate b false svn ver image) s = .next t ∧ t.host.copyA = s.host.copyA ∧ t.host.copyB = s.host.copyB ∧
      t.host.nextB = s.host.nextB ∧ t.host.secStat.getLsbD 1 = true ∧ logged s t 0xA03 0 (a4 (!s.host.activeB).toNat))

/-- SPDM (R438): the connection is built in its order, its answers follow the stage that it has reached, a request ahead of it is unexpected, a VF
obtains the measurements of its own partition only, a FINISH that verifies establishes the session with event 0xA20, and a request that is not
supported is answered with that error. The codes are DMTF's (PRESUMED, assumption 46). -/
def Obligations.AttestationAnswers : Prop :=
  ∀ (b : Binding) (s : State), s.bindOpen b = true →
    let x := s.spdmOf b
    (∃ t, exec (.getVersion b) s = .next t ∧ t.spdmOf b = { version := true } ∧ said s t b 5 [0x13, 0x04]) ∧
    (x.version = true → ∃ t, exec (.getCapabilities b) s = .next t ∧ t.spdmOf b = { x with caps := true } ∧ said s t b 5 [0x13, 0x61]) ∧
    (x.version = false → ∃ t, exec (.getCapabilities b) s = .next t ∧ t.spdmOf b = x ∧ said s t b 5 [0x13, 0x7F, 0x04, 0]) ∧
    (x.caps = true → ∃ t, exec (.negotiateAlgorithms b) s = .next t ∧ t.spdmOf b = { x with algs := true } ∧ said s t b 5 ([0x13, 0x63] ++ spdmAlgs)) ∧
    (x.algs = true →
      (∃ t, exec (.getDigests b) s = .next t ∧ said s t b 5 ([0x13, 0x01] ++ sha384 (s.certSlot 0) ++ sha384 (s.certSlot 1))) ∧
      (∀ slot : Byte, slot.toNat < 2 → ∃ t, exec (.getCertificate b slot) s = .next t ∧ said s t b 5 ([0x13, 0x02, slot] ++ s.certSlot slot.toNat)) ∧
      (∀ (slot : Byte) nonce, slot.toNat < 2 → ∃ t, exec (.challenge b slot nonce) s = .next t ∧
        said s t b 5 ([0x13, 0x03, slot] ++ sha384 (s.certSlot slot.toNat))) ∧
      (∀ i : Byte, i ≠ 0 → i ≠ 0xFF → (measList b).contains i.toNat = true → ∃ t, exec (.getMeasurements b i) s = .next t ∧
        said s t b 5 ([0x13, 0x60, i] ++ s.host.meas.get (zeros 48) i.toNat)) ∧
      (∀ i : Byte, i ≠ 0 → i ≠ 0xFF → (measList b).contains i.toNat = false → ∃ t, exec (.getMeasurements b i) s = .next t ∧
        said s t b 5 [0x13, 0x7F, 0x01, 0]) ∧
      (∀ nonce, ∃ t, exec (.keyExchange b nonce) s = .next t ∧ t.spdmOf b = { x with handshake := true } ∧ said s t b 5 [0x13, 0x64])) ∧
    (x.handshake = true →
      (∃ t, exec (.finish b true) s = .next t ∧ t.spdmOf b = { x with handshake := false, session := true } ∧
        logged s t 0xA20 0 (bindArgs b)) ∧
      (∃ t, exec (.finish b false) s = .next t ∧ t.spdmOf b = { x with handshake := false } ∧ said s t b 5 [0x13, 0x7F, 0x06, 0])) ∧
    (x.session = true →
      (∃ t, exec (.heartbeat b) s = .next t ∧ t.spdmOf b = x ∧ said s t b 5 [0x13, 0x68]) ∧
      (∃ t, exec (.endSession b) s = .next t ∧ t.spdmOf b = { x with session := false } ∧ said s t b 5 [0x13, 0x6C])) ∧
    (∀ code : Byte, spdmCodes.contains code.toNat = false → ∃ t, exec (.spdmUnsupportedRequest b code) s = .next t ∧
      said s t b 5 [0x13, 0x7F, 0x07, 0])

/-- Selectors, latches and clears (R209, R275, R376, R401, R402, R413, R414, R436, R443): a write of SYNC_DBG_SEL, SYNC_WSEL, ROUTE_RTSEL, NUMW_SEL,
EVT_LSEL or SEC_MSEL latches the semaphore, watch, rank-table entry, slot, log record or measurement that it selects, and changes no other block; a
read of the low half of a counter, of the tick, of the calendar or of SEQ latches the high half; COMMIT_SVN with its key, after ready and while the
fused version is below the running image's, fuses that version, and without the key it changes nothing; CNT_CLR clears at once while the snapshot ring
is disabled, and is noted while it is enabled; a latch of an enabled ring with room moves SNAP_SEQ and WR on and makes the clears asked for; in
self-refresh it moves SNAP_SEQ alone, and between the multiples of CNT_PERIOD nothing latches. -/
def Obligations.RegistersLatch : Prop :=
  ∀ (v : Word) (s : State),
    (fld v.toNat 24 8 = 0xA5 → v.getLsbD 0 = true → s.isReady = true → s.host.fuseSvn < (s.copyOf s.host.activeB).svn →
      ∃ t, exec (.commitSvn v) s = .next t ∧ t.host.fuseSvn = (s.copyOf s.host.activeB).svn) ∧
    (fld v.toNat 24 8 ≠ 0xA5 → exec (.commitSvn v) s = .next s) ∧
    (∃ t, exec (.syncDbgSelWrite v) s = .next t ∧ t.sync.dbgSem = s.sem (v.toNat % 65536) ∧
      t.sync.dbgSel.toNat = v.toNat % 65536 ∧ t = { s with sync := t.sync }) ∧
    (∃ t, exec (.syncWselWrite v) s = .next t ∧ t.sync.wLatch = some (s.watch (v.toNat % 4096)) ∧ t = { s with sync := t.sync }) ∧
    (∃ t, exec (.routeRtselWrite v) s = .next t ∧ t.router.rtsel.toNat = v.toNat % 2 ^ 18 ∧
      entOf t.router.rtent = s.rankEnt (v.toNat % 4) (v.toNat % 2 ^ 18 / 4) ∧ t = { s with router := t.router }) ∧
    (∃ t, exec (.numwSelWrite v) s = .next t ∧ t.obs.nlatch = s.obs.slots.get {} (v.toNat % 4096) ∧ t = { s with obs := t.obs }) ∧
    (∃ t, exec (.evtLselWrite v) s = .next t ∧ t.obs.lsel.toNat = v.toNat % 8192 ∧ t.obs.lrec = logRecord (v.toNat % 8192) s.obs.log ∧
      t = { s with obs := t.obs }) ∧
    (∃ t, exec (.secMselWrite v) s = .next t ∧ t.host.mval = s.host.meas.get (zeros 48) (v.toNat % 64) ∧ t = { s with host := t.host }) ∧
    (s.obs.rcnt.en = false → ∃ t, exec (.cntClrPart v) s = .next t ∧ t = { s with obs := t.obs } ∧
      ∀ q i, q < s.partCnt → q < 4 → v.getLsbD q = true → ctrIn s.partCnt q i = true → t.obs.ctr.get 0 i = 0) ∧
    (s.obs.rcnt.en = true → ∃ t, exec (.cntClrPart v) s = .next t ∧ t.obs.ctr = s.obs.ctr ∧
      t.obs.clrPart = s.obs.clrPart ||| BitVec.ofNat 4 v.toNat ∧ t = { s with obs := t.obs }) ∧
    (s.obs.rcnt.en = false → ∃ t, exec .cntClrModule s = .next t ∧ t = { s with obs := t.obs } ∧ ∀ i, i < 512 → t.obs.ctr.get 0 i = 0) ∧
    (∀ n : BitVec 12, s.countsCycles n.toNat = false → n.toNat < 280 ∨ 512 ≤ n.toNat → ∃ t, exec (.cntValLoRead n) s = .next t ∧
      (t.obs.hiVal.get 0 n.toNat).toNat = (s.obs.ctr.get 0 n.toNat).toNat / 2 ^ 32 ∧ t.obs.ctr = s.obs.ctr) ∧
    (∃ t, exec .clkTickLoRead s = .next t ∧ t.clk.hiTick.toNat = s.clk.tick.toNat / 2 ^ 32 ∧ t = { s with clk := t.clk }) ∧
    (∃ t, exec .clkCalLoRead s = .next t ∧ t.clk.hiCal.toNat = s.calendar.toNat / 2 ^ 32 ∧ t = { s with clk := t.clk }) ∧
    (∃ t, exec .evtNextLoRead s = .next t ∧ t.obs.hiSeq.toNat = s.obs.seq.toNat / 2 ^ 32 ∧ t = { s with obs := t.obs }) ∧
    (s.obs.rcnt.en = true → s.latchTick = true → s.selfRefresh = false → s.obs.rcnt.takes 1 = true → ∃ t, exec .snapshotLatch s = .next t ∧
      t.obs.snapSeq = s.obs.snapSeq + 1 ∧ t.obs.rcnt.wr.toNat = (s.obs.rcnt.wr.toNat + 1) % s.obs.rcnt.size.toNat ∧
      t.obs.clrPart = 0 ∧ t.obs.clrModule = false ∧ t.engs = s.engs ∧ t.sems = s.sems ∧
      ∀ q i, q < s.partCnt → q < 4 → s.obs.clrPart.getLsbD q = true → ctrIn s.partCnt q i = true → t.obs.ctr.get 0 i = 0) ∧
    (s.obs.rcnt.en = true → s.latchTick = true → s.selfRefresh = true → exec .snapshotLatch s =
      .next { s with obs := { s.obs with snapSeq := s.obs.snapSeq + 1 } }) ∧
    (s.latchTick = false → exec .snapshotLatch s = .next s)

/-- Writes of fields (R8-R10, R172, R391, R403, R410), where no partition that owns the field is busy: a ring is enabled where it fits, and elsewhere
stays disabled and is marked refused, with an event; a sluice's rate is taken while the partitions' sum stays at 256 or below, and a DRAM rate above it is
refused with event 0x540; the module's place and its extents are recorded within their ranges; W1C bits of MODCTL_STAT, PWR_STAT, ROUTE_STAT, SYNC_STAT
and MEM_ECC_STAT clear where 1 is written; partition 1's wait limit is written while it is idle and stays, with event 0x6F1, while it is not; NHEAD moves; an
offset below the first block with a writable register or above the last takes nothing. -/
def Obligations.RegistersTakeWrites : Prop :=
  (∀ (b : RingBlk) (s : State), s.busyOf [(s.ring b).part.toNat] = none →
    (s.ringFits (s.ring b) (ringRecLen b) = true → ∃ t, exec (.ringEnable b) s = .next t ∧ (t.ring b).en = true ∧
      (t.ring b).base = (s.ring b).base ∧ t = { s with obs := t.obs }) ∧
    (s.ringFits (s.ring b) (ringRecLen b) = false → ∃ t, exec (.ringEnable b) s = .next t ∧ (t.ring b).en = false ∧
      (t.ring b).refused = true ∧ t.obs.seq = s.obs.seq + 1)) ∧
  (∀ (q : Part) (v : Word) (s : State), s.busyOf [q.val] = none →
    let r := fld v.toNat 0 9
    (r + otherRates s.mem.drate q ≤ 256 → ∃ t, exec (.sluiceWrite false q v) s = .next t ∧ t.mem.drate.get 0 q = r ∧
      t.mem.prate = s.mem.prate) ∧
    (r + otherRates s.mem.prate q ≤ 256 → ∃ t, exec (.sluiceWrite true q v) s = .next t ∧ t.mem.prate.get 0 q = r ∧
      t.mem.drate = s.mem.drate) ∧
    (256 < r + otherRates s.mem.drate q → ∃ t, exec (.sluiceWrite false q v) s = .next t ∧ t.mem.drate = s.mem.drate ∧
      logged s t 0x540 q (a1 q ++ a4 r))) ∧
  (∀ (v : Word) (s : State), s.busyAny = none →
    (fld v.toNat 6 6 ≤ 47 → ∃ t, exec (.routeCoordWrite false v) s = .next t ∧ t.router.coordKnown = true ∧
      t.router.cx.toNat = fld v.toNat 0 3 ∧ t.router.cy.toNat = fld v.toNat 3 3 ∧ t.router.cz.toNat = fld v.toNat 6 6 ∧
      t.router.rtab = s.router.rtab) ∧
    (1 ≤ fld v.toNat 0 4 → fld v.toNat 0 4 ≤ 8 → 1 ≤ fld v.toNat 4 4 → fld v.toNat 4 4 ≤ 8 → 1 ≤ fld v.toNat 8 6 →
      fld v.toNat 8 6 ≤ 48 → ∃ t, exec (.routeCoordWrite true v) s = .next t ∧ t.router.extKnown = true ∧
      t.router.ex.toNat = fld v.toNat 0 4 ∧ t.router.ey.toNat = fld v.toNat 4 4 ∧ t.router.ez.toNat = fld v.toNat 8 6)) ∧
  (∀ (v : Word) (s : State),
    (∃ t, exec (.registerWrite (.bar0 0x1000C) v) s = .next t ∧ t.boot.stat = s.boot.stat &&& ~~~v ∧ t = { s with boot := t.boot }) ∧
    (∃ t, exec (.registerWrite (.bar0 0x20008) v) s = .next t ∧ t.power.stat = s.power.stat &&& ~~~v ∧ t = { s with power := t.power }) ∧
    (∃ t, exec (.registerWrite (.bar0 0x180010) v) s = .next t ∧ t.router.stat = s.router.stat &&& ~~~v ∧
      t = { s with router := t.router }) ∧
    (∃ t, exec (.registerWrite (.bar0 0x200004) v) s = .next t ∧ t.sync.stat = s.sync.stat &&& ~~~v ∧ t = { s with sync := t.sync }) ∧
    (∃ t, exec (.registerWrite (.bar0 0x300050) v) s = .next t ∧ t.mem.ecc = s.mem.ecc &&& ~~~v ∧ t = { s with mem := t.mem }) ∧
    (s.busyOf [1] = none → ∃ t, exec (.registerWrite (.bar0 0x40000C) v) s = .next t ∧ (t.part 1).waitlim = v ∧
      ∀ q, q ≠ 1 → t.part q = s.part q) ∧
    (s.busyOf [1] = some 1 → ∃ t, exec (.registerWrite (.bar0 0x40000C) v) s = .next t ∧ t.parts = s.parts ∧
      logged s t 0x6F1 1 (a4 0x40000C ++ a1 1)) ∧
    (∀ f : Fn, v.toNat < 208 → ∃ t, exec (.registerWrite (.bar4 f 0x200C) v) s = .next t ∧ (t.fn f).nhead = v.toNat) ∧
    (∀ off : BitVec 26, off.toNat < 0x10000 ∨ 0x810000 ≤ off.toNat → exec (.registerWrite (.bar0 off) v) s = .next s))

/-- The fused security version (R436): no command but a write of SEC_CMD.COMMIT_SVN with its key, after ready, changes it; that write raises it to
the running image's version; so it never falls. -/
def Obligations.FuseRisesOnlyByCommit : Prop :=
  ∀ (c : Instr) (s t : State), exec c s = .next t →
    t.host.fuseSvn = s.host.fuseSvn ∨
    (s.host.fuseSvn < t.host.fuseSvn ∧ t.host.fuseSvn = (s.copyOf s.host.activeB).svn ∧ s.isReady = true ∧
      ∃ v, (c = .commitSvn v ∨ c = .registerWrite (.bar0 0x40008) v) ∧ fld v.toNat 24 8 = 0xA5 ∧ v.getLsbD 0 = true)

/-! ## Reset and the invariant -/

/-- What reset leaves, as BAR0 shows it (R31, R381, R396 and the register tables): the identification, stage 0, one partition, the default rates,
scrub periods, snapshot period and wait limits, every engine idle, no semaphore allocated, every lane dark, and the queue of commands, which is the
model's own, empty. The state after reset is in order. -/
def Obligations.ResetLeaves : Prop :=
  (let s := State.reset
   s.regRead 0 = 0x31544A4F ∧ s.regRead 0x10004 = 0 ∧ s.regRead 0x300020 = 0x100100 ∧ s.regRead 0x300040 = 0xA18 ∧
   s.regRead 0x500020 = 0x3D09 ∧ s.regRead 0x400008 = 0x2540C ∧ s.regRead 0x200000 = 0x8000001 ∧ s.partCnt = 1 ∧ s.pending = [] ∧
   (∀ e, (s.eng e).run = .idle) ∧ (∀ i, (s.sem i).alloc = false) ∧ (∀ p c, (s.tx p c).st = .dark ∧ (s.rx p c).st = .dark) ∧
   (∀ q, (s.part q).plan = none ∧ (s.part q).lastCommit = 0xFFFFFFFFFFFFFFFF)) ∧
  (inOrder State.reset)

/-- Every step keeps the state in order, whatever command it runs and from whatever state in order. -/
def Obligations.StepKeepsOrder : Prop := ∀ s t : State, inOrder s → step s = .next t → inOrder t
end

