-- ==== Sys2Proof/Laws/Code.lean ====
section
/-!
SUPPORT. Laws/Code.lean: the lane's scrambler is undone by the receiver from any common start (R218).
-/

namespace Sys2Proof.Machine

theorem descramble_scramble (h : BitVec 58) (bs : List Bool) : descramble h (scramble h bs).1 = bs := by
  induction bs generalizing h with
  | nil => rfl
  | cons b bs ih => simp [scramble, descramble, ih]

end Sys2Proof.Machine
end

