-- ==== Sys2Proof/Laws/Tab.lean ====
section
/-! SUPPORT. Laws/Tab.lean: what reading a sparse table gives after it has been written, and that the byte memory keeps its
canonical form. -/

namespace Sys2Proof.Machine

variable {β : Type}

@[simp] theorem Tab.get_nil (d : β) (i : Nat) : Tab.get d [] i = d := rfl
@[simp] theorem Tab.find_nil (i : Nat) : Tab.find ([] : Tab β) i = none := rfl

/-- A key reads as the value just written to it. -/
@[simp] theorem Tab.get_set_same (d : β) (t : Tab β) (i : Nat) (v : β) : (t.set i v).get d i = v := by
  induction t with
  | nil => simp [Tab.set, Tab.get]
  | cons kv r ih =>
    obtain ⟨k, w⟩ := kv
    by_cases h1 : i < k
    · simp [Tab.set, Tab.get, h1]
    · by_cases h2 : i = k
      · simp [Tab.set, Tab.get, h2]
      · simp [Tab.set, Tab.get, h1, h2, ih]

/-- Every other key reads as before. -/
theorem Tab.get_set_other (d : β) (t : Tab β) {i j : Nat} (v : β) (h : j ≠ i) : (t.set i v).get d j = t.get d j := by
  induction t with
  | nil => by_cases hj : j < i <;> simp [Tab.set, Tab.get, hj, h]
  | cons kv r ih =>
    obtain ⟨k, w⟩ := kv
    by_cases h1 : i < k
    · by_cases h3 : j < i
      · have : j < k := by omega
        simp [Tab.set, Tab.get, h1, h3, this]
      · simp [Tab.set, Tab.get, h1, h3, h]
    · by_cases h2 : i = k
      · subst h2; simp [Tab.set, Tab.get, h]
      · simp only [Tab.set, h1, h2, if_false, Tab.get, ih]

/-- The two laws of `set` in one. -/
theorem Tab.get_set (d : β) (t : Tab β) (i j : Nat) (v : β) : (t.set i v).get d j = if j = i then v else t.get d j := by
  by_cases h : j = i
  · subst h; simp
  · simp [h, Tab.get_set_other d t v h]

/-! ## Rising keys -/

/-- Every key of the table lies above `n`. -/
def Tab.above (n : Nat) (t : Tab β) : Prop := ∀ kv ∈ t, n < kv.1

theorem Tab.rising_cons (k : Nat) (v : β) (t : Tab β) : Tab.rising ((k, v) :: t) = true ↔ t.above k ∧ t.rising = true := by
  induction t generalizing k v with
  | nil => simp [Tab.rising, Tab.above]
  | cons kv r ih =>
    obtain ⟨k', v'⟩ := kv
    simp only [Tab.rising, Bool.and_eq_true, decide_eq_true_eq]
    constructor
    · rintro ⟨h, hr⟩
      refine ⟨?_, hr⟩
      intro x hx
      simp only [List.mem_cons] at hx
      rcases hx with rfl | hx
      · exact h
      · have := ((ih k' v').1 hr).1 x hx
        omega
    · rintro ⟨h, hr⟩
      exact ⟨h (k', v') (by simp), hr⟩

/-- A key below every listed key reads as the default. -/
theorem Tab.get_above (d : β) (t : Tab β) {n i : Nat} (h : t.above n) (hi : i ≤ n) : t.get d i = d := by
  cases t with
  | nil => rfl
  | cons kv r =>
    obtain ⟨k, v⟩ := kv
    have : n < k := h (k, v) (by simp)
    simp [Tab.get, show i < k by omega]

theorem Tab.above_set {t : Tab β} {n i : Nat} (v : β) (h : t.above n) (hi : n < i) : (t.set i v).above n := by
  induction t with
  | nil => intro x hx; simp [Tab.set] at hx; subst hx; exact hi
  | cons kv r ih =>
    obtain ⟨k, w⟩ := kv
    have hk : n < k := h (k, w) (by simp)
    have hr : Tab.above n r := fun x hx => h x (by simp [hx])
    intro x hx
    simp only [Tab.set] at hx
    split at hx
    · simp only [List.mem_cons] at hx
      rcases hx with rfl | rfl | hx
      · exact hi
      · exact hk
      · exact hr x hx
    · split at hx
      · simp only [List.mem_cons] at hx
        rcases hx with rfl | hx
        · exact hi
        · exact hr x hx
      · simp only [List.mem_cons] at hx
        rcases hx with rfl | hx
        · exact hk
        · exact ih hr x hx

/-- Writing keeps keys rising. -/
theorem Tab.rising_set {t : Tab β} (i : Nat) (v : β) (h : t.rising = true) : (t.set i v).rising = true := by
  induction t with
  | nil => rfl
  | cons kv r ih =>
    obtain ⟨k, w⟩ := kv
    obtain ⟨ha, hr⟩ := (Tab.rising_cons k w r).1 h
    simp only [Tab.set]
    split
    · rename_i h1
      refine (Tab.rising_cons _ _ _).2 ⟨?_, h⟩
      intro x hx
      simp only [List.mem_cons] at hx
      rcases hx with rfl | hx
      · exact h1
      · exact Nat.lt_trans h1 (ha x hx)
    · split
      · rename_i h1 h2
        subst h2
        exact (Tab.rising_cons _ _ _).2 ⟨ha, hr⟩
      · rename_i h1 h2
        exact (Tab.rising_cons _ _ _).2 ⟨Tab.above_set v ha (by omega), ih hr⟩

theorem Tab.above_filter {t : Tab β} {n : Nat} (p : Nat × β → Bool) (h : t.above n) : Tab.above n (List.filter p t) :=
  fun x hx => h x ((List.mem_filter.1 hx).1)

/-- Unlisting keys keeps keys rising. -/
theorem Tab.rising_filter {t : Tab β} (p : Nat × β → Bool) (h : t.rising = true) : Tab.rising (List.filter p t) = true := by
  induction t with
  | nil => rfl
  | cons kv r ih =>
    obtain ⟨k, w⟩ := kv
    obtain ⟨ha, hr⟩ := (Tab.rising_cons k w r).1 h
    by_cases hp : p (k, w)
    · rw [List.filter_cons_of_pos hp]
      exact (Tab.rising_cons _ _ _).2 ⟨Tab.above_filter p ha, ih hr⟩
    · rw [List.filter_cons_of_neg hp]
      exact ih hr

/-! ## The byte memory -/

/-- The form split: rising keys, no listed zero. -/
theorem Memory.wf_iff (m : Tab Byte) : Memory.wf m = true ↔ m.rising = true ∧ ∀ kv ∈ m, kv.2 ≠ 0 := by
  simp [Memory.wf]

theorem Tab.above_setz {t : Tab Byte} {n i : Nat} (v : Byte) (h : t.above n) (hi : n < i) : (t.setz i v).above n := by
  induction t with
  | nil =>
    intro x hx
    simp only [Tab.setz] at hx
    split at hx
    · cases hx
    · simp at hx; subst hx; exact hi
  | cons kv r ih =>
    obtain ⟨k, w⟩ := kv
    have hk : n < k := h (k, w) (by simp)
    have hr : Tab.above n r := fun x hx => h x (by simp [hx])
    intro x hx
    simp only [Tab.setz] at hx
    split at hx
    · split at hx
      · exact h x hx
      · simp only [List.mem_cons] at hx
        rcases hx with rfl | rfl | hx
        · exact hi
        · exact hk
        · exact hr x hx
    · split at hx
      · split at hx
        · exact hr x hx
        · simp only [List.mem_cons] at hx
          rcases hx with rfl | hx
          · exact hi
          · exact hr x hx
      · simp only [List.mem_cons] at hx
        rcases hx with rfl | hx
        · exact hk
        · exact ih hr x hx

/-- Writing one byte keeps the canonical form. -/
theorem Memory.wf_setz {m : Tab Byte} (i : Nat) (v : Byte) (h : Memory.wf m = true) : Memory.wf (m.setz i v) = true := by
  rw [Memory.wf_iff] at h ⊢
  induction m with
  | nil =>
    by_cases hv : v = 0
    · rw [Tab.setz, if_pos hv]; exact h
    · rw [Tab.setz, if_neg hv]; exact ⟨rfl, by simpa using hv⟩
  | cons kv r ih =>
    obtain ⟨k, w⟩ := kv
    obtain ⟨hs, hz⟩ := h
    obtain ⟨ha, hr⟩ := (Tab.rising_cons k w r).1 hs
    have hzr : ∀ kv ∈ r, kv.2 ≠ 0 := fun x hx => hz x (by simp [hx])
    have hw : w ≠ 0 := hz (k, w) (by simp)
    simp only [Tab.setz]
    split
    · rename_i h1
      split
      · exact ⟨hs, hz⟩
      · rename_i hv
        refine ⟨(Tab.rising_cons _ _ _).2 ⟨?_, hs⟩, ?_⟩
        · intro x hx
          simp only [List.mem_cons] at hx
          rcases hx with rfl | hx
          · exact h1
          · exact Nat.lt_trans h1 (ha x hx)
        · intro x hx
          simp only [List.mem_cons] at hx
          rcases hx with rfl | rfl | hx
          · exact hv
          · exact hw
          · exact hzr x hx
    · split
      · rename_i h1 h2
        subst h2
        split
        · exact ⟨hr, hzr⟩
        · rename_i hv
          refine ⟨(Tab.rising_cons _ _ _).2 ⟨ha, hr⟩, ?_⟩
          intro x hx
          simp only [List.mem_cons] at hx
          rcases hx with rfl | hx
          · exact hv
          · exact hzr x hx
      · rename_i h1 h2
        obtain ⟨i1, i2⟩ := ih ⟨hr, hzr⟩
        refine ⟨(Tab.rising_cons _ _ _).2 ⟨Tab.above_setz v ha (by omega), i1⟩, ?_⟩
        intro x hx
        simp only [List.mem_cons] at hx
        rcases hx with rfl | hx
        · exact hw
        · exact i2 x hx

/-- Writing bytes in a row keeps the canonical form. -/
theorem Memory.wf_setBytes {m : Tab Byte} (i : Nat) (bs : List Byte) (h : Memory.wf m = true) :
    Memory.wf (m.setBytes i bs) = true := by
  induction bs generalizing m i with
  | nil => exact h
  | cons b r ih => exact ih (i + 1) (Memory.wf_setz i b h)

/-- Forgetting bytes keeps the canonical form. -/
theorem Memory.wf_drop {m : Tab Byte} (p : Nat → Bool) (h : Memory.wf m = true) : Memory.wf (m.drop p) = true := by
  rw [Memory.wf_iff] at h ⊢
  exact ⟨Tab.rising_filter _ h.1, fun x hx => h.2 x ((List.mem_filter.1 hx).1)⟩

/-- In canonical form, a byte reads as the value just written to it. -/
theorem Tab.get_setz_same {m : Tab Byte} (i : Nat) (v : Byte) (h : m.rising = true) : (m.setz i v).get 0 i = v := by
  induction m with
  | nil =>
    by_cases hv : v = 0
    · rw [Tab.setz, if_pos hv, hv]; rfl
    · rw [Tab.setz, if_neg hv]; simp [Tab.get]
  | cons kv r ih =>
    obtain ⟨k, w⟩ := kv
    obtain ⟨ha, hr⟩ := (Tab.rising_cons k w r).1 h
    simp only [Tab.setz]
    split
    · rename_i h1
      split
      · rename_i hv; simp [Tab.get, h1, hv]
      · simp [Tab.get]
    · split
      · rename_i h1 h2
        subst h2
        split
        · rename_i hv; rw [Tab.get_above 0 r ha (Nat.le_refl _), hv]
        · simp [Tab.get]
      · rename_i h1 h2
        simp only [Tab.get, h1, h2, if_false]
        exact ih hr

/-- In canonical form, every other byte reads as before. -/
theorem Tab.get_setz_other {m : Tab Byte} {i j : Nat} (v : Byte) (h : m.rising = true) (hj : j ≠ i) :
    (m.setz i v).get 0 j = m.get 0 j := by
  induction m with
  | nil =>
    by_cases hv : v = 0
    · rw [Tab.setz, if_pos hv]
    · rw [Tab.setz, if_neg hv]; by_cases h1 : j < i <;> simp [Tab.get, h1, hj]
  | cons kv r ih =>
    obtain ⟨k, w⟩ := kv
    obtain ⟨ha, hr⟩ := (Tab.rising_cons k w r).1 h
    simp only [Tab.setz]
    split
    · rename_i h1
      split
      · rfl
      · by_cases h3 : j < i
        · have : j < k := by omega
          simp [Tab.get, h3, this]
        · simp [Tab.get, h3, hj]
    · split
      · rename_i h1 h2
        subst h2
        split
        · by_cases h3 : j < i
          · rw [Tab.get_above 0 r ha (by omega)]; simp [Tab.get, h3]
          · simp [Tab.get, h3, hj]
        · simp [Tab.get, hj]
      · simp only [Tab.get, ih hr]

/-- Bytes outside a written row read as before. -/
theorem Tab.get_setBytes_outside {m : Tab Byte} (i j : Nat) (bs : List Byte) (h : Memory.wf m = true)
    (hj : j < i ∨ i + bs.length ≤ j) : (m.setBytes i bs).get 0 j = m.get 0 j := by
  induction bs generalizing m i with
  | nil => rfl
  | cons b r ih =>
    simp only [List.length_cons] at hj
    simp only [Tab.setBytes]
    rw [ih (i + 1) (Memory.wf_setz i b h) (by omega), Tab.get_setz_other b ((Memory.wf_iff m).1 h).1 (by omega)]

/-- Bytes of a written row read as written. -/
theorem Tab.get_setBytes_inside {m : Tab Byte} (i k : Nat) (bs : List Byte) (h : Memory.wf m = true)
    (hk : k < bs.length) : (m.setBytes i bs).get 0 (i + k) = bs.getD k 0 := by
  induction bs generalizing m i k with
  | nil => simp at hk
  | cons b r ih =>
    simp only [Tab.setBytes]
    have hw := Memory.wf_setz i b h
    cases k with
    | zero =>
      rw [Tab.get_setBytes_outside (i + 1) (i + 0) r hw (by omega)]
      simpa using Tab.get_setz_same i b ((Memory.wf_iff m).1 h).1
    | succ n =>
      have := ih (i + 1) n hw (by simpa using hk)
      rw [show i + (n + 1) = i + 1 + n by omega, this]
      simp

end Sys2Proof.Machine
end

