-- ==== Sys2Proof/Laws/State.lean ====
section
/-! SUPPORT. Laws/State.lean: what each named update of the state leaves in every field and what each named read then gives. -/

namespace Sys2Proof.Machine

variable (s : State)

/-! ## One lemma per update and field it leaves alone -/

@[simp] theorem State.setEng_pending (e : Nat) (x : Engine) : (s.setEng e x).pending = s.pending := rfl
@[simp] theorem State.setEng_free (e : Nat) (x : Engine) : (s.setEng e x).free = s.free := rfl
@[simp] theorem State.setEng_partCnt (e : Nat) (x : Engine) : (s.setEng e x).partCnt = s.partCnt := rfl
@[simp] theorem State.setEng_parts (e : Nat) (x : Engine) : (s.setEng e x).parts = s.parts := rfl
@[simp] theorem State.setEng_engMaps (e : Nat) (x : Engine) : (s.setEng e x).engMaps = s.engMaps := rfl
@[simp] theorem State.setEng_deadPhys (e : Nat) (x : Engine) : (s.setEng e x).deadPhys = s.deadPhys := rfl
@[simp] theorem State.setEng_engFlt (e : Nat) (x : Engine) : (s.setEng e x).engFlt = s.engFlt := rfl
@[simp] theorem State.setEng_sems (e : Nat) (x : Engine) : (s.setEng e x).sems = s.sems := rfl
@[simp] theorem State.setEng_watches (e : Nat) (x : Engine) : (s.setEng e x).watches = s.watches := rfl
@[simp] theorem State.setEng_sync (e : Nat) (x : Engine) : (s.setEng e x).sync = s.sync := rfl
@[simp] theorem State.setEng_txl (e : Nat) (x : Engine) : (s.setEng e x).txl = s.txl := rfl
@[simp] theorem State.setEng_rxl (e : Nat) (x : Engine) : (s.setEng e x).rxl = s.rxl := rfl
@[simp] theorem State.setEng_ports (e : Nat) (x : Engine) : (s.setEng e x).ports = s.ports := rfl
@[simp] theorem State.setEng_islands (e : Nat) (x : Engine) : (s.setEng e x).islands = s.islands := rfl
@[simp] theorem State.setEng_combs (e : Nat) (x : Engine) : (s.setEng e x).combs = s.combs := rfl
@[simp] theorem State.setEng_router (e : Nat) (x : Engine) : (s.setEng e x).router = s.router := rfl
@[simp] theorem State.setEng_mem (e : Nat) (x : Engine) : (s.setEng e x).mem = s.mem := rfl
@[simp] theorem State.setEng_power (e : Nat) (x : Engine) : (s.setEng e x).power = s.power := rfl
@[simp] theorem State.setEng_clk (e : Nat) (x : Engine) : (s.setEng e x).clk = s.clk := rfl
@[simp] theorem State.setEng_boot (e : Nat) (x : Engine) : (s.setEng e x).boot = s.boot := rfl
@[simp] theorem State.setEng_obs (e : Nat) (x : Engine) : (s.setEng e x).obs = s.obs := rfl
@[simp] theorem State.setEng_host (e : Nat) (x : Engine) : (s.setEng e x).host = s.host := rfl

@[simp] theorem State.modEng_pending (e : Nat) (f : Engine → Engine) : (s.modEng e f).pending = s.pending := rfl
@[simp] theorem State.modEng_free (e : Nat) (f : Engine → Engine) : (s.modEng e f).free = s.free := rfl
@[simp] theorem State.modEng_partCnt (e : Nat) (f : Engine → Engine) : (s.modEng e f).partCnt = s.partCnt := rfl
@[simp] theorem State.modEng_parts (e : Nat) (f : Engine → Engine) : (s.modEng e f).parts = s.parts := rfl
@[simp] theorem State.modEng_engMaps (e : Nat) (f : Engine → Engine) : (s.modEng e f).engMaps = s.engMaps := rfl
@[simp] theorem State.modEng_deadPhys (e : Nat) (f : Engine → Engine) : (s.modEng e f).deadPhys = s.deadPhys := rfl
@[simp] theorem State.modEng_engFlt (e : Nat) (f : Engine → Engine) : (s.modEng e f).engFlt = s.engFlt := rfl
@[simp] theorem State.modEng_sems (e : Nat) (f : Engine → Engine) : (s.modEng e f).sems = s.sems := rfl
@[simp] theorem State.modEng_watches (e : Nat) (f : Engine → Engine) : (s.modEng e f).watches = s.watches := rfl
@[simp] theorem State.modEng_sync (e : Nat) (f : Engine → Engine) : (s.modEng e f).sync = s.sync := rfl
@[simp] theorem State.modEng_txl (e : Nat) (f : Engine → Engine) : (s.modEng e f).txl = s.txl := rfl
@[simp] theorem State.modEng_rxl (e : Nat) (f : Engine → Engine) : (s.modEng e f).rxl = s.rxl := rfl
@[simp] theorem State.modEng_ports (e : Nat) (f : Engine → Engine) : (s.modEng e f).ports = s.ports := rfl
@[simp] theorem State.modEng_islands (e : Nat) (f : Engine → Engine) : (s.modEng e f).islands = s.islands := rfl
@[simp] theorem State.modEng_combs (e : Nat) (f : Engine → Engine) : (s.modEng e f).combs = s.combs := rfl
@[simp] theorem State.modEng_router (e : Nat) (f : Engine → Engine) : (s.modEng e f).router = s.router := rfl
@[simp] theorem State.modEng_mem (e : Nat) (f : Engine → Engine) : (s.modEng e f).mem = s.mem := rfl
@[simp] theorem State.modEng_power (e : Nat) (f : Engine → Engine) : (s.modEng e f).power = s.power := rfl
@[simp] theorem State.modEng_clk (e : Nat) (f : Engine → Engine) : (s.modEng e f).clk = s.clk := rfl
@[simp] theorem State.modEng_boot (e : Nat) (f : Engine → Engine) : (s.modEng e f).boot = s.boot := rfl
@[simp] theorem State.modEng_obs (e : Nat) (f : Engine → Engine) : (s.modEng e f).obs = s.obs := rfl
@[simp] theorem State.modEng_host (e : Nat) (f : Engine → Engine) : (s.modEng e f).host = s.host := rfl

@[simp] theorem State.setPart_pending (q : Nat) (x : Partn) : (s.setPart q x).pending = s.pending := rfl
@[simp] theorem State.setPart_free (q : Nat) (x : Partn) : (s.setPart q x).free = s.free := rfl
@[simp] theorem State.setPart_partCnt (q : Nat) (x : Partn) : (s.setPart q x).partCnt = s.partCnt := rfl
@[simp] theorem State.setPart_engs (q : Nat) (x : Partn) : (s.setPart q x).engs = s.engs := rfl
@[simp] theorem State.setPart_engMaps (q : Nat) (x : Partn) : (s.setPart q x).engMaps = s.engMaps := rfl
@[simp] theorem State.setPart_deadPhys (q : Nat) (x : Partn) : (s.setPart q x).deadPhys = s.deadPhys := rfl
@[simp] theorem State.setPart_engFlt (q : Nat) (x : Partn) : (s.setPart q x).engFlt = s.engFlt := rfl
@[simp] theorem State.setPart_sems (q : Nat) (x : Partn) : (s.setPart q x).sems = s.sems := rfl
@[simp] theorem State.setPart_watches (q : Nat) (x : Partn) : (s.setPart q x).watches = s.watches := rfl
@[simp] theorem State.setPart_sync (q : Nat) (x : Partn) : (s.setPart q x).sync = s.sync := rfl
@[simp] theorem State.setPart_txl (q : Nat) (x : Partn) : (s.setPart q x).txl = s.txl := rfl
@[simp] theorem State.setPart_rxl (q : Nat) (x : Partn) : (s.setPart q x).rxl = s.rxl := rfl
@[simp] theorem State.setPart_ports (q : Nat) (x : Partn) : (s.setPart q x).ports = s.ports := rfl
@[simp] theorem State.setPart_islands (q : Nat) (x : Partn) : (s.setPart q x).islands = s.islands := rfl
@[simp] theorem State.setPart_combs (q : Nat) (x : Partn) : (s.setPart q x).combs = s.combs := rfl
@[simp] theorem State.setPart_router (q : Nat) (x : Partn) : (s.setPart q x).router = s.router := rfl
@[simp] theorem State.setPart_mem (q : Nat) (x : Partn) : (s.setPart q x).mem = s.mem := rfl
@[simp] theorem State.setPart_power (q : Nat) (x : Partn) : (s.setPart q x).power = s.power := rfl
@[simp] theorem State.setPart_clk (q : Nat) (x : Partn) : (s.setPart q x).clk = s.clk := rfl
@[simp] theorem State.setPart_boot (q : Nat) (x : Partn) : (s.setPart q x).boot = s.boot := rfl
@[simp] theorem State.setPart_obs (q : Nat) (x : Partn) : (s.setPart q x).obs = s.obs := rfl
@[simp] theorem State.setPart_host (q : Nat) (x : Partn) : (s.setPart q x).host = s.host := rfl

@[simp] theorem State.modPart_pending (q : Nat) (f : Partn → Partn) : (s.modPart q f).pending = s.pending := rfl
@[simp] theorem State.modPart_free (q : Nat) (f : Partn → Partn) : (s.modPart q f).free = s.free := rfl
@[simp] theorem State.modPart_partCnt (q : Nat) (f : Partn → Partn) : (s.modPart q f).partCnt = s.partCnt := rfl
@[simp] theorem State.modPart_engs (q : Nat) (f : Partn → Partn) : (s.modPart q f).engs = s.engs := rfl
@[simp] theorem State.modPart_engMaps (q : Nat) (f : Partn → Partn) : (s.modPart q f).engMaps = s.engMaps := rfl
@[simp] theorem State.modPart_deadPhys (q : Nat) (f : Partn → Partn) : (s.modPart q f).deadPhys = s.deadPhys := rfl
@[simp] theorem State.modPart_engFlt (q : Nat) (f : Partn → Partn) : (s.modPart q f).engFlt = s.engFlt := rfl
@[simp] theorem State.modPart_sems (q : Nat) (f : Partn → Partn) : (s.modPart q f).sems = s.sems := rfl
@[simp] theorem State.modPart_watches (q : Nat) (f : Partn → Partn) : (s.modPart q f).watches = s.watches := rfl
@[simp] theorem State.modPart_sync (q : Nat) (f : Partn → Partn) : (s.modPart q f).sync = s.sync := rfl
@[simp] theorem State.modPart_txl (q : Nat) (f : Partn → Partn) : (s.modPart q f).txl = s.txl := rfl
@[simp] theorem State.modPart_rxl (q : Nat) (f : Partn → Partn) : (s.modPart q f).rxl = s.rxl := rfl
@[simp] theorem State.modPart_ports (q : Nat) (f : Partn → Partn) : (s.modPart q f).ports = s.ports := rfl
@[simp] theorem State.modPart_islands (q : Nat) (f : Partn → Partn) : (s.modPart q f).islands = s.islands := rfl
@[simp] theorem State.modPart_combs (q : Nat) (f : Partn → Partn) : (s.modPart q f).combs = s.combs := rfl
@[simp] theorem State.modPart_router (q : Nat) (f : Partn → Partn) : (s.modPart q f).router = s.router := rfl
@[simp] theorem State.modPart_mem (q : Nat) (f : Partn → Partn) : (s.modPart q f).mem = s.mem := rfl
@[simp] theorem State.modPart_power (q : Nat) (f : Partn → Partn) : (s.modPart q f).power = s.power := rfl
@[simp] theorem State.modPart_clk (q : Nat) (f : Partn → Partn) : (s.modPart q f).clk = s.clk := rfl
@[simp] theorem State.modPart_boot (q : Nat) (f : Partn → Partn) : (s.modPart q f).boot = s.boot := rfl
@[simp] theorem State.modPart_obs (q : Nat) (f : Partn → Partn) : (s.modPart q f).obs = s.obs := rfl
@[simp] theorem State.modPart_host (q : Nat) (f : Partn → Partn) : (s.modPart q f).host = s.host := rfl

@[simp] theorem State.setSem_pending (i : Nat) (x : Sem) : (s.setSem i x).pending = s.pending := rfl
@[simp] theorem State.setSem_free (i : Nat) (x : Sem) : (s.setSem i x).free = s.free := rfl
@[simp] theorem State.setSem_partCnt (i : Nat) (x : Sem) : (s.setSem i x).partCnt = s.partCnt := rfl
@[simp] theorem State.setSem_parts (i : Nat) (x : Sem) : (s.setSem i x).parts = s.parts := rfl
@[simp] theorem State.setSem_engs (i : Nat) (x : Sem) : (s.setSem i x).engs = s.engs := rfl
@[simp] theorem State.setSem_engMaps (i : Nat) (x : Sem) : (s.setSem i x).engMaps = s.engMaps := rfl
@[simp] theorem State.setSem_deadPhys (i : Nat) (x : Sem) : (s.setSem i x).deadPhys = s.deadPhys := rfl
@[simp] theorem State.setSem_engFlt (i : Nat) (x : Sem) : (s.setSem i x).engFlt = s.engFlt := rfl
@[simp] theorem State.setSem_watches (i : Nat) (x : Sem) : (s.setSem i x).watches = s.watches := rfl
@[simp] theorem State.setSem_sync (i : Nat) (x : Sem) : (s.setSem i x).sync = s.sync := rfl
@[simp] theorem State.setSem_txl (i : Nat) (x : Sem) : (s.setSem i x).txl = s.txl := rfl
@[simp] theorem State.setSem_rxl (i : Nat) (x : Sem) : (s.setSem i x).rxl = s.rxl := rfl
@[simp] theorem State.setSem_ports (i : Nat) (x : Sem) : (s.setSem i x).ports = s.ports := rfl
@[simp] theorem State.setSem_islands (i : Nat) (x : Sem) : (s.setSem i x).islands = s.islands := rfl
@[simp] theorem State.setSem_combs (i : Nat) (x : Sem) : (s.setSem i x).combs = s.combs := rfl
@[simp] theorem State.setSem_router (i : Nat) (x : Sem) : (s.setSem i x).router = s.router := rfl
@[simp] theorem State.setSem_mem (i : Nat) (x : Sem) : (s.setSem i x).mem = s.mem := rfl
@[simp] theorem State.setSem_power (i : Nat) (x : Sem) : (s.setSem i x).power = s.power := rfl
@[simp] theorem State.setSem_clk (i : Nat) (x : Sem) : (s.setSem i x).clk = s.clk := rfl
@[simp] theorem State.setSem_boot (i : Nat) (x : Sem) : (s.setSem i x).boot = s.boot := rfl
@[simp] theorem State.setSem_obs (i : Nat) (x : Sem) : (s.setSem i x).obs = s.obs := rfl
@[simp] theorem State.setSem_host (i : Nat) (x : Sem) : (s.setSem i x).host = s.host := rfl

@[simp] theorem State.setWatch_pending (i : Nat) (x : Watch) : (s.setWatch i x).pending = s.pending := rfl
@[simp] theorem State.setWatch_free (i : Nat) (x : Watch) : (s.setWatch i x).free = s.free := rfl
@[simp] theorem State.setWatch_partCnt (i : Nat) (x : Watch) : (s.setWatch i x).partCnt = s.partCnt := rfl
@[simp] theorem State.setWatch_parts (i : Nat) (x : Watch) : (s.setWatch i x).parts = s.parts := rfl
@[simp] theorem State.setWatch_engs (i : Nat) (x : Watch) : (s.setWatch i x).engs = s.engs := rfl
@[simp] theorem State.setWatch_engMaps (i : Nat) (x : Watch) : (s.setWatch i x).engMaps = s.engMaps := rfl
@[simp] theorem State.setWatch_deadPhys (i : Nat) (x : Watch) : (s.setWatch i x).deadPhys = s.deadPhys := rfl
@[simp] theorem State.setWatch_engFlt (i : Nat) (x : Watch) : (s.setWatch i x).engFlt = s.engFlt := rfl
@[simp] theorem State.setWatch_sems (i : Nat) (x : Watch) : (s.setWatch i x).sems = s.sems := rfl
@[simp] theorem State.setWatch_sync (i : Nat) (x : Watch) : (s.setWatch i x).sync = s.sync := rfl
@[simp] theorem State.setWatch_txl (i : Nat) (x : Watch) : (s.setWatch i x).txl = s.txl := rfl
@[simp] theorem State.setWatch_rxl (i : Nat) (x : Watch) : (s.setWatch i x).rxl = s.rxl := rfl
@[simp] theorem State.setWatch_ports (i : Nat) (x : Watch) : (s.setWatch i x).ports = s.ports := rfl
@[simp] theorem State.setWatch_islands (i : Nat) (x : Watch) : (s.setWatch i x).islands = s.islands := rfl
@[simp] theorem State.setWatch_combs (i : Nat) (x : Watch) : (s.setWatch i x).combs = s.combs := rfl
@[simp] theorem State.setWatch_router (i : Nat) (x : Watch) : (s.setWatch i x).router = s.router := rfl
@[simp] theorem State.setWatch_mem (i : Nat) (x : Watch) : (s.setWatch i x).mem = s.mem := rfl
@[simp] theorem State.setWatch_power (i : Nat) (x : Watch) : (s.setWatch i x).power = s.power := rfl
@[simp] theorem State.setWatch_clk (i : Nat) (x : Watch) : (s.setWatch i x).clk = s.clk := rfl
@[simp] theorem State.setWatch_boot (i : Nat) (x : Watch) : (s.setWatch i x).boot = s.boot := rfl
@[simp] theorem State.setWatch_obs (i : Nat) (x : Watch) : (s.setWatch i x).obs = s.obs := rfl
@[simp] theorem State.setWatch_host (i : Nat) (x : Watch) : (s.setWatch i x).host = s.host := rfl

@[simp] theorem State.setPort_pending (p : Nat) (x : PortSt) : (s.setPort p x).pending = s.pending := rfl
@[simp] theorem State.setPort_free (p : Nat) (x : PortSt) : (s.setPort p x).free = s.free := rfl
@[simp] theorem State.setPort_partCnt (p : Nat) (x : PortSt) : (s.setPort p x).partCnt = s.partCnt := rfl
@[simp] theorem State.setPort_parts (p : Nat) (x : PortSt) : (s.setPort p x).parts = s.parts := rfl
@[simp] theorem State.setPort_engs (p : Nat) (x : PortSt) : (s.setPort p x).engs = s.engs := rfl
@[simp] theorem State.setPort_engMaps (p : Nat) (x : PortSt) : (s.setPort p x).engMaps = s.engMaps := rfl
@[simp] theorem State.setPort_deadPhys (p : Nat) (x : PortSt) : (s.setPort p x).deadPhys = s.deadPhys := rfl
@[simp] theorem State.setPort_engFlt (p : Nat) (x : PortSt) : (s.setPort p x).engFlt = s.engFlt := rfl
@[simp] theorem State.setPort_sems (p : Nat) (x : PortSt) : (s.setPort p x).sems = s.sems := rfl
@[simp] theorem State.setPort_watches (p : Nat) (x : PortSt) : (s.setPort p x).watches = s.watches := rfl
@[simp] theorem State.setPort_sync (p : Nat) (x : PortSt) : (s.setPort p x).sync = s.sync := rfl
@[simp] theorem State.setPort_txl (p : Nat) (x : PortSt) : (s.setPort p x).txl = s.txl := rfl
@[simp] theorem State.setPort_rxl (p : Nat) (x : PortSt) : (s.setPort p x).rxl = s.rxl := rfl
@[simp] theorem State.setPort_islands (p : Nat) (x : PortSt) : (s.setPort p x).islands = s.islands := rfl
@[simp] theorem State.setPort_combs (p : Nat) (x : PortSt) : (s.setPort p x).combs = s.combs := rfl
@[simp] theorem State.setPort_router (p : Nat) (x : PortSt) : (s.setPort p x).router = s.router := rfl
@[simp] theorem State.setPort_mem (p : Nat) (x : PortSt) : (s.setPort p x).mem = s.mem := rfl
@[simp] theorem State.setPort_power (p : Nat) (x : PortSt) : (s.setPort p x).power = s.power := rfl
@[simp] theorem State.setPort_clk (p : Nat) (x : PortSt) : (s.setPort p x).clk = s.clk := rfl
@[simp] theorem State.setPort_boot (p : Nat) (x : PortSt) : (s.setPort p x).boot = s.boot := rfl
@[simp] theorem State.setPort_obs (p : Nat) (x : PortSt) : (s.setPort p x).obs = s.obs := rfl
@[simp] theorem State.setPort_host (p : Nat) (x : PortSt) : (s.setPort p x).host = s.host := rfl

@[simp] theorem State.modPort_pending (p : Nat) (f : PortSt → PortSt) : (s.modPort p f).pending = s.pending := rfl
@[simp] theorem State.modPort_free (p : Nat) (f : PortSt → PortSt) : (s.modPort p f).free = s.free := rfl
@[simp] theorem State.modPort_partCnt (p : Nat) (f : PortSt → PortSt) : (s.modPort p f).partCnt = s.partCnt := rfl
@[simp] theorem State.modPort_parts (p : Nat) (f : PortSt → PortSt) : (s.modPort p f).parts = s.parts := rfl
@[simp] theorem State.modPort_engs (p : Nat) (f : PortSt → PortSt) : (s.modPort p f).engs = s.engs := rfl
@[simp] theorem State.modPort_engMaps (p : Nat) (f : PortSt → PortSt) : (s.modPort p f).engMaps = s.engMaps := rfl
@[simp] theorem State.modPort_deadPhys (p : Nat) (f : PortSt → PortSt) : (s.modPort p f).deadPhys = s.deadPhys := rfl
@[simp] theorem State.modPort_engFlt (p : Nat) (f : PortSt → PortSt) : (s.modPort p f).engFlt = s.engFlt := rfl
@[simp] theorem State.modPort_sems (p : Nat) (f : PortSt → PortSt) : (s.modPort p f).sems = s.sems := rfl
@[simp] theorem State.modPort_watches (p : Nat) (f : PortSt → PortSt) : (s.modPort p f).watches = s.watches := rfl
@[simp] theorem State.modPort_sync (p : Nat) (f : PortSt → PortSt) : (s.modPort p f).sync = s.sync := rfl
@[simp] theorem State.modPort_txl (p : Nat) (f : PortSt → PortSt) : (s.modPort p f).txl = s.txl := rfl
@[simp] theorem State.modPort_rxl (p : Nat) (f : PortSt → PortSt) : (s.modPort p f).rxl = s.rxl := rfl
@[simp] theorem State.modPort_islands (p : Nat) (f : PortSt → PortSt) : (s.modPort p f).islands = s.islands := rfl
@[simp] theorem State.modPort_combs (p : Nat) (f : PortSt → PortSt) : (s.modPort p f).combs = s.combs := rfl
@[simp] theorem State.modPort_router (p : Nat) (f : PortSt → PortSt) : (s.modPort p f).router = s.router := rfl
@[simp] theorem State.modPort_mem (p : Nat) (f : PortSt → PortSt) : (s.modPort p f).mem = s.mem := rfl
@[simp] theorem State.modPort_power (p : Nat) (f : PortSt → PortSt) : (s.modPort p f).power = s.power := rfl
@[simp] theorem State.modPort_clk (p : Nat) (f : PortSt → PortSt) : (s.modPort p f).clk = s.clk := rfl
@[simp] theorem State.modPort_boot (p : Nat) (f : PortSt → PortSt) : (s.modPort p f).boot = s.boot := rfl
@[simp] theorem State.modPort_obs (p : Nat) (f : PortSt → PortSt) : (s.modPort p f).obs = s.obs := rfl
@[simp] theorem State.modPort_host (p : Nat) (f : PortSt → PortSt) : (s.modPort p f).host = s.host := rfl

@[simp] theorem State.setFn_pending (n : Nat) (x : FnSt) : (s.setFn n x).pending = s.pending := rfl
@[simp] theorem State.setFn_free (n : Nat) (x : FnSt) : (s.setFn n x).free = s.free := rfl
@[simp] theorem State.setFn_partCnt (n : Nat) (x : FnSt) : (s.setFn n x).partCnt = s.partCnt := rfl
@[simp] theorem State.setFn_parts (n : Nat) (x : FnSt) : (s.setFn n x).parts = s.parts := rfl
@[simp] theorem State.setFn_engs (n : Nat) (x : FnSt) : (s.setFn n x).engs = s.engs := rfl
@[simp] theorem State.setFn_engMaps (n : Nat) (x : FnSt) : (s.setFn n x).engMaps = s.engMaps := rfl
@[simp] theorem State.setFn_deadPhys (n : Nat) (x : FnSt) : (s.setFn n x).deadPhys = s.deadPhys := rfl
@[simp] theorem State.setFn_engFlt (n : Nat) (x : FnSt) : (s.setFn n x).engFlt = s.engFlt := rfl
@[simp] theorem State.setFn_sems (n : Nat) (x : FnSt) : (s.setFn n x).sems = s.sems := rfl
@[simp] theorem State.setFn_watches (n : Nat) (x : FnSt) : (s.setFn n x).watches = s.watches := rfl
@[simp] theorem State.setFn_sync (n : Nat) (x : FnSt) : (s.setFn n x).sync = s.sync := rfl
@[simp] theorem State.setFn_txl (n : Nat) (x : FnSt) : (s.setFn n x).txl = s.txl := rfl
@[simp] theorem State.setFn_rxl (n : Nat) (x : FnSt) : (s.setFn n x).rxl = s.rxl := rfl
@[simp] theorem State.setFn_ports (n : Nat) (x : FnSt) : (s.setFn n x).ports = s.ports := rfl
@[simp] theorem State.setFn_islands (n : Nat) (x : FnSt) : (s.setFn n x).islands = s.islands := rfl
@[simp] theorem State.setFn_combs (n : Nat) (x : FnSt) : (s.setFn n x).combs = s.combs := rfl
@[simp] theorem State.setFn_router (n : Nat) (x : FnSt) : (s.setFn n x).router = s.router := rfl
@[simp] theorem State.setFn_mem (n : Nat) (x : FnSt) : (s.setFn n x).mem = s.mem := rfl
@[simp] theorem State.setFn_power (n : Nat) (x : FnSt) : (s.setFn n x).power = s.power := rfl
@[simp] theorem State.setFn_clk (n : Nat) (x : FnSt) : (s.setFn n x).clk = s.clk := rfl
@[simp] theorem State.setFn_boot (n : Nat) (x : FnSt) : (s.setFn n x).boot = s.boot := rfl
@[simp] theorem State.setFn_obs (n : Nat) (x : FnSt) : (s.setFn n x).obs = s.obs := rfl

@[simp] theorem State.modFn_pending (n : Nat) (f : FnSt → FnSt) : (s.modFn n f).pending = s.pending := rfl
@[simp] theorem State.modFn_free (n : Nat) (f : FnSt → FnSt) : (s.modFn n f).free = s.free := rfl
@[simp] theorem State.modFn_partCnt (n : Nat) (f : FnSt → FnSt) : (s.modFn n f).partCnt = s.partCnt := rfl
@[simp] theorem State.modFn_parts (n : Nat) (f : FnSt → FnSt) : (s.modFn n f).parts = s.parts := rfl
@[simp] theorem State.modFn_engs (n : Nat) (f : FnSt → FnSt) : (s.modFn n f).engs = s.engs := rfl
@[simp] theorem State.modFn_engMaps (n : Nat) (f : FnSt → FnSt) : (s.modFn n f).engMaps = s.engMaps := rfl
@[simp] theorem State.modFn_deadPhys (n : Nat) (f : FnSt → FnSt) : (s.modFn n f).deadPhys = s.deadPhys := rfl
@[simp] theorem State.modFn_engFlt (n : Nat) (f : FnSt → FnSt) : (s.modFn n f).engFlt = s.engFlt := rfl
@[simp] theorem State.modFn_sems (n : Nat) (f : FnSt → FnSt) : (s.modFn n f).sems = s.sems := rfl
@[simp] theorem State.modFn_watches (n : Nat) (f : FnSt → FnSt) : (s.modFn n f).watches = s.watches := rfl
@[simp] theorem State.modFn_sync (n : Nat) (f : FnSt → FnSt) : (s.modFn n f).sync = s.sync := rfl
@[simp] theorem State.modFn_txl (n : Nat) (f : FnSt → FnSt) : (s.modFn n f).txl = s.txl := rfl
@[simp] theorem State.modFn_rxl (n : Nat) (f : FnSt → FnSt) : (s.modFn n f).rxl = s.rxl := rfl
@[simp] theorem State.modFn_ports (n : Nat) (f : FnSt → FnSt) : (s.modFn n f).ports = s.ports := rfl
@[simp] theorem State.modFn_islands (n : Nat) (f : FnSt → FnSt) : (s.modFn n f).islands = s.islands := rfl
@[simp] theorem State.modFn_combs (n : Nat) (f : FnSt → FnSt) : (s.modFn n f).combs = s.combs := rfl
@[simp] theorem State.modFn_router (n : Nat) (f : FnSt → FnSt) : (s.modFn n f).router = s.router := rfl
@[simp] theorem State.modFn_mem (n : Nat) (f : FnSt → FnSt) : (s.modFn n f).mem = s.mem := rfl
@[simp] theorem State.modFn_power (n : Nat) (f : FnSt → FnSt) : (s.modFn n f).power = s.power := rfl
@[simp] theorem State.modFn_clk (n : Nat) (f : FnSt → FnSt) : (s.modFn n f).clk = s.clk := rfl
@[simp] theorem State.modFn_boot (n : Nat) (f : FnSt → FnSt) : (s.modFn n f).boot = s.boot := rfl
@[simp] theorem State.modFn_obs (n : Nat) (f : FnSt → FnSt) : (s.modFn n f).obs = s.obs := rfl

@[simp] theorem State.setIsland_pending (e : Nat) (x : Island) : (s.setIsland e x).pending = s.pending := rfl
@[simp] theorem State.setIsland_free (e : Nat) (x : Island) : (s.setIsland e x).free = s.free := rfl
@[simp] theorem State.setIsland_partCnt (e : Nat) (x : Island) : (s.setIsland e x).partCnt = s.partCnt := rfl
@[simp] theorem State.setIsland_parts (e : Nat) (x : Island) : (s.setIsland e x).parts = s.parts := rfl
@[simp] theorem State.setIsland_engs (e : Nat) (x : Island) : (s.setIsland e x).engs = s.engs := rfl
@[simp] theorem State.setIsland_engMaps (e : Nat) (x : Island) : (s.setIsland e x).engMaps = s.engMaps := rfl
@[simp] theorem State.setIsland_deadPhys (e : Nat) (x : Island) : (s.setIsland e x).deadPhys = s.deadPhys := rfl
@[simp] theorem State.setIsland_engFlt (e : Nat) (x : Island) : (s.setIsland e x).engFlt = s.engFlt := rfl
@[simp] theorem State.setIsland_sems (e : Nat) (x : Island) : (s.setIsland e x).sems = s.sems := rfl
@[simp] theorem State.setIsland_watches (e : Nat) (x : Island) : (s.setIsland e x).watches = s.watches := rfl
@[simp] theorem State.setIsland_sync (e : Nat) (x : Island) : (s.setIsland e x).sync = s.sync := rfl
@[simp] theorem State.setIsland_txl (e : Nat) (x : Island) : (s.setIsland e x).txl = s.txl := rfl
@[simp] theorem State.setIsland_rxl (e : Nat) (x : Island) : (s.setIsland e x).rxl = s.rxl := rfl
@[simp] theorem State.setIsland_ports (e : Nat) (x : Island) : (s.setIsland e x).ports = s.ports := rfl
@[simp] theorem State.setIsland_combs (e : Nat) (x : Island) : (s.setIsland e x).combs = s.combs := rfl
@[simp] theorem State.setIsland_router (e : Nat) (x : Island) : (s.setIsland e x).router = s.router := rfl
@[simp] theorem State.setIsland_mem (e : Nat) (x : Island) : (s.setIsland e x).mem = s.mem := rfl
@[simp] theorem State.setIsland_power (e : Nat) (x : Island) : (s.setIsland e x).power = s.power := rfl
@[simp] theorem State.setIsland_clk (e : Nat) (x : Island) : (s.setIsland e x).clk = s.clk := rfl
@[simp] theorem State.setIsland_boot (e : Nat) (x : Island) : (s.setIsland e x).boot = s.boot := rfl
@[simp] theorem State.setIsland_obs (e : Nat) (x : Island) : (s.setIsland e x).obs = s.obs := rfl
@[simp] theorem State.setIsland_host (e : Nat) (x : Island) : (s.setIsland e x).host = s.host := rfl

@[simp] theorem State.setComb_pending (k : Nat) (x : Comb) : (s.setComb k x).pending = s.pending := rfl
@[simp] theorem State.setComb_free (k : Nat) (x : Comb) : (s.setComb k x).free = s.free := rfl
@[simp] theorem State.setComb_partCnt (k : Nat) (x : Comb) : (s.setComb k x).partCnt = s.partCnt := rfl
@[simp] theorem State.setComb_parts (k : Nat) (x : Comb) : (s.setComb k x).parts = s.parts := rfl
@[simp] theorem State.setComb_engs (k : Nat) (x : Comb) : (s.setComb k x).engs = s.engs := rfl
@[simp] theorem State.setComb_engMaps (k : Nat) (x : Comb) : (s.setComb k x).engMaps = s.engMaps := rfl
@[simp] theorem State.setComb_deadPhys (k : Nat) (x : Comb) : (s.setComb k x).deadPhys = s.deadPhys := rfl
@[simp] theorem State.setComb_engFlt (k : Nat) (x : Comb) : (s.setComb k x).engFlt = s.engFlt := rfl
@[simp] theorem State.setComb_sems (k : Nat) (x : Comb) : (s.setComb k x).sems = s.sems := rfl
@[simp] theorem State.setComb_watches (k : Nat) (x : Comb) : (s.setComb k x).watches = s.watches := rfl
@[simp] theorem State.setComb_sync (k : Nat) (x : Comb) : (s.setComb k x).sync = s.sync := rfl
@[simp] theorem State.setComb_txl (k : Nat) (x : Comb) : (s.setComb k x).txl = s.txl := rfl
@[simp] theorem State.setComb_rxl (k : Nat) (x : Comb) : (s.setComb k x).rxl = s.rxl := rfl
@[simp] theorem State.setComb_ports (k : Nat) (x : Comb) : (s.setComb k x).ports = s.ports := rfl
@[simp] theorem State.setComb_islands (k : Nat) (x : Comb) : (s.setComb k x).islands = s.islands := rfl
@[simp] theorem State.setComb_router (k : Nat) (x : Comb) : (s.setComb k x).router = s.router := rfl
@[simp] theorem State.setComb_mem (k : Nat) (x : Comb) : (s.setComb k x).mem = s.mem := rfl
@[simp] theorem State.setComb_power (k : Nat) (x : Comb) : (s.setComb k x).power = s.power := rfl
@[simp] theorem State.setComb_clk (k : Nat) (x : Comb) : (s.setComb k x).clk = s.clk := rfl
@[simp] theorem State.setComb_boot (k : Nat) (x : Comb) : (s.setComb k x).boot = s.boot := rfl
@[simp] theorem State.setComb_obs (k : Nat) (x : Comb) : (s.setComb k x).obs = s.obs := rfl
@[simp] theorem State.setComb_host (k : Nat) (x : Comb) : (s.setComb k x).host = s.host := rfl

@[simp] theorem State.modComb_pending (k : Nat) (f : Comb → Comb) : (s.modComb k f).pending = s.pending := rfl
@[simp] theorem State.modComb_free (k : Nat) (f : Comb → Comb) : (s.modComb k f).free = s.free := rfl
@[simp] theorem State.modComb_partCnt (k : Nat) (f : Comb → Comb) : (s.modComb k f).partCnt = s.partCnt := rfl
@[simp] theorem State.modComb_parts (k : Nat) (f : Comb → Comb) : (s.modComb k f).parts = s.parts := rfl
@[simp] theorem State.modComb_engs (k : Nat) (f : Comb → Comb) : (s.modComb k f).engs = s.engs := rfl
@[simp] theorem State.modComb_engMaps (k : Nat) (f : Comb → Comb) : (s.modComb k f).engMaps = s.engMaps := rfl
@[simp] theorem State.modComb_deadPhys (k : Nat) (f : Comb → Comb) : (s.modComb k f).deadPhys = s.deadPhys := rfl
@[simp] theorem State.modComb_engFlt (k : Nat) (f : Comb → Comb) : (s.modComb k f).engFlt = s.engFlt := rfl
@[simp] theorem State.modComb_sems (k : Nat) (f : Comb → Comb) : (s.modComb k f).sems = s.sems := rfl
@[simp] theorem State.modComb_watches (k : Nat) (f : Comb → Comb) : (s.modComb k f).watches = s.watches := rfl
@[simp] theorem State.modComb_sync (k : Nat) (f : Comb → Comb) : (s.modComb k f).sync = s.sync := rfl
@[simp] theorem State.modComb_txl (k : Nat) (f : Comb → Comb) : (s.modComb k f).txl = s.txl := rfl
@[simp] theorem State.modComb_rxl (k : Nat) (f : Comb → Comb) : (s.modComb k f).rxl = s.rxl := rfl
@[simp] theorem State.modComb_ports (k : Nat) (f : Comb → Comb) : (s.modComb k f).ports = s.ports := rfl
@[simp] theorem State.modComb_islands (k : Nat) (f : Comb → Comb) : (s.modComb k f).islands = s.islands := rfl
@[simp] theorem State.modComb_router (k : Nat) (f : Comb → Comb) : (s.modComb k f).router = s.router := rfl
@[simp] theorem State.modComb_mem (k : Nat) (f : Comb → Comb) : (s.modComb k f).mem = s.mem := rfl
@[simp] theorem State.modComb_power (k : Nat) (f : Comb → Comb) : (s.modComb k f).power = s.power := rfl
@[simp] theorem State.modComb_clk (k : Nat) (f : Comb → Comb) : (s.modComb k f).clk = s.clk := rfl
@[simp] theorem State.modComb_boot (k : Nat) (f : Comb → Comb) : (s.modComb k f).boot = s.boot := rfl
@[simp] theorem State.modComb_obs (k : Nat) (f : Comb → Comb) : (s.modComb k f).obs = s.obs := rfl
@[simp] theorem State.modComb_host (k : Nat) (f : Comb → Comb) : (s.modComb k f).host = s.host := rfl

@[simp] theorem State.setTx_pending (p c : Nat) (x : TxLane) : (s.setTx p c x).pending = s.pending := rfl
@[simp] theorem State.setTx_free (p c : Nat) (x : TxLane) : (s.setTx p c x).free = s.free := rfl
@[simp] theorem State.setTx_partCnt (p c : Nat) (x : TxLane) : (s.setTx p c x).partCnt = s.partCnt := rfl
@[simp] theorem State.setTx_parts (p c : Nat) (x : TxLane) : (s.setTx p c x).parts = s.parts := rfl
@[simp] theorem State.setTx_engs (p c : Nat) (x : TxLane) : (s.setTx p c x).engs = s.engs := rfl
@[simp] theorem State.setTx_engMaps (p c : Nat) (x : TxLane) : (s.setTx p c x).engMaps = s.engMaps := rfl
@[simp] theorem State.setTx_deadPhys (p c : Nat) (x : TxLane) : (s.setTx p c x).deadPhys = s.deadPhys := rfl
@[simp] theorem State.setTx_engFlt (p c : Nat) (x : TxLane) : (s.setTx p c x).engFlt = s.engFlt := rfl
@[simp] theorem State.setTx_sems (p c : Nat) (x : TxLane) : (s.setTx p c x).sems = s.sems := rfl
@[simp] theorem State.setTx_watches (p c : Nat) (x : TxLane) : (s.setTx p c x).watches = s.watches := rfl
@[simp] theorem State.setTx_sync (p c : Nat) (x : TxLane) : (s.setTx p c x).sync = s.sync := rfl
@[simp] theorem State.setTx_rxl (p c : Nat) (x : TxLane) : (s.setTx p c x).rxl = s.rxl := rfl
@[simp] theorem State.setTx_ports (p c : Nat) (x : TxLane) : (s.setTx p c x).ports = s.ports := rfl
@[simp] theorem State.setTx_islands (p c : Nat) (x : TxLane) : (s.setTx p c x).islands = s.islands := rfl
@[simp] theorem State.setTx_combs (p c : Nat) (x : TxLane) : (s.setTx p c x).combs = s.combs := rfl
@[simp] theorem State.setTx_router (p c : Nat) (x : TxLane) : (s.setTx p c x).router = s.router := rfl
@[simp] theorem State.setTx_mem (p c : Nat) (x : TxLane) : (s.setTx p c x).mem = s.mem := rfl
@[simp] theorem State.setTx_power (p c : Nat) (x : TxLane) : (s.setTx p c x).power = s.power := rfl
@[simp] theorem State.setTx_clk (p c : Nat) (x : TxLane) : (s.setTx p c x).clk = s.clk := rfl
@[simp] theorem State.setTx_boot (p c : Nat) (x : TxLane) : (s.setTx p c x).boot = s.boot := rfl
@[simp] theorem State.setTx_obs (p c : Nat) (x : TxLane) : (s.setTx p c x).obs = s.obs := rfl
@[simp] theorem State.setTx_host (p c : Nat) (x : TxLane) : (s.setTx p c x).host = s.host := rfl

@[simp] theorem State.modTx_pending (p c : Nat) (f : TxLane → TxLane) : (s.modTx p c f).pending = s.pending := rfl
@[simp] theorem State.modTx_free (p c : Nat) (f : TxLane → TxLane) : (s.modTx p c f).free = s.free := rfl
@[simp] theorem State.modTx_partCnt (p c : Nat) (f : TxLane → TxLane) : (s.modTx p c f).partCnt = s.partCnt := rfl
@[simp] theorem State.modTx_parts (p c : Nat) (f : TxLane → TxLane) : (s.modTx p c f).parts = s.parts := rfl
@[simp] theorem State.modTx_engs (p c : Nat) (f : TxLane → TxLane) : (s.modTx p c f).engs = s.engs := rfl
@[simp] theorem State.modTx_engMaps (p c : Nat) (f : TxLane → TxLane) : (s.modTx p c f).engMaps = s.engMaps := rfl
@[simp] theorem State.modTx_deadPhys (p c : Nat) (f : TxLane → TxLane) : (s.modTx p c f).deadPhys = s.deadPhys := rfl
@[simp] theorem State.modTx_engFlt (p c : Nat) (f : TxLane → TxLane) : (s.modTx p c f).engFlt = s.engFlt := rfl
@[simp] theorem State.modTx_sems (p c : Nat) (f : TxLane → TxLane) : (s.modTx p c f).sems = s.sems := rfl
@[simp] theorem State.modTx_watches (p c : Nat) (f : TxLane → TxLane) : (s.modTx p c f).watches = s.watches := rfl
@[simp] theorem State.modTx_sync (p c : Nat) (f : TxLane → TxLane) : (s.modTx p c f).sync = s.sync := rfl
@[simp] theorem State.modTx_rxl (p c : Nat) (f : TxLane → TxLane) : (s.modTx p c f).rxl = s.rxl := rfl
@[simp] theorem State.modTx_ports (p c : Nat) (f : TxLane → TxLane) : (s.modTx p c f).ports = s.ports := rfl
@[simp] theorem State.modTx_islands (p c : Nat) (f : TxLane → TxLane) : (s.modTx p c f).islands = s.islands := rfl
@[simp] theorem State.modTx_combs (p c : Nat) (f : TxLane → TxLane) : (s.modTx p c f).combs = s.combs := rfl
@[simp] theorem State.modTx_router (p c : Nat) (f : TxLane → TxLane) : (s.modTx p c f).router = s.router := rfl
@[simp] theorem State.modTx_mem (p c : Nat) (f : TxLane → TxLane) : (s.modTx p c f).mem = s.mem := rfl
@[simp] theorem State.modTx_power (p c : Nat) (f : TxLane → TxLane) : (s.modTx p c f).power = s.power := rfl
@[simp] theorem State.modTx_clk (p c : Nat) (f : TxLane → TxLane) : (s.modTx p c f).clk = s.clk := rfl
@[simp] theorem State.modTx_boot (p c : Nat) (f : TxLane → TxLane) : (s.modTx p c f).boot = s.boot := rfl
@[simp] theorem State.modTx_obs (p c : Nat) (f : TxLane → TxLane) : (s.modTx p c f).obs = s.obs := rfl
@[simp] theorem State.modTx_host (p c : Nat) (f : TxLane → TxLane) : (s.modTx p c f).host = s.host := rfl

@[simp] theorem State.setRx_pending (p c : Nat) (x : RxLane) : (s.setRx p c x).pending = s.pending := rfl
@[simp] theorem State.setRx_free (p c : Nat) (x : RxLane) : (s.setRx p c x).free = s.free := rfl
@[simp] theorem State.setRx_partCnt (p c : Nat) (x : RxLane) : (s.setRx p c x).partCnt = s.partCnt := rfl
@[simp] theorem State.setRx_parts (p c : Nat) (x : RxLane) : (s.setRx p c x).parts = s.parts := rfl
@[simp] theorem State.setRx_engs (p c : Nat) (x : RxLane) : (s.setRx p c x).engs = s.engs := rfl
@[simp] theorem State.setRx_engMaps (p c : Nat) (x : RxLane) : (s.setRx p c x).engMaps = s.engMaps := rfl
@[simp] theorem State.setRx_deadPhys (p c : Nat) (x : RxLane) : (s.setRx p c x).deadPhys = s.deadPhys := rfl
@[simp] theorem State.setRx_engFlt (p c : Nat) (x : RxLane) : (s.setRx p c x).engFlt = s.engFlt := rfl
@[simp] theorem State.setRx_sems (p c : Nat) (x : RxLane) : (s.setRx p c x).sems = s.sems := rfl
@[simp] theorem State.setRx_watches (p c : Nat) (x : RxLane) : (s.setRx p c x).watches = s.watches := rfl
@[simp] theorem State.setRx_sync (p c : Nat) (x : RxLane) : (s.setRx p c x).sync = s.sync := rfl
@[simp] theorem State.setRx_txl (p c : Nat) (x : RxLane) : (s.setRx p c x).txl = s.txl := rfl
@[simp] theorem State.setRx_ports (p c : Nat) (x : RxLane) : (s.setRx p c x).ports = s.ports := rfl
@[simp] theorem State.setRx_islands (p c : Nat) (x : RxLane) : (s.setRx p c x).islands = s.islands := rfl
@[simp] theorem State.setRx_combs (p c : Nat) (x : RxLane) : (s.setRx p c x).combs = s.combs := rfl
@[simp] theorem State.setRx_router (p c : Nat) (x : RxLane) : (s.setRx p c x).router = s.router := rfl
@[simp] theorem State.setRx_mem (p c : Nat) (x : RxLane) : (s.setRx p c x).mem = s.mem := rfl
@[simp] theorem State.setRx_power (p c : Nat) (x : RxLane) : (s.setRx p c x).power = s.power := rfl
@[simp] theorem State.setRx_clk (p c : Nat) (x : RxLane) : (s.setRx p c x).clk = s.clk := rfl
@[simp] theorem State.setRx_boot (p c : Nat) (x : RxLane) : (s.setRx p c x).boot = s.boot := rfl
@[simp] theorem State.setRx_obs (p c : Nat) (x : RxLane) : (s.setRx p c x).obs = s.obs := rfl
@[simp] theorem State.setRx_host (p c : Nat) (x : RxLane) : (s.setRx p c x).host = s.host := rfl

@[simp] theorem State.modRx_pending (p c : Nat) (f : RxLane → RxLane) : (s.modRx p c f).pending = s.pending := rfl
@[simp] theorem State.modRx_free (p c : Nat) (f : RxLane → RxLane) : (s.modRx p c f).free = s.free := rfl
@[simp] theorem State.modRx_partCnt (p c : Nat) (f : RxLane → RxLane) : (s.modRx p c f).partCnt = s.partCnt := rfl
@[simp] theorem State.modRx_parts (p c : Nat) (f : RxLane → RxLane) : (s.modRx p c f).parts = s.parts := rfl
@[simp] theorem State.modRx_engs (p c : Nat) (f : RxLane → RxLane) : (s.modRx p c f).engs = s.engs := rfl
@[simp] theorem State.modRx_engMaps (p c : Nat) (f : RxLane → RxLane) : (s.modRx p c f).engMaps = s.engMaps := rfl
@[simp] theorem State.modRx_deadPhys (p c : Nat) (f : RxLane → RxLane) : (s.modRx p c f).deadPhys = s.deadPhys := rfl
@[simp] theorem State.modRx_engFlt (p c : Nat) (f : RxLane → RxLane) : (s.modRx p c f).engFlt = s.engFlt := rfl
@[simp] theorem State.modRx_sems (p c : Nat) (f : RxLane → RxLane) : (s.modRx p c f).sems = s.sems := rfl
@[simp] theorem State.modRx_watches (p c : Nat) (f : RxLane → RxLane) : (s.modRx p c f).watches = s.watches := rfl
@[simp] theorem State.modRx_sync (p c : Nat) (f : RxLane → RxLane) : (s.modRx p c f).sync = s.sync := rfl
@[simp] theorem State.modRx_txl (p c : Nat) (f : RxLane → RxLane) : (s.modRx p c f).txl = s.txl := rfl
@[simp] theorem State.modRx_ports (p c : Nat) (f : RxLane → RxLane) : (s.modRx p c f).ports = s.ports := rfl
@[simp] theorem State.modRx_islands (p c : Nat) (f : RxLane → RxLane) : (s.modRx p c f).islands = s.islands := rfl
@[simp] theorem State.modRx_combs (p c : Nat) (f : RxLane → RxLane) : (s.modRx p c f).combs = s.combs := rfl
@[simp] theorem State.modRx_router (p c : Nat) (f : RxLane → RxLane) : (s.modRx p c f).router = s.router := rfl
@[simp] theorem State.modRx_mem (p c : Nat) (f : RxLane → RxLane) : (s.modRx p c f).mem = s.mem := rfl
@[simp] theorem State.modRx_power (p c : Nat) (f : RxLane → RxLane) : (s.modRx p c f).power = s.power := rfl
@[simp] theorem State.modRx_clk (p c : Nat) (f : RxLane → RxLane) : (s.modRx p c f).clk = s.clk := rfl
@[simp] theorem State.modRx_boot (p c : Nat) (f : RxLane → RxLane) : (s.modRx p c f).boot = s.boot := rfl
@[simp] theorem State.modRx_obs (p c : Nat) (f : RxLane → RxLane) : (s.modRx p c f).obs = s.obs := rfl
@[simp] theorem State.modRx_host (p c : Nat) (f : RxLane → RxLane) : (s.modRx p c f).host = s.host := rfl

@[simp] theorem State.syncBit_pending (i : Nat) : (s.syncBit i).pending = s.pending := rfl
@[simp] theorem State.syncBit_free (i : Nat) : (s.syncBit i).free = s.free := rfl
@[simp] theorem State.syncBit_partCnt (i : Nat) : (s.syncBit i).partCnt = s.partCnt := rfl
@[simp] theorem State.syncBit_parts (i : Nat) : (s.syncBit i).parts = s.parts := rfl
@[simp] theorem State.syncBit_engs (i : Nat) : (s.syncBit i).engs = s.engs := rfl
@[simp] theorem State.syncBit_engMaps (i : Nat) : (s.syncBit i).engMaps = s.engMaps := rfl
@[simp] theorem State.syncBit_deadPhys (i : Nat) : (s.syncBit i).deadPhys = s.deadPhys := rfl
@[simp] theorem State.syncBit_engFlt (i : Nat) : (s.syncBit i).engFlt = s.engFlt := rfl
@[simp] theorem State.syncBit_sems (i : Nat) : (s.syncBit i).sems = s.sems := rfl
@[simp] theorem State.syncBit_watches (i : Nat) : (s.syncBit i).watches = s.watches := rfl
@[simp] theorem State.syncBit_txl (i : Nat) : (s.syncBit i).txl = s.txl := rfl
@[simp] theorem State.syncBit_rxl (i : Nat) : (s.syncBit i).rxl = s.rxl := rfl
@[simp] theorem State.syncBit_ports (i : Nat) : (s.syncBit i).ports = s.ports := rfl
@[simp] theorem State.syncBit_islands (i : Nat) : (s.syncBit i).islands = s.islands := rfl
@[simp] theorem State.syncBit_combs (i : Nat) : (s.syncBit i).combs = s.combs := rfl
@[simp] theorem State.syncBit_router (i : Nat) : (s.syncBit i).router = s.router := rfl
@[simp] theorem State.syncBit_mem (i : Nat) : (s.syncBit i).mem = s.mem := rfl
@[simp] theorem State.syncBit_power (i : Nat) : (s.syncBit i).power = s.power := rfl
@[simp] theorem State.syncBit_clk (i : Nat) : (s.syncBit i).clk = s.clk := rfl
@[simp] theorem State.syncBit_boot (i : Nat) : (s.syncBit i).boot = s.boot := rfl
@[simp] theorem State.syncBit_obs (i : Nat) : (s.syncBit i).obs = s.obs := rfl
@[simp] theorem State.syncBit_host (i : Nat) : (s.syncBit i).host = s.host := rfl

@[simp] theorem State.routeBit_pending (i : Nat) : (s.routeBit i).pending = s.pending := rfl
@[simp] theorem State.routeBit_free (i : Nat) : (s.routeBit i).free = s.free := rfl
@[simp] theorem State.routeBit_partCnt (i : Nat) : (s.routeBit i).partCnt = s.partCnt := rfl
@[simp] theorem State.routeBit_parts (i : Nat) : (s.routeBit i).parts = s.parts := rfl
@[simp] theorem State.routeBit_engs (i : Nat) : (s.routeBit i).engs = s.engs := rfl
@[simp] theorem State.routeBit_engMaps (i : Nat) : (s.routeBit i).engMaps = s.engMaps := rfl
@[simp] theorem State.routeBit_deadPhys (i : Nat) : (s.routeBit i).deadPhys = s.deadPhys := rfl
@[simp] theorem State.routeBit_engFlt (i : Nat) : (s.routeBit i).engFlt = s.engFlt := rfl
@[simp] theorem State.routeBit_sems (i : Nat) : (s.routeBit i).sems = s.sems := rfl
@[simp] theorem State.routeBit_watches (i : Nat) : (s.routeBit i).watches = s.watches := rfl
@[simp] theorem State.routeBit_sync (i : Nat) : (s.routeBit i).sync = s.sync := rfl
@[simp] theorem State.routeBit_txl (i : Nat) : (s.routeBit i).txl = s.txl := rfl
@[simp] theorem State.routeBit_rxl (i : Nat) : (s.routeBit i).rxl = s.rxl := rfl
@[simp] theorem State.routeBit_ports (i : Nat) : (s.routeBit i).ports = s.ports := rfl
@[simp] theorem State.routeBit_islands (i : Nat) : (s.routeBit i).islands = s.islands := rfl
@[simp] theorem State.routeBit_combs (i : Nat) : (s.routeBit i).combs = s.combs := rfl
@[simp] theorem State.routeBit_mem (i : Nat) : (s.routeBit i).mem = s.mem := rfl
@[simp] theorem State.routeBit_power (i : Nat) : (s.routeBit i).power = s.power := rfl
@[simp] theorem State.routeBit_clk (i : Nat) : (s.routeBit i).clk = s.clk := rfl
@[simp] theorem State.routeBit_boot (i : Nat) : (s.routeBit i).boot = s.boot := rfl
@[simp] theorem State.routeBit_obs (i : Nat) : (s.routeBit i).obs = s.obs := rfl
@[simp] theorem State.routeBit_host (i : Nat) : (s.routeBit i).host = s.host := rfl

@[simp] theorem State.pwrBit_pending (i : Nat) : (s.pwrBit i).pending = s.pending := rfl
@[simp] theorem State.pwrBit_free (i : Nat) : (s.pwrBit i).free = s.free := rfl
@[simp] theorem State.pwrBit_partCnt (i : Nat) : (s.pwrBit i).partCnt = s.partCnt := rfl
@[simp] theorem State.pwrBit_parts (i : Nat) : (s.pwrBit i).parts = s.parts := rfl
@[simp] theorem State.pwrBit_engs (i : Nat) : (s.pwrBit i).engs = s.engs := rfl
@[simp] theorem State.pwrBit_engMaps (i : Nat) : (s.pwrBit i).engMaps = s.engMaps := rfl
@[simp] theorem State.pwrBit_deadPhys (i : Nat) : (s.pwrBit i).deadPhys = s.deadPhys := rfl
@[simp] theorem State.pwrBit_engFlt (i : Nat) : (s.pwrBit i).engFlt = s.engFlt := rfl
@[simp] theorem State.pwrBit_sems (i : Nat) : (s.pwrBit i).sems = s.sems := rfl
@[simp] theorem State.pwrBit_watches (i : Nat) : (s.pwrBit i).watches = s.watches := rfl
@[simp] theorem State.pwrBit_sync (i : Nat) : (s.pwrBit i).sync = s.sync := rfl
@[simp] theorem State.pwrBit_txl (i : Nat) : (s.pwrBit i).txl = s.txl := rfl
@[simp] theorem State.pwrBit_rxl (i : Nat) : (s.pwrBit i).rxl = s.rxl := rfl
@[simp] theorem State.pwrBit_ports (i : Nat) : (s.pwrBit i).ports = s.ports := rfl
@[simp] theorem State.pwrBit_islands (i : Nat) : (s.pwrBit i).islands = s.islands := rfl
@[simp] theorem State.pwrBit_combs (i : Nat) : (s.pwrBit i).combs = s.combs := rfl
@[simp] theorem State.pwrBit_router (i : Nat) : (s.pwrBit i).router = s.router := rfl
@[simp] theorem State.pwrBit_mem (i : Nat) : (s.pwrBit i).mem = s.mem := rfl
@[simp] theorem State.pwrBit_clk (i : Nat) : (s.pwrBit i).clk = s.clk := rfl
@[simp] theorem State.pwrBit_boot (i : Nat) : (s.pwrBit i).boot = s.boot := rfl
@[simp] theorem State.pwrBit_obs (i : Nat) : (s.pwrBit i).obs = s.obs := rfl
@[simp] theorem State.pwrBit_host (i : Nat) : (s.pwrBit i).host = s.host := rfl

@[simp] theorem State.clkBit_pending (i : Nat) : (s.clkBit i).pending = s.pending := rfl
@[simp] theorem State.clkBit_free (i : Nat) : (s.clkBit i).free = s.free := rfl
@[simp] theorem State.clkBit_partCnt (i : Nat) : (s.clkBit i).partCnt = s.partCnt := rfl
@[simp] theorem State.clkBit_parts (i : Nat) : (s.clkBit i).parts = s.parts := rfl
@[simp] theorem State.clkBit_engs (i : Nat) : (s.clkBit i).engs = s.engs := rfl
@[simp] theorem State.clkBit_engMaps (i : Nat) : (s.clkBit i).engMaps = s.engMaps := rfl
@[simp] theorem State.clkBit_deadPhys (i : Nat) : (s.clkBit i).deadPhys = s.deadPhys := rfl
@[simp] theorem State.clkBit_engFlt (i : Nat) : (s.clkBit i).engFlt = s.engFlt := rfl
@[simp] theorem State.clkBit_sems (i : Nat) : (s.clkBit i).sems = s.sems := rfl
@[simp] theorem State.clkBit_watches (i : Nat) : (s.clkBit i).watches = s.watches := rfl
@[simp] theorem State.clkBit_sync (i : Nat) : (s.clkBit i).sync = s.sync := rfl
@[simp] theorem State.clkBit_txl (i : Nat) : (s.clkBit i).txl = s.txl := rfl
@[simp] theorem State.clkBit_rxl (i : Nat) : (s.clkBit i).rxl = s.rxl := rfl
@[simp] theorem State.clkBit_ports (i : Nat) : (s.clkBit i).ports = s.ports := rfl
@[simp] theorem State.clkBit_islands (i : Nat) : (s.clkBit i).islands = s.islands := rfl
@[simp] theorem State.clkBit_combs (i : Nat) : (s.clkBit i).combs = s.combs := rfl
@[simp] theorem State.clkBit_router (i : Nat) : (s.clkBit i).router = s.router := rfl
@[simp] theorem State.clkBit_mem (i : Nat) : (s.clkBit i).mem = s.mem := rfl
@[simp] theorem State.clkBit_power (i : Nat) : (s.clkBit i).power = s.power := rfl
@[simp] theorem State.clkBit_boot (i : Nat) : (s.clkBit i).boot = s.boot := rfl
@[simp] theorem State.clkBit_obs (i : Nat) : (s.clkBit i).obs = s.obs := rfl
@[simp] theorem State.clkBit_host (i : Nat) : (s.clkBit i).host = s.host := rfl

@[simp] theorem State.modBit_pending (i : Nat) : (s.modBit i).pending = s.pending := rfl
@[simp] theorem State.modBit_free (i : Nat) : (s.modBit i).free = s.free := rfl
@[simp] theorem State.modBit_partCnt (i : Nat) : (s.modBit i).partCnt = s.partCnt := rfl
@[simp] theorem State.modBit_parts (i : Nat) : (s.modBit i).parts = s.parts := rfl
@[simp] theorem State.modBit_engs (i : Nat) : (s.modBit i).engs = s.engs := rfl
@[simp] theorem State.modBit_engMaps (i : Nat) : (s.modBit i).engMaps = s.engMaps := rfl
@[simp] theorem State.modBit_deadPhys (i : Nat) : (s.modBit i).deadPhys = s.deadPhys := rfl
@[simp] theorem State.modBit_engFlt (i : Nat) : (s.modBit i).engFlt = s.engFlt := rfl
@[simp] theorem State.modBit_sems (i : Nat) : (s.modBit i).sems = s.sems := rfl
@[simp] theorem State.modBit_watches (i : Nat) : (s.modBit i).watches = s.watches := rfl
@[simp] theorem State.modBit_sync (i : Nat) : (s.modBit i).sync = s.sync := rfl
@[simp] theorem State.modBit_txl (i : Nat) : (s.modBit i).txl = s.txl := rfl
@[simp] theorem State.modBit_rxl (i : Nat) : (s.modBit i).rxl = s.rxl := rfl
@[simp] theorem State.modBit_ports (i : Nat) : (s.modBit i).ports = s.ports := rfl
@[simp] theorem State.modBit_islands (i : Nat) : (s.modBit i).islands = s.islands := rfl
@[simp] theorem State.modBit_combs (i : Nat) : (s.modBit i).combs = s.combs := rfl
@[simp] theorem State.modBit_router (i : Nat) : (s.modBit i).router = s.router := rfl
@[simp] theorem State.modBit_mem (i : Nat) : (s.modBit i).mem = s.mem := rfl
@[simp] theorem State.modBit_power (i : Nat) : (s.modBit i).power = s.power := rfl
@[simp] theorem State.modBit_clk (i : Nat) : (s.modBit i).clk = s.clk := rfl
@[simp] theorem State.modBit_obs (i : Nat) : (s.modBit i).obs = s.obs := rfl
@[simp] theorem State.modBit_host (i : Nat) : (s.modBit i).host = s.host := rfl

@[simp] theorem State.eccBit_pending (i : Nat) : (s.eccBit i).pending = s.pending := rfl
@[simp] theorem State.eccBit_free (i : Nat) : (s.eccBit i).free = s.free := rfl
@[simp] theorem State.eccBit_partCnt (i : Nat) : (s.eccBit i).partCnt = s.partCnt := rfl
@[simp] theorem State.eccBit_parts (i : Nat) : (s.eccBit i).parts = s.parts := rfl
@[simp] theorem State.eccBit_engs (i : Nat) : (s.eccBit i).engs = s.engs := rfl
@[simp] theorem State.eccBit_engMaps (i : Nat) : (s.eccBit i).engMaps = s.engMaps := rfl
@[simp] theorem State.eccBit_deadPhys (i : Nat) : (s.eccBit i).deadPhys = s.deadPhys := rfl
@[simp] theorem State.eccBit_engFlt (i : Nat) : (s.eccBit i).engFlt = s.engFlt := rfl
@[simp] theorem State.eccBit_sems (i : Nat) : (s.eccBit i).sems = s.sems := rfl
@[simp] theorem State.eccBit_watches (i : Nat) : (s.eccBit i).watches = s.watches := rfl
@[simp] theorem State.eccBit_sync (i : Nat) : (s.eccBit i).sync = s.sync := rfl
@[simp] theorem State.eccBit_txl (i : Nat) : (s.eccBit i).txl = s.txl := rfl
@[simp] theorem State.eccBit_rxl (i : Nat) : (s.eccBit i).rxl = s.rxl := rfl
@[simp] theorem State.eccBit_ports (i : Nat) : (s.eccBit i).ports = s.ports := rfl
@[simp] theorem State.eccBit_islands (i : Nat) : (s.eccBit i).islands = s.islands := rfl
@[simp] theorem State.eccBit_combs (i : Nat) : (s.eccBit i).combs = s.combs := rfl
@[simp] theorem State.eccBit_router (i : Nat) : (s.eccBit i).router = s.router := rfl
@[simp] theorem State.eccBit_power (i : Nat) : (s.eccBit i).power = s.power := rfl
@[simp] theorem State.eccBit_clk (i : Nat) : (s.eccBit i).clk = s.clk := rfl
@[simp] theorem State.eccBit_boot (i : Nat) : (s.eccBit i).boot = s.boot := rfl
@[simp] theorem State.eccBit_obs (i : Nat) : (s.eccBit i).obs = s.obs := rfl
@[simp] theorem State.eccBit_host (i : Nat) : (s.eccBit i).host = s.host := rfl

@[simp] theorem State.fltBit_pending (i : Nat) : (s.fltBit i).pending = s.pending := rfl
@[simp] theorem State.fltBit_free (i : Nat) : (s.fltBit i).free = s.free := rfl
@[simp] theorem State.fltBit_partCnt (i : Nat) : (s.fltBit i).partCnt = s.partCnt := rfl
@[simp] theorem State.fltBit_parts (i : Nat) : (s.fltBit i).parts = s.parts := rfl
@[simp] theorem State.fltBit_engs (i : Nat) : (s.fltBit i).engs = s.engs := rfl
@[simp] theorem State.fltBit_engMaps (i : Nat) : (s.fltBit i).engMaps = s.engMaps := rfl
@[simp] theorem State.fltBit_deadPhys (i : Nat) : (s.fltBit i).deadPhys = s.deadPhys := rfl
@[simp] theorem State.fltBit_sems (i : Nat) : (s.fltBit i).sems = s.sems := rfl
@[simp] theorem State.fltBit_watches (i : Nat) : (s.fltBit i).watches = s.watches := rfl
@[simp] theorem State.fltBit_sync (i : Nat) : (s.fltBit i).sync = s.sync := rfl
@[simp] theorem State.fltBit_txl (i : Nat) : (s.fltBit i).txl = s.txl := rfl
@[simp] theorem State.fltBit_rxl (i : Nat) : (s.fltBit i).rxl = s.rxl := rfl
@[simp] theorem State.fltBit_ports (i : Nat) : (s.fltBit i).ports = s.ports := rfl
@[simp] theorem State.fltBit_islands (i : Nat) : (s.fltBit i).islands = s.islands := rfl
@[simp] theorem State.fltBit_combs (i : Nat) : (s.fltBit i).combs = s.combs := rfl
@[simp] theorem State.fltBit_router (i : Nat) : (s.fltBit i).router = s.router := rfl
@[simp] theorem State.fltBit_mem (i : Nat) : (s.fltBit i).mem = s.mem := rfl
@[simp] theorem State.fltBit_power (i : Nat) : (s.fltBit i).power = s.power := rfl
@[simp] theorem State.fltBit_clk (i : Nat) : (s.fltBit i).clk = s.clk := rfl
@[simp] theorem State.fltBit_boot (i : Nat) : (s.fltBit i).boot = s.boot := rfl
@[simp] theorem State.fltBit_obs (i : Nat) : (s.fltBit i).obs = s.obs := rfl
@[simp] theorem State.fltBit_host (i : Nat) : (s.fltBit i).host = s.host := rfl

@[simp] theorem State.dropInc_pending (k : Nat) : (s.dropInc k).pending = s.pending := rfl
@[simp] theorem State.dropInc_free (k : Nat) : (s.dropInc k).free = s.free := rfl
@[simp] theorem State.dropInc_partCnt (k : Nat) : (s.dropInc k).partCnt = s.partCnt := rfl
@[simp] theorem State.dropInc_parts (k : Nat) : (s.dropInc k).parts = s.parts := rfl
@[simp] theorem State.dropInc_engs (k : Nat) : (s.dropInc k).engs = s.engs := rfl
@[simp] theorem State.dropInc_engMaps (k : Nat) : (s.dropInc k).engMaps = s.engMaps := rfl
@[simp] theorem State.dropInc_deadPhys (k : Nat) : (s.dropInc k).deadPhys = s.deadPhys := rfl
@[simp] theorem State.dropInc_engFlt (k : Nat) : (s.dropInc k).engFlt = s.engFlt := rfl
@[simp] theorem State.dropInc_sems (k : Nat) : (s.dropInc k).sems = s.sems := rfl
@[simp] theorem State.dropInc_watches (k : Nat) : (s.dropInc k).watches = s.watches := rfl
@[simp] theorem State.dropInc_sync (k : Nat) : (s.dropInc k).sync = s.sync := rfl
@[simp] theorem State.dropInc_txl (k : Nat) : (s.dropInc k).txl = s.txl := rfl
@[simp] theorem State.dropInc_rxl (k : Nat) : (s.dropInc k).rxl = s.rxl := rfl
@[simp] theorem State.dropInc_ports (k : Nat) : (s.dropInc k).ports = s.ports := rfl
@[simp] theorem State.dropInc_islands (k : Nat) : (s.dropInc k).islands = s.islands := rfl
@[simp] theorem State.dropInc_combs (k : Nat) : (s.dropInc k).combs = s.combs := rfl
@[simp] theorem State.dropInc_mem (k : Nat) : (s.dropInc k).mem = s.mem := rfl
@[simp] theorem State.dropInc_power (k : Nat) : (s.dropInc k).power = s.power := rfl
@[simp] theorem State.dropInc_clk (k : Nat) : (s.dropInc k).clk = s.clk := rfl
@[simp] theorem State.dropInc_boot (k : Nat) : (s.dropInc k).boot = s.boot := rfl
@[simp] theorem State.dropInc_obs (k : Nat) : (s.dropInc k).obs = s.obs := rfl
@[simp] theorem State.dropInc_host (k : Nat) : (s.dropInc k).host = s.host := rfl

@[simp] theorem State.bump_pending (i n : Nat) : (s.bump i n).pending = s.pending := rfl
@[simp] theorem State.bump_free (i n : Nat) : (s.bump i n).free = s.free := rfl
@[simp] theorem State.bump_partCnt (i n : Nat) : (s.bump i n).partCnt = s.partCnt := rfl
@[simp] theorem State.bump_parts (i n : Nat) : (s.bump i n).parts = s.parts := rfl
@[simp] theorem State.bump_engs (i n : Nat) : (s.bump i n).engs = s.engs := rfl
@[simp] theorem State.bump_engMaps (i n : Nat) : (s.bump i n).engMaps = s.engMaps := rfl
@[simp] theorem State.bump_deadPhys (i n : Nat) : (s.bump i n).deadPhys = s.deadPhys := rfl
@[simp] theorem State.bump_engFlt (i n : Nat) : (s.bump i n).engFlt = s.engFlt := rfl
@[simp] theorem State.bump_sems (i n : Nat) : (s.bump i n).sems = s.sems := rfl
@[simp] theorem State.bump_watches (i n : Nat) : (s.bump i n).watches = s.watches := rfl
@[simp] theorem State.bump_sync (i n : Nat) : (s.bump i n).sync = s.sync := rfl
@[simp] theorem State.bump_txl (i n : Nat) : (s.bump i n).txl = s.txl := rfl
@[simp] theorem State.bump_rxl (i n : Nat) : (s.bump i n).rxl = s.rxl := rfl
@[simp] theorem State.bump_ports (i n : Nat) : (s.bump i n).ports = s.ports := rfl
@[simp] theorem State.bump_islands (i n : Nat) : (s.bump i n).islands = s.islands := rfl
@[simp] theorem State.bump_combs (i n : Nat) : (s.bump i n).combs = s.combs := rfl
@[simp] theorem State.bump_router (i n : Nat) : (s.bump i n).router = s.router := rfl
@[simp] theorem State.bump_mem (i n : Nat) : (s.bump i n).mem = s.mem := rfl
@[simp] theorem State.bump_power (i n : Nat) : (s.bump i n).power = s.power := rfl
@[simp] theorem State.bump_clk (i n : Nat) : (s.bump i n).clk = s.clk := rfl
@[simp] theorem State.bump_boot (i n : Nat) : (s.bump i n).boot = s.boot := rfl
@[simp] theorem State.bump_host (i n : Nat) : (s.bump i n).host = s.host := rfl

@[simp] theorem State.setRankEnt_pending (q r : Nat) (x : RankEnt) : (s.setRankEnt q r x).pending = s.pending := rfl
@[simp] theorem State.setRankEnt_free (q r : Nat) (x : RankEnt) : (s.setRankEnt q r x).free = s.free := rfl
@[simp] theorem State.setRankEnt_partCnt (q r : Nat) (x : RankEnt) : (s.setRankEnt q r x).partCnt = s.partCnt := rfl
@[simp] theorem State.setRankEnt_parts (q r : Nat) (x : RankEnt) : (s.setRankEnt q r x).parts = s.parts := rfl
@[simp] theorem State.setRankEnt_engs (q r : Nat) (x : RankEnt) : (s.setRankEnt q r x).engs = s.engs := rfl
@[simp] theorem State.setRankEnt_engMaps (q r : Nat) (x : RankEnt) : (s.setRankEnt q r x).engMaps = s.engMaps := rfl
@[simp] theorem State.setRankEnt_deadPhys (q r : Nat) (x : RankEnt) : (s.setRankEnt q r x).deadPhys = s.deadPhys := rfl
@[simp] theorem State.setRankEnt_engFlt (q r : Nat) (x : RankEnt) : (s.setRankEnt q r x).engFlt = s.engFlt := rfl
@[simp] theorem State.setRankEnt_sems (q r : Nat) (x : RankEnt) : (s.setRankEnt q r x).sems = s.sems := rfl
@[simp] theorem State.setRankEnt_watches (q r : Nat) (x : RankEnt) : (s.setRankEnt q r x).watches = s.watches := rfl
@[simp] theorem State.setRankEnt_sync (q r : Nat) (x : RankEnt) : (s.setRankEnt q r x).sync = s.sync := rfl
@[simp] theorem State.setRankEnt_txl (q r : Nat) (x : RankEnt) : (s.setRankEnt q r x).txl = s.txl := rfl
@[simp] theorem State.setRankEnt_rxl (q r : Nat) (x : RankEnt) : (s.setRankEnt q r x).rxl = s.rxl := rfl
@[simp] theorem State.setRankEnt_ports (q r : Nat) (x : RankEnt) : (s.setRankEnt q r x).ports = s.ports := rfl
@[simp] theorem State.setRankEnt_islands (q r : Nat) (x : RankEnt) : (s.setRankEnt q r x).islands = s.islands := rfl
@[simp] theorem State.setRankEnt_combs (q r : Nat) (x : RankEnt) : (s.setRankEnt q r x).combs = s.combs := rfl
@[simp] theorem State.setRankEnt_mem (q r : Nat) (x : RankEnt) : (s.setRankEnt q r x).mem = s.mem := rfl
@[simp] theorem State.setRankEnt_power (q r : Nat) (x : RankEnt) : (s.setRankEnt q r x).power = s.power := rfl
@[simp] theorem State.setRankEnt_clk (q r : Nat) (x : RankEnt) : (s.setRankEnt q r x).clk = s.clk := rfl
@[simp] theorem State.setRankEnt_boot (q r : Nat) (x : RankEnt) : (s.setRankEnt q r x).boot = s.boot := rfl
@[simp] theorem State.setRankEnt_obs (q r : Nat) (x : RankEnt) : (s.setRankEnt q r x).obs = s.obs := rfl
@[simp] theorem State.setRankEnt_host (q r : Nat) (x : RankEnt) : (s.setRankEnt q r x).host = s.host := rfl

@[simp] theorem State.setLines_pending (q : Nat) (l : List CLine) : (s.setLines q l).pending = s.pending := rfl
@[simp] theorem State.setLines_free (q : Nat) (l : List CLine) : (s.setLines q l).free = s.free := rfl
@[simp] theorem State.setLines_partCnt (q : Nat) (l : List CLine) : (s.setLines q l).partCnt = s.partCnt := rfl
@[simp] theorem State.setLines_parts (q : Nat) (l : List CLine) : (s.setLines q l).parts = s.parts := rfl
@[simp] theorem State.setLines_engs (q : Nat) (l : List CLine) : (s.setLines q l).engs = s.engs := rfl
@[simp] theorem State.setLines_engMaps (q : Nat) (l : List CLine) : (s.setLines q l).engMaps = s.engMaps := rfl
@[simp] theorem State.setLines_deadPhys (q : Nat) (l : List CLine) : (s.setLines q l).deadPhys = s.deadPhys := rfl
@[simp] theorem State.setLines_engFlt (q : Nat) (l : List CLine) : (s.setLines q l).engFlt = s.engFlt := rfl
@[simp] theorem State.setLines_sems (q : Nat) (l : List CLine) : (s.setLines q l).sems = s.sems := rfl
@[simp] theorem State.setLines_watches (q : Nat) (l : List CLine) : (s.setLines q l).watches = s.watches := rfl
@[simp] theorem State.setLines_sync (q : Nat) (l : List CLine) : (s.setLines q l).sync = s.sync := rfl
@[simp] theorem State.setLines_txl (q : Nat) (l : List CLine) : (s.setLines q l).txl = s.txl := rfl
@[simp] theorem State.setLines_rxl (q : Nat) (l : List CLine) : (s.setLines q l).rxl = s.rxl := rfl
@[simp] theorem State.setLines_ports (q : Nat) (l : List CLine) : (s.setLines q l).ports = s.ports := rfl
@[simp] theorem State.setLines_islands (q : Nat) (l : List CLine) : (s.setLines q l).islands = s.islands := rfl
@[simp] theorem State.setLines_combs (q : Nat) (l : List CLine) : (s.setLines q l).combs = s.combs := rfl
@[simp] theorem State.setLines_router (q : Nat) (l : List CLine) : (s.setLines q l).router = s.router := rfl
@[simp] theorem State.setLines_power (q : Nat) (l : List CLine) : (s.setLines q l).power = s.power := rfl
@[simp] theorem State.setLines_clk (q : Nat) (l : List CLine) : (s.setLines q l).clk = s.clk := rfl
@[simp] theorem State.setLines_boot (q : Nat) (l : List CLine) : (s.setLines q l).boot = s.boot := rfl
@[simp] theorem State.setLines_obs (q : Nat) (l : List CLine) : (s.setLines q l).obs = s.obs := rfl
@[simp] theorem State.setLines_host (q : Nat) (l : List CLine) : (s.setLines q l).host = s.host := rfl

@[simp] theorem State.setRaw_pending (a : Nat) (bs : List Byte) : (s.setRaw a bs).pending = s.pending := rfl
@[simp] theorem State.setRaw_free (a : Nat) (bs : List Byte) : (s.setRaw a bs).free = s.free := rfl
@[simp] theorem State.setRaw_partCnt (a : Nat) (bs : List Byte) : (s.setRaw a bs).partCnt = s.partCnt := rfl
@[simp] theorem State.setRaw_parts (a : Nat) (bs : List Byte) : (s.setRaw a bs).parts = s.parts := rfl
@[simp] theorem State.setRaw_engs (a : Nat) (bs : List Byte) : (s.setRaw a bs).engs = s.engs := rfl
@[simp] theorem State.setRaw_engMaps (a : Nat) (bs : List Byte) : (s.setRaw a bs).engMaps = s.engMaps := rfl
@[simp] theorem State.setRaw_deadPhys (a : Nat) (bs : List Byte) : (s.setRaw a bs).deadPhys = s.deadPhys := rfl
@[simp] theorem State.setRaw_engFlt (a : Nat) (bs : List Byte) : (s.setRaw a bs).engFlt = s.engFlt := rfl
@[simp] theorem State.setRaw_sems (a : Nat) (bs : List Byte) : (s.setRaw a bs).sems = s.sems := rfl
@[simp] theorem State.setRaw_watches (a : Nat) (bs : List Byte) : (s.setRaw a bs).watches = s.watches := rfl
@[simp] theorem State.setRaw_sync (a : Nat) (bs : List Byte) : (s.setRaw a bs).sync = s.sync := rfl
@[simp] theorem State.setRaw_txl (a : Nat) (bs : List Byte) : (s.setRaw a bs).txl = s.txl := rfl
@[simp] theorem State.setRaw_rxl (a : Nat) (bs : List Byte) : (s.setRaw a bs).rxl = s.rxl := rfl
@[simp] theorem State.setRaw_ports (a : Nat) (bs : List Byte) : (s.setRaw a bs).ports = s.ports := rfl
@[simp] theorem State.setRaw_islands (a : Nat) (bs : List Byte) : (s.setRaw a bs).islands = s.islands := rfl
@[simp] theorem State.setRaw_combs (a : Nat) (bs : List Byte) : (s.setRaw a bs).combs = s.combs := rfl
@[simp] theorem State.setRaw_router (a : Nat) (bs : List Byte) : (s.setRaw a bs).router = s.router := rfl
@[simp] theorem State.setRaw_power (a : Nat) (bs : List Byte) : (s.setRaw a bs).power = s.power := rfl
@[simp] theorem State.setRaw_clk (a : Nat) (bs : List Byte) : (s.setRaw a bs).clk = s.clk := rfl
@[simp] theorem State.setRaw_boot (a : Nat) (bs : List Byte) : (s.setRaw a bs).boot = s.boot := rfl
@[simp] theorem State.setRaw_obs (a : Nat) (bs : List Byte) : (s.setRaw a bs).obs = s.obs := rfl
@[simp] theorem State.setRaw_host (a : Nat) (bs : List Byte) : (s.setRaw a bs).host = s.host := rfl

@[simp] theorem State.clearCovered_pending (a n : Nat) : (s.clearCovered a n).pending = s.pending := rfl
@[simp] theorem State.clearCovered_free (a n : Nat) : (s.clearCovered a n).free = s.free := rfl
@[simp] theorem State.clearCovered_partCnt (a n : Nat) : (s.clearCovered a n).partCnt = s.partCnt := rfl
@[simp] theorem State.clearCovered_parts (a n : Nat) : (s.clearCovered a n).parts = s.parts := rfl
@[simp] theorem State.clearCovered_engs (a n : Nat) : (s.clearCovered a n).engs = s.engs := rfl
@[simp] theorem State.clearCovered_engMaps (a n : Nat) : (s.clearCovered a n).engMaps = s.engMaps := rfl
@[simp] theorem State.clearCovered_deadPhys (a n : Nat) : (s.clearCovered a n).deadPhys = s.deadPhys := rfl
@[simp] theorem State.clearCovered_engFlt (a n : Nat) : (s.clearCovered a n).engFlt = s.engFlt := rfl
@[simp] theorem State.clearCovered_sems (a n : Nat) : (s.clearCovered a n).sems = s.sems := rfl
@[simp] theorem State.clearCovered_watches (a n : Nat) : (s.clearCovered a n).watches = s.watches := rfl
@[simp] theorem State.clearCovered_sync (a n : Nat) : (s.clearCovered a n).sync = s.sync := rfl
@[simp] theorem State.clearCovered_txl (a n : Nat) : (s.clearCovered a n).txl = s.txl := rfl
@[simp] theorem State.clearCovered_rxl (a n : Nat) : (s.clearCovered a n).rxl = s.rxl := rfl
@[simp] theorem State.clearCovered_ports (a n : Nat) : (s.clearCovered a n).ports = s.ports := rfl
@[simp] theorem State.clearCovered_islands (a n : Nat) : (s.clearCovered a n).islands = s.islands := rfl
@[simp] theorem State.clearCovered_combs (a n : Nat) : (s.clearCovered a n).combs = s.combs := rfl
@[simp] theorem State.clearCovered_router (a n : Nat) : (s.clearCovered a n).router = s.router := rfl
@[simp] theorem State.clearCovered_power (a n : Nat) : (s.clearCovered a n).power = s.power := rfl
@[simp] theorem State.clearCovered_clk (a n : Nat) : (s.clearCovered a n).clk = s.clk := rfl
@[simp] theorem State.clearCovered_boot (a n : Nat) : (s.clearCovered a n).boot = s.boot := rfl
@[simp] theorem State.clearCovered_obs (a n : Nat) : (s.clearCovered a n).obs = s.obs := rfl
@[simp] theorem State.clearCovered_host (a n : Nat) : (s.clearCovered a n).host = s.host := rfl

@[simp] theorem State.clearPoison_pending (g : Nat) : (s.clearPoison g).pending = s.pending := rfl
@[simp] theorem State.clearPoison_free (g : Nat) : (s.clearPoison g).free = s.free := rfl
@[simp] theorem State.clearPoison_partCnt (g : Nat) : (s.clearPoison g).partCnt = s.partCnt := rfl
@[simp] theorem State.clearPoison_parts (g : Nat) : (s.clearPoison g).parts = s.parts := rfl
@[simp] theorem State.clearPoison_engs (g : Nat) : (s.clearPoison g).engs = s.engs := rfl
@[simp] theorem State.clearPoison_engMaps (g : Nat) : (s.clearPoison g).engMaps = s.engMaps := rfl
@[simp] theorem State.clearPoison_deadPhys (g : Nat) : (s.clearPoison g).deadPhys = s.deadPhys := rfl
@[simp] theorem State.clearPoison_engFlt (g : Nat) : (s.clearPoison g).engFlt = s.engFlt := rfl
@[simp] theorem State.clearPoison_sems (g : Nat) : (s.clearPoison g).sems = s.sems := rfl
@[simp] theorem State.clearPoison_watches (g : Nat) : (s.clearPoison g).watches = s.watches := rfl
@[simp] theorem State.clearPoison_sync (g : Nat) : (s.clearPoison g).sync = s.sync := rfl
@[simp] theorem State.clearPoison_txl (g : Nat) : (s.clearPoison g).txl = s.txl := rfl
@[simp] theorem State.clearPoison_rxl (g : Nat) : (s.clearPoison g).rxl = s.rxl := rfl
@[simp] theorem State.clearPoison_ports (g : Nat) : (s.clearPoison g).ports = s.ports := rfl
@[simp] theorem State.clearPoison_islands (g : Nat) : (s.clearPoison g).islands = s.islands := rfl
@[simp] theorem State.clearPoison_combs (g : Nat) : (s.clearPoison g).combs = s.combs := rfl
@[simp] theorem State.clearPoison_router (g : Nat) : (s.clearPoison g).router = s.router := rfl
@[simp] theorem State.clearPoison_power (g : Nat) : (s.clearPoison g).power = s.power := rfl
@[simp] theorem State.clearPoison_clk (g : Nat) : (s.clearPoison g).clk = s.clk := rfl
@[simp] theorem State.clearPoison_boot (g : Nat) : (s.clearPoison g).boot = s.boot := rfl
@[simp] theorem State.clearPoison_obs (g : Nat) : (s.clearPoison g).obs = s.obs := rfl
@[simp] theorem State.clearPoison_host (g : Nat) : (s.clearPoison g).host = s.host := rfl

@[simp] theorem State.addPoison_pending (g : Nat) : (s.addPoison g).pending = s.pending := rfl
@[simp] theorem State.addPoison_free (g : Nat) : (s.addPoison g).free = s.free := rfl
@[simp] theorem State.addPoison_partCnt (g : Nat) : (s.addPoison g).partCnt = s.partCnt := rfl
@[simp] theorem State.addPoison_parts (g : Nat) : (s.addPoison g).parts = s.parts := rfl
@[simp] theorem State.addPoison_engs (g : Nat) : (s.addPoison g).engs = s.engs := rfl
@[simp] theorem State.addPoison_engMaps (g : Nat) : (s.addPoison g).engMaps = s.engMaps := rfl
@[simp] theorem State.addPoison_deadPhys (g : Nat) : (s.addPoison g).deadPhys = s.deadPhys := rfl
@[simp] theorem State.addPoison_engFlt (g : Nat) : (s.addPoison g).engFlt = s.engFlt := rfl
@[simp] theorem State.addPoison_sems (g : Nat) : (s.addPoison g).sems = s.sems := rfl
@[simp] theorem State.addPoison_watches (g : Nat) : (s.addPoison g).watches = s.watches := rfl
@[simp] theorem State.addPoison_sync (g : Nat) : (s.addPoison g).sync = s.sync := rfl
@[simp] theorem State.addPoison_txl (g : Nat) : (s.addPoison g).txl = s.txl := rfl
@[simp] theorem State.addPoison_rxl (g : Nat) : (s.addPoison g).rxl = s.rxl := rfl
@[simp] theorem State.addPoison_ports (g : Nat) : (s.addPoison g).ports = s.ports := rfl
@[simp] theorem State.addPoison_islands (g : Nat) : (s.addPoison g).islands = s.islands := rfl
@[simp] theorem State.addPoison_combs (g : Nat) : (s.addPoison g).combs = s.combs := rfl
@[simp] theorem State.addPoison_router (g : Nat) : (s.addPoison g).router = s.router := rfl
@[simp] theorem State.addPoison_power (g : Nat) : (s.addPoison g).power = s.power := rfl
@[simp] theorem State.addPoison_clk (g : Nat) : (s.addPoison g).clk = s.clk := rfl
@[simp] theorem State.addPoison_boot (g : Nat) : (s.addPoison g).boot = s.boot := rfl
@[simp] theorem State.addPoison_obs (g : Nat) : (s.addPoison g).obs = s.obs := rfl
@[simp] theorem State.addPoison_host (g : Nat) : (s.addPoison g).host = s.host := rfl

@[simp] theorem State.zeroSpan_pending (lo hi : Nat) : (s.zeroSpan lo hi).pending = s.pending := rfl
@[simp] theorem State.zeroSpan_free (lo hi : Nat) : (s.zeroSpan lo hi).free = s.free := rfl
@[simp] theorem State.zeroSpan_partCnt (lo hi : Nat) : (s.zeroSpan lo hi).partCnt = s.partCnt := rfl
@[simp] theorem State.zeroSpan_parts (lo hi : Nat) : (s.zeroSpan lo hi).parts = s.parts := rfl
@[simp] theorem State.zeroSpan_engs (lo hi : Nat) : (s.zeroSpan lo hi).engs = s.engs := rfl
@[simp] theorem State.zeroSpan_engMaps (lo hi : Nat) : (s.zeroSpan lo hi).engMaps = s.engMaps := rfl
@[simp] theorem State.zeroSpan_deadPhys (lo hi : Nat) : (s.zeroSpan lo hi).deadPhys = s.deadPhys := rfl
@[simp] theorem State.zeroSpan_engFlt (lo hi : Nat) : (s.zeroSpan lo hi).engFlt = s.engFlt := rfl
@[simp] theorem State.zeroSpan_sems (lo hi : Nat) : (s.zeroSpan lo hi).sems = s.sems := rfl
@[simp] theorem State.zeroSpan_watches (lo hi : Nat) : (s.zeroSpan lo hi).watches = s.watches := rfl
@[simp] theorem State.zeroSpan_sync (lo hi : Nat) : (s.zeroSpan lo hi).sync = s.sync := rfl
@[simp] theorem State.zeroSpan_txl (lo hi : Nat) : (s.zeroSpan lo hi).txl = s.txl := rfl
@[simp] theorem State.zeroSpan_rxl (lo hi : Nat) : (s.zeroSpan lo hi).rxl = s.rxl := rfl
@[simp] theorem State.zeroSpan_ports (lo hi : Nat) : (s.zeroSpan lo hi).ports = s.ports := rfl
@[simp] theorem State.zeroSpan_islands (lo hi : Nat) : (s.zeroSpan lo hi).islands = s.islands := rfl
@[simp] theorem State.zeroSpan_combs (lo hi : Nat) : (s.zeroSpan lo hi).combs = s.combs := rfl
@[simp] theorem State.zeroSpan_router (lo hi : Nat) : (s.zeroSpan lo hi).router = s.router := rfl
@[simp] theorem State.zeroSpan_power (lo hi : Nat) : (s.zeroSpan lo hi).power = s.power := rfl
@[simp] theorem State.zeroSpan_clk (lo hi : Nat) : (s.zeroSpan lo hi).clk = s.clk := rfl
@[simp] theorem State.zeroSpan_boot (lo hi : Nat) : (s.zeroSpan lo hi).boot = s.boot := rfl
@[simp] theorem State.zeroSpan_obs (lo hi : Nat) : (s.zeroSpan lo hi).obs = s.obs := rfl
@[simp] theorem State.zeroSpan_host (lo hi : Nat) : (s.zeroSpan lo hi).host = s.host := rfl

@[simp] theorem State.mctpSend_pending (b : Binding) (typ : Byte) (body : List Byte) : (s.mctpSend b typ body).pending = s.pending := rfl
@[simp] theorem State.mctpSend_free (b : Binding) (typ : Byte) (body : List Byte) : (s.mctpSend b typ body).free = s.free := rfl
@[simp] theorem State.mctpSend_partCnt (b : Binding) (typ : Byte) (body : List Byte) : (s.mctpSend b typ body).partCnt = s.partCnt := rfl
@[simp] theorem State.mctpSend_parts (b : Binding) (typ : Byte) (body : List Byte) : (s.mctpSend b typ body).parts = s.parts := rfl
@[simp] theorem State.mctpSend_engs (b : Binding) (typ : Byte) (body : List Byte) : (s.mctpSend b typ body).engs = s.engs := rfl
@[simp] theorem State.mctpSend_engMaps (b : Binding) (typ : Byte) (body : List Byte) : (s.mctpSend b typ body).engMaps = s.engMaps := rfl
@[simp] theorem State.mctpSend_deadPhys (b : Binding) (typ : Byte) (body : List Byte) : (s.mctpSend b typ body).deadPhys = s.deadPhys := rfl
@[simp] theorem State.mctpSend_engFlt (b : Binding) (typ : Byte) (body : List Byte) : (s.mctpSend b typ body).engFlt = s.engFlt := rfl
@[simp] theorem State.mctpSend_sems (b : Binding) (typ : Byte) (body : List Byte) : (s.mctpSend b typ body).sems = s.sems := rfl
@[simp] theorem State.mctpSend_watches (b : Binding) (typ : Byte) (body : List Byte) : (s.mctpSend b typ body).watches = s.watches := rfl
@[simp] theorem State.mctpSend_sync (b : Binding) (typ : Byte) (body : List Byte) : (s.mctpSend b typ body).sync = s.sync := rfl
@[simp] theorem State.mctpSend_txl (b : Binding) (typ : Byte) (body : List Byte) : (s.mctpSend b typ body).txl = s.txl := rfl
@[simp] theorem State.mctpSend_rxl (b : Binding) (typ : Byte) (body : List Byte) : (s.mctpSend b typ body).rxl = s.rxl := rfl
@[simp] theorem State.mctpSend_ports (b : Binding) (typ : Byte) (body : List Byte) : (s.mctpSend b typ body).ports = s.ports := rfl
@[simp] theorem State.mctpSend_islands (b : Binding) (typ : Byte) (body : List Byte) : (s.mctpSend b typ body).islands = s.islands := rfl
@[simp] theorem State.mctpSend_combs (b : Binding) (typ : Byte) (body : List Byte) : (s.mctpSend b typ body).combs = s.combs := rfl
@[simp] theorem State.mctpSend_router (b : Binding) (typ : Byte) (body : List Byte) : (s.mctpSend b typ body).router = s.router := rfl
@[simp] theorem State.mctpSend_mem (b : Binding) (typ : Byte) (body : List Byte) : (s.mctpSend b typ body).mem = s.mem := rfl
@[simp] theorem State.mctpSend_power (b : Binding) (typ : Byte) (body : List Byte) : (s.mctpSend b typ body).power = s.power := rfl
@[simp] theorem State.mctpSend_clk (b : Binding) (typ : Byte) (body : List Byte) : (s.mctpSend b typ body).clk = s.clk := rfl
@[simp] theorem State.mctpSend_boot (b : Binding) (typ : Byte) (body : List Byte) : (s.mctpSend b typ body).boot = s.boot := rfl
@[simp] theorem State.mctpSend_obs (b : Binding) (typ : Byte) (body : List Byte) : (s.mctpSend b typ body).obs = s.obs := rfl

@[simp] theorem State.withPending_free (l : List Instr) : (s.withPending l).free = s.free := rfl
@[simp] theorem State.withPending_partCnt (l : List Instr) : (s.withPending l).partCnt = s.partCnt := rfl
@[simp] theorem State.withPending_parts (l : List Instr) : (s.withPending l).parts = s.parts := rfl
@[simp] theorem State.withPending_engs (l : List Instr) : (s.withPending l).engs = s.engs := rfl
@[simp] theorem State.withPending_engMaps (l : List Instr) : (s.withPending l).engMaps = s.engMaps := rfl
@[simp] theorem State.withPending_deadPhys (l : List Instr) : (s.withPending l).deadPhys = s.deadPhys := rfl
@[simp] theorem State.withPending_engFlt (l : List Instr) : (s.withPending l).engFlt = s.engFlt := rfl
@[simp] theorem State.withPending_sems (l : List Instr) : (s.withPending l).sems = s.sems := rfl
@[simp] theorem State.withPending_watches (l : List Instr) : (s.withPending l).watches = s.watches := rfl
@[simp] theorem State.withPending_sync (l : List Instr) : (s.withPending l).sync = s.sync := rfl
@[simp] theorem State.withPending_txl (l : List Instr) : (s.withPending l).txl = s.txl := rfl
@[simp] theorem State.withPending_rxl (l : List Instr) : (s.withPending l).rxl = s.rxl := rfl
@[simp] theorem State.withPending_ports (l : List Instr) : (s.withPending l).ports = s.ports := rfl
@[simp] theorem State.withPending_islands (l : List Instr) : (s.withPending l).islands = s.islands := rfl
@[simp] theorem State.withPending_combs (l : List Instr) : (s.withPending l).combs = s.combs := rfl
@[simp] theorem State.withPending_router (l : List Instr) : (s.withPending l).router = s.router := rfl
@[simp] theorem State.withPending_mem (l : List Instr) : (s.withPending l).mem = s.mem := rfl
@[simp] theorem State.withPending_power (l : List Instr) : (s.withPending l).power = s.power := rfl
@[simp] theorem State.withPending_clk (l : List Instr) : (s.withPending l).clk = s.clk := rfl
@[simp] theorem State.withPending_boot (l : List Instr) : (s.withPending l).boot = s.boot := rfl
@[simp] theorem State.withPending_obs (l : List Instr) : (s.withPending l).obs = s.obs := rfl
@[simp] theorem State.withPending_host (l : List Instr) : (s.withPending l).host = s.host := rfl

/-! ## What an update writes -/

@[simp] theorem State.setEng_engs (e : Nat) (x : Engine) : (s.setEng e x).engs = s.engs.set e x := rfl
@[simp] theorem State.setPart_parts (q : Nat) (x : Partn) : (s.setPart q x).parts = s.parts.set q x := rfl
@[simp] theorem State.setSem_sems (i : Nat) (x : Sem) : (s.setSem i x).sems = s.sems.set i x := rfl
@[simp] theorem State.setWatch_watches (i : Nat) (x : Watch) : (s.setWatch i x).watches = s.watches.set i x := rfl
@[simp] theorem State.setPort_ports (p : Nat) (x : PortSt) : (s.setPort p x).ports = s.ports.set p x := rfl
@[simp] theorem State.setFn_fns (n : Nat) (x : FnSt) : (s.setFn n x).host.fns = s.host.fns.set n x := rfl
@[simp] theorem State.setIsland_islands (e : Nat) (x : Island) : (s.setIsland e x).islands = s.islands.set e x := rfl
@[simp] theorem State.setComb_combs (k : Nat) (x : Comb) : (s.setComb k x).combs = s.combs.set k x := rfl
@[simp] theorem State.setTx_txl (p c : Nat) (x : TxLane) : (s.setTx p c x).txl = s.txl.set (laneKey p c) x := rfl
@[simp] theorem State.setRx_rxl (p c : Nat) (x : RxLane) : (s.setRx p c x).rxl = s.rxl.set (laneKey p c) x := rfl
@[simp] theorem State.setLines_lines (q : Nat) (l : List CLine) : (s.setLines q l).mem.lines = s.mem.lines.set q l := rfl
@[simp] theorem State.setLines_bytes (q : Nat) (l : List CLine) : (s.setLines q l).mem.mem = s.mem.mem := rfl
@[simp] theorem State.setRaw_bytes (a : Nat) (bs : List Byte) : (s.setRaw a bs).mem.mem = s.mem.mem.setBytes a bs := rfl
@[simp] theorem State.setRaw_lines (a : Nat) (bs : List Byte) : (s.setRaw a bs).mem.lines = s.mem.lines := rfl
@[simp] theorem State.clearCovered_bytes (a n : Nat) : (s.clearCovered a n).mem.mem = s.mem.mem := rfl
@[simp] theorem State.clearCovered_lines (a n : Nat) : (s.clearCovered a n).mem.lines = s.mem.lines := rfl
@[simp] theorem State.withPending_pending (l : List Instr) : (s.withPending l).pending = l := rfl

/-! ## Reads after writes -/

@[simp] theorem State.setEng_eng (i : Nat) (x : Engine) : (s.setEng i x).eng i = x := Tab.get_set_same _ _ _ _
theorem State.setEng_eng_other {i j : Nat} (x : Engine) (h : j ≠ i) : (s.setEng i x).eng j = s.eng j := Tab.get_set_other _ _ x h
@[simp] theorem State.modEng_eng (i : Nat) (f : Engine → Engine) : (s.modEng i f).eng i = f (s.eng i) := Tab.get_set_same _ _ _ _
theorem State.modEng_eng_other {i j : Nat} (f : Engine → Engine) (h : j ≠ i) : (s.modEng i f).eng j = s.eng j := Tab.get_set_other _ _ _ h
@[simp] theorem State.setPart_part (i : Nat) (x : Partn) : (s.setPart i x).part i = x := Tab.get_set_same _ _ _ _
theorem State.setPart_part_other {i j : Nat} (x : Partn) (h : j ≠ i) : (s.setPart i x).part j = s.part j := Tab.get_set_other _ _ x h
@[simp] theorem State.modPart_part (i : Nat) (f : Partn → Partn) : (s.modPart i f).part i = f (s.part i) := Tab.get_set_same _ _ _ _
theorem State.modPart_part_other {i j : Nat} (f : Partn → Partn) (h : j ≠ i) : (s.modPart i f).part j = s.part j := Tab.get_set_other _ _ _ h
@[simp] theorem State.setSem_sem (i : Nat) (x : Sem) : (s.setSem i x).sem i = x := Tab.get_set_same _ _ _ _
theorem State.setSem_sem_other {i j : Nat} (x : Sem) (h : j ≠ i) : (s.setSem i x).sem j = s.sem j := Tab.get_set_other _ _ x h
@[simp] theorem State.setWatch_watch (i : Nat) (x : Watch) : (s.setWatch i x).watch i = x := Tab.get_set_same _ _ _ _
theorem State.setWatch_watch_other {i j : Nat} (x : Watch) (h : j ≠ i) : (s.setWatch i x).watch j = s.watch j := Tab.get_set_other _ _ x h
@[simp] theorem State.setPort_port (i : Nat) (x : PortSt) : (s.setPort i x).port i = x := Tab.get_set_same _ _ _ _
theorem State.setPort_port_other {i j : Nat} (x : PortSt) (h : j ≠ i) : (s.setPort i x).port j = s.port j := Tab.get_set_other _ _ x h
@[simp] theorem State.modPort_port (i : Nat) (f : PortSt → PortSt) : (s.modPort i f).port i = f (s.port i) := Tab.get_set_same _ _ _ _
theorem State.modPort_port_other {i j : Nat} (f : PortSt → PortSt) (h : j ≠ i) : (s.modPort i f).port j = s.port j := Tab.get_set_other _ _ _ h
@[simp] theorem State.setIsland_island (i : Nat) (x : Island) : (s.setIsland i x).island i = x := Tab.get_set_same _ _ _ _
theorem State.setIsland_island_other {i j : Nat} (x : Island) (h : j ≠ i) : (s.setIsland i x).island j = s.island j := Tab.get_set_other _ _ x h
@[simp] theorem State.setComb_comb (i : Nat) (x : Comb) : (s.setComb i x).comb i = x := Tab.get_set_same _ _ _ _
theorem State.setComb_comb_other {i j : Nat} (x : Comb) (h : j ≠ i) : (s.setComb i x).comb j = s.comb j := Tab.get_set_other _ _ x h
@[simp] theorem State.modComb_comb (i : Nat) (f : Comb → Comb) : (s.modComb i f).comb i = f (s.comb i) := Tab.get_set_same _ _ _ _
theorem State.modComb_comb_other {i j : Nat} (f : Comb → Comb) (h : j ≠ i) : (s.modComb i f).comb j = s.comb j := Tab.get_set_other _ _ _ h
@[simp] theorem State.setFn_fn (i : Nat) (x : FnSt) : (s.setFn i x).fn i = x := Tab.get_set_same _ _ _ _
theorem State.setFn_fn_other {i j : Nat} (x : FnSt) (h : j ≠ i) : (s.setFn i x).fn j = s.fn j := Tab.get_set_other _ _ x h
@[simp] theorem State.modFn_fn (i : Nat) (f : FnSt → FnSt) : (s.modFn i f).fn i = f (s.fn i) := Tab.get_set_same _ _ _ _
theorem State.modFn_fn_other {i j : Nat} (f : FnSt → FnSt) (h : j ≠ i) : (s.modFn i f).fn j = s.fn j := Tab.get_set_other _ _ _ h
@[simp] theorem State.setTx_tx (p c : Nat) (x : TxLane) : (s.setTx p c x).tx p c = x := Tab.get_set_same _ _ _ _
@[simp] theorem State.modTx_tx (p c : Nat) (f : TxLane → TxLane) : (s.modTx p c f).tx p c = f (s.tx p c) := Tab.get_set_same _ _ _ _
theorem State.setTx_tx_other {p c p' c' : Nat} (x : TxLane) (h : laneKey p' c' ≠ laneKey p c) : (s.setTx p c x).tx p' c' = s.tx p' c' :=
  Tab.get_set_other _ _ x h
@[simp] theorem State.setRx_rx (p c : Nat) (x : RxLane) : (s.setRx p c x).rx p c = x := Tab.get_set_same _ _ _ _
@[simp] theorem State.modRx_rx (p c : Nat) (f : RxLane → RxLane) : (s.modRx p c f).rx p c = f (s.rx p c) := Tab.get_set_same _ _ _ _
theorem State.setRx_rx_other {p c p' c' : Nat} (x : RxLane) (h : laneKey p' c' ≠ laneKey p c) : (s.setRx p c x).rx p' c' = s.rx p' c' :=
  Tab.get_set_other _ _ x h

/-! ## Reads of the other parts -/

@[simp] theorem State.setEng_part (e : Nat) (x : Engine) (j : Nat) : (s.setEng e x).part j = s.part j := rfl
@[simp] theorem State.setEng_sem (e : Nat) (x : Engine) (j : Nat) : (s.setEng e x).sem j = s.sem j := rfl
@[simp] theorem State.setEng_watch (e : Nat) (x : Engine) (j : Nat) : (s.setEng e x).watch j = s.watch j := rfl
@[simp] theorem State.setEng_fn (e : Nat) (x : Engine) (j : Nat) : (s.setEng e x).fn j = s.fn j := rfl
@[simp] theorem State.modEng_part (e : Nat) (f : Engine → Engine) (j : Nat) : (s.modEng e f).part j = s.part j := rfl
@[simp] theorem State.modEng_sem (e : Nat) (f : Engine → Engine) (j : Nat) : (s.modEng e f).sem j = s.sem j := rfl
@[simp] theorem State.modEng_watch (e : Nat) (f : Engine → Engine) (j : Nat) : (s.modEng e f).watch j = s.watch j := rfl
@[simp] theorem State.modEng_fn (e : Nat) (f : Engine → Engine) (j : Nat) : (s.modEng e f).fn j = s.fn j := rfl
@[simp] theorem State.setPart_eng (q : Nat) (x : Partn) (j : Nat) : (s.setPart q x).eng j = s.eng j := rfl
@[simp] theorem State.setPart_sem (q : Nat) (x : Partn) (j : Nat) : (s.setPart q x).sem j = s.sem j := rfl
@[simp] theorem State.setPart_watch (q : Nat) (x : Partn) (j : Nat) : (s.setPart q x).watch j = s.watch j := rfl
@[simp] theorem State.setPart_fn (q : Nat) (x : Partn) (j : Nat) : (s.setPart q x).fn j = s.fn j := rfl
@[simp] theorem State.modPart_eng (q : Nat) (f : Partn → Partn) (j : Nat) : (s.modPart q f).eng j = s.eng j := rfl
@[simp] theorem State.modPart_sem (q : Nat) (f : Partn → Partn) (j : Nat) : (s.modPart q f).sem j = s.sem j := rfl
@[simp] theorem State.modPart_watch (q : Nat) (f : Partn → Partn) (j : Nat) : (s.modPart q f).watch j = s.watch j := rfl
@[simp] theorem State.modPart_fn (q : Nat) (f : Partn → Partn) (j : Nat) : (s.modPart q f).fn j = s.fn j := rfl
@[simp] theorem State.setSem_eng (i : Nat) (x : Sem) (j : Nat) : (s.setSem i x).eng j = s.eng j := rfl
@[simp] theorem State.setSem_part (i : Nat) (x : Sem) (j : Nat) : (s.setSem i x).part j = s.part j := rfl
@[simp] theorem State.setSem_watch (i : Nat) (x : Sem) (j : Nat) : (s.setSem i x).watch j = s.watch j := rfl
@[simp] theorem State.setSem_fn (i : Nat) (x : Sem) (j : Nat) : (s.setSem i x).fn j = s.fn j := rfl
@[simp] theorem State.setWatch_eng (i : Nat) (x : Watch) (j : Nat) : (s.setWatch i x).eng j = s.eng j := rfl
@[simp] theorem State.setWatch_part (i : Nat) (x : Watch) (j : Nat) : (s.setWatch i x).part j = s.part j := rfl
@[simp] theorem State.setWatch_sem (i : Nat) (x : Watch) (j : Nat) : (s.setWatch i x).sem j = s.sem j := rfl
@[simp] theorem State.setWatch_fn (i : Nat) (x : Watch) (j : Nat) : (s.setWatch i x).fn j = s.fn j := rfl
@[simp] theorem State.setPort_eng (p : Nat) (x : PortSt) (j : Nat) : (s.setPort p x).eng j = s.eng j := rfl
@[simp] theorem State.setPort_part (p : Nat) (x : PortSt) (j : Nat) : (s.setPort p x).part j = s.part j := rfl
@[simp] theorem State.setPort_sem (p : Nat) (x : PortSt) (j : Nat) : (s.setPort p x).sem j = s.sem j := rfl
@[simp] theorem State.setPort_watch (p : Nat) (x : PortSt) (j : Nat) : (s.setPort p x).watch j = s.watch j := rfl
@[simp] theorem State.setPort_fn (p : Nat) (x : PortSt) (j : Nat) : (s.setPort p x).fn j = s.fn j := rfl
@[simp] theorem State.modPort_eng (p : Nat) (f : PortSt → PortSt) (j : Nat) : (s.modPort p f).eng j = s.eng j := rfl
@[simp] theorem State.modPort_part (p : Nat) (f : PortSt → PortSt) (j : Nat) : (s.modPort p f).part j = s.part j := rfl
@[simp] theorem State.modPort_sem (p : Nat) (f : PortSt → PortSt) (j : Nat) : (s.modPort p f).sem j = s.sem j := rfl
@[simp] theorem State.modPort_watch (p : Nat) (f : PortSt → PortSt) (j : Nat) : (s.modPort p f).watch j = s.watch j := rfl
@[simp] theorem State.modPort_fn (p : Nat) (f : PortSt → PortSt) (j : Nat) : (s.modPort p f).fn j = s.fn j := rfl
@[simp] theorem State.setFn_eng (n : Nat) (x : FnSt) (j : Nat) : (s.setFn n x).eng j = s.eng j := rfl
@[simp] theorem State.setFn_part (n : Nat) (x : FnSt) (j : Nat) : (s.setFn n x).part j = s.part j := rfl
@[simp] theorem State.setFn_sem (n : Nat) (x : FnSt) (j : Nat) : (s.setFn n x).sem j = s.sem j := rfl
@[simp] theorem State.setFn_watch (n : Nat) (x : FnSt) (j : Nat) : (s.setFn n x).watch j = s.watch j := rfl
@[simp] theorem State.modFn_eng (n : Nat) (f : FnSt → FnSt) (j : Nat) : (s.modFn n f).eng j = s.eng j := rfl
@[simp] theorem State.modFn_part (n : Nat) (f : FnSt → FnSt) (j : Nat) : (s.modFn n f).part j = s.part j := rfl
@[simp] theorem State.modFn_sem (n : Nat) (f : FnSt → FnSt) (j : Nat) : (s.modFn n f).sem j = s.sem j := rfl
@[simp] theorem State.modFn_watch (n : Nat) (f : FnSt → FnSt) (j : Nat) : (s.modFn n f).watch j = s.watch j := rfl
@[simp] theorem State.setIsland_eng (e : Nat) (x : Island) (j : Nat) : (s.setIsland e x).eng j = s.eng j := rfl
@[simp] theorem State.setIsland_part (e : Nat) (x : Island) (j : Nat) : (s.setIsland e x).part j = s.part j := rfl
@[simp] theorem State.setIsland_sem (e : Nat) (x : Island) (j : Nat) : (s.setIsland e x).sem j = s.sem j := rfl
@[simp] theorem State.setIsland_watch (e : Nat) (x : Island) (j : Nat) : (s.setIsland e x).watch j = s.watch j := rfl
@[simp] theorem State.setIsland_fn (e : Nat) (x : Island) (j : Nat) : (s.setIsland e x).fn j = s.fn j := rfl
@[simp] theorem State.setComb_eng (k : Nat) (x : Comb) (j : Nat) : (s.setComb k x).eng j = s.eng j := rfl
@[simp] theorem State.setComb_part (k : Nat) (x : Comb) (j : Nat) : (s.setComb k x).part j = s.part j := rfl
@[simp] theorem State.setComb_sem (k : Nat) (x : Comb) (j : Nat) : (s.setComb k x).sem j = s.sem j := rfl
@[simp] theorem State.setComb_watch (k : Nat) (x : Comb) (j : Nat) : (s.setComb k x).watch j = s.watch j := rfl
@[simp] theorem State.setComb_fn (k : Nat) (x : Comb) (j : Nat) : (s.setComb k x).fn j = s.fn j := rfl
@[simp] theorem State.modComb_eng (k : Nat) (f : Comb → Comb) (j : Nat) : (s.modComb k f).eng j = s.eng j := rfl
@[simp] theorem State.modComb_part (k : Nat) (f : Comb → Comb) (j : Nat) : (s.modComb k f).part j = s.part j := rfl
@[simp] theorem State.modComb_sem (k : Nat) (f : Comb → Comb) (j : Nat) : (s.modComb k f).sem j = s.sem j := rfl
@[simp] theorem State.modComb_watch (k : Nat) (f : Comb → Comb) (j : Nat) : (s.modComb k f).watch j = s.watch j := rfl
@[simp] theorem State.modComb_fn (k : Nat) (f : Comb → Comb) (j : Nat) : (s.modComb k f).fn j = s.fn j := rfl
@[simp] theorem State.setTx_eng (p c : Nat) (x : TxLane) (j : Nat) : (s.setTx p c x).eng j = s.eng j := rfl
@[simp] theorem State.setTx_part (p c : Nat) (x : TxLane) (j : Nat) : (s.setTx p c x).part j = s.part j := rfl
@[simp] theorem State.setTx_sem (p c : Nat) (x : TxLane) (j : Nat) : (s.setTx p c x).sem j = s.sem j := rfl
@[simp] theorem State.setTx_watch (p c : Nat) (x : TxLane) (j : Nat) : (s.setTx p c x).watch j = s.watch j := rfl
@[simp] theorem State.setTx_fn (p c : Nat) (x : TxLane) (j : Nat) : (s.setTx p c x).fn j = s.fn j := rfl
@[simp] theorem State.modTx_eng (p c : Nat) (f : TxLane → TxLane) (j : Nat) : (s.modTx p c f).eng j = s.eng j := rfl
@[simp] theorem State.modTx_part (p c : Nat) (f : TxLane → TxLane) (j : Nat) : (s.modTx p c f).part j = s.part j := rfl
@[simp] theorem State.modTx_sem (p c : Nat) (f : TxLane → TxLane) (j : Nat) : (s.modTx p c f).sem j = s.sem j := rfl
@[simp] theorem State.modTx_watch (p c : Nat) (f : TxLane → TxLane) (j : Nat) : (s.modTx p c f).watch j = s.watch j := rfl
@[simp] theorem State.modTx_fn (p c : Nat) (f : TxLane → TxLane) (j : Nat) : (s.modTx p c f).fn j = s.fn j := rfl
@[simp] theorem State.setRx_eng (p c : Nat) (x : RxLane) (j : Nat) : (s.setRx p c x).eng j = s.eng j := rfl
@[simp] theorem State.setRx_part (p c : Nat) (x : RxLane) (j : Nat) : (s.setRx p c x).part j = s.part j := rfl
@[simp] theorem State.setRx_sem (p c : Nat) (x : RxLane) (j : Nat) : (s.setRx p c x).sem j = s.sem j := rfl
@[simp] theorem State.setRx_watch (p c : Nat) (x : RxLane) (j : Nat) : (s.setRx p c x).watch j = s.watch j := rfl
@[simp] theorem State.setRx_fn (p c : Nat) (x : RxLane) (j : Nat) : (s.setRx p c x).fn j = s.fn j := rfl
@[simp] theorem State.modRx_eng (p c : Nat) (f : RxLane → RxLane) (j : Nat) : (s.modRx p c f).eng j = s.eng j := rfl
@[simp] theorem State.modRx_part (p c : Nat) (f : RxLane → RxLane) (j : Nat) : (s.modRx p c f).part j = s.part j := rfl
@[simp] theorem State.modRx_sem (p c : Nat) (f : RxLane → RxLane) (j : Nat) : (s.modRx p c f).sem j = s.sem j := rfl
@[simp] theorem State.modRx_watch (p c : Nat) (f : RxLane → RxLane) (j : Nat) : (s.modRx p c f).watch j = s.watch j := rfl
@[simp] theorem State.modRx_fn (p c : Nat) (f : RxLane → RxLane) (j : Nat) : (s.modRx p c f).fn j = s.fn j := rfl
@[simp] theorem State.syncBit_eng (i : Nat) (j : Nat) : (s.syncBit i).eng j = s.eng j := rfl
@[simp] theorem State.syncBit_part (i : Nat) (j : Nat) : (s.syncBit i).part j = s.part j := rfl
@[simp] theorem State.syncBit_sem (i : Nat) (j : Nat) : (s.syncBit i).sem j = s.sem j := rfl
@[simp] theorem State.syncBit_watch (i : Nat) (j : Nat) : (s.syncBit i).watch j = s.watch j := rfl
@[simp] theorem State.syncBit_fn (i : Nat) (j : Nat) : (s.syncBit i).fn j = s.fn j := rfl
@[simp] theorem State.routeBit_eng (i : Nat) (j : Nat) : (s.routeBit i).eng j = s.eng j := rfl
@[simp] theorem State.routeBit_part (i : Nat) (j : Nat) : (s.routeBit i).part j = s.part j := rfl
@[simp] theorem State.routeBit_sem (i : Nat) (j : Nat) : (s.routeBit i).sem j = s.sem j := rfl
@[simp] theorem State.routeBit_watch (i : Nat) (j : Nat) : (s.routeBit i).watch j = s.watch j := rfl
@[simp] theorem State.routeBit_fn (i : Nat) (j : Nat) : (s.routeBit i).fn j = s.fn j := rfl
@[simp] theorem State.pwrBit_eng (i : Nat) (j : Nat) : (s.pwrBit i).eng j = s.eng j := rfl
@[simp] theorem State.pwrBit_part (i : Nat) (j : Nat) : (s.pwrBit i).part j = s.part j := rfl
@[simp] theorem State.pwrBit_sem (i : Nat) (j : Nat) : (s.pwrBit i).sem j = s.sem j := rfl
@[simp] theorem State.pwrBit_watch (i : Nat) (j : Nat) : (s.pwrBit i).watch j = s.watch j := rfl
@[simp] theorem State.pwrBit_fn (i : Nat) (j : Nat) : (s.pwrBit i).fn j = s.fn j := rfl
@[simp] theorem State.clkBit_eng (i : Nat) (j : Nat) : (s.clkBit i).eng j = s.eng j := rfl
@[simp] theorem State.clkBit_part (i : Nat) (j : Nat) : (s.clkBit i).part j = s.part j := rfl
@[simp] theorem State.clkBit_sem (i : Nat) (j : Nat) : (s.clkBit i).sem j = s.sem j := rfl
@[simp] theorem State.clkBit_watch (i : Nat) (j : Nat) : (s.clkBit i).watch j = s.watch j := rfl
@[simp] theorem State.clkBit_fn (i : Nat) (j : Nat) : (s.clkBit i).fn j = s.fn j := rfl
@[simp] theorem State.modBit_eng (i : Nat) (j : Nat) : (s.modBit i).eng j = s.eng j := rfl
@[simp] theorem State.modBit_part (i : Nat) (j : Nat) : (s.modBit i).part j = s.part j := rfl
@[simp] theorem State.modBit_sem (i : Nat) (j : Nat) : (s.modBit i).sem j = s.sem j := rfl
@[simp] theorem State.modBit_watch (i : Nat) (j : Nat) : (s.modBit i).watch j = s.watch j := rfl
@[simp] theorem State.modBit_fn (i : Nat) (j : Nat) : (s.modBit i).fn j = s.fn j := rfl
@[simp] theorem State.eccBit_eng (i : Nat) (j : Nat) : (s.eccBit i).eng j = s.eng j := rfl
@[simp] theorem State.eccBit_part (i : Nat) (j : Nat) : (s.eccBit i).part j = s.part j := rfl
@[simp] theorem State.eccBit_sem (i : Nat) (j : Nat) : (s.eccBit i).sem j = s.sem j := rfl
@[simp] theorem State.eccBit_watch (i : Nat) (j : Nat) : (s.eccBit i).watch j = s.watch j := rfl
@[simp] theorem State.eccBit_fn (i : Nat) (j : Nat) : (s.eccBit i).fn j = s.fn j := rfl
@[simp] theorem State.fltBit_eng (i : Nat) (j : Nat) : (s.fltBit i).eng j = s.eng j := rfl
@[simp] theorem State.fltBit_part (i : Nat) (j : Nat) : (s.fltBit i).part j = s.part j := rfl
@[simp] theorem State.fltBit_sem (i : Nat) (j : Nat) : (s.fltBit i).sem j = s.sem j := rfl
@[simp] theorem State.fltBit_watch (i : Nat) (j : Nat) : (s.fltBit i).watch j = s.watch j := rfl
@[simp] theorem State.fltBit_fn (i : Nat) (j : Nat) : (s.fltBit i).fn j = s.fn j := rfl
@[simp] theorem State.dropInc_eng (k : Nat) (j : Nat) : (s.dropInc k).eng j = s.eng j := rfl
@[simp] theorem State.dropInc_part (k : Nat) (j : Nat) : (s.dropInc k).part j = s.part j := rfl
@[simp] theorem State.dropInc_sem (k : Nat) (j : Nat) : (s.dropInc k).sem j = s.sem j := rfl
@[simp] theorem State.dropInc_watch (k : Nat) (j : Nat) : (s.dropInc k).watch j = s.watch j := rfl
@[simp] theorem State.dropInc_fn (k : Nat) (j : Nat) : (s.dropInc k).fn j = s.fn j := rfl
@[simp] theorem State.bump_eng (i n : Nat) (j : Nat) : (s.bump i n).eng j = s.eng j := rfl
@[simp] theorem State.bump_part (i n : Nat) (j : Nat) : (s.bump i n).part j = s.part j := rfl
@[simp] theorem State.bump_sem (i n : Nat) (j : Nat) : (s.bump i n).sem j = s.sem j := rfl
@[simp] theorem State.bump_watch (i n : Nat) (j : Nat) : (s.bump i n).watch j = s.watch j := rfl
@[simp] theorem State.bump_fn (i n : Nat) (j : Nat) : (s.bump i n).fn j = s.fn j := rfl
@[simp] theorem State.setRankEnt_eng (q r : Nat) (x : RankEnt) (j : Nat) : (s.setRankEnt q r x).eng j = s.eng j := rfl
@[simp] theorem State.setRankEnt_part (q r : Nat) (x : RankEnt) (j : Nat) : (s.setRankEnt q r x).part j = s.part j := rfl
@[simp] theorem State.setRankEnt_sem (q r : Nat) (x : RankEnt) (j : Nat) : (s.setRankEnt q r x).sem j = s.sem j := rfl
@[simp] theorem State.setRankEnt_watch (q r : Nat) (x : RankEnt) (j : Nat) : (s.setRankEnt q r x).watch j = s.watch j := rfl
@[simp] theorem State.setRankEnt_fn (q r : Nat) (x : RankEnt) (j : Nat) : (s.setRankEnt q r x).fn j = s.fn j := rfl
@[simp] theorem State.setLines_eng (q : Nat) (l : List CLine) (j : Nat) : (s.setLines q l).eng j = s.eng j := rfl
@[simp] theorem State.setLines_part (q : Nat) (l : List CLine) (j : Nat) : (s.setLines q l).part j = s.part j := rfl
@[simp] theorem State.setLines_sem (q : Nat) (l : List CLine) (j : Nat) : (s.setLines q l).sem j = s.sem j := rfl
@[simp] theorem State.setLines_watch (q : Nat) (l : List CLine) (j : Nat) : (s.setLines q l).watch j = s.watch j := rfl
@[simp] theorem State.setLines_fn (q : Nat) (l : List CLine) (j : Nat) : (s.setLines q l).fn j = s.fn j := rfl
@[simp] theorem State.setRaw_eng (a : Nat) (bs : List Byte) (j : Nat) : (s.setRaw a bs).eng j = s.eng j := rfl
@[simp] theorem State.setRaw_part (a : Nat) (bs : List Byte) (j : Nat) : (s.setRaw a bs).part j = s.part j := rfl
@[simp] theorem State.setRaw_sem (a : Nat) (bs : List Byte) (j : Nat) : (s.setRaw a bs).sem j = s.sem j := rfl
@[simp] theorem State.setRaw_watch (a : Nat) (bs : List Byte) (j : Nat) : (s.setRaw a bs).watch j = s.watch j := rfl
@[simp] theorem State.setRaw_fn (a : Nat) (bs : List Byte) (j : Nat) : (s.setRaw a bs).fn j = s.fn j := rfl
@[simp] theorem State.clearCovered_eng (a n : Nat) (j : Nat) : (s.clearCovered a n).eng j = s.eng j := rfl
@[simp] theorem State.clearCovered_part (a n : Nat) (j : Nat) : (s.clearCovered a n).part j = s.part j := rfl
@[simp] theorem State.clearCovered_sem (a n : Nat) (j : Nat) : (s.clearCovered a n).sem j = s.sem j := rfl
@[simp] theorem State.clearCovered_watch (a n : Nat) (j : Nat) : (s.clearCovered a n).watch j = s.watch j := rfl
@[simp] theorem State.clearCovered_fn (a n : Nat) (j : Nat) : (s.clearCovered a n).fn j = s.fn j := rfl
@[simp] theorem State.clearPoison_eng (g : Nat) (j : Nat) : (s.clearPoison g).eng j = s.eng j := rfl
@[simp] theorem State.clearPoison_part (g : Nat) (j : Nat) : (s.clearPoison g).part j = s.part j := rfl
@[simp] theorem State.clearPoison_sem (g : Nat) (j : Nat) : (s.clearPoison g).sem j = s.sem j := rfl
@[simp] theorem State.clearPoison_watch (g : Nat) (j : Nat) : (s.clearPoison g).watch j = s.watch j := rfl
@[simp] theorem State.clearPoison_fn (g : Nat) (j : Nat) : (s.clearPoison g).fn j = s.fn j := rfl
@[simp] theorem State.addPoison_eng (g : Nat) (j : Nat) : (s.addPoison g).eng j = s.eng j := rfl
@[simp] theorem State.addPoison_part (g : Nat) (j : Nat) : (s.addPoison g).part j = s.part j := rfl
@[simp] theorem State.addPoison_sem (g : Nat) (j : Nat) : (s.addPoison g).sem j = s.sem j := rfl
@[simp] theorem State.addPoison_watch (g : Nat) (j : Nat) : (s.addPoison g).watch j = s.watch j := rfl
@[simp] theorem State.addPoison_fn (g : Nat) (j : Nat) : (s.addPoison g).fn j = s.fn j := rfl
@[simp] theorem State.zeroSpan_eng (lo hi : Nat) (j : Nat) : (s.zeroSpan lo hi).eng j = s.eng j := rfl
@[simp] theorem State.zeroSpan_part (lo hi : Nat) (j : Nat) : (s.zeroSpan lo hi).part j = s.part j := rfl
@[simp] theorem State.zeroSpan_sem (lo hi : Nat) (j : Nat) : (s.zeroSpan lo hi).sem j = s.sem j := rfl
@[simp] theorem State.zeroSpan_watch (lo hi : Nat) (j : Nat) : (s.zeroSpan lo hi).watch j = s.watch j := rfl
@[simp] theorem State.zeroSpan_fn (lo hi : Nat) (j : Nat) : (s.zeroSpan lo hi).fn j = s.fn j := rfl
@[simp] theorem State.mctpSend_eng (b : Binding) (typ : Byte) (body : List Byte) (j : Nat) : (s.mctpSend b typ body).eng j = s.eng j := rfl
@[simp] theorem State.mctpSend_part (b : Binding) (typ : Byte) (body : List Byte) (j : Nat) : (s.mctpSend b typ body).part j = s.part j := rfl
@[simp] theorem State.mctpSend_sem (b : Binding) (typ : Byte) (body : List Byte) (j : Nat) : (s.mctpSend b typ body).sem j = s.sem j := rfl
@[simp] theorem State.mctpSend_watch (b : Binding) (typ : Byte) (body : List Byte) (j : Nat) : (s.mctpSend b typ body).watch j = s.watch j := rfl
@[simp] theorem State.withPending_eng (l : List Instr) (j : Nat) : (s.withPending l).eng j = s.eng j := rfl
@[simp] theorem State.withPending_part (l : List Instr) (j : Nat) : (s.withPending l).part j = s.part j := rfl
@[simp] theorem State.withPending_sem (l : List Instr) (j : Nat) : (s.withPending l).sem j = s.sem j := rfl
@[simp] theorem State.withPending_watch (l : List Instr) (j : Nat) : (s.withPending l).watch j = s.watch j := rfl
@[simp] theorem State.withPending_fn (l : List Instr) (j : Nat) : (s.withPending l).fn j = s.fn j := rfl

end Sys2Proof.Machine
end

