-- ==== Sys2Proof/Laws/Mem.lean ====
section
/-! SUPPORT. Laws/Mem.lean: every memory operation keeps the canonical form of the byte memory; what a store leaves alone and what
it writes, seen through the carve-out. -/

namespace Sys2Proof.Machine

/-- The canonical form of the byte memory (Machine/Tab.lean), said of a state. -/
abbrev State.memWf (s : State) : Prop := Memory.wf s.mem.mem = true

/-! ## Canonical form -/

theorem State.setLines_memWf {s : State} (q : Nat) (l : List CLine) (h : s.memWf) : (s.setLines q l).memWf := h

theorem State.setRaw_memWf {s : State} (a : Nat) (bs : List Byte) (h : s.memWf) : (s.setRaw a bs).memWf := Memory.wf_setBytes a bs h

theorem State.grain_memWf {s : State} (w : Bool) (a : Nat) (h : s.memWf) : (s.grain w a).memWf := h

theorem State.writeBack_memWf {s : State} (x : CLine) (h : s.memWf) : (s.writeBack x).memWf := by
  unfold State.writeBack
  split
  · exact State.grain_memWf _ _ (State.setRaw_memWf _ _ h)
  · exact h

theorem State.evictFor_memWf {s : State} (q a : Nat) (h : s.memWf) : (s.evictFor q a).memWf := by
  unfold State.evictFor
  dsimp only
  split
  · exact h
  · split
    · exact h
    · exact State.setLines_memWf _ _ (State.writeBack_memWf _ h)

theorem State.keepLine_memWf {s : State} (q a : Nat) (fill : Bool) (h : s.memWf) : (s.keepLine q a fill).memWf := by
  unfold State.keepLine
  split
  · exact h
  · split
    · exact State.setLines_memWf _ _ h
    · refine State.setLines_memWf _ _ ?_
      split
      · exact State.grain_memWf _ _ (State.evictFor_memWf q a h)
      · exact State.evictFor_memWf q a h

theorem State.dropLine_memWf {s : State} (q a : Nat) (h : s.memWf) : (s.dropLine q a).memWf := h

theorem foldl_keeps {α : Type} (P : State → Prop) (g : State → α → State) (hg : ∀ s a, P s → P (g s a)) (l : List α) {s : State}
    (h : P s) : P (l.foldl g s) := by
  induction l generalizing s with
  | nil => exact h
  | cons a r ih => exact ih (hg s a h)

theorem State.touchLine_memWf {s : State} (q : Nat) (hint : BitVec 2) (l : Nat) (h : s.memWf) : (s.touchLine q hint l).memWf := by
  unfold State.touchLine
  split
  · exact State.keepLine_memWf _ _ _ h
  · dsimp only
    repeat' split
    all_goals exact h

theorem State.touchRead_memWf {s : State} (q : Nat) (hint : BitVec 2) (a n : Nat) (h : s.memWf) : (s.touchRead q hint a n).memWf := by
  unfold State.touchRead
  split
  · exact foldl_keeps (fun s => s.memWf) _ (fun _ l hs => State.touchLine_memWf q hint l hs) _ h
  · exact h

theorem State.openLine_memWf {s : State} (q : Nat) (hint : BitVec 2) (a n l : Nat) (h : s.memWf) : (s.openLine q hint a n l).memWf := by
  have h1 : (if hint = 1 then s.keepLine q l (!wholeLine a n l) else s).memWf := by
    split
    · exact State.keepLine_memWf _ _ _ h
    · exact h
  unfold State.openLine
  generalize (if hint = 1 then s.keepLine q l (!wholeLine a n l) else s) = s1 at h1
  dsimp only
  repeat' split
  all_goals exact h1

theorem State.writeByte_memWf {s : State} (a : Nat) (b : Byte) (h : s.memWf) : (s.writeByte a b).memWf := by
  unfold State.writeByte
  dsimp only
  split
  · split
    · exact h
    · exact Memory.wf_setz a b h
  · exact Memory.wf_setz a b h

theorem State.writeSeq_memWf {s : State} (a : Nat) (bs : List Byte) (h : s.memWf) : (s.writeSeq a bs).memWf := by
  induction bs generalizing s a with
  | nil => exact h
  | cons b r ih => exact ih (a + 1) (State.writeByte_memWf a b h)

/-- Every store keeps the canonical form. -/
theorem State.store_memWf {s : State} (q : Nat) (hint : BitVec 2) (a : Nat) (bs : List Byte) (h : s.memWf) :
    (s.store q hint a bs).memWf := by
  unfold State.store
  dsimp only
  apply State.writeSeq_memWf
  split
  · exact foldl_keeps (fun s => s.memWf) _ (fun _ l hs => State.openLine_memWf q hint a bs.length l hs) _ h
  · exact h

theorem State.flushCarve_memWf {s : State} (q : Nat) (h : s.memWf) : (s.flushCarve q).memWf := by
  unfold State.flushCarve
  exact State.setLines_memWf _ _ (foldl_keeps (fun s => s.memWf) _ (fun _ x hs => State.writeBack_memWf x hs) _ h)

theorem State.zeroSpan_memWf {s : State} (lo hi : Nat) (h : s.memWf) : (s.zeroSpan lo hi).memWf :=
  Memory.wf_drop (fun a => inSpan a lo hi) h

theorem State.drawKey_memWf {s : State} (q : Nat) (h : s.memWf) : (s.drawKey q).memWf := State.zeroSpan_memWf (s := s.setLines q []) _ _ h

theorem State.clearPeat_memWf {s : State} (q : Nat) (h : s.memWf) : (s.clearPeat q).memWf := State.zeroSpan_memWf _ _ h

/-- A ring write keeps the canonical form. -/
theorem State.ringPut_memWf {s : State} (r : Ring) (n : Nat) (recs : Bool → List (List Byte)) (h : s.memWf) :
    (s.ringPut r n recs).2.memWf := by
  unfold State.ringPut
  split
  · exact h
  · dsimp only
    split
    · exact h
    · generalize recs r.lost = l
      suffices ∀ (p : Ring × State), p.2.memWf → (l.foldl (fun (p : Ring × State) b =>
          (p.1.advance, p.2.store p.1.part.toNat 0 (p.1.base.toNat + n * p.1.wr.toNat) b)) p).2.memWf from this (r, s) h
      induction l with
      | nil => exact fun p hp => hp
      | cons b l ih => exact fun p hp => ih _ (State.store_memWf _ _ _ _ hp)

theorem State.evtPut_memWf {s : State} (e : EventRec) (h : s.memWf) : (s.evtPut e).memWf  := by
  unfold State.evtPut
  exact State.ringPut_memWf s.obs.revt 32 _ h

/-- Logging an event keeps the canonical form. -/
theorem State.log_memWf {s : State} (code : BitVec 12) (part : Nat) (args : List Byte) (h : s.memWf) :
    (s.log code part args).memWf := by
  unfold State.log
  dsimp only
  split
  · exact State.evtPut_memWf (s := { s with obs := _ }) _ h
  · exact State.evtPut_memWf (s := { s with obs := _ }) _ h

/-! ## The module's bytes -/

/-- The line of `a` that partition `q` holds has that line's address. -/
theorem findLine_addr {l : List CLine} {a : Nat} {x : CLine} (h : findLine l a = some x) : x.addr = lineAddr a := by
  have := List.find?_some h
  simpa using this

/-- Changing the contents of lines, not their addresses, changes what `findLine` finds in the same way. -/
theorem findLine_map (l : List CLine) (a : Nat) (g : CLine → CLine) (hg : ∀ x, (g x).addr = x.addr) :
    findLine (l.map g) a = (findLine l a).map g := by
  unfold findLine
  induction l with
  | nil => rfl
  | cons x r ih =>
    simp only [List.map_cons, List.find?_cons, hg]
    split
    · rfl
    · exact ih

/-- Writing one byte leaves every other byte as it was. -/
theorem State.readByte_writeByte_other {s : State} (h : s.memWf) (b : Byte) {a j : Nat} (hj : j ≠ a) :
    (s.writeByte a b).readByte j = s.readByte j := by
  have hr := ((Memory.wf_iff _).1 h).1
  unfold State.writeByte
  dsimp only
  split
  · split
    · rename_i hd x hx
      unfold State.readByte
      dsimp only [State.setLines, State.lines]
      split
      · rename_i hdj
        by_cases hq : j / dramShare s.partCnt = a / dramShare s.partCnt
        · rw [hq, Tab.get_set_same, findLine_map _ _ _ (by intro y; split <;> rfl)]
          cases hf : findLine (s.mem.lines.get [] (a / dramShare s.partCnt)) j with
          | none => rfl
          | some y =>
            simp only [Option.map_some]
            by_cases hl : y.addr = x.addr
            · simp only [hl, if_true]
              have e1 := findLine_addr hf
              have e2 := findLine_addr hx
              have : a % 256 ≠ j % 256 := by
                have : lineAddr j = lineAddr a := by rw [← e1, hl, e2]
                unfold lineAddr at this
                omega
              simp only [List.getD_eq_getElem?_getD, List.getElem?_set_ne this]
            · simp only [hl, if_false]
        · rw [Tab.get_set_other _ _ _ hq]
      · rfl
    · unfold State.readByte State.lines
      dsimp only
      rw [Tab.get_setz_other b hr hj]
  · unfold State.readByte State.lines
    dsimp only
    rw [Tab.get_setz_other b hr hj]

/-- A row of bytes written leaves every byte outside it as it was. -/
theorem State.readByte_writeSeq_outside {s : State} (h : s.memWf) (a : Nat) (bs : List Byte) {j : Nat}
    (hj : j < a ∨ a + bs.length ≤ j) : (s.writeSeq a bs).readByte j = s.readByte j := by
  induction bs generalizing s a with
  | nil => rfl
  | cons b r ih =>
    simp only [List.length_cons] at hj
    simp only [State.writeSeq]
    rw [ih (State.writeByte_memWf a b h) (a + 1) (by omega), State.readByte_writeByte_other h b (by omega)]

/-- Opening a line with a hint other than 1 counts grains and changes nothing else. -/
theorem State.openLine_grains {s : State} (q : Nat) {hint : BitVec 2} (hh : hint ≠ 1) (a n l : Nat) :
    ∃ g, s.openLine q hint a n l = { s with mem := { s.mem with grains := g } } := by
  unfold State.openLine
  dsimp only
  rw [if_neg hh]
  repeat' split
  all_goals exact ⟨_, rfl⟩

/-- The lines that a store opens with a hint other than 1 change the grain counts alone. -/
theorem State.openLines_grains (q : Nat) {hint : BitVec 2} (hh : hint ≠ 1) (a n : Nat) (l : List Nat) (s : State) :
    ∃ g, l.foldl (fun s l => s.openLine q hint a n l) s = { s with mem := { s.mem with grains := g } } := by
  induction l generalizing s with
  | nil => exact ⟨s.mem.grains, rfl⟩
  | cons x r ih =>
    obtain ⟨g, hg⟩ := State.openLine_grains (s := s) q hh a n x
    obtain ⟨g', hg'⟩ := ih { s with mem := { s.mem with grains := g } }
    exact ⟨g', by rw [List.foldl_cons, hg, hg']⟩

/-- A store that allocates no line (its hint is not 1, or it goes to the Peat) leaves every byte outside it as it was. -/
theorem State.readByte_store_outside {s : State} (h : s.memWf) (q : Nat) (hint : BitVec 2) (a : Nat) (bs : List Byte)
    (hh : hint ≠ 1 ∨ dramPlan ≤ a) {j : Nat} (hj : j < a ∨ a + bs.length ≤ j) :
    (s.store q hint a bs).readByte j = s.readByte j := by
  obtain ⟨g, hg⟩ : ∃ g, (if a < dramPlan then (linesOf a bs.length).foldl (fun s l => s.openLine q hint a bs.length l) s else s)
      = { s with mem := { s.mem with grains := g } } := by
    split
    · rename_i ha
      exact State.openLines_grains q (hh.elim id fun g => absurd ha (Nat.not_lt.2 g)) a bs.length _ s
    · exact ⟨s.mem.grains, rfl⟩
  unfold State.store
  dsimp only
  rw [hg]
  exact (State.readByte_writeSeq_outside (s := State.clearCovered { s with mem := { s.mem with grains := g } } a bs.length) h a bs hj).trans rfl

/-- Carve-out lines are whole: each holds 256 bytes. -/
def State.linesWhole (s : State) : Prop := ∀ q, ∀ x ∈ s.lines q, x.data.length = 256

theorem State.writeByte_linesWhole {s : State} (h : s.linesWhole) (a : Nat) (b : Byte) : (s.writeByte a b).linesWhole := by
  unfold State.writeByte
  dsimp only
  split
  · split
    · intro q x hx
      by_cases hq : q = a / dramShare s.partCnt
      · subst hq
        simp only [State.lines, State.setLines, Tab.get_set_same] at hx
        obtain ⟨y, hy, rfl⟩ := List.mem_map.1 hx
        have := h _ y hy
        split <;> simp [this]
      · simp only [State.lines, State.setLines, Tab.get_set_other _ _ _ hq] at hx
        exact h q x hx
    · exact h
  · exact h

/-- With whole lines, a byte reads as the value just written to it. -/
theorem State.readByte_writeByte_same {s : State} (h : s.memWf) (hl : s.linesWhole) (a : Nat) (b : Byte) :
    (s.writeByte a b).readByte a = b := by
  have hr := ((Memory.wf_iff _).1 h).1
  unfold State.writeByte
  dsimp only
  split
  · rename_i hd
    split
    · rename_i x hx
      unfold State.readByte
      dsimp only [State.setLines, State.lines]
      rw [if_pos hd, Tab.get_set_same, findLine_map _ _ _ (by intro y; split <;> rfl)]
      rw [show findLine (s.mem.lines.get [] (a / dramShare s.partCnt)) a = some x from hx]
      have hm : x ∈ s.lines (a / dramShare s.partCnt) := List.mem_of_find?_eq_some hx
      have := hl _ x hm
      simp [this, Nat.mod_lt]
    · rename_i hx
      unfold State.readByte
      dsimp only
      rw [if_pos hd]
      change (match findLine (s.lines (a / dramShare s.partCnt)) a with | some x => _ | none => _) = _
      rw [hx]
      exact Tab.get_setz_same a b hr
  · rename_i hd
    unfold State.readByte
    dsimp only
    rw [if_neg hd]
    exact Tab.get_setz_same a b hr

/-- With whole lines, the bytes of a row read as written. -/
theorem State.readByte_writeSeq_inside {s : State} (h : s.memWf) (hl : s.linesWhole) (a : Nat) (bs : List Byte) {k : Nat}
    (hk : k < bs.length) : (s.writeSeq a bs).readByte (a + k) = bs.getD k 0 := by
  induction bs generalizing s a k with
  | nil => simp at hk
  | cons b r ih =>
    simp only [State.writeSeq]
    have h' := State.writeByte_memWf a b h
    have hl' := State.writeByte_linesWhole hl a b
    cases k with
    | zero =>
      rw [State.readByte_writeSeq_outside h' (a + 1) r (by omega)]
      simpa using State.readByte_writeByte_same h hl a b
    | succ n =>
      have := ih h' hl' (a + 1) (k := n) (by simpa using hk)
      rw [show a + (n + 1) = a + 1 + n by omega, this]
      simp

end Sys2Proof.Machine
end

