-- ==== Sys2Proof/Laws/PerInstr.lean ====
section
/-! SUPPORT. Laws/PerInstr.lean: statements made once for each command. -/

namespace Sys2Proof.Laws

end Sys2Proof.Laws
end

