-- ==== Sys2Proof/Laws/Shared.lean ====
section
/-! SUPPORT. Laws/Shared.lean: for each shared operation what it can do: the fields it may touch, and when it goes on as its argument says. -/

namespace Sys2Proof.Machine

/-! ## A fold keeps what each step keeps -/

theorem foldl_inv {α β : Type} (P : β → Prop) (g : β → α → β) (hg : ∀ s a, P s → P (g s a)) (l : List α) (s : β) (h : P s) :
    P (l.foldl g s) := by
  induction l generalizing s with
  | nil => exact h
  | cons a l ih => exact ih _ (hg _ _ h)

/-! ## Memory: the operations that touch the memories alone -/

/-- `t` is `s` with other memories. -/
def State.memOnly (s t : State) : Prop := t = { s with mem := t.mem }

theorem State.memOnly_refl (s : State) : s.memOnly s := rfl
theorem State.memOnly_trans {s t u : State} (h1 : s.memOnly t) (h2 : t.memOnly u) : s.memOnly u := by
  unfold memOnly at *; rw [h2, h1]

theorem State.setLines_memOnly (s : State) (q : Nat) (l : List CLine) : s.memOnly (s.setLines q l) := rfl
theorem State.clearCovered_memOnly (s : State) (a n : Nat) : s.memOnly (s.clearCovered a n) := rfl
theorem State.writeBack_memOnly (s : State) (x : CLine) : s.memOnly (s.writeBack x) := by
  unfold writeBack; split <;> rfl
theorem State.evictFor_memOnly (s : State) (q a : Nat) : s.memOnly (s.evictFor q a) := by
  unfold evictFor
  simp only
  split
  · rfl
  · split
    · rfl
    · exact memOnly_trans (writeBack_memOnly s _) rfl
theorem State.grain_memOnly (s : State) (w : Bool) (a : Nat) : s.memOnly (s.grain w a) := rfl
theorem State.keepLine_memOnly (s : State) (q a : Nat) (fill : Bool) : s.memOnly (s.keepLine q a fill) := by
  unfold keepLine
  split
  · rfl
  · split
    · rfl
    · dsimp only
      split <;> exact memOnly_trans (evictFor_memOnly s q a) rfl
theorem State.dropLine_memOnly (s : State) (q a : Nat) : s.memOnly (s.dropLine q a) := rfl
theorem State.touchLine_memOnly (s : State) (q : Nat) (hint : BitVec 2) (l : Nat) : s.memOnly (s.touchLine q hint l) := by
  unfold touchLine
  split
  · exact keepLine_memOnly s q l true
  · dsimp only
    repeat' split
    all_goals rfl
theorem State.touchRead_memOnly (s : State) (q : Nat) (hint : BitVec 2) (a n : Nat) : s.memOnly (s.touchRead q hint a n) := by
  unfold touchRead
  split
  · exact foldl_inv (fun t => s.memOnly t) _ (fun t l h => memOnly_trans h (touchLine_memOnly t q hint l)) _ _ rfl
  · rfl
theorem State.openLine_memOnly (s : State) (q : Nat) (hint : BitVec 2) (a n l : Nat) : s.memOnly (s.openLine q hint a n l) := by
  have h1 : s.memOnly (if hint = 1 then s.keepLine q l (!wholeLine a n l) else s) := by
    split
    · exact keepLine_memOnly s q l _
    · rfl
  unfold openLine
  generalize (if hint = 1 then s.keepLine q l (!wholeLine a n l) else s) = s1 at h1
  dsimp only
  repeat' split
  all_goals first | exact h1 | exact memOnly_trans h1 rfl
theorem State.writeByte_memOnly (s : State) (a : Nat) (b : Byte) : s.memOnly (s.writeByte a b) := by
  unfold writeByte
  split
  · simp only
    split <;> rfl
  · rfl
theorem State.writeSeq_memOnly (s : State) (a : Nat) (bs : List Byte) : s.memOnly (s.writeSeq a bs) := by
  induction bs generalizing s a with
  | nil => rfl
  | cons b bs ih => exact memOnly_trans (writeByte_memOnly s a b) (ih _ _)
theorem State.store_memOnly (s : State) (q : Nat) (hint : BitVec 2) (a : Nat) (bs : List Byte) : s.memOnly (s.store q hint a bs) := by
  unfold store
  simp only
  refine memOnly_trans (t := if a < dramPlan then (linesOf a bs.length).foldl (fun s l => s.openLine q hint a bs.length l) s else s) ?_
    (memOnly_trans (clearCovered_memOnly _ a bs.length) (writeSeq_memOnly _ a bs))
  split
  · exact foldl_inv (fun t => s.memOnly t) _ (fun t l h => memOnly_trans h (openLine_memOnly t q hint a bs.length l)) _ _ s.memOnly_refl
  · rfl
theorem State.flushCarve_memOnly (s : State) (q : Nat) : s.memOnly (s.flushCarve q) := by
  unfold flushCarve
  exact memOnly_trans (foldl_inv (fun t => s.memOnly t) _ (fun t x h => memOnly_trans h (writeBack_memOnly t x)) _ s s.memOnly_refl)
    (setLines_memOnly _ q [])

/-- What a ring write touches beside the ring's own registers. -/
theorem State.ringPut_memOnly (s : State) (r : Ring) (n : Nat) (recs : Bool → List (List Byte)) : s.memOnly (s.ringPut r n recs).2 := by
  unfold ringPut
  split
  · rfl
  · simp only
    split
    · rfl
    · exact foldl_inv (fun (p : Ring × State) => s.memOnly p.2) _ (fun p b h => memOnly_trans h (store_memOnly _ _ _ _ _)) _ _ rfl

/-! ## Events -/

/-- `t` is `s` after events: other memories (the event ring), another observation, further management messages. -/
def State.logOnly (s t : State) : Prop := t = { s with mem := t.mem, obs := t.obs, host := { s.host with mctpOut := t.host.mctpOut } }

theorem State.logOnly_refl (s : State) : s.logOnly s := rfl
theorem State.logOnly_trans {s t u : State} (h1 : s.logOnly t) (h2 : t.logOnly u) : s.logOnly u := by
  unfold logOnly at *; rw [h2, h1]

theorem State.withObs_logOnly (s : State) (o : Obs) : s.logOnly { s with obs := o } := rfl
theorem State.mctpSend_logOnly (s : State) (b : Binding) (typ : Byte) (body : List Byte) : s.logOnly (s.mctpSend b typ body) := rfl
theorem State.evtPut_logOnly (s : State) (e : EventRec) : s.logOnly (s.evtPut e) := by
  have h := ringPut_memOnly s s.obs.revt 32 fun lost => if e.hasCont then [e.bytes lost, e.contBytes false] else [e.bytes lost]
  unfold evtPut logOnly
  unfold memOnly at h
  simp only
  rw [h]
theorem State.evtPut_obs (s : State) (e : EventRec) : ∃ r, (s.evtPut e).obs = { s.obs with revt := r } := by
  have h := ringPut_memOnly s s.obs.revt 32 fun lost => if e.hasCont then [e.bytes lost, e.contBytes false] else [e.bytes lost]
  refine ⟨(s.ringPut s.obs.revt 32 fun lost => if e.hasCont then [e.bytes lost, e.contBytes false] else [e.bytes lost]).1, ?_⟩
  unfold evtPut
  unfold memOnly at h
  simp only
  rw [h]

theorem State.log_logOnly (s : State) (code : BitVec 12) (q : Nat) (args : List Byte) : s.logOnly (s.log code q args) := by
  unfold log
  simp only
  split
  · exact logOnly_trans (logOnly_trans (withObs_logOnly s _) (evtPut_logOnly _ _)) (mctpSend_logOnly _ _ _ _)
  · exact logOnly_trans (withObs_logOnly s _) (evtPut_logOnly _ _)

/-- The observation after an event: one more SEQ, the record at the head of the log, the event ring. -/
theorem State.log_obs (s : State) (code : BitVec 12) (q : Nat) (args : List Byte) :
    ∃ r lost, (s.log code q args).obs = { s.obs with
      log := trimLog logCap (⟨code, BitVec.ofNat 2 q, lost, s.obs.seq, s.clk.tick, s.calendar, args⟩ :: s.obs.log), logFull := lost
      seq := s.obs.seq + 1, revt := r } := by
  unfold log
  simp only
  generalize hl : (s.obs.logFull || decide (logCap < logPlaces s.obs.log + (if 6 < args.length then 2 else 1))) = lost
  obtain ⟨r, h⟩ := evtPut_obs { s with obs := { s.obs with
      log := trimLog logCap (⟨code, BitVec.ofNat 2 q, lost, s.obs.seq, s.clk.tick, s.calendar, args⟩ :: s.obs.log), logFull := lost, seq := s.obs.seq + 1 } }
    ⟨code, BitVec.ofNat 2 q, lost, s.obs.seq, s.clk.tick, s.calendar, args⟩
  exact ⟨r, lost, by split <;> exact h⟩
@[simp] theorem State.log_seq (s : State) (code : BitVec 12) (q : Nat) (args : List Byte) : (s.log code q args).obs.seq = s.obs.seq + 1 := by
  obtain ⟨r, lost, h⟩ := s.log_obs code q args; rw [h]

/-! ## A store and an event leave the other fields alone -/

@[simp] theorem State.store_pending (s : State) (q : Nat) (hint : BitVec 2) (a : Nat) (bs : List Byte) : (s.store q hint a bs).pending = s.pending := by
  have h := store_memOnly s q hint a bs; unfold memOnly at h; rw [h]
@[simp] theorem State.store_free (s : State) (q : Nat) (hint : BitVec 2) (a : Nat) (bs : List Byte) : (s.store q hint a bs).free = s.free := by
  have h := store_memOnly s q hint a bs; unfold memOnly at h; rw [h]
@[simp] theorem State.store_partCnt (s : State) (q : Nat) (hint : BitVec 2) (a : Nat) (bs : List Byte) : (s.store q hint a bs).partCnt = s.partCnt := by
  have h := store_memOnly s q hint a bs; unfold memOnly at h; rw [h]
@[simp] theorem State.store_parts (s : State) (q : Nat) (hint : BitVec 2) (a : Nat) (bs : List Byte) : (s.store q hint a bs).parts = s.parts := by
  have h := store_memOnly s q hint a bs; unfold memOnly at h; rw [h]
@[simp] theorem State.store_engs (s : State) (q : Nat) (hint : BitVec 2) (a : Nat) (bs : List Byte) : (s.store q hint a bs).engs = s.engs := by
  have h := store_memOnly s q hint a bs; unfold memOnly at h; rw [h]
@[simp] theorem State.store_engMaps (s : State) (q : Nat) (hint : BitVec 2) (a : Nat) (bs : List Byte) : (s.store q hint a bs).engMaps = s.engMaps := by
  have h := store_memOnly s q hint a bs; unfold memOnly at h; rw [h]
@[simp] theorem State.store_deadPhys (s : State) (q : Nat) (hint : BitVec 2) (a : Nat) (bs : List Byte) : (s.store q hint a bs).deadPhys = s.deadPhys := by
  have h := store_memOnly s q hint a bs; unfold memOnly at h; rw [h]
@[simp] theorem State.store_engFlt (s : State) (q : Nat) (hint : BitVec 2) (a : Nat) (bs : List Byte) : (s.store q hint a bs).engFlt = s.engFlt := by
  have h := store_memOnly s q hint a bs; unfold memOnly at h; rw [h]
@[simp] theorem State.store_sems (s : State) (q : Nat) (hint : BitVec 2) (a : Nat) (bs : List Byte) : (s.store q hint a bs).sems = s.sems := by
  have h := store_memOnly s q hint a bs; unfold memOnly at h; rw [h]
@[simp] theorem State.store_watches (s : State) (q : Nat) (hint : BitVec 2) (a : Nat) (bs : List Byte) : (s.store q hint a bs).watches = s.watches := by
  have h := store_memOnly s q hint a bs; unfold memOnly at h; rw [h]
@[simp] theorem State.store_sync (s : State) (q : Nat) (hint : BitVec 2) (a : Nat) (bs : List Byte) : (s.store q hint a bs).sync = s.sync := by
  have h := store_memOnly s q hint a bs; unfold memOnly at h; rw [h]
@[simp] theorem State.store_txl (s : State) (q : Nat) (hint : BitVec 2) (a : Nat) (bs : List Byte) : (s.store q hint a bs).txl = s.txl := by
  have h := store_memOnly s q hint a bs; unfold memOnly at h; rw [h]
@[simp] theorem State.store_rxl (s : State) (q : Nat) (hint : BitVec 2) (a : Nat) (bs : List Byte) : (s.store q hint a bs).rxl = s.rxl := by
  have h := store_memOnly s q hint a bs; unfold memOnly at h; rw [h]
@[simp] theorem State.store_ports (s : State) (q : Nat) (hint : BitVec 2) (a : Nat) (bs : List Byte) : (s.store q hint a bs).ports = s.ports := by
  have h := store_memOnly s q hint a bs; unfold memOnly at h; rw [h]
@[simp] theorem State.store_islands (s : State) (q : Nat) (hint : BitVec 2) (a : Nat) (bs : List Byte) : (s.store q hint a bs).islands = s.islands := by
  have h := store_memOnly s q hint a bs; unfold memOnly at h; rw [h]
@[simp] theorem State.store_combs (s : State) (q : Nat) (hint : BitVec 2) (a : Nat) (bs : List Byte) : (s.store q hint a bs).combs = s.combs := by
  have h := store_memOnly s q hint a bs; unfold memOnly at h; rw [h]
@[simp] theorem State.store_router (s : State) (q : Nat) (hint : BitVec 2) (a : Nat) (bs : List Byte) : (s.store q hint a bs).router = s.router := by
  have h := store_memOnly s q hint a bs; unfold memOnly at h; rw [h]
@[simp] theorem State.store_power (s : State) (q : Nat) (hint : BitVec 2) (a : Nat) (bs : List Byte) : (s.store q hint a bs).power = s.power := by
  have h := store_memOnly s q hint a bs; unfold memOnly at h; rw [h]
@[simp] theorem State.store_clk (s : State) (q : Nat) (hint : BitVec 2) (a : Nat) (bs : List Byte) : (s.store q hint a bs).clk = s.clk := by
  have h := store_memOnly s q hint a bs; unfold memOnly at h; rw [h]
@[simp] theorem State.store_boot (s : State) (q : Nat) (hint : BitVec 2) (a : Nat) (bs : List Byte) : (s.store q hint a bs).boot = s.boot := by
  have h := store_memOnly s q hint a bs; unfold memOnly at h; rw [h]
@[simp] theorem State.store_obs (s : State) (q : Nat) (hint : BitVec 2) (a : Nat) (bs : List Byte) : (s.store q hint a bs).obs = s.obs := by
  have h := store_memOnly s q hint a bs; unfold memOnly at h; rw [h]
@[simp] theorem State.store_host (s : State) (q : Nat) (hint : BitVec 2) (a : Nat) (bs : List Byte) : (s.store q hint a bs).host = s.host := by
  have h := store_memOnly s q hint a bs; unfold memOnly at h; rw [h]
@[simp] theorem State.store_eng (s : State) (q : Nat) (hint : BitVec 2) (a : Nat) (bs : List Byte) (j : Nat) : (s.store q hint a bs).eng j = s.eng j := by
  have h := store_memOnly s q hint a bs; unfold memOnly at h; rw [h]; rfl
@[simp] theorem State.store_part (s : State) (q : Nat) (hint : BitVec 2) (a : Nat) (bs : List Byte) (j : Nat) : (s.store q hint a bs).part j = s.part j := by
  have h := store_memOnly s q hint a bs; unfold memOnly at h; rw [h]; rfl
@[simp] theorem State.store_sem (s : State) (q : Nat) (hint : BitVec 2) (a : Nat) (bs : List Byte) (j : Nat) : (s.store q hint a bs).sem j = s.sem j := by
  have h := store_memOnly s q hint a bs; unfold memOnly at h; rw [h]; rfl
@[simp] theorem State.store_watch (s : State) (q : Nat) (hint : BitVec 2) (a : Nat) (bs : List Byte) (j : Nat) : (s.store q hint a bs).watch j = s.watch j := by
  have h := store_memOnly s q hint a bs; unfold memOnly at h; rw [h]; rfl
@[simp] theorem State.store_tx (s : State) (q : Nat) (hint : BitVec 2) (a : Nat) (bs : List Byte) (x y : Nat) : (s.store q hint a bs).tx x y = s.tx x y := by
  have h := store_memOnly s q hint a bs; unfold memOnly at h; rw [h]; rfl
@[simp] theorem State.store_rx (s : State) (q : Nat) (hint : BitVec 2) (a : Nat) (bs : List Byte) (x y : Nat) : (s.store q hint a bs).rx x y = s.rx x y := by
  have h := store_memOnly s q hint a bs; unfold memOnly at h; rw [h]; rfl
@[simp] theorem State.store_port (s : State) (q : Nat) (hint : BitVec 2) (a : Nat) (bs : List Byte) (j : Nat) : (s.store q hint a bs).port j = s.port j := by
  have h := store_memOnly s q hint a bs; unfold memOnly at h; rw [h]; rfl
@[simp] theorem State.store_island (s : State) (q : Nat) (hint : BitVec 2) (a : Nat) (bs : List Byte) (j : Nat) : (s.store q hint a bs).island j = s.island j := by
  have h := store_memOnly s q hint a bs; unfold memOnly at h; rw [h]; rfl
@[simp] theorem State.store_comb (s : State) (q : Nat) (hint : BitVec 2) (a : Nat) (bs : List Byte) (j : Nat) : (s.store q hint a bs).comb j = s.comb j := by
  have h := store_memOnly s q hint a bs; unfold memOnly at h; rw [h]; rfl
@[simp] theorem State.store_fn (s : State) (q : Nat) (hint : BitVec 2) (a : Nat) (bs : List Byte) (j : Nat) : (s.store q hint a bs).fn j = s.fn j := by
  have h := store_memOnly s q hint a bs; unfold memOnly at h; rw [h]; rfl
@[simp] theorem State.store_rankEnt (s : State) (q : Nat) (hint : BitVec 2) (a : Nat) (bs : List Byte) (x y : Nat) : (s.store q hint a bs).rankEnt x y = s.rankEnt x y := by
  have h := store_memOnly s q hint a bs; unfold memOnly at h; rw [h]; rfl
@[simp] theorem State.log_pending (s : State) (code : BitVec 12) (q : Nat) (args : List Byte) : (s.log code q args).pending = s.pending := by
  have h := log_logOnly s code q args; unfold logOnly at h; rw [h]
@[simp] theorem State.log_free (s : State) (code : BitVec 12) (q : Nat) (args : List Byte) : (s.log code q args).free = s.free := by
  have h := log_logOnly s code q args; unfold logOnly at h; rw [h]
@[simp] theorem State.log_partCnt (s : State) (code : BitVec 12) (q : Nat) (args : List Byte) : (s.log code q args).partCnt = s.partCnt := by
  have h := log_logOnly s code q args; unfold logOnly at h; rw [h]
@[simp] theorem State.log_parts (s : State) (code : BitVec 12) (q : Nat) (args : List Byte) : (s.log code q args).parts = s.parts := by
  have h := log_logOnly s code q args; unfold logOnly at h; rw [h]
@[simp] theorem State.log_engs (s : State) (code : BitVec 12) (q : Nat) (args : List Byte) : (s.log code q args).engs = s.engs := by
  have h := log_logOnly s code q args; unfold logOnly at h; rw [h]
@[simp] theorem State.log_engMaps (s : State) (code : BitVec 12) (q : Nat) (args : List Byte) : (s.log code q args).engMaps = s.engMaps := by
  have h := log_logOnly s code q args; unfold logOnly at h; rw [h]
@[simp] theorem State.log_deadPhys (s : State) (code : BitVec 12) (q : Nat) (args : List Byte) : (s.log code q args).deadPhys = s.deadPhys := by
  have h := log_logOnly s code q args; unfold logOnly at h; rw [h]
@[simp] theorem State.log_engFlt (s : State) (code : BitVec 12) (q : Nat) (args : List Byte) : (s.log code q args).engFlt = s.engFlt := by
  have h := log_logOnly s code q args; unfold logOnly at h; rw [h]
@[simp] theorem State.log_sems (s : State) (code : BitVec 12) (q : Nat) (args : List Byte) : (s.log code q args).sems = s.sems := by
  have h := log_logOnly s code q args; unfold logOnly at h; rw [h]
@[simp] theorem State.log_watches (s : State) (code : BitVec 12) (q : Nat) (args : List Byte) : (s.log code q args).watches = s.watches := by
  have h := log_logOnly s code q args; unfold logOnly at h; rw [h]
@[simp] theorem State.log_sync (s : State) (code : BitVec 12) (q : Nat) (args : List Byte) : (s.log code q args).sync = s.sync := by
  have h := log_logOnly s code q args; unfold logOnly at h; rw [h]
@[simp] theorem State.log_txl (s : State) (code : BitVec 12) (q : Nat) (args : List Byte) : (s.log code q args).txl = s.txl := by
  have h := log_logOnly s code q args; unfold logOnly at h; rw [h]
@[simp] theorem State.log_rxl (s : State) (code : BitVec 12) (q : Nat) (args : List Byte) : (s.log code q args).rxl = s.rxl := by
  have h := log_logOnly s code q args; unfold logOnly at h; rw [h]
@[simp] theorem State.log_ports (s : State) (code : BitVec 12) (q : Nat) (args : List Byte) : (s.log code q args).ports = s.ports := by
  have h := log_logOnly s code q args; unfold logOnly at h; rw [h]
@[simp] theorem State.log_islands (s : State) (code : BitVec 12) (q : Nat) (args : List Byte) : (s.log code q args).islands = s.islands := by
  have h := log_logOnly s code q args; unfold logOnly at h; rw [h]
@[simp] theorem State.log_combs (s : State) (code : BitVec 12) (q : Nat) (args : List Byte) : (s.log code q args).combs = s.combs := by
  have h := log_logOnly s code q args; unfold logOnly at h; rw [h]
@[simp] theorem State.log_router (s : State) (code : BitVec 12) (q : Nat) (args : List Byte) : (s.log code q args).router = s.router := by
  have h := log_logOnly s code q args; unfold logOnly at h; rw [h]
@[simp] theorem State.log_power (s : State) (code : BitVec 12) (q : Nat) (args : List Byte) : (s.log code q args).power = s.power := by
  have h := log_logOnly s code q args; unfold logOnly at h; rw [h]
@[simp] theorem State.log_clk (s : State) (code : BitVec 12) (q : Nat) (args : List Byte) : (s.log code q args).clk = s.clk := by
  have h := log_logOnly s code q args; unfold logOnly at h; rw [h]
@[simp] theorem State.log_boot (s : State) (code : BitVec 12) (q : Nat) (args : List Byte) : (s.log code q args).boot = s.boot := by
  have h := log_logOnly s code q args; unfold logOnly at h; rw [h]
@[simp] theorem State.log_eng (s : State) (code : BitVec 12) (q : Nat) (args : List Byte) (j : Nat) : (s.log code q args).eng j = s.eng j := by
  have h := log_logOnly s code q args; unfold logOnly at h; rw [h]; rfl
@[simp] theorem State.log_part (s : State) (code : BitVec 12) (q : Nat) (args : List Byte) (j : Nat) : (s.log code q args).part j = s.part j := by
  have h := log_logOnly s code q args; unfold logOnly at h; rw [h]; rfl
@[simp] theorem State.log_sem (s : State) (code : BitVec 12) (q : Nat) (args : List Byte) (j : Nat) : (s.log code q args).sem j = s.sem j := by
  have h := log_logOnly s code q args; unfold logOnly at h; rw [h]; rfl
@[simp] theorem State.log_watch (s : State) (code : BitVec 12) (q : Nat) (args : List Byte) (j : Nat) : (s.log code q args).watch j = s.watch j := by
  have h := log_logOnly s code q args; unfold logOnly at h; rw [h]; rfl
@[simp] theorem State.log_tx (s : State) (code : BitVec 12) (q : Nat) (args : List Byte) (x y : Nat) : (s.log code q args).tx x y = s.tx x y := by
  have h := log_logOnly s code q args; unfold logOnly at h; rw [h]; rfl
@[simp] theorem State.log_rx (s : State) (code : BitVec 12) (q : Nat) (args : List Byte) (x y : Nat) : (s.log code q args).rx x y = s.rx x y := by
  have h := log_logOnly s code q args; unfold logOnly at h; rw [h]; rfl
@[simp] theorem State.log_port (s : State) (code : BitVec 12) (q : Nat) (args : List Byte) (j : Nat) : (s.log code q args).port j = s.port j := by
  have h := log_logOnly s code q args; unfold logOnly at h; rw [h]; rfl
@[simp] theorem State.log_island (s : State) (code : BitVec 12) (q : Nat) (args : List Byte) (j : Nat) : (s.log code q args).island j = s.island j := by
  have h := log_logOnly s code q args; unfold logOnly at h; rw [h]; rfl
@[simp] theorem State.log_comb (s : State) (code : BitVec 12) (q : Nat) (args : List Byte) (j : Nat) : (s.log code q args).comb j = s.comb j := by
  have h := log_logOnly s code q args; unfold logOnly at h; rw [h]; rfl
@[simp] theorem State.log_fn (s : State) (code : BitVec 12) (q : Nat) (args : List Byte) (j : Nat) : (s.log code q args).fn j = s.fn j := by
  have h := log_logOnly s code q args; unfold logOnly at h; rw [h]; rfl
@[simp] theorem State.log_rankEnt (s : State) (code : BitVec 12) (q : Nat) (args : List Byte) (x y : Nat) : (s.log code q args).rankEnt x y = s.rankEnt x y := by
  have h := log_logOnly s code q args; unfold logOnly at h; rw [h]; rfl


/-! ## Issue (R2, R56) -/

variable {op : Op} {e : Eng} {f : Fields} {s : State}

/-- An illegal form stops. -/
theorem issueIf_illegal (ok : State → Bool) (k : Plan → State → State) (h : legalForm e.val op f = false) :
    issueIf ok op e f s k = .fault .illegalForm := by
  unfold issueIf; simp [h]

/-- A legal form that the engine may not issue now leaves the state as it is. -/
theorem issueIf_declined (ok : State → Bool) (k : Plan → State → State) (h : legalForm e.val op f = true)
    (hi : s.issuing e.val op f = none) : issueIf ok op e f s k = .next s := by
  unfold issueIf; simp [h, hi]

/-- An engine that may issue goes on as `k` says. -/
theorem issueIf_runs (ok : State → Bool) (k : Plan → State → State) {p : Plan} (h : legalForm e.val op f = true)
    (hi : s.issuing e.val op f = some p) (hp : s.fetchPoison e.val op f = none)
    (hf : opFits op (kindOf e.val) f (s.eng e.val) (s.konst e.val) = true) (ho : ok s = true) :
    issueIf ok op e f s k = .next (k p (s.noteIssue e.val op)) := by
  unfold issueIf; simp [h, hi, hp, hf, ho]

/-- An uncorrectable instruction or constant: the block faults instead (R178). -/
theorem issueIf_poisoned (ok : State → Bool) (k : Plan → State → State) {p : Plan} {g : Nat} (h : legalForm e.val op f = true)
    (hi : s.issuing e.val op f = some p) (hp : s.fetchPoison e.val op f = some g) :
    issueIf ok op e f s k = .next (s.fetchFault e.val g) := by
  unfold issueIf; simp [h, hi, hp]

theorem issue_runs (k : Plan → State → State) {p : Plan} (h : legalForm e.val op f = true)
    (hi : s.issuing e.val op f = some p) (hp : s.fetchPoison e.val op f = none)
    (hf : opFits op (kindOf e.val) f (s.eng e.val) (s.konst e.val) = true) :
    issue op e f s k = .next (k p (s.noteIssue e.val op)) := issueIf_runs _ k h hi hp hf rfl

/-- Every answer of an issue: the fault, the state as it was, the fault of an uncorrectable fetch, or `k` under the plan that lets it
issue. -/
theorem issueIf_cases {ok : State → Bool} {k : Plan → State → State} {x : Out} (h : issueIf ok op e f s k = x) :
    x = .fault .illegalForm ∨ x = .next s ∨ (∃ g, s.fetchPoison e.val op f = some g ∧ x = .next (s.fetchFault e.val g)) ∨
    ∃ p, legalForm e.val op f = true ∧ s.issuing e.val op f = some p ∧ s.fetchPoison e.val op f = none ∧
      opFits op (kindOf e.val) f (s.eng e.val) (s.konst e.val) = true ∧ ok s = true ∧ x = .next (k p (s.noteIssue e.val op)) := by
  unfold issueIf at h
  split at h
  · split at h
    · exact .inr (.inl h.symm)
    · split at h
      · exact .inr (.inr (.inl ⟨_, by assumption, h.symm⟩))
      · split at h
        · split at h
          · exact .inr (.inr (.inr ⟨_, by assumption, by assumption, by assumption, by assumption, by assumption, h.symm⟩))
          · exact .inr (.inl h.symm)
        · exact .inl h.symm
  · exact .inl h.symm

/-- An instruction whose tensors pass every check goes on. -/
theorem State.withChecked_ok (s : State) (e : Nat) (p : Plan) (srcs dsts : List Tens) (k : State → State)
    (h1 : (srcs ++ dsts).all p.tensOk = true) (h2 : ((srcs ++ dsts).any fun t => t.host) = false ∨ s.host.linkUp = true)
    (h3 : (srcs.all fun t => (s.poisonOf e t).isNone) = true) : s.withChecked e p srcs dsts k = k s := by
  have h4 : srcs.findSome? (s.poisonOf e) = none := by
    rw [List.findSome?_eq_none_iff]
    intro t ht
    exact Option.isNone_iff_eq_none.1 (List.all_eq_true.1 h3 t ht)
  have h5 : (((srcs ++ dsts).any fun t => t.host) && !s.host.linkUp) = false := by
    rcases h2 with h | h <;> simp [h]
  unfold withChecked
  simp only
  rw [if_pos h1, h5, h4]
  rfl

theorem State.withTensors_ok (s : State) (e : Nat) (p : Plan) (srcs dsts : List Tens) (k : State → State)
    (h1 : (srcs ++ dsts).all p.tensOk = true) (h2 : ((srcs ++ dsts).any fun t => t.host) = false ∨ s.host.linkUp = true)
    (h3 : (srcs.all fun t => (s.poisonOf e t).isNone) = true) :
    s.withTensors e p srcs dsts k = srcs.foldl (fun s t => s.readTens e t) (k s) := s.withChecked_ok e p srcs dsts _ h1 h2 h3

/-! ## Counting -/

/-- Counting an event touches the counters alone. -/
theorem State.count_obs (s : State) (q unit ev n : Nat) : ∃ c, s.count q unit ev n = { s with obs := { s.obs with ctr := c } } := by
  unfold count
  split
  · exact ⟨_, rfl⟩
  · refine foldl_inv (fun t => ∃ c, t = { s with obs := { s.obs with ctr := c } }) _ (fun t kv h => ?_) _ s ⟨s.obs.ctr, rfl⟩
    obtain ⟨c, rfl⟩ := h
    exact ⟨_, rfl⟩

/-- The events of a step that an engine ends are logged: the engines, and what events touch. -/
theorem State.stepEvents_eq (s : State) (e : Nat) :
    ∃ en m o h, s.stepEvents e = { s with engs := en, mem := m, obs := o, host := h } := by
  have key : s.logOnly (s.stepEventsOf e) := by
    unfold stepEventsOf
    simp only
    have step : ∀ (b : Prop) [Decidable b] (t : State) (c : BitVec 12) (q : Nat) (l : List Byte), s.logOnly t → s.logOnly (if b then t else t.log c q l) := by
      intro b _ t c q l h
      split
      · exact h
      · exact logOnly_trans h (log_logOnly t c q l)
    exact step _ _ _ _ _ (step _ _ _ _ _ (step _ _ _ _ _ (step _ _ _ _ _ (logOnly_refl s))))
  unfold stepEvents
  simp only
  split
  · exact ⟨_, _, _, _, rfl⟩
  · unfold logOnly at key
    rw [key]
    exact ⟨_, _, _, _, rfl⟩

theorem State.newPass_eq (s : State) (e : Nat) : ∃ en m o h, s.newPass e = { s with engs := en, mem := m, obs := o, host := h } := by
  unfold newPass
  split
  · obtain ⟨en, m, o, h, hs⟩ := stepEvents_eq s e
    rw [hs]
    exact ⟨_, _, _, _, rfl⟩
  · exact ⟨_, _, _, _, rfl⟩

/-- An issue is noted in its engine, in its partition and in the counters, with the events of a step that it ends. -/
theorem State.noteIssue_eq (s : State) (e : Nat) (op : Op) :
    ∃ en pa m o h, s.noteIssue e op = { s with engs := en, parts := pa, mem := m, obs := o, host := h } := by
  obtain ⟨en, m, o, h, hp⟩ := newPass_eq s e
  unfold noteIssue
  simp only
  rw [hp]
  obtain ⟨c, hc⟩ := count_obs (State.modPart { s with engs := en, mem := m, obs := o, host := h }
    (State.partOf { s with engs := en, mem := m, obs := o, host := h } e) fun p => { p with issued := true })
    (State.partOf { s with engs := en, mem := m, obs := o, host := h } e) e 0 1
  rw [hc]
  split <;> split <;> exact ⟨_, _, _, _, _, rfl⟩

/-! ## Semaphores and watches (R190, R191) -/

/-- A watch that fires wakes its engine or stays fired: the watches, the engines and the counters. -/
theorem State.fire_eq (s : State) (w : Nat) : ∃ en wa o, s.fire w = { s with engs := en, watches := wa, obs := o } := by
  unfold fire countPart
  simp only
  obtain ⟨c, h⟩ := count_obs s (s.partOf (s.watch w).owner.toNat) 0xE0 2 1
  rw [h]
  split <;> exact ⟨_, _, _, rfl⟩

theorem State.testWatches_eq (s : State) (p : Nat → Watch → Bool) :
    ∃ en wa o, s.testWatches p = { s with engs := en, watches := wa, obs := o } := by
  unfold testWatches
  refine foldl_inv (fun t => ∃ en wa o, t = { s with engs := en, watches := wa, obs := o }) _ (fun t kv h => ?_) _ s ⟨s.engs, s.watches, s.obs, rfl⟩
  obtain ⟨en, wa, o, rfl⟩ := h
  split
  · obtain ⟨en', wa', o', h⟩ := fire_eq { s with engs := en, watches := wa, obs := o } kv.1
    exact ⟨en', wa', o', h.trans rfl⟩
  · exact ⟨_, _, _, rfl⟩

/-- An add inside ±2^20 is applied: the semaphore, and the watches, engines and counters that follow from it. -/
theorem State.semAdd_applies (s : State) (q i : Nat) (n : Int) (src : Src) (h : semRange ((s.sem i).value.toInt + n) = true) :
    ∃ en wa o, s.semAdd q i n src =
      { s with engs := en, watches := wa, obs := o, sems := s.sems.set i ((s.sem i).applied ((s.sem i).value.toInt + n) src s.now) } := by
  unfold semAdd semAddWith countPart testSem
  simp only
  rw [if_pos h]
  obtain ⟨en, wa, o, h1⟩ := testWatches_eq (s.setSem i ((s.sem i).applied ((s.sem i).value.toInt + n) src s.now)) fun _ x => x.sem.toNat == i
  obtain ⟨c, h2⟩ := count_obs ((s.setSem i ((s.sem i).applied ((s.sem i).value.toInt + n) src s.now)).testWatches fun _ x => x.sem.toNat == i) q 0xE0
    (if src.rmt then 1 else 0) 1
  rw [h2, h1]
  exact ⟨_, _, _, rfl⟩

/-! ## Packets on their way out (R218-R221, R259-R262) -/

/-- `t` is `s` but for what a frame on the fibre may touch: the lanes, the ports, the counters and the alignment blocks. -/
def State.laneOnly (s t : State) : Prop :=
  t = { s with txl := t.txl, rxl := t.rxl, ports := t.ports, obs := t.obs, router := { s.router with aligns := t.router.aligns } }

theorem State.laneOnly_refl (s : State) : s.laneOnly s := rfl
theorem State.laneOnly_trans {s t u : State} (h1 : s.laneOnly t) (h2 : t.laneOnly u) : s.laneOnly u := by
  unfold laneOnly at *; rw [h2, h1]
theorem State.modTx_laneOnly (s : State) (p c : Nat) (f : TxLane → TxLane) : s.laneOnly (s.modTx p c f) := rfl

theorem State.setRx_laneOnly (s : State) (p c : Nat) (x : RxLane) : s.laneOnly (s.setRx p c x) := rfl
theorem State.modRx_laneOnly (s : State) (p c : Nat) (f : RxLane → RxLane) : s.laneOnly (s.modRx p c f) := rfl
theorem State.modPort_laneOnly (s : State) (p : Nat) (f : PortSt → PortSt) : s.laneOnly (s.modPort p f) := rfl
theorem State.bump_laneOnly (s : State) (i n : Nat) : s.laneOnly (s.bump i n) := rfl
theorem State.aligns_laneOnly (s : State) (a : List (Nat × Nat × Nat × AlignBlock)) :
    s.laneOnly { s with router := { s.router with aligns := a } } := rfl
theorem State.sendBlock_laneOnly (s : State) (p c : Nat) (st : BitVec 2) : s.laneOnly (s.sendBlock p c st) := by
  unfold sendBlock
  exact laneOnly_trans (laneOnly_trans (aligns_laneOnly s _) (modTx_laneOnly _ p c _)) (modRx_laneOnly _ _ _ _)

theorem State.putFrame_laneOnly (s : State) (p c r : Nat) (f : Frame) (idle : Bool) : s.laneOnly (s.putFrame p c r f idle) := by
  have either : ∀ (b : Prop) [Decidable b] (t u : State), s.laneOnly t → t.laneOnly u → s.laneOnly (if b then u else t) := by
    intro b _ t u h1 h2
    split
    · exact laneOnly_trans h1 h2
    · exact h1
  unfold putFrame
  exact either _ _ _ (either _ _ _ (either _ _ _ (modTx_laneOnly s p c _) (setRx_laneOnly _ _ _ _))
    (laneOnly_trans (modPort_laneOnly _ _ _) (bump_laneOnly _ _ _))) (sendBlock_laneOnly _ _ _ _)

theorem State.pumpLane_laneOnly (s : State) (p c n : Nat) : s.laneOnly (s.pumpLane p c n) := by
  induction n generalizing s with
  | zero => rfl
  | succ n ih =>
    unfold pumpLane
    simp only
    split
    · split
      · rfl
      · split
        · rfl
        · exact laneOnly_trans (laneOnly_trans (putFrame_laneOnly s p c _ _ false) (modTx_laneOnly _ p c _)) (ih _)
    · rfl

/-- A packet handed to a lane: what its frames touch, its port and the port's counter, and the packet at the end of what was sent. -/
theorem State.onLane_eq (s : State) (p c : Nat) (j : LaneJob) :
    ∃ x r y o a, s.onLane p c j = { s with
      txl := x, rxl := r, ports := y, obs := o, router := { s.router with aligns := a, txq := s.router.txq ++ [⟨p, c, j.pkt.sealed⟩] } } := by
  unfold onLane pump
  simp only
  have ht := modTx_laneOnly s p c fun l =>
    { l with queue := (layBytes l.queue l.fill j.pkt.sealed.bytes).1, fill := (layBytes l.queue l.fill j.pkt.sealed.bytes).2.2,
             held := l.held ++ [{ j with pkt := j.pkt.sealed, left := (layBytes l.queue l.fill j.pkt.sealed.bytes).2.1 }] }
  revert ht
  generalize s.modTx p c _ = t
  intro ht
  have h := laneOnly_trans ht (pumpLane_laneOnly t p c (t.tx p c).queue.length)
  unfold laneOnly at h
  rw [h]
  exact ⟨_, _, _, _, _, rfl⟩

/-- A packet sent, or left waiting for a credit. -/
theorem State.viaLane_eq (s : State) (p c : Nat) (j : LaneJob) (landing : Bool) :
    ∃ x r y o a q, s.viaLane p c j landing =
      { s with txl := x, rxl := r, ports := y, obs := o, router := { s.router with aligns := a, txq := q } } := by
  unfold viaLane
  split
  · simp only
    split
    · exact ⟨_, _, _, _, _, _, rfl⟩
    · obtain ⟨x, r, y, o, a, h⟩ := onLane_eq (s.modTx p c fun l => { l with credits := _ }) p c j
      exact ⟨x, r, y, o, a, _, h.trans rfl⟩
  · obtain ⟨x, r, y, o, a, h⟩ := onLane_eq s p c j
    exact ⟨x, r, y, o, a, _, h⟩

/-- `t` is `s` but for what a packet sent may touch: the lanes, the ports, the router, and what events touch. -/
def State.sentOnly (s t : State) : Prop :=
  t = { s with txl := t.txl, rxl := t.rxl, ports := t.ports, router := t.router, mem := t.mem, obs := t.obs, host := t.host }

theorem State.sentOnly_refl (s : State) : s.sentOnly s := rfl
theorem State.sentOnly_trans {s t u : State} (h1 : s.sentOnly t) (h2 : t.sentOnly u) : s.sentOnly u := by
  unfold sentOnly at *; rw [h2, h1]
theorem State.logOnly.sent {s t : State} (h : s.logOnly t) : s.sentOnly t := by unfold logOnly at h; rw [h]; rfl
theorem State.viaLane_sent (s : State) (p c : Nat) (j : LaneJob) (landing : Bool) : s.sentOnly (s.viaLane p c j landing) := by
  obtain ⟨x, r, y, o, a, q, h⟩ := s.viaLane_eq p c j landing
  rw [h]; rfl
theorem State.router_sent (s : State) (r : Router) : s.sentOnly { s with router := r } := rfl
theorem State.modTx_sent (s : State) (p c : Nat) (f : TxLane → TxLane) : s.sentOnly (s.modTx p c f) := rfl
theorem State.mateTurned_sent (s : State) (pl ds : Nat) : s.sentOnly (s.mateTurned pl ds) := rfl
theorem State.routeBit_sent (s : State) (i : Nat) : s.sentOnly (s.routeBit i) := rfl
theorem State.dealt_sent (s : State) (pl ds : Nat) : s.sentOnly (s.dealt pl ds) := rfl
theorem State.restriped_sent (s : State) (pl ds : Nat) : s.sentOnly (s.restriped pl ds) := by
  unfold restriped
  split
  · rfl
  · simp only
    split <;> rfl
theorem State.turnedBy_sent (s : State) (pl ds m : Nat) : s.sentOnly (s.turnedBy pl ds m) := by
  have h : s.sentOnly (if s.router.detours.contains (pairKey pl ds, m) then s
      else ({ s with router := { s.router with detours := s.router.detours ++ [(pairKey pl ds, m)] } }).log 0x420 0 (a1 pl ++ a1 ds ++ a4 m)) := by
    split
    · rfl
    · exact sentOnly_trans (router_sent s _) (log_logOnly _ _ _ _).sent
  exact sentOnly_trans (sentOnly_trans (sentOnly_trans (sentOnly_trans h (routeBit_sent _ 5)) (dealt_sent _ _ _)) (dealt_sent _ _ _))
    (mateTurned_sent _ _ _)

/-- A message of firmware: what a packet sent may touch, and nothing else; or, where its pair has no route, that and the end of the module's work
(R260, R325). -/
theorem State.maint_cases (s : State) (d : BitVec 17) (st : Nat) (body : List Byte) :
    ∃ t, s.sentOnly t ∧ (s.maint d st body = t ∨ s.maint d st body = t.cannotContinue) := by
  unfold maint maintOut maintOutOr
  split
  · exact ⟨_, router_sent s _, .inl rfl⟩
  · unfold maintHopOr
    simp only
    split
    · exact ⟨_, sentOnly_trans (sentOnly_trans (modTx_sent s _ _ _) (dealt_sent _ _ _)) (viaLane_sent _ _ _ _ _), .inl rfl⟩
    · split
      · exact ⟨_, sentOnly_trans (sentOnly_trans (restriped_sent s _ _) (dealt_sent _ _ _)) (viaLane_sent _ _ _ _ _), .inl rfl⟩
      · exact ⟨_, sentOnly_trans (turnedBy_sent s _ _ _) (viaLane_sent _ _ _ _ _), .inl rfl⟩
      · exact ⟨_, sentOnly_trans (log_logOnly _ _ _ _).sent (router_sent _ _), .inr rfl⟩

theorem State.admitSend_cases (s : State) (d : BitVec 17) (op q : Nat) (tag : BitVec 16) (rank : Nat) (coord : BitVec 17) (body : List Byte) :
    ∃ t, s.sentOnly t ∧ (s.admitSend d op q tag rank coord body = t ∨ s.admitSend d op q tag rank coord body = t.cannotContinue) :=
  maint_cases s d 6 _

/-! ## Packets that arrive (R250, R254, R264-R268) -/

/-- A packet that passes every check and ends here is passed on. -/
theorem State.receive_ends (s : State) (p c : Nat) (k : Packet) (go : State → State) (h1 : k.crcOk = true) (h2 : k.len.toNat ≤ 4096)
    (h3 : k.malformed = false) (h4 : k.coord = false ∨ k.typ = 5) (h5 : k.hops.toNat ≤ 60) (h6 : k.typ ≠ 6) (h7 : k.dcoord = s.coord) : s.receive p c k go = go (s.arrived p c k) := by
  have g1 : ¬((!k.crcOk) = true ∨ 4096 < k.len.toNat) := by simp [h1]; omega
  have g2 : ¬(k.coord = true ∧ k.typ ≠ 5) := by rcases h4 with h | h <;> simp [h]
  have g3 : ¬60 < k.hops.toNat := by omega
  have g4 : ¬(k.dcoord ≠ s.coord ∧ (!k.isHello) = true) := by simp [h7]
  unfold receive
  simp only
  rw [if_neg g1, if_neg (by simp [h3]), if_neg g2, if_neg g3, if_neg h6, if_neg g4]

/-- Where a packet was found, or that it has now arrived: the ports and the counters. -/
theorem State.arrived_eq (s : State) (p c : Nat) (k : Packet) : ∃ y o, s.arrived p c k = { s with ports := y, obs := o } := by
  unfold arrived
  simp only
  split <;> exact ⟨_, _, rfl⟩

/-- A packet that its partition takes goes on. -/
theorem State.accept_takes (s : State) (p c : Nat) (k : Packet) (go : Nat → Plan → State → State) {pl : Plan}
    (h1 : epRank k.dest ≤ 65535) (h2 : (s.part (epPart k.dest)).plan = some pl) (h3 : k.jobtag = jobtagOf pl)
    (h4 : (s.rankEnt (epPart k.dest) (epRank k.src)).valid = true) (h5 : epRank k.src ≤ 65535)
    (h6 : k.gen = (s.rankEnt (epPart k.dest) (epRank k.src)).gen) : s.accept p c k go = go (epPart k.dest) pl s := by
  have g1 : ¬65535 < epRank k.dest := by omega
  unfold accept
  simp only
  rw [if_neg g1, h2]
  simp only
  rw [if_neg (by simp [h3]), if_neg (by simp [h4, Nat.ble_eq, h5]), if_neg (by simp [h6])]

/-! ## Requests of the host (R421-R423, R432) -/

/-- An answer touches the host's side alone. -/
theorem State.respond_host (s : State) (r : Req) (op st : Nat) (payload : List Byte) : ∃ h, s.respond r op st payload = { s with host := h } := by
  unfold respond
  simp only
  split
  · unfold deliver; split <;> exact ⟨_, rfl⟩
  · exact ⟨_, rfl⟩

/-- A request that is heard goes on as its meaning says. -/
theorem State.request_heard (s : State) (r : Req) (op : Nat) (p : Perm) (mctp : Bool) (go : State → State) (h1 : s.wayOpen r = true)
    (h2 : (match r.via with | .mailbox f => (s.fn f).busy | .mctp _ => false) = false) (h3 : s.turnedAway r p mctp = none) :
    s.request r op p mctp go = go s := by
  unfold request
  cases hv : r.via <;> simp_all

/-- Over a way that is closed nothing happens. -/
theorem State.request_closed (s : State) (r : Req) (op : Nat) (p : Perm) (mctp : Bool) (go : State → State) (h : s.wayOpen r = false) :
    s.request r op p mctp go = s := by
  unfold request; simp [h]

theorem State.mgmt_open (s : State) (b : Binding) (go : State → State) (h : s.bindOpen b = true) : s.mgmt b go = go s := by
  unfold mgmt; rw [if_pos h]

/-- An answer of management: its head, a free rest, one free value taken. -/
theorem State.answerMgmt_eq (s : State) (b : Binding) (typ : Byte) (kind : Nat) (head : List Byte) :
    ∃ rest, s.answerMgmt b typ kind head =
      { s with free := s.free + 1, host := { s.host with mctpOut := s.host.mctpOut ++ [⟨b, typ, head ++ rest⟩] } } := ⟨_, rfl⟩

/-! ## The queue -/

/-- A step of a waiting command is its meaning. -/
theorem step_cons (c : Instr) (rest : List Instr) (s : State) (h : s.pending = c :: rest) : step s = exec c (s.withPending rest) := by
  unfold step; rw [h]


end Sys2Proof.Machine
end

