-- ==== Sys2Proof/Tests/Slice0.lean ====
section
/-! SUPPORT. Tests/Slice0.lean: checks of the model on small states, and states that meet the premises of the statements. -/

namespace Sys2Proof.Test

variable {β : Type}

set_option Elab.async false
set_option maxRecDepth 100000

open Sys2Proof.Machine Sys2Proof.Claim

/-! ## Small states -/

/-- A tensor descriptor of Table 3.5: element address in register `a`, entry address in register `sa` (255: none), no recipe. -/
def tdesc (d0 d1 d2 fmt p1 p2 a sa : Nat) (tid : Nat := 0) : BitVec 256 :=
  BitVec.ofNat 256 (d0 + d1 * 2 ^ 16 + d2 * 2 ^ 32 + fmt * 2 ^ 48 + p1 * 2 ^ 64 + p2 * 2 ^ 96 + a * 2 ^ 128 + sa * 2 ^ 136
    + 0xFF * 2 ^ 144 + tid * 2 ^ 160)

/-- An address descriptor of Table 3.4 that no loop moves. -/
def adesc (base : Nat) (hint : Nat := 0) : BitVec 256 := BitVec.ofNat 256 (base + hint * 2 ^ 48 + 0xFFFFFF * 2 ^ 160)

/-- An instruction's fields with every operand absent. -/
def fields : Fields := { mod := 0, cs := false, csem := 0, d := 0xFF, s1 := 0xFF, s2 := 0xFF, s3 := 0xFF, imm := 0 }

def tSpec (i : Nat) : Byte := BitVec.ofNat 8 (128 + i)
def aSpec (i : Nat) : Byte := BitVec.ofNat 8 (64 + i)
def kSpec (i : Nat) : Byte := BitVec.ofNat 8 (192 + i)

/-- A plan of partition 0 with a stream of one instruction for engine `e`. -/
def plan (e : Nat) : Plan where
  imgAt := 0
  imgLen := 0
  imgHash := []
  jobId := 7
  keyId := 0
  origin := (0, 0, 0)
  spans := (1, 1, 1)
  slotMask := 1
  stepTicks := 1000
  streams := [⟨e, peatBase, 1, peatBase + 0x1000, 8, 0, 0⟩]
  regions := [⟨0, 0x100000, 0, true, true, 0, 0⟩, ⟨peatBase, 0x100000, 0, false, false, 0, 0⟩]
  sems := []
  watches := []
  shape := {}
  timeline := []
  preset := 0
  recipes := []
  ctrl := {}
  mirrors := []
  rranges := []
  carveMib := 0

/-- The module running `p` in partition 0, where engine `e` (state `x`) stands before the instruction `op f`; its constants are `ks`, and
memory holds `data` beside. -/
def run (p : Plan) (op : Op) (e : Nat) (f : Fields) (x : Engine := {}) (ks : List Nat := []) (data : List (Nat × List Byte) := []) : State :=
  let m0 : Tab Byte := data.foldl (fun m ab => m.setBytes ab.1 ab.2) []
  let m1 : Tab Byte := m0.setBytes peatBase (leBytes 16 (encodeInsn op f))
  { parts := [(0, { plan := some p, stat := .running })]
    engs := [(e, { x with run := .running })]
    mem := { mem := m1.setBytes (peatBase + 0x1000) (ks.flatMap fun k => leBytes 32 k) } }

/-- `run` under `plan e`. -/
def at_ (op : Op) (e : Nat) (f : Fields) (x : Engine := {}) (ks : List Nat := []) (data : List (Nat × List Byte) := []) : State :=
  run (plan e) op e f x ks data

def tus : Eng := 0
def sdg : Eng := 128
def hmk : Eng := 160
def mere : Eng := 164
def clv : Eng := 168
def pTus : Plan := plan 0
def pSdg : Plan := plan 128
def pHmk : Plan := plan 160
def pMere : Plan := plan 164
def pClv : Plan := plan 168

/-! ## Control and sync -/

def zeroF : Fields := { fields with d := 0, s1 := 0, s2 := 0, s3 := 0 }
def nopF : Fields := { zeroF with mod := 1 }
def nopS : State := at_ .nop 0 nopF
def haltS : State := at_ .halt 0 zeroF
def loopF : Fields := { fields with d := kSpec 7, imm := 0xFFFFFF }
def loopS : State := at_ .loop 0 loopF
def endlF : Fields := { fields with d := kSpec 7 }
def frame9 : LoopFrame := ⟨7, 8, 9, 0⟩
def frameEnd : LoopFrame := ⟨7, 9, 9, 0⟩
def noFrames : List LoopFrame := []
def endlS : State := at_ .endl 0 endlF { loops := [frame9] }
def endlEndS : State := at_ .endl 0 endlF { loops := [frameEnd] }
def jmpF : Fields := fields
def jmpS : State := at_ .jmp 0 jmpF { g := [(31, 4)] }
def jmpOnF : Fields := { fields with imm := 5 }
def jmpOnS : State := at_ .jmp 0 jmpOnF
def phaseF : Fields := { fields with imm := 0xFFFE }
def phaseS : State := at_ .phase 0 phaseF
/-- The first instruction of a new pass. -/
def phaseLapS : State := at_ .phase 0 phaseF { lap := true }
def setrF (d : Byte) : Fields := { fields with d := d, imm := 2 }
def setrG : Fields := setrF 29
def setrA : Fields := setrF (aSpec 15)
def setrT : Fields := setrF (tSpec 15)
def setrS (f : Fields) : State := at_ .setr 0 f {} [1, 2, 2 ^ 255 + 77]
def setrGS : State := setrS setrG
def setrAS : State := setrS setrA
def setrTS : State := setrS setrT

/-- Semaphore `i` holds `v` and watch 3 is `w`. -/
def State.withSem (s : State) (i : Nat) (v : Int) (w : Watch := { st := .idle, owner := 0 }) : State :=
  { s with sems := [(i, { value := BitVec.ofInt 32 v, alloc := true })], watches := [(3, w)] }

/-- Semaphore 5, watch 3, N = 10. -/
def waitF : Fields := { fields with imm := BitVec.ofNat 64 (5 + 3 * 2 ^ 16 + 10 * 2 ^ 32), s1 := 0 }
def swaitS : State := State.withSem (at_ .swait 0 waitF) 5 10
def swaitLowS : State := State.withSem (at_ .swait 0 waitF) 5 9
def swatchS : State := State.withSem (at_ .swatch 0 waitF) 5 9
def addF : Fields := { fields with imm := BitVec.ofNat 64 (5 + 10 * 2 ^ 32) }
def saddS : State := State.withSem (at_ .sadd 0 addF) 5 1048566
def ssubS : State := State.withSem (at_ .ssub 0 addF) 5 (-1048566)
def saddOverS : State := State.withSem (at_ .sadd 0 addF) 5 1048567
def ssubOverS : State := State.withSem (at_ .ssub 0 addF) 5 (-1048567)
def srcTus : Src := ⟨0, 0, false⟩
/-- A completion signal to another semaphore, and to the same. -/
def addCsF : Fields := { addF with cs := true, csem := 6 }
def addSameF : Fields := { addF with cs := true, csem := 5 }
def saddCsS : State := State.withSem (at_ .sadd 0 addCsF) 5 1048566
def ssubSameS : State := State.withSem (at_ .ssub 0 addSameF) 5 7
def saddCsOverS : State := State.withSem (at_ .sadd 0 addCsF) 5 1048567
/-- An earlier instruction of engine `e` is in flight. -/
def State.busyAt (s : State) (e : Nat) : State := s.modEng e fun x => { x with inflight := [{ index := 0, opc := 0x20, cs := false, csem := 0 }] }
def saddBusyS : State := State.busyAt saddS 0
/-- The watch has fired with the SWAIT's condition; a rerun has the SWAIT behind it. -/
def swaitFiredS : State := State.withSem (at_ .swait 0 waitF) 5 9 { st := .fired, sem := 5, thr := 10, owner := 0 }
def swaitSkipS : State := swaitLowS.modEng 0 fun x => { x with skipSwaits := 1 }

/-- The state that a command leaves. -/
def after (c : Instr) (s : State) : State :=
  match exec c s with
  | .next t => t
  | _ => s

/-- The command answers a next state. -/
def isNext (x : Out) : Bool := match x with | .next _ => true | _ => false

theorem after_eq {c : Instr} {s : State} (h : isNext (exec c s) = true) : exec c s = .next (after c s) := by
  unfold after
  cases hx : exec c s with
  | next t => rfl
  | fault f => simp [isNext, hx] at h
  | refused r => simp [isNext, hx] at h

theorem get_mem (d : β) (t : Tab β) (i : Nat) : Tab.get d t i = d ∨ (i, Tab.get d t i) ∈ t := by
  induction t with
  | nil => exact .inl rfl
  | cons kv t ih =>
    obtain ⟨k, v⟩ := kv
    simp only [Tab.get]
    split
    · exact .inl rfl
    · split
      · rename_i h; subst h; exact .inr (List.mem_cons_self ..)
      · rcases ih with h | h
        · exact .inl h
        · exact .inr (List.mem_cons_of_mem _ h)

/-- The lines `l` of partition `q` agree with the memory. -/
def linesOk (s : State) (q : Nat) (l : List CLine) : Bool :=
  decide ((l.map fun x => x.addr).Nodup) && l.all fun x =>
    decide (x.addr % 256 = 0) && decide (x.data.length = 256) && decide (dramLo s.partCnt q ≤ x.addr) &&
    decide (x.addr + 256 ≤ dramLo s.partCnt (q + 1)) && decide (x.addr < dramPlan) &&
    (x.dirty || (List.range 256).all fun k => x.data.getD k 0 == s.mem.mem.get 0 (x.addr + k))

theorem coherent_of {s : State} (h : (s.mem.lines.all fun kv => linesOk s kv.1 kv.2) = true) : coherent s := by
  intro q
  rcases get_mem ([] : List CLine) s.mem.lines q with h0 | h0
  · have hl : s.lines q = [] := h0
    simp [hl]
  · have h1 := List.all_eq_true.1 h _ h0
    have hl : s.lines q = Tab.get [] s.mem.lines q := rfl
    rw [← hl] at h1
    simp only [linesOk, Bool.and_eq_true, decide_eq_true_eq, List.all_eq_true] at h1
    refine ⟨h1.1, fun x hx => ?_⟩
    obtain ⟨⟨⟨⟨⟨a, b⟩, c⟩, d⟩, e⟩, f⟩ := h1.2 x hx
    refine ⟨a, b, c, d, e, fun hd k hk => ?_⟩
    rw [hd, Bool.false_or, List.all_eq_true] at f
    exact beq_iff_eq.1 (f k (List.mem_range.2 hk))

theorem noMirror_of {s : State} (h : (s.engs.all fun kv => kv.2.inflight.all fun i => i.mirror.isNone) = true) :
    ∀ (e : Nat) (i : InFlight) (r : List InFlight), (s.eng e).inflight = i :: r → i.mirror = none := by
  intro e i r hi
  rcases get_mem ({} : Engine) s.engs e with h0 | h0
  · have : s.eng e = {} := h0
    rw [this] at hi; cases hi
  · have h1 := List.all_eq_true.1 h _ h0
    have h2 : (s.eng e).inflight.all (fun i => i.mirror.isNone) = true := h1
    rw [hi, List.all_cons, Bool.and_eq_true] at h2
    exact Option.isNone_iff_eq_none.1 h2.1

theorem get_all {P : β → Prop} {d : β} {t : Tab β} (hd : P d) (h : ∀ kv ∈ t, P kv.2) (i : Nat) : P (Tab.get d t i) := by
  rcases get_mem d t i with h0 | h0
  · rw [h0]; exact hd
  · exact h _ h0

theorem noneRetired_of {s : State} (h : ((s.txl.all fun kv => kv.2.st != .retired) && s.rxl.all fun kv => kv.2.st != .retired) = true) :
    noneRetired s := by
  simp only [Bool.and_eq_true, List.all_eq_true, bne_iff_ne] at h
  exact fun p c => ⟨get_all (P := fun x : TxLane => x.st ≠ .retired) (by decide) h.1 _,
    get_all (P := fun x : RxLane => x.st ≠ .retired) (by decide) h.2 _⟩

theorem allCarry_of {s : State} (h : (s.txl.all fun kv => kv.2.st != .retired && !kv.2.outOfTraffic) = true) : allCarry s := by
  simp only [List.all_eq_true, Bool.and_eq_true, bne_iff_ne, Bool.not_eq_true'] at h
  exact fun p c => get_all (P := fun x : TxLane => x.st ≠ .retired ∧ x.outOfTraffic = false) (by decide) h _

theorem noRecov_of {s : State} (h : (s.parts.all fun kv => kv.2.recov.isNone) = true) : ∀ i : Nat, (s.part i).recov = none := by
  simp only [List.all_eq_true, Option.isNone_iff_eq_none] at h
  exact fun q => get_all (P := fun x : Partn => x.recov = none) rfl h q

theorem reloadable_of {s : State} {e : Nat} (h : (match s.streamOf e with
    | none => true
    | some x => (s.poisonIn (x.1.imgAt + x.2.imgInsn) (16 * x.2.insnCnt)).isNone
        && (s.poisonIn (x.1.imgAt + x.2.imgConst) (32 * x.2.constCnt)).isNone) = true) : reloadable s e := by
  intro pl st hx
  rw [hx] at h
  simpa using h

theorem noChunks_of {l : List InFlight} (h : (l.all fun i => i.chunks.isEmpty) = true) : ∀ (i : InFlight) (r : List InFlight), l = i :: r → i.chunks = [] := by
  intro i r hi
  rw [hi, List.all_cons, Bool.and_eq_true, List.isEmpty_iff] at h
  exact h.1

theorem notLoading_of {s : State} (h : (s.parts.all fun kv => kv.2.loading.isNone) = true) : ∀ q : Nat, (s.part q).loading = none := by
  simp only [List.all_eq_true, Option.isNone_iff_eq_none] at h
  exact fun q => get_all (P := fun x : Partn => x.loading = none) rfl h q

def nopT : State := after (.nop tus nopF) nopS
def loopT : State := after (.loop tus loopF) loopS
def endlT : State := after (.endl tus endlF) endlS
def setrT1 : State := after (.setr tus setrG) setrGS
def opNop : Op := .nop
def opLoop : Op := .loop
def opEndl : Op := .endl
def opSetr : Op := .setr
def opSadd : Op := .sadd
def opSsub : Op := .ssub
def opMove : Op := .move
def opEpi : Op := .epi
def haltT : State := after (.halt tus zeroF) haltS
def pTwo : Plan := { plan 0 with streams := [⟨0, peatBase, 2, peatBase + 0x1000, 8, 0, 0⟩] }
/-- The engine ends the stream of a partition that is to stop. -/
def haltStopS : State :=
  let s := (run pTwo .halt 0 zeroF { pc := 1 }).modPart 0 fun p => { p with stat := .stopping, stopNow := true, lastCommit := 0 }
  { s with mem := { s.mem with mem := s.mem.mem.setBytes (peatBase + 16) (leBytes 16 (encodeInsn .halt zeroF)) } }
def haltStopT : State := after (.halt tus zeroF) haltStopS
def jmpT : State := after (.jmp tus jmpF) jmpS
def phaseT : State := after (.phase tus phaseF) phaseLapS
def swaitT : State := after (.swait tus waitF) swaitS
def swaitLowT : State := after (.swait tus waitF) swaitLowS
def swatchT : State := after (.swatch tus waitF) swatchS
def saddT : State := after (.sadd tus addF) saddS
def ssubT : State := after (.ssub tus addF) ssubS

/-! ## Compute -/

/-- Tensors t0 to t3: FP32 of 4 x 2 at 4000H and 5000H, INT32 index columns at 6000H and 7000H. -/
def moveX : Engine :=
  { a := [(0, adesc 0x4000), (1, adesc 0x5000), (2, adesc 0x6000), (3, adesc 0x7000)]
    t := [(0, tdesc 4 2 1 0 32 64 0 255), (1, tdesc 4 2 1 0 32 64 1 255), (2, tdesc 1 2 1 0x0D 32 64 2 255), (3, tdesc 2 1 1 0x0D 32 32 3 255)] }
def bytes4 : List (Nat × List Byte) := [(0x4000, leBytes 4 0x3F800000), (0x4024, leBytes 4 0xC0000000), (0x6000, leBytes 4 1), (0x6020, leBytes 4 2)]
def moveF : Fields := { fields with d := tSpec 1, s1 := tSpec 0 }
def moveS : State := at_ .move 168 moveF moveX [] bytes4
def rowsF : Fields := { moveF with s2 := tSpec 2 }
def gatherS : State := at_ .gather 168 rowsF moveX [] bytes4
def scatterF : Fields := { rowsF with mod := 1 }
def scatterS : State := at_ .scatter 168 scatterF moveX [] bytes4
def dispatchF : Fields := { rowsF with s3 := tSpec 3 }
def dispatchS : State := at_ .dispatch 168 dispatchF moveX [] bytes4
def epiF : Fields := { fields with d := tSpec 1 }
def epiS : State := at_ .epi 0 epiF { moveX with tile0 := { cells := [(0, 0x3FF8000000), (33, 0x4008000000)] } }
def vopF : Fields := { moveF with mod := 1, s2 := tSpec 0 }
def vopS : State := at_ .vop 128 vopF moveX [] bytes4
def vredX : Engine := { moveX with t := [(0, tdesc 4 2 1 0 32 64 0 255), (1, tdesc 2 1 1 0 32 32 1 255)] }
def vredS : State := at_ .vred 128 moveF vredX [] bytes4
def vrngF : Fields := { fields with d := tSpec 1, imm := 3 }
def vrngS : State := at_ .vrng 128 vrngF { moveX with g := [(30, 5), (31, 1)] }
def vcvtS : State := at_ .vcvt 128 moveF moveX [] bytes4

/-- INT8 operands of 32 x 2 and a tile tensor. -/
def mmaX : Engine :=
  { a := [(0, adesc 0x4000), (1, adesc 0x5000), (2, adesc 0x8000)]
    t := [(0, tdesc 32 2 1 8 32 64 0 255), (1, tdesc 32 2 1 8 32 64 1 255), (2, tdesc 32 32 1 0x0A 160 5120 2 255),
      (3, tdesc 32 2 1 0 128 256 0 255), (4, tdesc 32 32 1 0x0D 128 4096 2 255)]
    tile1 := { cells := [(5, 77)] } }
def mmaData : List (Nat × List Byte) := [(0x4000, [3, 0xFE]), (0x4020, [5]), (0x5000, [7, 0xFF]), (0x5020, [0x80]), (0x8000, leBytes 5 0x3FF8000001)]
def mmaF : Fields := { fields with mod := 6, s1 := tSpec 0, s2 := tSpec 1 }
def mmaS : State := at_ .mma 0 mmaF mmaX [] mmaData
def mmaxF : Fields := { fields with mod := 4, s1 := tSpec 3, s2 := tSpec 3 }
def mmaxS : State := at_ .mmax 0 mmaxF mmaX [] mmaData
def accspF : Fields := { fields with mod := 0x40, d := tSpec 2 }
def accspS : State := at_ .accsp 0 accspF mmaX
def accrsF : Fields := { fields with s1 := tSpec 2 }
def accrsS : State := at_ .accrs 0 accrsF mmaX [] mmaData
def acccbF : Fields := { fields with s1 := tSpec 2, imm := 1 }
def acccbS : State := at_ .acccb 0 acccbF mmaX [] mmaData

/-- A fast MMA whose 129th group is due, and an ACCRS over a tile that holds one. -/
def fastX (groups : Nat) (busy : Bool) : Engine :=
  let x : Engine := { mmaX with t := [(0, tdesc 32 2 1 3 32 64 0 255), (1, tdesc 32 2 1 3 32 64 1 255), (2, tdesc 32 32 1 0x0A 160 5120 2 255),
    (3, tdesc 32 32 2 0x0A 160 5120 3 255)], a := mmaX.a ++ [(3, adesc 0xA000)], ckptBusy := busy }
  { x with tile0 := { mode := .fast, groups := groups, spill := x.tens (tSpec 3) } }
def fastF : Fields := { fields with mod := 1, s1 := tSpec 0, s2 := tSpec 1, s3 := tSpec 3 }
def pTus2 : Plan := { plan 0 with streams := [⟨0, peatBase, 2, peatBase + 0x1000, 8, 0, 0⟩] }
/-- The same word is the second of the stream as well, and the engine stands before that one. -/
def atSecond (s : State) (op : Op) (f : Fields) : State :=
  ({ s with mem := { s.mem with mem := s.mem.mem.setBytes (peatBase + 16) (leBytes 16 (encodeInsn op f)) } }.modPart 0
    fun x => { x with plan := some pTus2 }).modEng 0 fun x => { x with pc := 1 }
def fastS (busy : Bool) : State := atSecond (at_ .mma 0 fastF (fastX 128 busy) [] mmaData) .mma fastF
def fastDueS : State := fastS false
def fastBusyS : State := fastS true
def accrsFastS (busy : Bool) : State := atSecond (at_ .accrs 0 accrsF (fastX 1 busy) [] mmaData) .accrs accrsF
def accrsDueS : State := accrsFastS false
def accrsBusyS : State := accrsFastS true

def moveT : State := after (.move clv moveF) moveS
def gatherT : State := after (.gather clv rowsF) gatherS
def scatterT : State := after (.scatter clv scatterF) scatterS
def dispatchT : State := after (.dispatch clv dispatchF) dispatchS
def epiT : State := after (.epi tus epiF) epiS
def vopT : State := after (.vop sdg vopF) vopS
def vredT : State := after (.vred sdg moveF) vredS
def vrngT : State := after (.vrng sdg vrngF) vrngS
def vcvtT : State := after (.vcvt sdg moveF) vcvtS
def mmaT : State := after (.mma tus mmaF) mmaS
def mmaxT : State := after (.mmax tus mmaxF) mmaxS
def accspT : State := after (.accsp tus accspF) accspS
def accrsT : State := after (.accrs tus accrsF) accrsS
def acccbT : State := after (.acccb tus acccbF) acccbS

/-! ## Packets leave: rank 1 stands in slot 1, one lane toward it is up -/

/-- This module is rank 0 in slot 0, rank 1 stands in slot 1 of the carr, and colour 1 of port 1 is up. -/
def net (s : State) : State :=
  { s with txl := [(21, { st := .up, lit := true })]
           router := { s.router with rtab := [(0, { valid := true, coord := mkCoord 0 0 0 0 }), (1, { valid := true, coord := mkCoord 0 0 0 1 })] } }

/-- Semaphore 5, endpoint 4 (rank 1, partition 0), n = 9. -/
def ssigF : Fields := { fields with imm := BitVec.ofNat 64 (5 + 4 * 2 ^ 16 + 9 * 2 ^ 36) }
def ssigS : State := net (at_ .ssig 0 ssigF)
def ssigBadS : State := at_ .ssig 0 ssigF
def ssigT : State := after (.ssig tus ssigF) ssigS
def ssigBusyS : State := State.busyAt ssigS 0
def putF : Fields := { fields with mod := 2, d := aSpec 1, s1 := tSpec 0, imm := 4 }
def putS : State := net (at_ .put 168 putF moveX [] bytes4)
def putBadS : State := at_ .put 168 putF moveX [] bytes4
def chainE : ChainEnt := ⟨9, false, false, 1, 0⟩
def pChain : Plan := { plan 168 with shape := { chains := [chainE] } }
def putChainF : Fields := { fields with mod := 2 + 8, d := aSpec 1, s1 := tSpec 0, imm := 9 }
def putChainS : State := net (run pChain .put 168 putChainF moveX [] bytes4)

/-! ## Rings, trees, updates -/

def ring2 : RingEnt := ⟨3, false, false, 2, 0, 0, 4, 4, 0, 0x10000, 0x20000, 0x8000, []⟩
def ring1 : RingEnt := ⟨3, false, false, 1, 0, 0, 0, 0, 0, 0x10000, 0x20000, 0x8000, []⟩
def root1 : RingEnt := ⟨4, true, false, 1, 0, 0, 0xFFFFFFFF, 0, 0, 0, 0, 0, []⟩
def node1 : RingEnt := ⟨4, true, false, 1, 0, 0, 0xFFFFFFFF, 0, 0, 0, 0, 0, [(4, 0)]⟩
def leaf1 : RingEnt := ⟨4, true, false, 1, 0, 0, 4, 0, 0, 0, 0, 0, []⟩
def pLeaf : Plan := { plan 164 with shape := { rings := [leaf1] } }
def pRing2 : Plan := { plan 164 with shape := { rings := [ring2] } }
def pRing1 : Plan := { plan 164 with shape := { rings := [ring1] } }
def pRoot : Plan := { plan 164 with shape := { rings := [root1] } }
def pNode : Plan := { plan 164 with shape := { rings := [node1] } }
/-- t0: a block of 256 AF40 words behind RFX24; t1: two blocks of RFX24; t2, t3: AF40 words. -/
def ringX : Engine :=
  { a := [(0, adesc 0x4000), (1, adesc 0x5000), (2, adesc 0x8000), (3, adesc 0x8800)]
    t := [(0, tdesc 256 1 1 11 1280 1280 0 1), (1, tdesc 256 1 1 11 768 768 0 1), (2, tdesc 1 1 1 0x0A 32 32 2 255), (3, tdesc 2 1 1 0x0A 32 32 3 255)] }
def ringData : List (Nat × List Byte) := [(0x4000, leBytes 5 0x3FF8000001), (0x8800, leBytes 5 0x4008000000)]
def rringF : Fields := { fields with s1 := tSpec 0, imm := 3 }
def rringS2 : State := net (run pRing2 .rring 164 rringF ringX [] ringData)
def rringS1 : State := run pRing1 .rring 164 rringF ringX [] ringData
/-- Four instances in flight. -/
def rringFullS : State := rringS2.modEng 164 fun x => { x with rinsts := (List.range 4).map fun k => { ring := 3, reduce := false, first := BitVec.ofNat 32 (k + 1), nblk := 1 } }
/-- t0 at a0 and its exponents at a1: an exponent pass that has still to agree them, and a reduce pass that reads them. -/
def rringWaitF : Fields := { rringF with mod := 1, d := tSpec 1, s1 := tSpec 0 }
def rringWaitS : State := (run pRing2 .rring 164 rringWaitF ringX [] ringData).modEng 164 fun x =>
  { x with rinsts := [{ ring := 3, reduce := false, first := 0, nblk := 1, s1 := x.tens rringF.s1 }] }
def rnormF : Fields := { fields with d := tSpec 2, s1 := tSpec 1, imm := 0xFFFF }
def rnormS : State := run pRing1 .rnorm 164 rnormF ringX [] ringData
/-- A reduce pass that has still to write the tensor that RNORM sums. -/
def rnormWaitS : State := rnormS.modEng 164 fun x => { x with rinsts := [{ ring := 3, reduce := true, first := 0, nblk := 2, d := x.tens rnormF.s1 }] }
def normF : Fields := { fields with d := tSpec 2, s1 := tSpec 3, imm := 4 }
def rootS : State := run pRoot .rnorm 164 normF ringX [] ringData
/-- Another Mere of the partition has a reduce pass open. -/
def rnormOpenS : State := rootS.modEng 165 fun x => { x with rinsts := [{ ring := 3, reduce := true, first := 0, nblk := 2 }] }
/-- The partition is a spare that rebuilds step 0, its epoch being 1. -/
def rebuildS : State := rootS.modPart 0 fun p => { p with spareC := 0, spareTwinMstep := 9, epoch := 1 }
def leafS : State := net (run pLeaf .rnorm 164 normF ringX [] ringData)
def nodeS : State := run pNode .rnorm 164 normF ringX [] ringData

/-- t0 weights and t2 momentum in FP32, t1 gradients in RFX24, t3 the factor s. -/
def updX : Engine :=
  { a := [(0, adesc 0x4000), (1, adesc 0x5000), (2, adesc 0x6000), (3, adesc 0x7000), (4, adesc 0x8000)]
    t := [(0, tdesc 256 1 1 0 1024 1024 0 255), (1, tdesc 256 1 1 11 768 768 1 4), (2, tdesc 256 1 1 0 1024 1024 2 255), (3, tdesc 1 1 1 0x0A 32 32 3 255)]
    g := [(31, 6)] }
/-- SGD (ALG 3) with LR = GSCALE = 1. -/
def recipe3 : List Nat := [3 + 0x3F800000 * 2 ^ 32, 0x3F800000]
def updF : Fields := { fields with d := tSpec 0, s1 := tSpec 1, s2 := tSpec 2, imm := 3 * 256 }
def updS (sv : Nat) : State := at_ .upd 160 updF updX recipe3 [(0x4000, leBytes 4 0x3F800000), (0x5000, leBytes 3 1), (0x7000, leBytes 5 sv)]
def updOneS : State := updS 0x3FF0000000
def updInfS : State := updS 0x7FF0000000
/-- A plan whose tensor D lies in a MIRROR region. -/
def pMirror : Plan := { plan 160 with regions := ⟨0x4000, 0x1000, 0x21, true, true, 0, 0⟩ :: (plan 160).regions }
def updMirrorS (x : Engine) (epoch : Dword) : State :=
  (run pMirror .upd 160 updF x recipe3 [(0x4000, leBytes 4 0x3F800000), (0x5000, leBytes 3 1), (0x7000, leBytes 5 0x3FF0000000)]).modPart 0
    fun p => { p with epoch := epoch }
def updEarlyS : State := updMirrorS updX 0
def updRecS : State := updMirrorS { updX with mirrorRec := [(0x4000, 6)] } 7
def pAsk : Plan := { plan 160 with ctrl := { mode := 0x10 } }
def updAskS : State := run pAsk .upd 160 updF updX recipe3 [(0x4000, leBytes 4 0x3F800000), (0x5000, leBytes 3 1), (0x7000, leBytes 5 0x7FF0000000)]
def updT : State := after (.upd hmk updF) updOneS
def nwatchF : Fields := { fields with mod := 1, s1 := tSpec 0 }
def nwatchX : Engine := { moveX with t := [(0, tdesc 4 2 1 0 32 64 0 255 0x21)] }
def nwatchS : State :=
  let s := at_ .nwatch 128 nwatchF nwatchX [7]
  s.modPart 0 fun p => { p with censusNow := true }
def commitF : Fields := { fields with imm := 5 }
def commitS : State := (at_ .commit 160 commitF { g := [(31, 6)] }).modPart 0 fun p => { p with epoch := 6 }
def commitOldS : State := commitS.modPart 0 fun p => { p with epoch := 7 }
def commitBusyS : State := State.busyAt commitS 160
def commitThrS : State := { commitS with power := { throttle := true } }

/-! ## Completion, faults -/

/-- Engine 0 has an instruction in flight that signals semaphore 5. -/
def flightI : InFlight := { index := 0, opc := 0x20, cs := true, csem := 5, writes := [⟨0x4000, 0, false, [1, 2, 3]⟩] }
def flightQ : InFlight := { flightI with cs := false, csem := 0 }
def flightS : State := State.withSem (at_ .nop 0 nopF { pc := 1, inflight := [flightI] }) 5 1048575
def flightOverS : State := State.withSem (at_ .nop 0 nopF { pc := 1, inflight := [flightI] }) 5 1048576
def flightQS : State := at_ .nop 0 nopF { pc := 1, inflight := [flightQ] }
def run3 : WriteRun := ⟨0x4000, 0, false, [1, 2, 3]⟩
/-- Engine 0 waits at a SWAIT, and ENG_WAITLIM has its reset value. -/
def waitS : State := after (.swait tus waitF) swaitLowS
def waitLoggedS : State := waitS.modEng 0 fun x => { x with waitLogged := true }
def addr0 : Addr := 0
/-- S1 is poisoned; D lies outside the plan's regions. -/
def movePoisonS : State := { moveS with mem := { moveS.mem with poison := [granule 0x4000] } }
def epiRangeS : State := at_ .epi 0 epiF { moveX with a := [(1, adesc 0x200000)] }
def cause1 : Byte := 1

/-- Partition 0 has a carve-out of 1 MiB that holds a line of its DRAM, dirty, and one that agrees with it. -/
def line1 : CLine := ⟨0x4000, true, List.replicate 256 7⟩
def line2 : CLine := ⟨0x4100, false, 9 :: List.replicate 255 0⟩
def carveS : State :=
  let s := at_ .nop 0 nopF {} [] [(0x4100, [9])]
  { s with mem := { s.mem with lines := [(0, [line1, line2])] } }.modPart 0 fun p => { p with carveMib := 1 }
def hint0 : BitVec 2 := 0
def hint1 : BitVec 2 := 1
def bytes3 : List Byte := [1, 2, 3]

/-! ## The sync unit -/

def ep4 : Endpoint := 4
def seq0 : BitVec 16 := 0
def seq1 : BitVec 16 := 1
def q0 : Part := 0
/-- Partition 0 runs a job of 2 ranks; semaphore 5 is REMOTE and holds `v`. -/
def jobS (p : Plan) (v : Int := 0) : State :=
  let s := net (run p .nop 0 nopF)
  { s with sems := [(5, { value := BitVec.ofInt 32 v, alloc := true, remote := true, init := 3, incr := 7 })] }
def held (seq : BitVec 16) (eb : BitVec 2) : HeldSig := ⟨4, 0, seq, 5, 9, eb, false⟩
def heldNow : HeldSig := held 0 0
def heldNext : HeldSig := held 0 1
def heldLate : HeldSig := held 1 0
def sigS : State := (jobS pTus 1048567).modPart 0 fun p => { p with heldQ := [heldNow] }
def sigNextS : State := (jobS pTus).modPart 0 fun p => { p with heldQ := [heldNext] }
def sigLateS : State := (jobS pTus).modPart 0 fun p => { p with heldQ := [heldLate] }
/-- A node of the barrier tree with a child, or the root of one without. -/
def barNode : RingEnt := ⟨0, true, true, 1, 0, 6, 0xFFFFFFFF, 0, 0, 0, 0, 0, [(4, 0)]⟩
def pBar : Plan := { plan 160 with shape := { rings := [barNode] } }
def barI : InFlight := { index := 0, opc := 0x61, cs := false, csem := 0, wait := .barrier }
def arriveS : State := (run pBar .nop 160 nopF { inflight := [barI] }).modPart 0 fun p => { p with barSem := 6 }
def doneS : State :=
  let s := (run pBar .nop 160 nopF { inflight := [barI] }).modPart 0 fun p => { p with arrived := true, barStage := 5, epoch := 6, barPeerSeq := [(4, 0xFFFF)] }
  { s with sems := [(5, { value := 10, alloc := true, init := 3, incr := 7 })] }
def words1 : List Word := [5]
def noWords : List Word := []
def hitD : List ScrubHit := [⟨0x4000, 1, true⟩, ⟨0x5E, 1, true⟩]
def hitP : List ScrubHit := [⟨0x100000000000, 1, true⟩]
def ceD : ScrubHit := ⟨0x4000, 1, false⟩
def ceP : ScrubHit := ⟨0x100000000000, 1, false⟩
def copyJob : CopyJob := ⟨true, 3, 0⟩
def noJobs : List CopyJob := []
def copyS : State := { nopS with mem := { nopS.mem with copies := [copyJob] } }

/-! ## Lanes, islands, comb sources -/

def port0 : Port := 0
def port1 : Port := 1
def col1 : Colour := 1
/-- Colour 1 of port 0 is up both ways. -/
def laneS : State := { State.reset with txl := [(1, { st := .up, lit := true })], rxl := [(1, { st := .up, open_ := true }), (19, { st := .up })] }
def zeroCw : List (BitVec 10) := List.replicate 272 0
def zeroWire : Wire := ⟨0, 0, false, false, 0, 0, false, List.replicate 315 0⟩
def badCw : List (BitVec 10) := [1]
def idleWire : Wire := { zeroWire with idle := true, first := 0x1FF }
def dataWire : Wire := { zeroWire with first := 0x1FF }
def dataCw : List (BitVec 10) := dataWire.codeword
def idleCw : List (BitVec 10) := idleWire.codeword
def n0 : Nat := 0
def blk (st : BitVec 2) : AlignBlock := ⟨7, 0, 0xFC18, 0, 0, st⟩
def blk0 : AlignBlock := blk 0
def blk1 : AlignBlock := blk 1
def blk2 : AlignBlock := blk 2
def frame0 : Frame := ⟨0, 0, List.replicate 315 0⟩
def frame1 : Frame := ⟨1, 0x1FF, List.replicate 315 0⟩
def lastFrame : List Frame := [frame1]
def ackS : State := { laneS with txl := [(1, { st := .up, lit := true, unacked := [frame0, frame1], nextFsn := 2, resends := [(0, 15), (1, 3)] })] }
def busyS : State := { laneS with txl := [(1, { st := .up, lit := true, unacked := [frame0], nextFsn := 1, pausedBusy := some 0 })] }
def trainS : State := { laneS with txl := [(1, { st := .training, lit := true })], rxl := [(1, { st := .training, open_ := true, retrains := [0] })] }
def trainHostS : State := { trainS with rxl := [(1, { st := .training, open_ := true, hostTry := true })] }
def lowS : State := { laneS with txl := [(1, { st := .up, lit := true, margin := BitVec.ofInt 16 (-101) })] }
def laneD : Decision := { ident := 1, what := .lane 0 1 .rx, deadline := 0 }
def laneDS : State := { laneS with host := { decisions := [laneD] } }
def heat5 : BitVec 16 := 5
def unlockS : State := { laneS with rxl := [(1, { st := .up, locked := false, relocks := 1 })] }
def unlock2S : State := { laneS with rxl := [(1, { st := .up, locked := false, relocks := 2 })] }
def phot0 : Phot := 0
def tHot : BitVec 12 := 1361
def tWarm : BitVec 12 := 1313
def tGood : BitVec 12 := 1312
def comb0 : CombId := 0
def comb1 : CombId := 1
def combS : State :=
  { laneS with txl := [(1, { st := .up, lit := true, margin := 199 })], combs := [(0, { st := .service, drive := 999, pend := true }), (1, { st := .warm })] }
def switchS : State := { combS with combs := [(0, { st := .service, drive := 999, pend := true, switching := true }), (1, { st := .warm })] }

/-! ## Packets -/

/-- A packet from rank 1 to rank 0 of partition 0, sealed. -/
def pkt (typ vc addr : Nat) (body : List Byte) : Packet :=
  Packet.sealed { blankPacket with
    typ := BitVec.ofNat 4 typ, vc := BitVec.ofNat 3 vc, src := 4, jobtag := 7, addr := BitVec.ofNat 48 addr, len := BitVec.ofNat 13 body.length, payload := body }
def writeK : Packet := pkt 0 2 0xFFFFD [1, 2, 3]
def writeBadK : Packet := pkt 0 2 0xFFFFE [1, 2, 3]
def chainM : ChainEnt := ⟨9, true, false, 0xFFFFFFFF, 5⟩
def pChainM : Plan := { plan 0 with shape := { chains := [chainM] } }
def chainS : State := jobS pChainM
def word1 : Word := 1
def two32 : Word := 2
def mcastK : Packet := Packet.sealed { blankPacket with typ := 1, vc := 2, src := 4, jobtag := 7, addr := 0x4000, chain := 9, len := 3, payload := [1, 2, 3] }
/-- A SIGNAL of n = 9 to semaphore 5 under sequence number 0 of epoch 0. -/
def sigK : Packet := pkt 2 0 (5 + 9 * 2 ^ 16) []
def sigLateK : Packet := Packet.sealed { blankPacket with typ := 2, src := 4, jobtag := 7, addr := BitVec.ofNat 48 (5 + 9 * 2 ^ 16), pseq := 1 }
def jobTusS : State := jobS pTus 1048567
def sigDupS : State := jobTusS.setPeer 0 4 { rxMark := 0 }
def packK : Packet := Packet.sealed { blankPacket with typ := 3, src := 4, jobtag := 7, packv := true, pack := 2 }
def packS : State := jobTusS.setPeer 0 4 { txNext := 3, txAcked := 0 }
/-- A LINK packet that returns 9 credits to VC 1 (index 2) of port 31, colour 19. -/
def linkK : Packet := Packet.sealed { blankPacket with typ := 6, chain := 31 + 19 * 32, addr := 0x900 }
def ackDirtyS : State := jobTusS.setPeer 0 4 { ackDirty := true }
def relayK : Packet := Packet.sealed { blankPacket with typ := 0, vc := 2, dest := 4, dcoord := 1, jobtag := 7, len := 1, payload := [1] }
def plane0 : BitVec 3 := 0
def slot1 : Colour := 1
def detourS : State :=
  { jobTusS with router := { jobTusS.router with relayq := [⟨0, 1, { orig := relayK, inPlane := 0, pkt := relayK }⟩] } }

/-! ## RING packets -/

def ringA (kind block : Nat) (att : Nat := 0) : Nat := 3 + kind * 2 ^ 11 + att * 2 ^ 14 + block * 2 ^ 16
def pRingE : Plan := { pRing2 with shape := { rings := [{ ring2 with pos := 0 }, node1] } }
/-- An instance of ring 3 with one block, number 2, in the pass `reduce`. -/
def inst (first : Nat) (reduce : Bool) : RInst :=
  { ring := 3, reduce := reduce, first := BitVec.ofNat 32 first, nblk := 2, sent0 := true, succReady := true
    s1 := { dim0 := 512, dim1 := 1, dim2 := 1, fmt := 11, pitch1 := 2560, pitch2 := 2560, ea := 0x4000, sea := some 0x8000 }
    d := { dim0 := 256, dim1 := 1, dim2 := 1, fmt := 11, pitch1 := 768, pitch2 := 768, ea := 0x9000, sea := some 0xA000 }
    hackWait := [(2, true)] }
def instE : RInst := inst 2 false
def instR : RInst := inst 2 true
def ringS (i : RInst) : State := (jobS pRingE).modEng 164 fun x => { x with rinsts := [i] }
def ringES : State := ringS instE
def ringRS : State := ringS instR
def downK : Packet := pkt 4 1 (ringA 1 3) (leBytes 2 5)
def upK : Packet := pkt 4 1 (ringA 0 2) (leBytes 2 5)
/-- Block 2 of the pass, all zero, with its residues. -/
def sumK : Packet := pkt 4 1 (ringA 2 2) (List.replicate (32 * 24 + 224) 0)
def hackK : Packet := pkt 4 1 (ringA 4 2) (leBytes 8 1)
def heldK : Packet := pkt 4 1 (ringA 3 2) (leBytes 8 0 ++ leBytes 8 0x7FFE ++ leBytes 8 0x55 ++ List.replicate (32 * 24 + 224) 0)
def heldOutK : Packet := pkt 4 1 (ringA 3 2) (leBytes 8 0x7D01 ++ leBytes 8 0 ++ leBytes 8 0x55 ++ List.replicate (32 * 24 + 224) 0)
def w24 : Nat := 24
def idleRingS : State := jobS pRingE
def readyK : Packet := pkt 4 1 (ringA 5 2) (leBytes 8 1)
def hreadyK : Packet := pkt 4 1 (ringA 5 0xFFFFFFFF) (leBytes 8 1)
def normK : Packet := pkt 4 1 (4 + 6 * 2 ^ 11) (leBytes 8 0x3FF8000001)
def retryK : Packet := pkt 4 1 (ringA 7 2) (leBytes 8 3)

/-! ## Firmware's packets, recovery -/

/-- A MAINT packet of subtype `st`, sealed. -/
def maintK (st : Nat) (body : List Byte) : Packet :=
  Packet.sealed { blankPacket with typ := 5, vc := 4, coord := true, addr := BitVec.ofNat 48 st, len := BitVec.ofNat 13 body.length, payload := body }
def helloK (slot : Nat) : Packet := maintK 1 (leBytes 3 (mkCoord 0 0 0 slot).toNat ++ leBytes 2 273 ++ List.replicate 11 0)
def hello19 : Packet := helloK 19
def hello18 : Packet := helloK 18
def tag7 : List Byte := leBytes 2 7
/-- A twinned plan of 3 ranks in slots 0, 1 and 2; ranks 0 and 1 are twins. -/
def shape3 : Shape := { flags := 0, rankCnt := 3, ranks := [mkCoord 0 0 0 0, mkCoord 0 0 0 1, mkCoord 0 0 0 2] }
def pTwin : Plan := { plan 0 with slotMask := 3, shape := shape3, imgLen := 16 }
def twinS : State :=
  let s := jobS pTwin
  { s with router := { s.router with rtab := s.router.rtab ++ [(2, { valid := true, coord := mkCoord 0 0 0 2 })] } }
def partS (f : Partn → Partn) : State := twinS.modPart 0 f
def recS (x : Recov) : State := partS fun p => { p with recov := some x }
def drainK : Packet := maintK 2 (tag7 ++ leBytes 8 9)
def drainOddK : Packet := maintK 2 (leBytes 2 8 ++ leBytes 8 9)
def drainS : State := partS fun p => { p with drain := 1, drainStep := 4, epoch := 5 }
def rtabK : Packet := maintK 4 (tag7 ++ leBytes 2 1 ++ leBytes 4 1 ++ leBytes 8 0x20001)
def resumeK : Packet := maintK 5 (tag7 ++ leBytes 8 99)
def ansK (a : Nat) : Packet := maintK 9 (tag7 ++ leBytes 8 5 ++ leBytes 1 a)
def ans1 : Packet := ansK 1
def ans2 : Packet := ansK 2
def laneK : Packet := maintK 0x0A (leBytes 4 (mkCoord 0 0 0 2).toNat ++ List.replicate 128 3)
def resumeS (h : Hold) : State := partS fun p => { p with resumeAt := some 99, hold := h, drain := 2, epoch := 5 }
def resumeDrainS : State := resumeS .none
def resumeHeldS : State := resumeS .held
def tick99 : Dword := 99
def resumeHsigS : State := resumeHeldS.modPart 0 fun p => { p with hsigs := [⟨5, 10, 5⟩, ⟨5, 10, 6⟩] }
def fenceK (gen : Nat) : Packet := maintK 7 (tag7 ++ [0, 0] ++ leBytes 4 1 ++ leBytes 2 gen)
def fence1 : Packet := fenceK 1
def fence0 : Packet := fenceK 0
def admitK (op rank slot : Nat) (body : List Byte) : Packet := maintK 6 (admitHead op 0 7 rank (mkCoord 0 0 0 slot) ++ body)
def declareK : Packet := admitK 1 1 1 [2]
def oddK : Packet := admitK 10 1 1 []
def rank1 : BitVec 18 := 1
def rank2 : BitVec 18 := 2
def slot2 : Colour := 2
def job7 : Recov := { jobtag := 7 }
def bit0 : BitVec 20 := 0
def silentS : State := twinS
def silentNotS : State := { twinS with rxl := [(18, { st := .up })] }
def warm1 : Recov := { job7 with warmNotice := [1] }
def reportsS : State := recS job7
def noticeS : State := recS warm1
/-- Partition 0 has no work at all and is to be held. -/
def holdingS : State :=
  { twinS with engs := [], txl := [] }.modPart 0 fun p => { p with hold := .holding }
def reportK (m : Nat) : Packet := admitK 2 1 1 (leBytes 8 4 ++ leBytes 8 m ++ [1])
def reportNow : Packet := reportK 4
def reportWarm : Packet := reportK 0xFFFFFFFFFFFFFFFF
def slowS : State := partS fun p => { p with slowRanks := [1], epoch := 5 }
def slowWinS : State := slowS.modPart 0 fun p => { p with windows := [0] }
def drainedS : State := { drainS with engs := [] }
def drainedK : Packet := maintK 3 (tag7 ++ [0])
def drainingR : Recov := { job7 with stage := .draining }
def drainingS : State := recS drainingR
/-- A ready module without a plan. -/
def idleS : State := { net State.reset with boot := { stage := 8 }, rxl := [(19, { st := .up })] }
def offerK (n : Nat) : Packet := admitK 3 1 1 (leBytes 1 n ++ [0, 0, 0] ++ leBytes 16 4 ++ leBytes 4 77)
def offer1 : Packet := offerK 1
def offer2 : Packet := offerK 2
def offeredR : Recov := { job7 with stage := .offering, lost := [2], offeredTo := some 16, offerRank := 2, resync := 77 }
def offeredS : State := recS offeredR
def acceptK : Packet := admitK 4 2 16 (leBytes 4 77)
def declineK : Packet := admitK 5 2 16 [1, 0]
def slot16 : Nat := 16
def seekingR : Recov := { offeredR with offeredTo := none, passed := [1, 2] }
def seekingS : State :=
  let s := recS seekingR
  { s with rxl := [] }
def replaceD : Decision := { ident := 3, what := .replace 0, deadline := 0 }
def numD : Decision := { ident := 4, what := .numerics 0 5, deadline := 0 }
def awaitS : State := { recS { offeredR with stage := .await, offeredTo := none } with host := { decisions := [replaceD] } }
def awaitR : Recov := { offeredR with stage := .await, offeredTo := none }
def numS : State := { twinS with host := { decisions := [numD] } }
def step5 : Dword := 5
def journal (sender : Bool) : Journal :=
  { resync := 77, jobtag := 7, rank := 0, part := 0, mirror := false, sender := sender, start := true, held := false, chunks := 3, last := 1
    peer := 4, coord := mkCoord 0 0 0 1 }
def inJ : Journal := journal false
def outJ : Journal := journal true
def dataS : State := { twinS with host := { journals := [inJ] } }
def ackChunkS : State := { twinS with host := { journals := [outJ] } }
def dataK : Packet := admitK 6 0 1 (leBytes 4 77 ++ leBytes 4 1 ++ leBytes 8 0x5000 ++ [1, 2, 3])
def zeroCrc : Word := crc32c (twinS.readBytes 0 16)
def chunkK (crc : Nat) : Packet := admitK 7 0 1 (leBytes 4 77 ++ leBytes 4 1 ++ leBytes 4 crc)
def chunkOk : Packet := chunkK zeroCrc.toNat
def chunkBad : Packet := chunkK (zeroCrc.toNat + 1)
def chunk1 : Piece := .mem 0 16
def spareW : Word × Endpoint := (77, 4)
def spareJ : LoadJob := { addr := 0, len := 64, fn := none, tag := 0 }
def spareS : State := idleS.modPart 0 fun p => { p with spare := some spareW, loading := some spareJ, spareTag := 7, spareRank := 1 }
def admitR (live : List Nat) : Recov := { job7 with stage := .admitting, lost := [1, 2], accepted := [(1, 16), (2, 17)], live := live }
def admit1 : Recov := admitR []
def admit2 : Recov := admitR [2]
def admit1S : State := recS admit1
def admit2S : State := recS admit2
def liveK : Packet := admitK 8 1 16 (leBytes 4 77)
def rtackK : Packet := maintK 8 (tag7 ++ leBytes 2 1)
def tables1 : Recov := { admitR [1, 2] with stage := .tables }
def tables2 : Recov := { tables1 with rtacks := 1 }
def tables1S : State := recS tables1
def tables2S : State := recS tables2
def goK : Packet := admitK 9 0 0 (leBytes 8 99)

/-! ## Power, clocks, resets -/

/-- The module on, ready, REF and STEP locked, AUX12 present; partition 0 runs. -/
def onS : State :=
  { nopS with power := { on := true, vin := 4800, auxok := true }, boot := { stage := 8, perst := false, pwrGood := true }
              clk := { lock := true, stepLock := true, tick := 65536 } }
def dipS : State := { onS with power := { onS.power with throttle := true, vin := 3700, lowest := 3700 } }
def offS : State := { State.reset with power := { vin := 3500 } }
def noAuxS : State := { onS with power := { onS.power with auxok := false } }
def v (n : Nat) : BitVec 13 := BitVec.ofNat 13 n
def v37 : BitVec 13 := 3799
def v39 : BitVec 13 := 3900
def v34 : BitVec 13 := 3400
def v63 : BitVec 13 := 6301
def v40 : BitVec 13 := 4001
def counts2 : List (Byte × Word) := [(0, 1000), (1, 7)]
def over56S : State := { onS with power := { onS.power with over56 := true, capEff := 900, est := 1000 } }
def capOpenS : State := { onS with power := { onS.power with capOpen := true, capHost := 900 } }
def cool : List (BitVec 16) := [400, 1680]
def hot : List (BitVec 16) := [400, 1840]
def badSensors : List (BitVec 7) := [5]
def chgLow : OpChange := ⟨2, 5, 0x77, false, 0⟩
def chgRaise : OpChange := ⟨5, 2, 0x77, true, 0⟩
def chgLow1 : OpChange := { chgLow with step := 1 }
def chgRaise1 : OpChange := { chgRaise with step := 1 }
def chgS (c : OpChange) : State :=
  { onS with power := { onS.power with chg := some c, opCur := c.from_, opWant := c.target, pllMhz := some (onS.opMhz c.target) } }
def lowerS : State := chgS chgLow
def raiseS : State := chgS chgRaise
def raiseDipS : State := { raiseS with power := { raiseS.power with throttle := true } }
def lower1S : State := chgS chgLow1
def raise1S : State := chgS chgRaise1
def det3 : BitVec 6 := 3
def burstS : State := { onS with power := { onS.power with burst := true, droopNow := true, droopCnt := 4 } }
def holdoverS : State := { onS with clk := { onS.clk with lock := false, hold := true, holdTick := 60000 } }
def word9 : BitVec 96 := stepWord 0x90000 3
def freshS : State := { onS with clk := { onS.clk with stepLock := false } }
def headS : State := { onS with clk := { onS.clk with head := true } }
def farS : State := { onS with clk := { onS.clk with hop := 63 } }
def drift100 : BitVec 16 := BitVec.ofInt 16 (-100)
def drift101 : BitVec 16 := BitVec.ofInt 16 (-101)
def driftS : State := { onS with clk := { onS.clk with driftRun := 9 } }
def bk135 : Byte := 135
def bk134 : Byte := 134
def calS (old : Nat) : State := { onS with clk := { onS.clk with setLo := BitVec.ofNat 32 (999999999 + 2 ^ 31), setHi := 3, valid := true, sec := BitVec.ofNat 34 old } }
def calOn : State := calS 14
def calBack : State := calS 15
def perstS : State := { onS with boot := { onS.boot with perst := true, pwrGood := false } }
def perstGoodS : State := { onS with boot := { onS.boot with perst := true } }
/-- The power is on, the module is ready and no partition has work. -/
def onIdleS : State := { idleS with power := onS.power, clk := onS.clk, boot := onS.boot, host := { linkUp := true } }
def key0 : Word := 0xC2000001
def keyModule : Word := 0xC3000001
def keyWarm : Word := 0xC3000002
def keyPart : Word := 0xC3000010
def heldWarmS : State := onS.modPart 0 fun p => { p with hold := .held }
def stageS (n : Nat) : State := { onIdleS with boot := { onIdleS.boot with stage := n, perst := false } }
def stage0S : State := { stageS 0 with boot := { perst := true } }
def stage3S : State := stageS 3
def stage1S : State := { stageS 1 with clk := {} }
def stage7S : State := { stageS 7 with boot := { (stageS 7).boot with quar := true } }
def noBanks : List (BitVec 11) := []
def bank5 : List (BitVec 11) := [5]
def ms9 : BitVec 13 := 9
def helloLaneS : State := { onIdleS with txl := [(21, { st := .up, helloDue := true })] }

/-! ## The host -/

def fn0 : Fn := 0
def fn1 : Fn := 1
def pf (part : Nat) : Req := ⟨.mailbox 0, 5, BitVec.ofNat 8 part⟩
def pf0 : Req := pf 0
def pf1 : Req := pf 1
def i2cReq : Req := ⟨.mctp .i2c, 5, 0⟩
def addr4k : Dword := 0x4000
def len64 : Dword := 64
def reqJob : LoadJob := { addr := 0x4000, len := 64, fn := some 0, tag := 5 }
def loadS : State := onIdleS.modPart 0 fun p => { p with loading := some reqJob }
/-- Partition 0 holds a plan and is idle. -/
def plannedS : State := { run (plan 0) .nop 0 nopF with power := onS.power, clk := onS.clk, boot := onS.boot, host := { linkUp := true } }.modPart 0 fun p => { p with stat := .idle }
def seed5 : Dword := 5
def first3 : Dword := 3
def tick99k : Dword := 99000
def pendingS : State := plannedS.modPart 0 fun p => { p with stat := .pending, seed := 5, first := 3 }
def runningS : State := { plannedS.modPart 0 fun p => { p with stat := .running, epoch := 5 } with
  sems := [(5, { value := 1048566, alloc := true, remote := true })] }
def two : Byte := 2
def one : Byte := 1
def ident9 : Dword := 9
def key96 : List Byte := List.replicate 96 1
def ctrlHost : Control := { mode := 0x3F, level := 0xFF }
def capS : State := plannedS.modPart 0 fun p => { p with plan := some { plan 0 with ctrl := ctrlHost } }
def w300 : BitVec 16 := 300
def w1000 : BitVec 16 := 1000
def combD : Decision := { ident := 6, what := .comb 0, deadline := 70000 }
def combLate : Decision := { combD with expired := true }
def decideS (d : Decision) : State := { onIdleS with host := { linkUp := true, decisions := [d] }, combs := [(0, { approved := false, decision := some 6 })] }
def decideNowS : State := decideS combD
def decideLateS : State := decideS combLate
def ident6 : Word := 6
def sem5 : BitVec 16 := 5
def n10 : Word := 10
def step6 : Dword := 6
def step4 : Dword := 4
/-- The module in slot 1; slot 0 is heard. -/
def runHoldS : State := runningS.modPart 0 fun p => { p with hold := .holding }
def slotOneS : State :=
  { onIdleS with boot := { onIdleS.boot with brd := 1 }, txl := [(39, { st := .up, lit := true })], rxl := [(21, { st := .up })] }
def coord3 : BitVec 17 := mkCoord 0 0 0 3
def quarS : State := { onIdleS with boot := { onIdleS.boot with quar := true } }
def quarEarlyS : State := { quarS with boot := { quarS.boot with stage := 3 } }
def five : Byte := 5
def vacateS : State := { twinS with host := { linkUp := true } }
def op99 : BitVec 16 := 99
def note1 : Msg := ⟨0x81, 1, 0, 0, [7]⟩
def noNotes : List Msg := []
def noteS : State := { onIdleS with host := { onIdleS.host with fns := [(0, { waiting := [note1], ntail := 207, nhead := 5 })] } }
def off3 : BitVec 36 := 0x40FE
def len3 : BitVec 13 := 3
def barS : State := { carveS with host := { linkUp := true } }
def barIdleS : State := barS.modPart 0 fun p => { p with stat := .idle }
def rep6 : BitVec 3 := 6
def waitFnS : State := { onIdleS with host := { fns := [(0, { linkwait := true, busy := true })] } }

/-! ## Management and registers -/

def i2c : Binding := .i2c
def pcie1 : Binding := .pcie 1
def typ9 : Byte := 9
def body2 : List Byte := [2]
def svn3 : BitVec 6 := 3
def ver7 : BitVec 16 := 7
def spdmS (x : Spdm) : State := { onIdleS with host := { onIdleS.host with spdm := [(1, x), (5, x)] } }
def newS : State := spdmS {}
def versionS : State := spdmS { version := true }
def capsS : State := spdmS { version := true, caps := true }
def algsS : State := spdmS { version := true, caps := true, algs := true }
def handS : State := spdmS { version := true, caps := true, algs := true, handshake := true }
def sessS : State := spdmS { version := true, caps := true, algs := true, session := true }
def nonce1 : List Byte := [1]
def meas16 : Byte := 16
def meas17 : Byte := 17
def code85 : Byte := 0x85
def svnS : State := { onIdleS with host := { onIdleS.host with copyA := { svn := 3 }, fuseSvn := 2 } }
def keyA5 : Word := 0xA5000001
def keyA4 : Word := 0xA4000001
def five32 : Word := 5
def obsS (en : Bool) : State := { onIdleS with clk := { onIdleS.clk with tick := 31250 }, obs := { rcnt := { en := en, base := 0x10000, size := 3, wr := 2, rd := 1 }, ctr := [(3, 5), (600, 0x100000007)] } }
def obsOffS : State := obsS false
def obsOnS : State := obsS true
def restS : State := { obsOnS with boot := { obsOnS.boot with stage := 1, warm := true } }
def betweenS : State := { obsOnS with clk := { obsOnS.clk with tick := 31251 } }
def ctr600 : BitVec 12 := 600
def ringRegS (base : Nat) : State := { onIdleS with obs := { rcnt := { base := BitVec.ofNat 48 base, size := 2, wr := 2 } } }
def ringFitS : State := ringRegS 0x10000
def ringOddS : State := ringRegS 0x10001
def cntBlk : RingBlk := .cnt
def rate256 : Word := 256
def rate128 : Word := 128
def sharedS : State := { onIdleS with partCnt := 2, mem := { drate := [(0, 128), (1, 128)], prate := [(0, 128), (1, 128)] } }
def p1 : Part := 1
def cz47 : Word := BitVec.ofNat 32 (1 + 2 * 8 + 47 * 64)
def ext8 : Word := BitVec.ofNat 32 (8 + 8 * 16 + 48 * 256)
def busy1S : State := (sharedS.modPart 1 fun p => { p with stat := .running })
def off0 : BitVec 26 := 0xFFFC
def off81 : BitVec 26 := 0x810000

/-! ## The queue and the words -/

def lockS : State := { State.reset with clk := { lock := true, tick := 0xFFFFFFFFFFFFFFFF } }
def nopWord : Nat := 0x100
def badWord : Nat := 0x107
def loopIdx : Fields := { fields with d := 3, imm := 8 }
def stepT : State := match step lockS with | .next t => t | _ => lockS
theorem stepT_eq : step lockS = .next stepT := rfl
def svnT : State := after (.commitSvn keyA5) svnS

theorem test_met_StepKeepsOrder : inOrder lockS ∧ step lockS = .next stepT := ⟨by decide +kernel, stepT_eq⟩

/-! ## The manual's worked examples -/

/-- The four values of Table 4.8, as FP32 words. -/
def block48 : List Val := [0x3D77CED9, 0x3D3923A3, 0xBA902DE0, 0x37A7C5AC].map ofFp
/-- Table 4.8, STANDARD: scale code 0x72. -/
theorem test_mxfp8_standard :
    (mxBlock 5 (stdSofs 5) block48).1 = 0x72 ∧ (mxBlock 5 (stdSofs 5) block48).2.map (fun x => x.1) = [0x7E, 0x7C, 0xD1, 0x22] := by decide +kernel
/-- The same under HEADROOM, s = −12: 0x77, and 0.078125 for the last. -/
theorem test_mxfp8_headroom :
    (mxBlock 5 (-7) block48).2.map (fun x => x.1) = [0x77, 0x74, 0xC9, 0x1A] := by decide +kernel
/-- A receiver widens 0x7C and 0xD1 under scale 0x72 to BF16. -/
theorem test_mxfp8_widened : bf16.put (eltScaled 5 0x7C 0x72) = 0x3D40 ∧ bf16.put (eltScaled 5 0xD1 0x72) = 0xBA90 := by decide +kernel

/-- 3.1·10^−3 and 7.0·10^−6 to more bits than the example needs. -/
def v31 : Val := .fin false 3659834024223974912 (-70)
def v70 : Val := .fin true 8462480737302404096 (-80)
/-- The RFX example on a ring of 48: E = −2, and the elements in RFX24 and RFX40. -/
theorem test_rfx_ring :
    contrib [v31, v70] = -8 ∧ agreeExp (-8) 48 = -2 ∧ rfxRound 24 (-2) v31 = 52009 ∧ rfxRound 24 (-2) v70 = -117 ∧
    rfxRound 40 (-2) v31 = 3408486046 := by decide +kernel
/-- Residues of one addition: 66, 10 and 76; with bit 10 flipped 84. -/
theorem test_residues : [52009, -117, 51892, 52916].map residue = [66, 10, 76, 84] := by decide
/-- Segments of 4,096 blocks on a ring of 48: segment 17, and position 17's part in segments 16 and 17. -/
theorem test_segments :
    segStart 4096 48 17 = 1461 ∧ segLen 4096 48 15 = 86 ∧ segLen 4096 48 16 = 85 ∧ roleOf 48 17 16 = 0 ∧ roleOf 48 17 17 = 47 := by decide

/-- The split product's pieces: 1.125, 2^−10, 2^−20 and 1, 2^−9, 0. -/
theorem test_split :
    [0, 1, 2].map (fun k => bf16.put (splitPiece 0x3F902008 k).v) = [0x3F90, 0x3A80, 0x3580] ∧
    [0, 1, 2].map (fun k => bf16.put (splitPiece 0x3F804000 k).v) = [0x3F80, 0x3B00, 0] := by decide +kernel
/-- Two products of 2^−29 and 2^−80. -/
def sticky2 : List (Val × Int) := [(.fin false 1 (-29), -29), (.fin false 1 (-80), -80)]
/-- A sticky bit decides one rounding. -/
theorem test_sticky :
    toAf (addGroup af40 (some .one) (groupSum 47 sticky2 (some 0))) = 0x3FF0000001 ∧
    toAf (addGroup af40 (some .one) (groupSum 47 (sticky2.take 1) (some 0))) = 0x3FF0000000 := by decide +kernel

/-- x = 8000_0000H: u = 0.5 + 2^−24, and with p = 0.9 the element is kept. -/
theorem test_vrng_mapping :
    rngBits false 0 0x80000000 = 0x3F000001 ∧ keepThreshold 0x3F666666 = (3865470464, false) ∧
    rngBits true 3865470464 0x80000000 = 1 := by decide +kernel

/-- Six tokens of 8 elements, their top-2 choices, three experts of capacity two, counts and slot map. -/
def tokensX : Engine :=
  { a := [(0, adesc 0x4000), (1, adesc 0x5000), (2, adesc 0x6000), (3, adesc 0x7000)]
    t := [(0, tdesc 8 6 1 0 32 192 0 255), (1, tdesc 8 2 3 0 32 64 1 255), (2, tdesc 2 6 1 0x0D 32 192 2 255), (3, tdesc 3 7 1 0x0D 32 224 3 255)] }
def choices : List (Nat × Nat) := [(0, 1), (0, 2), (0, 1), (1, 0), (2, 0), (1, 2)]
def tokenData : List (Nat × List Byte) :=
  choices.mapIdx fun i c => (0x6000 + 32 * i, leBytes 4 c.1 ++ leBytes 4 c.2)
def tokensF : Fields := { dispatchF with mod := 1 }
def tokensS : State := at_ .dispatch 168 tokensF tokensX [] tokenData
/-- The bytes of S3 that DISPATCH is about to write. -/
def droppedOf (s : State) : List (List Nat) :=
  ((s.eng 168).inflight.flatMap fun i => i.writes.filter fun w => Nat.ble 0x7000 w.addr).map fun w =>
    (List.range 3).map fun j => fieldLE w.data (4 * j) 4
/-- Table 6.2: three choices of expert 0, two of 1 and one of 2 are dropped; the slot map follows. -/
theorem test_dispatch :
    ((droppedOf (after (.dispatch clv tokensF) tokensS)).take 1 = [[3, 2, 1]]) ∧
    ((droppedOf (after (.dispatch clv tokensF) tokensS)).drop 1).map (fun r => r.take 2) =
      [[0, 0xFFFFFFFF], [1, 1], [0xFFFFFFFF, 0xFFFFFFFF], [0, 0xFFFFFFFF], [0, 0xFFFFFFFF], [1, 0xFFFFFFFF]] := by
  decide +kernel

/-- The colours of slot 6: to slots 0, 5, 7 and 15, and from slot 13; standby slot 17 in its place. -/
theorem test_colours :
    [0, 5, 7, 15, 13].map (txColour 6) = [14, 19, 1, 9, 7] ∧ rxSource 6 13 = 13 ∧ txColour 17 13 = 16 ∧ rxSource 13 16 = 17 := by decide

/-- The module in carr (2, 5, 17), slot 6, of a slice cx 1-4, cy 5, cz 15-18 on a machine of 8 x 8 x 48. -/
def routeS (cx cz : Nat) (brd pos : Nat) : State :=
  { State.reset with
    router := { cx := BitVec.ofNat 3 cx, cy := 5, cz := BitVec.ofNat 6 cz, ex := 8, ey := 8, ez := 48 }
    boot := { brd := BitVec.ofNat 3 brd, pos := BitVec.ofNat 2 pos } }
def pRoute : Plan := { plan 0 with origin := (1, 5, 15), spans := (4, 1, 4) }
def dest9 : BitVec 17 := 0x12A09
/-- Table 10.8: DIRS and the three hops. -/
theorem test_route :
    mkCoord 4 5 16 9 = dest9 ∧ (routeS 2 17 2 1).slot = 6 ∧ (routeS 2 17 2 1).dirsTo (some pRoute) dest9 = 0b100 ∧
    (routeS 2 17 2 1).nextHop dest9 0b100 = some (1, 9) ∧ (routeS 2 17 2 1).landing 1 9 = mkCoord 3 5 17 9 ∧
    (routeS 3 17 1 2).nextHop dest9 0b100 = some (1, 9) ∧ (routeS 4 17 1 2).nextHop dest9 0b100 = some (6, 9) ∧
    (routeS 4 16 1 2).nextHop dest9 0b100 = none ∧ pairedPort 16 = 18 ∧ pairedPort 28 = 24 := by decide +kernel

/-- Where two addresses land: stack 3, channel 14, pseudo-channel 0, bank EH, row 2468H, column group 3; Peat bank 338, line 582, and the next. -/
theorem test_interleave :
    pseudoChannel 0x1234567800 = 220 ∧ dramStack 0x1234567800 = 3 ∧ dramChannel 0x1234567800 = 14 ∧ dramBank 0x1234567800 = 0xE ∧
    dramRow 0x1234567800 = 0x2468 ∧ dramColumn 0x1234567800 = 3 ∧ peatBank 0x100001234540 = 338 ∧ peatLine 0x100001234540 = 582 ∧
    peatBank (0x100001234540 + 32768) = 339 := by decide

/-- An OP7 phase at 1,310 W under a cap of 1,200 W: the level rises by 12 and stays there. -/
theorem test_cap_level :
    capLevel 0 (1310 * wattUnit) (780 * wattUnit) 1200 = 12 ∧
    capLevel 12 (116375 * (wattUnit / 100)) (63375 * (wattUnit / 100)) 1200 = 12 := by decide +kernel

/-! ## Words and forms -/

/-- Instruction words written out from Table 3.2, one or two for every family: opcode, MOD, CS, CSEM, D, S1, S2, S3, IMM. -/
theorem test_word_control :
    decodeInsn 0x100 = some (.nop, nopF) ∧
    decodeInsn 0x000000000000AABB_FFFFFFC7_00000002 = some (.loop, { fields with d := kSpec 7, imm := 0xAABB }) ∧
    decodeInsn 0x0000000000000002_FFFFFF5F_00000006 = some (.setr, { fields with d := aSpec 31, imm := 2 }) := by decide
theorem test_word_sync :
    decodeInsn 0x0000000A00030005_FFFF0BFF_00000D10 = some (.swait, { fields with mod := 0x0D, s1 := 11, imm := 0x0000000A00030005 }) ∧
    decodeInsn 0x0000009000040005_FFFFFFFF_02419713 = some (.ssig, { fields with mod := 0x17, cs := true, csem := 0x241, imm := 0x9000040005 }) := by
  decide
theorem test_word_move :
    decodeInsn 0x0000000000000000_FFFF8081_02408020 = some (.move, { fields with cs := true, csem := 0x240, d := tSpec 1, s1 := tSpec 0 }) ∧
    decodeInsn 0x0000000000000004_FFFF8041_00000223 = some (.put, { fields with mod := 2, d := aSpec 1, s1 := tSpec 0, imm := 4 }) := by decide
theorem test_word_matrix :
    decodeInsn 0x0000000000000000_FF8180FF_00004430 = some (.mma, { fields with mod := 0x44, s1 := tSpec 0, s2 := tSpec 1 }) := by decide
theorem test_word_vector :
    decodeInsn 0x0000000000000003_FFFFFF81_00000042 = some (.vrng, { fields with d := tSpec 1, imm := 3 }) := by decide
theorem test_word_reduction :
    decodeInsn 0x0000000000000003_FFFF80FF_00000050 = some (.rring, { fields with s1 := tSpec 0, imm := 3 }) := by decide
theorem test_word_update :
    decodeInsn 0x0000000000000300_83828180_00000060 = some (.upd, { fields with d := tSpec 0, s1 := tSpec 1, s2 := tSpec 2, s3 := tSpec 3, imm := 0x300 }) ∧
    decodeInsn 0x0000000000000005_FFFFFFFF_00000061 = some (.commit, { fields with imm := 5 }) := by decide
theorem test_word_watch : decodeInsn 0x0000000000000007_FFFF80FF_00000170 = some (.nwatch, { fields with mod := 1, s1 := tSpec 0, imm := 7 }) := by decide
/-- Opcodes that Table 3.7 does not list. -/
theorem test_word_unlisted : [0x07, 0x15, 0x25, 0x36, 0x44, 0x52, 0x62, 0x71, 0xFF].map decodeInsn = List.replicate 9 none := by decide

/-- Ill-formed terms, one for each check: issuer, CS, specifiers, modifiers and ranges of the immediate, a packet's length, a codeword,
a key, a nonce, the bytes of a window's write. -/
theorem test_ill_formed :
    [Instr.mma sdg mmaF, .nop tus { nopF with cs := true }, .move clv { moveF with csem := 1 }, .loop tus { loopF with d := tSpec 1 },
     .jmp tus { jmpF with s3 := 0 }, .phase tus { phaseF with imm := 0xFFFF }, .setr tus { setrG with d := 31 },
     .swait tus { waitF with imm := 1 <<< 28 }, .swatch tus { waitF with mod := 0x10 }, .sadd tus { addF with imm := 5 },
     .ssub tus { addF with imm := BitVec.ofNat 64 (1048576 * 2 ^ 32) }, .ssig tus { ssigF with mod := 1 }, .halt tus nopF, .endl tus { endlF with imm := 1 },
     .gather clv { rowsF with mod := 1 }, .scatter clv { scatterF with mod := 2 }, .put clv { putF with mod := 4 }, .dispatch clv { dispatchF with s3 := 0xFF },
     .mma tus { mmaF with mod := 3 }, .mmax tus { mmaxF with mod := 2 }, .accsp tus { accspF with mod := 1 }, .accrs tus { accrsF with imm := 1 },
     .acccb tus { acccbF with imm := 0 }, .epi tus { epiF with mod := 6 }, .vop sdg { vopF with mod := 0x18 }, .vred sdg { moveF with mod := 8 },
     .vrng sdg { vrngF with mod := 2 }, .vcvt sdg { moveF with mod := 2 }, .rring mere { rringF with mod := 1 }, .rnorm mere { rnormF with mod := 1 },
     .upd hmk { updF with s3 := 0 }, .commit hmk { commitF with imm := 0x10000 }, .nwatch sdg { nwatchF with mod := 0 },
     .laneFrameReceive port0 col1 badCw, .writeReceive port0 col1 { writeK with len := 4 }, .tkeySet pf0 ident9 [1],
     .challenge i2c one [1], .keyExchange i2c [1], .bar2Write fn0 off3 []].map Instr.wf = List.replicate 39 false := by decide +kernel
/-- The same commands in a legal form. -/
theorem test_well_formed :
    [Instr.mma tus mmaF, .nop tus nopF, .move clv moveF, .loop tus loopF, .jmp tus jmpF, .phase tus phaseF, .setr tus setrG, .swait tus waitF,
     .sadd tus addF, .ssub tus addF, .ssig tus ssigF, .halt tus zeroF, .endl tus endlF, .gather clv rowsF, .scatter clv scatterF, .put clv putF,
     .dispatch clv dispatchF, .mmax tus mmaxF, .accsp tus accspF, .accrs tus accrsF, .acccb tus acccbF, .epi tus epiF, .vop sdg vopF, .vred sdg moveF,
     .vrng sdg vrngF, .vcvt sdg moveF, .rring mere rringF, .rnorm mere rnormF, .upd hmk updF, .commit hmk commitF, .nwatch sdg nwatchF,
     .laneFrameReceive port0 col1 zeroCw, .writeReceive port0 col1 writeK, .tkeySet pf0 ident9 key96].map Instr.wf = List.replicate 34 true := by
  decide +kernel

/-! ## Premises of the statements that are met, one theorem per statement, one line for each clause -/

theorem test_met_ControlCompletes :
    ((nopS.part (nopS.partOf tus.val)).stopNow = false ∧ mayIssue Op.nop tus nopF nopS pTus) ∧
    ((haltS.part (haltS.partOf tus.val)).stopNow = false ∧ mayIssue Op.halt tus zeroF haltS pTus) ∧
    ((loopS.part (loopS.partOf tus.val)).stopNow = false ∧ mayIssue Op.loop tus loopF loopS pTus) ∧
    ((endlS.part (endlS.partOf tus.val)).stopNow = false ∧ (endlS.eng tus.val).loops = frame9 :: noFrames ∧ mayIssue Op.endl tus endlF endlS pTus) ∧
    ((endlEndS.part (endlEndS.partOf tus.val)).stopNow = false ∧ (endlEndS.eng tus.val).loops = frameEnd :: noFrames ∧
      mayIssue Op.endl tus endlF endlEndS pTus) ∧
    ((jmpS.part (jmpS.partOf tus.val)).stopNow = false ∧ mayIssue Op.jmp tus jmpF jmpS pTus) ∧
    ((jmpOnS.part (jmpOnS.partOf tus.val)).stopNow = false ∧ mayIssue Op.jmp tus jmpOnF jmpOnS pTus) ∧
    ((phaseS.part (phaseS.partOf tus.val)).stopNow = false ∧ mayIssue Op.phase tus phaseF phaseS pTus) ∧
    ((phaseLapS.part (phaseLapS.partOf tus.val)).stopNow = false ∧ mayIssueAny Op.phase tus phaseF phaseLapS pTus ∧
      (phaseLapS.eng tus.val).lap = true) ∧
    ((setrGS.part (setrGS.partOf tus.val)).stopNow = false ∧ mayIssue Op.setr tus setrG setrGS pTus) ∧
    ((setrAS.part (setrAS.partOf tus.val)).stopNow = false ∧ mayIssue Op.setr tus setrA setrAS pTus) ∧
    ((setrTS.part (setrTS.partOf tus.val)).stopNow = false ∧ mayIssue Op.setr tus setrT setrTS pTus) :=
  by and_intros <;> decide +kernel

theorem test_met_WatchesGuard :
    (mayIssue Op.swait tus waitF swaitS pTus ∧ (swaitS.eng tus.val).skipSwaits = 0 ∧
      ((swaitS.watch (syncWatch waitF)).reports (syncSem waitF) ((swaitS.eng tus.val).threshold waitF) = true ∨ (swaitS.eng tus.val).threshold waitF ≤ BitVec.toInt (swaitS.sem (syncSem waitF)).value)) ∧
    (mayIssue Op.swait tus waitF swaitFiredS pTus ∧ (swaitFiredS.eng tus.val).skipSwaits = 0 ∧
      ((swaitFiredS.watch (syncWatch waitF)).reports (syncSem waitF) ((swaitFiredS.eng tus.val).threshold waitF) = true ∨ (swaitFiredS.eng tus.val).threshold waitF ≤ BitVec.toInt (swaitFiredS.sem (syncSem waitF)).value)) ∧
    (mayIssue Op.swait tus waitF swaitLowS pTus ∧ (swaitLowS.eng tus.val).skipSwaits = 0 ∧
      BitVec.toInt (swaitLowS.sem (syncSem waitF)).value < (swaitLowS.eng tus.val).threshold waitF ∧
      (swaitLowS.watch (syncWatch waitF)).reports (syncSem waitF) ((swaitLowS.eng tus.val).threshold waitF) = false) ∧
    (mayIssue Op.swait tus waitF swaitSkipS pTus ∧ 0 < (swaitSkipS.eng tus.val).skipSwaits) ∧
    (mayIssue Op.swatch tus waitF swatchS pTus ∧ swatchS.waitsOn (syncWatch waitF) (BitVec.toNat (swatchS.watch (syncWatch waitF)).owner) = false) :=
  by and_intros <;> decide +kernel

theorem test_met_SaddSsubAdd :
    ((opSadd = Op.sadd ∨ opSadd = Op.ssub) ∧ mayIssue opSadd tus addF saddBusyS pTus ∧ (saddBusyS.eng tus.val).inflight ≠ []) ∧
    ((opSadd = Op.sadd ∨ opSadd = Op.ssub) ∧ mayIssue opSadd tus addF saddS pTus ∧ (saddS.eng tus.val).inflight = [] ∧
      (semRange (BitVec.toInt (saddS.sem (addF.immF 0 16)).value + if opSadd = Op.sadd then (addF.immF 32 32).cast else -(addF.immF 32 32).cast) = true) ∧
      (addF.cs = true → semRange ((BitVec.toInt (saddS.sem addF.csem.toNat).value + if addF.csem.toNat = addF.immF 0 16 then if opSadd = Op.sadd then (addF.immF 32 32).cast else -(addF.immF 32 32).cast else 0) + 1) = true)) ∧
    ((opSsub = Op.sadd ∨ opSsub = Op.ssub) ∧ mayIssue opSsub tus addF ssubS pTus ∧ (ssubS.eng tus.val).inflight = [] ∧
      (semRange (BitVec.toInt (ssubS.sem (addF.immF 0 16)).value + if opSsub = Op.sadd then (addF.immF 32 32).cast else -(addF.immF 32 32).cast) = true) ∧
      (addF.cs = true → semRange ((BitVec.toInt (ssubS.sem addF.csem.toNat).value + if addF.csem.toNat = addF.immF 0 16 then if opSsub = Op.sadd then (addF.immF 32 32).cast else -(addF.immF 32 32).cast else 0) + 1) = true)) ∧
    ((opSadd = Op.sadd ∨ opSadd = Op.ssub) ∧ mayIssue opSadd tus addCsF saddCsS pTus ∧ (saddCsS.eng tus.val).inflight = [] ∧
      (semRange (BitVec.toInt (saddCsS.sem (addCsF.immF 0 16)).value + if opSadd = Op.sadd then (addCsF.immF 32 32).cast else -(addCsF.immF 32 32).cast) = true) ∧
      (addCsF.cs = true → semRange ((BitVec.toInt (saddCsS.sem addCsF.csem.toNat).value + if addCsF.csem.toNat = addCsF.immF 0 16 then if opSadd = Op.sadd then (addCsF.immF 32 32).cast else -(addCsF.immF 32 32).cast else 0) + 1) = true)) ∧
    ((opSsub = Op.sadd ∨ opSsub = Op.ssub) ∧ mayIssue opSsub tus addSameF ssubSameS pTus ∧ (ssubSameS.eng tus.val).inflight = [] ∧
      (semRange (BitVec.toInt (ssubSameS.sem (addSameF.immF 0 16)).value + if opSsub = Op.sadd then (addSameF.immF 32 32).cast else -(addSameF.immF 32 32).cast) = true) ∧
      (addSameF.cs = true → semRange ((BitVec.toInt (ssubSameS.sem addSameF.csem.toNat).value + if addSameF.csem.toNat = addSameF.immF 0 16 then if opSsub = Op.sadd then (addSameF.immF 32 32).cast else -(addSameF.immF 32 32).cast else 0) + 1) = true)) :=
  by and_intros <;> decide +kernel

theorem test_met_SemaphoreOverflowStops :
    (semRange (BitVec.toInt (saddOverS.sem 5).value + 10) = false ∧ noneRetired saddOverS ∧
      (∀ (e : Nat), e ∈ engsOf saddOverS.partCnt 0 → (saddOverS.eng e).idxRange = 0 ∧ (saddOverS.eng e).satCnt = 0 ∧ (saddOverS.eng e).keptCnt = 0 ∧
      (saddOverS.eng e).dropCnt = 0)) ∧
    ((saddOverS.eng tus.val).inflight = [] ∧ noneRetired saddOverS ∧ mayIssue Op.sadd tus addF saddOverS pTus ∧
      semRange (BitVec.toInt (saddOverS.sem (addF.immF 0 16)).value + (addF.immF 32 32).cast) = false) ∧
    ((saddCsOverS.eng tus.val).inflight = [] ∧ noneRetired saddCsOverS ∧ mayIssue Op.sadd tus addCsF saddCsOverS pTus ∧
      semRange (BitVec.toInt (saddCsOverS.sem (addCsF.immF 0 16)).value + (addCsF.immF 32 32).cast) = false) ∧
    ((ssubOverS.eng tus.val).inflight = [] ∧ noneRetired ssubOverS ∧ mayIssue Op.ssub tus addF ssubOverS pTus ∧
      semRange (BitVec.toInt (ssubOverS.sem (addF.immF 0 16)).value - (addF.immF 32 32).cast) = false) ∧
    (flightOverS.ready tus.val = some flightI ∧ (flightOverS.part (flightOverS.partOf tus.val)).runs = true ∧ flightI.mirror = none ∧
      flightI.cs = true ∧ noneRetired flightOverS ∧ semRange (BitVec.toInt (flightOverS.sem flightI.csem.toNat).value + 1) = false) :=
  by and_intros <;> first | decide +kernel | exact noneRetired_of (by decide +kernel)

theorem test_met_ControlFrame :
    ((opNop ∈ [Op.nop, Op.halt, Op.loop, Op.endl, Op.jmp, Op.phase, Op.setr]) ∧ mayIssueAny opNop tus nopF nopS pTus ∧ Memory.wf nopS.mem.mem = true ∧
      ringsFit nopS ∧ isNext (exec (issueOf opNop tus nopF) nopS) = true ∧
      (opNop = Op.halt ∨ opNop = Op.jmp → (nopS.part (nopS.partOf tus.val)).stopNow = false)) ∧
    ((opLoop ∈ [Op.nop, Op.halt, Op.loop, Op.endl, Op.jmp, Op.phase, Op.setr]) ∧ mayIssueAny opLoop tus loopF loopS pTus ∧
      Memory.wf loopS.mem.mem = true ∧ ringsFit loopS ∧ isNext (exec (issueOf opLoop tus loopF) loopS) = true ∧
      (opLoop = Op.halt ∨ opLoop = Op.jmp → (loopS.part (loopS.partOf tus.val)).stopNow = false)) ∧
    ((opEndl ∈ [Op.nop, Op.halt, Op.loop, Op.endl, Op.jmp, Op.phase, Op.setr]) ∧ mayIssueAny opEndl tus endlF endlS pTus ∧
      Memory.wf endlS.mem.mem = true ∧ ringsFit endlS ∧ isNext (exec (issueOf opEndl tus endlF) endlS) = true ∧
      (opEndl = Op.halt ∨ opEndl = Op.jmp → (endlS.part (endlS.partOf tus.val)).stopNow = false)) ∧
    ((opSetr ∈ [Op.nop, Op.halt, Op.loop, Op.endl, Op.jmp, Op.phase, Op.setr]) ∧ mayIssueAny opSetr tus setrG setrGS pTus ∧
      Memory.wf setrGS.mem.mem = true ∧ ringsFit setrGS ∧ isNext (exec (issueOf opSetr tus setrG) setrGS) = true ∧
      (opSetr = Op.halt ∨ opSetr = Op.jmp → (setrGS.part (setrGS.partOf tus.val)).stopNow = false)) ∧
    ((Op.halt ∈ [Op.nop, Op.halt, Op.loop, Op.endl, Op.jmp, Op.phase, Op.setr]) ∧ mayIssueAny Op.halt tus zeroF haltS pTus ∧
      Memory.wf haltS.mem.mem = true ∧ ringsFit haltS ∧ isNext (exec (issueOf Op.halt tus zeroF) haltS) = true ∧
      (Op.halt = Op.halt ∨ Op.halt = Op.jmp → (haltS.part (haltS.partOf tus.val)).stopNow = false)) ∧
    ((Op.halt ∈ [Op.nop, Op.halt, Op.loop, Op.endl, Op.jmp, Op.phase, Op.setr]) ∧ mayIssueAny Op.halt tus zeroF haltStopS pTwo ∧
      Memory.wf haltStopS.mem.mem = true ∧ ringsFit haltStopS ∧ isNext (exec (issueOf Op.halt tus zeroF) haltStopS) = true ∧
      (Op.halt = Op.halt ∨ Op.halt = Op.jmp) ∧ noneRetired haltStopS) ∧
    ((Op.jmp ∈ [Op.nop, Op.halt, Op.loop, Op.endl, Op.jmp, Op.phase, Op.setr]) ∧ mayIssueAny Op.jmp tus jmpF jmpS pTus ∧
      Memory.wf jmpS.mem.mem = true ∧ ringsFit jmpS ∧ isNext (exec (issueOf Op.jmp tus jmpF) jmpS) = true ∧
      (Op.jmp = Op.halt ∨ Op.jmp = Op.jmp → (jmpS.part (jmpS.partOf tus.val)).stopNow = false)) ∧
    ((Op.phase ∈ [Op.nop, Op.halt, Op.loop, Op.endl, Op.jmp, Op.phase, Op.setr]) ∧ mayIssueAny Op.phase tus phaseF phaseLapS pTus ∧
      Memory.wf phaseLapS.mem.mem = true ∧ ringsFit phaseLapS ∧ isNext (exec (issueOf Op.phase tus phaseF) phaseLapS) = true ∧
      (Op.phase = Op.halt ∨ Op.phase = Op.jmp → (phaseLapS.part (phaseLapS.partOf tus.val)).stopNow = false)) ∧
    ((Op.swait ∈ [Op.swait, Op.swatch, Op.sadd, Op.ssub, Op.ssig]) ∧ mayIssueAny Op.swait tus waitF swaitS pTus ∧ Memory.wf swaitS.mem.mem = true ∧
      ringsFit swaitS ∧
      (Op.swait = Op.sadd ∨ Op.swait = Op.ssub → semRange (BitVec.toInt (swaitS.sem (waitF.immF 0 16)).value + if Op.swait = Op.sadd then (waitF.immF 32 32).cast else if Op.swait = Op.ssub then -(waitF.immF 32 32).cast else 0) = true) ∧
      (waitF.cs = true → semRange ((BitVec.toInt (swaitS.sem waitF.csem.toNat).value + if waitF.csem.toNat = waitF.immF 0 16 then if Op.swait = Op.sadd then (waitF.immF 32 32).cast else if Op.swait = Op.ssub then -(waitF.immF 32 32).cast else 0 else 0) + 1) = true) ∧
      (Op.swait = Op.ssig → swaitS.destOk (swaitS.partOf tus.val) (BitVec.ofNat 20 (waitF.immF 16 20)) = true ∧
      ∃ pl ds, swaitS.nextHop (swaitS.rankEnt (swaitS.partOf tus.val) (epRank (BitVec.ofNat 20 (waitF.immF 16 20)))).coord (swaitS.dirsTo (swaitS.part (swaitS.partOf tus.val)).plan (swaitS.rankEnt (swaitS.partOf tus.val) (epRank (BitVec.ofNat 20 (waitF.immF 16 20)))).coord) = some (pl, ds) ∧
      lanesWhole swaitS pl ds) ∧ isNext (exec (issueOf Op.swait tus waitF) swaitS) = true) ∧
    ((Op.swait ∈ [Op.swait, Op.swatch, Op.sadd, Op.ssub, Op.ssig]) ∧ mayIssueAny Op.swait tus waitF swaitLowS pTus ∧
      Memory.wf swaitLowS.mem.mem = true ∧ ringsFit swaitLowS ∧
      (Op.swait = Op.sadd ∨ Op.swait = Op.ssub → semRange (BitVec.toInt (swaitLowS.sem (waitF.immF 0 16)).value + if Op.swait = Op.sadd then (waitF.immF 32 32).cast else if Op.swait = Op.ssub then -(waitF.immF 32 32).cast else 0) = true) ∧
      (waitF.cs = true → semRange ((BitVec.toInt (swaitLowS.sem waitF.csem.toNat).value + if waitF.csem.toNat = waitF.immF 0 16 then if Op.swait = Op.sadd then (waitF.immF 32 32).cast else if Op.swait = Op.ssub then -(waitF.immF 32 32).cast else 0 else 0) + 1) = true) ∧
      (Op.swait = Op.ssig → swaitLowS.destOk (swaitLowS.partOf tus.val) (BitVec.ofNat 20 (waitF.immF 16 20)) = true ∧
      ∃ pl ds, swaitLowS.nextHop (swaitLowS.rankEnt (swaitLowS.partOf tus.val) (epRank (BitVec.ofNat 20 (waitF.immF 16 20)))).coord (swaitLowS.dirsTo (swaitLowS.part (swaitLowS.partOf tus.val)).plan (swaitLowS.rankEnt (swaitLowS.partOf tus.val) (epRank (BitVec.ofNat 20 (waitF.immF 16 20)))).coord) = some (pl, ds) ∧
      lanesWhole swaitLowS pl ds) ∧ isNext (exec (issueOf Op.swait tus waitF) swaitLowS) = true) ∧
    ((Op.swatch ∈ [Op.swait, Op.swatch, Op.sadd, Op.ssub, Op.ssig]) ∧ mayIssueAny Op.swatch tus waitF swatchS pTus ∧
      Memory.wf swatchS.mem.mem = true ∧ ringsFit swatchS ∧
      (Op.swatch = Op.sadd ∨ Op.swatch = Op.ssub → semRange (BitVec.toInt (swatchS.sem (waitF.immF 0 16)).value + if Op.swatch = Op.sadd then (waitF.immF 32 32).cast else if Op.swatch = Op.ssub then -(waitF.immF 32 32).cast else 0) = true) ∧
      (waitF.cs = true → semRange ((BitVec.toInt (swatchS.sem waitF.csem.toNat).value + if waitF.csem.toNat = waitF.immF 0 16 then if Op.swatch = Op.sadd then (waitF.immF 32 32).cast else if Op.swatch = Op.ssub then -(waitF.immF 32 32).cast else 0 else 0) + 1) = true) ∧
      (Op.swatch = Op.ssig → swatchS.destOk (swatchS.partOf tus.val) (BitVec.ofNat 20 (waitF.immF 16 20)) = true ∧
      ∃ pl ds, swatchS.nextHop (swatchS.rankEnt (swatchS.partOf tus.val) (epRank (BitVec.ofNat 20 (waitF.immF 16 20)))).coord (swatchS.dirsTo (swatchS.part (swatchS.partOf tus.val)).plan (swatchS.rankEnt (swatchS.partOf tus.val) (epRank (BitVec.ofNat 20 (waitF.immF 16 20)))).coord) = some (pl, ds) ∧
      lanesWhole swatchS pl ds) ∧ isNext (exec (issueOf Op.swatch tus waitF) swatchS) = true) ∧
    ((Op.sadd ∈ [Op.swait, Op.swatch, Op.sadd, Op.ssub, Op.ssig]) ∧ mayIssueAny Op.sadd tus addF saddS pTus ∧ Memory.wf saddS.mem.mem = true ∧
      ringsFit saddS ∧
      (Op.sadd = Op.sadd ∨ Op.sadd = Op.ssub → semRange (BitVec.toInt (saddS.sem (addF.immF 0 16)).value + if Op.sadd = Op.sadd then (addF.immF 32 32).cast else if Op.sadd = Op.ssub then -(addF.immF 32 32).cast else 0) = true) ∧
      (addF.cs = true → semRange ((BitVec.toInt (saddS.sem addF.csem.toNat).value + if addF.csem.toNat = addF.immF 0 16 then if Op.sadd = Op.sadd then (addF.immF 32 32).cast else if Op.sadd = Op.ssub then -(addF.immF 32 32).cast else 0 else 0) + 1) = true) ∧
      (Op.sadd = Op.ssig → saddS.destOk (saddS.partOf tus.val) (BitVec.ofNat 20 (addF.immF 16 20)) = true ∧
      ∃ pl ds, saddS.nextHop (saddS.rankEnt (saddS.partOf tus.val) (epRank (BitVec.ofNat 20 (addF.immF 16 20)))).coord (saddS.dirsTo (saddS.part (saddS.partOf tus.val)).plan (saddS.rankEnt (saddS.partOf tus.val) (epRank (BitVec.ofNat 20 (addF.immF 16 20)))).coord) = some (pl, ds) ∧
      lanesWhole saddS pl ds) ∧ isNext (exec (issueOf Op.sadd tus addF) saddS) = true) ∧
    ((Op.ssub ∈ [Op.swait, Op.swatch, Op.sadd, Op.ssub, Op.ssig]) ∧ mayIssueAny Op.ssub tus addF ssubS pTus ∧ Memory.wf ssubS.mem.mem = true ∧
      ringsFit ssubS ∧
      (Op.ssub = Op.sadd ∨ Op.ssub = Op.ssub → semRange (BitVec.toInt (ssubS.sem (addF.immF 0 16)).value + if Op.ssub = Op.sadd then (addF.immF 32 32).cast else if Op.ssub = Op.ssub then -(addF.immF 32 32).cast else 0) = true) ∧
      (addF.cs = true → semRange ((BitVec.toInt (ssubS.sem addF.csem.toNat).value + if addF.csem.toNat = addF.immF 0 16 then if Op.ssub = Op.sadd then (addF.immF 32 32).cast else if Op.ssub = Op.ssub then -(addF.immF 32 32).cast else 0 else 0) + 1) = true) ∧
      (Op.ssub = Op.ssig → ssubS.destOk (ssubS.partOf tus.val) (BitVec.ofNat 20 (addF.immF 16 20)) = true ∧
      ∃ pl ds, ssubS.nextHop (ssubS.rankEnt (ssubS.partOf tus.val) (epRank (BitVec.ofNat 20 (addF.immF 16 20)))).coord (ssubS.dirsTo (ssubS.part (ssubS.partOf tus.val)).plan (ssubS.rankEnt (ssubS.partOf tus.val) (epRank (BitVec.ofNat 20 (addF.immF 16 20)))).coord) = some (pl, ds) ∧
      lanesWhole ssubS pl ds) ∧ isNext (exec (issueOf Op.ssub tus addF) ssubS) = true) ∧
    ((Op.ssig ∈ [Op.swait, Op.swatch, Op.sadd, Op.ssub, Op.ssig]) ∧ mayIssueAny Op.ssig tus ssigF ssigS pTus ∧ Memory.wf ssigS.mem.mem = true ∧
      ringsFit ssigS ∧
      (Op.ssig = Op.sadd ∨ Op.ssig = Op.ssub → semRange (BitVec.toInt (ssigS.sem (ssigF.immF 0 16)).value + if Op.ssig = Op.sadd then (ssigF.immF 32 32).cast else if Op.ssig = Op.ssub then -(ssigF.immF 32 32).cast else 0) = true) ∧
      (ssigF.cs = true → semRange ((BitVec.toInt (ssigS.sem ssigF.csem.toNat).value + if ssigF.csem.toNat = ssigF.immF 0 16 then if Op.ssig = Op.sadd then (ssigF.immF 32 32).cast else if Op.ssig = Op.ssub then -(ssigF.immF 32 32).cast else 0 else 0) + 1) = true) ∧
      (Op.ssig = Op.ssig → ssigS.destOk (ssigS.partOf tus.val) (BitVec.ofNat 20 (ssigF.immF 16 20)) = true ∧
      ∃ pl ds, ssigS.nextHop (ssigS.rankEnt (ssigS.partOf tus.val) (epRank (BitVec.ofNat 20 (ssigF.immF 16 20)))).coord (ssigS.dirsTo (ssigS.part (ssigS.partOf tus.val)).plan (ssigS.rankEnt (ssigS.partOf tus.val) (epRank (BitVec.ofNat 20 (ssigF.immF 16 20)))).coord) = some (pl, ds) ∧
      lanesWhole ssigS pl ds) ∧ isNext (exec (issueOf Op.ssig tus ssigF) ssigS) = true) :=
  by and_intros <;> first | decide +kernel | exact noneRetired_of (by decide +kernel) | (intro h; cases h; done) | exact fun _ => ⟨by decide +kernel, 0, 1, by decide +kernel, by decide +kernel⟩

theorem test_met_WritersLaunch :
    (mayRun Op.move clv moveF moveS pClv) ∧
    (mayRun Op.gather clv rowsF gatherS pClv) ∧
    (mayRun Op.scatter clv scatterF scatterS pClv) ∧
    (mayRun Op.dispatch clv dispatchF dispatchS pClv) ∧
    (mayRun Op.epi tus epiF epiS pTus) ∧
    (mayRun Op.vop sdg vopF vopS pSdg) ∧
    (mayRun Op.vred sdg moveF vredS pSdg) ∧
    (mayRun Op.vrng sdg vrngF vrngS pSdg) ∧
    (mayRun Op.vcvt sdg moveF vcvtS pSdg) :=
  by and_intros <;> decide +kernel

theorem test_met_MatrixCompletes :
    (mayRun Op.mma tus mmaF mmaS pTus ∧ (¬((mmaS.eng tus.val).spillDue mmaF = true ∧ (mmaS.eng tus.val).ckptBusy = true))) ∧
    (mayRun Op.mma tus fastF fastDueS pTus2 ∧ (¬((fastDueS.eng tus.val).spillDue fastF = true ∧ (fastDueS.eng tus.val).ckptBusy = true))) ∧
    (mayRun Op.mma tus fastF fastBusyS pTus2 ∧ (fastBusyS.eng tus.val).spillDue fastF = true ∧ (fastBusyS.eng tus.val).ckptBusy = true) ∧
    (mayRun Op.mmax tus mmaxF mmaxS pTus) ∧
    (mayRun Op.accsp tus accspF accspS pTus) ∧
    (mayRun Op.accrs tus accrsF accrsS pTus ∧ (¬((accrsS.eng tus.val).accrsSpills accrsF = true ∧ (accrsS.eng tus.val).ckptBusy = true))) ∧
    (mayRun Op.accrs tus accrsF accrsDueS pTus2 ∧ (¬((accrsDueS.eng tus.val).accrsSpills accrsF = true ∧ (accrsDueS.eng tus.val).ckptBusy = true))) ∧
    (mayRun Op.accrs tus accrsF accrsBusyS pTus2 ∧ (accrsBusyS.eng tus.val).accrsSpills accrsF = true ∧ (accrsBusyS.eng tus.val).ckptBusy = true) ∧
    (mayRun Op.acccb tus acccbF acccbS pTus) :=
  by and_intros <;> decide +kernel

theorem test_met_SumsAndRandomWords :
    (mayRun Op.mma tus mmaF mmaS pTus ∧ mmaF.modF 0 2 = 2 ∧ ((mmaS.eng tus.val).tens mmaF.s1).dim0 = 32 ∧
      ((mmaS.eng tus.val).tens mmaF.s2).dim0 = 32 ∧ (mmaS.eng tus.val).zeroing mmaF = true) ∧
    (mayRun Op.vrng sdg vrngF vrngS pSdg ∧ vrngF.mod = 0) :=
  by and_intros <;> decide +kernel

theorem test_met_ComputeFrame :
    ((Op.move ∈ [Op.move, Op.gather, Op.scatter, Op.dispatch, Op.mma, Op.mmax, Op.accsp, Op.accrs, Op.acccb, Op.epi, Op.vop, Op.vred, Op.vrng, Op.vcvt, Op.upd]) ∧
      mayRun Op.move clv moveF moveS pClv ∧ Memory.wf moveS.mem.mem = true ∧ ringsFit moveS ∧ coherent moveS ∧
      (moveS.partCnt = 1 ∨ moveS.partCnt = 2 ∨ moveS.partCnt = 4) ∧
      (∀ (r : Tens), r ∈ srcsOf moveS clv.val Op.move moveF → r.host = false → ∀ (ab : Nat × Nat), ab ∈ r.runs → inPart moveS.partCnt (moveS.partOf clv.val) ab.fst ab.snd = true) ∧
      isNext (exec (issueOf Op.move clv moveF) moveS) = true) ∧
    ((Op.gather ∈ [Op.move, Op.gather, Op.scatter, Op.dispatch, Op.mma, Op.mmax, Op.accsp, Op.accrs, Op.acccb, Op.epi, Op.vop, Op.vred, Op.vrng, Op.vcvt, Op.upd]) ∧
      mayRun Op.gather clv rowsF gatherS pClv ∧ Memory.wf gatherS.mem.mem = true ∧ ringsFit gatherS ∧ coherent gatherS ∧
      (gatherS.partCnt = 1 ∨ gatherS.partCnt = 2 ∨ gatherS.partCnt = 4) ∧
      (∀ (r : Tens), r ∈ srcsOf gatherS clv.val Op.gather rowsF → r.host = false → ∀ (ab : Nat × Nat), ab ∈ r.runs → inPart gatherS.partCnt (gatherS.partOf clv.val) ab.fst ab.snd = true) ∧
      isNext (exec (issueOf Op.gather clv rowsF) gatherS) = true) ∧
    ((Op.scatter ∈ [Op.move, Op.gather, Op.scatter, Op.dispatch, Op.mma, Op.mmax, Op.accsp, Op.accrs, Op.acccb, Op.epi, Op.vop, Op.vred, Op.vrng, Op.vcvt, Op.upd]) ∧
      mayRun Op.scatter clv scatterF scatterS pClv ∧ Memory.wf scatterS.mem.mem = true ∧ ringsFit scatterS ∧ coherent scatterS ∧
      (scatterS.partCnt = 1 ∨ scatterS.partCnt = 2 ∨ scatterS.partCnt = 4) ∧
      (∀ (r : Tens), r ∈ srcsOf scatterS clv.val Op.scatter scatterF → r.host = false → ∀ (ab : Nat × Nat), ab ∈ r.runs → inPart scatterS.partCnt (scatterS.partOf clv.val) ab.fst ab.snd = true) ∧
      isNext (exec (issueOf Op.scatter clv scatterF) scatterS) = true) ∧
    ((Op.dispatch ∈ [Op.move, Op.gather, Op.scatter, Op.dispatch, Op.mma, Op.mmax, Op.accsp, Op.accrs, Op.acccb, Op.epi, Op.vop, Op.vred, Op.vrng, Op.vcvt, Op.upd]) ∧
      mayRun Op.dispatch clv dispatchF dispatchS pClv ∧ Memory.wf dispatchS.mem.mem = true ∧ ringsFit dispatchS ∧ coherent dispatchS ∧
      (dispatchS.partCnt = 1 ∨ dispatchS.partCnt = 2 ∨ dispatchS.partCnt = 4) ∧
      (∀ (r : Tens), r ∈ srcsOf dispatchS clv.val Op.dispatch dispatchF → r.host = false → ∀ (ab : Nat × Nat), ab ∈ r.runs → inPart dispatchS.partCnt (dispatchS.partOf clv.val) ab.fst ab.snd = true) ∧
      isNext (exec (issueOf Op.dispatch clv dispatchF) dispatchS) = true) ∧
    ((Op.mma ∈ [Op.move, Op.gather, Op.scatter, Op.dispatch, Op.mma, Op.mmax, Op.accsp, Op.accrs, Op.acccb, Op.epi, Op.vop, Op.vred, Op.vrng, Op.vcvt, Op.upd]) ∧
      mayRun Op.mma tus mmaF mmaS pTus ∧ Memory.wf mmaS.mem.mem = true ∧ ringsFit mmaS ∧ coherent mmaS ∧
      (mmaS.partCnt = 1 ∨ mmaS.partCnt = 2 ∨ mmaS.partCnt = 4) ∧
      (∀ (r : Tens), r ∈ srcsOf mmaS tus.val Op.mma mmaF → r.host = false → ∀ (ab : Nat × Nat), ab ∈ r.runs → inPart mmaS.partCnt (mmaS.partOf tus.val) ab.fst ab.snd = true) ∧
      isNext (exec (issueOf Op.mma tus mmaF) mmaS) = true) ∧
    ((Op.mmax ∈ [Op.move, Op.gather, Op.scatter, Op.dispatch, Op.mma, Op.mmax, Op.accsp, Op.accrs, Op.acccb, Op.epi, Op.vop, Op.vred, Op.vrng, Op.vcvt, Op.upd]) ∧
      mayRun Op.mmax tus mmaxF mmaxS pTus ∧ Memory.wf mmaxS.mem.mem = true ∧ ringsFit mmaxS ∧ coherent mmaxS ∧
      (mmaxS.partCnt = 1 ∨ mmaxS.partCnt = 2 ∨ mmaxS.partCnt = 4) ∧
      (∀ (r : Tens), r ∈ srcsOf mmaxS tus.val Op.mmax mmaxF → r.host = false → ∀ (ab : Nat × Nat), ab ∈ r.runs → inPart mmaxS.partCnt (mmaxS.partOf tus.val) ab.fst ab.snd = true) ∧
      isNext (exec (issueOf Op.mmax tus mmaxF) mmaxS) = true) ∧
    ((Op.accsp ∈ [Op.move, Op.gather, Op.scatter, Op.dispatch, Op.mma, Op.mmax, Op.accsp, Op.accrs, Op.acccb, Op.epi, Op.vop, Op.vred, Op.vrng, Op.vcvt, Op.upd]) ∧
      mayRun Op.accsp tus accspF accspS pTus ∧ Memory.wf accspS.mem.mem = true ∧ ringsFit accspS ∧ coherent accspS ∧
      (accspS.partCnt = 1 ∨ accspS.partCnt = 2 ∨ accspS.partCnt = 4) ∧
      (∀ (r : Tens), r ∈ srcsOf accspS tus.val Op.accsp accspF → r.host = false → ∀ (ab : Nat × Nat), ab ∈ r.runs → inPart accspS.partCnt (accspS.partOf tus.val) ab.fst ab.snd = true) ∧
      isNext (exec (issueOf Op.accsp tus accspF) accspS) = true) ∧
    ((Op.accrs ∈ [Op.move, Op.gather, Op.scatter, Op.dispatch, Op.mma, Op.mmax, Op.accsp, Op.accrs, Op.acccb, Op.epi, Op.vop, Op.vred, Op.vrng, Op.vcvt, Op.upd]) ∧
      mayRun Op.accrs tus accrsF accrsS pTus ∧ Memory.wf accrsS.mem.mem = true ∧ ringsFit accrsS ∧ coherent accrsS ∧
      (accrsS.partCnt = 1 ∨ accrsS.partCnt = 2 ∨ accrsS.partCnt = 4) ∧
      (∀ (r : Tens), r ∈ srcsOf accrsS tus.val Op.accrs accrsF → r.host = false → ∀ (ab : Nat × Nat), ab ∈ r.runs → inPart accrsS.partCnt (accrsS.partOf tus.val) ab.fst ab.snd = true) ∧
      isNext (exec (issueOf Op.accrs tus accrsF) accrsS) = true) ∧
    ((Op.acccb ∈ [Op.move, Op.gather, Op.scatter, Op.dispatch, Op.mma, Op.mmax, Op.accsp, Op.accrs, Op.acccb, Op.epi, Op.vop, Op.vred, Op.vrng, Op.vcvt, Op.upd]) ∧
      mayRun Op.acccb tus acccbF acccbS pTus ∧ Memory.wf acccbS.mem.mem = true ∧ ringsFit acccbS ∧ coherent acccbS ∧
      (acccbS.partCnt = 1 ∨ acccbS.partCnt = 2 ∨ acccbS.partCnt = 4) ∧
      (∀ (r : Tens), r ∈ srcsOf acccbS tus.val Op.acccb acccbF → r.host = false → ∀ (ab : Nat × Nat), ab ∈ r.runs → inPart acccbS.partCnt (acccbS.partOf tus.val) ab.fst ab.snd = true) ∧
      isNext (exec (issueOf Op.acccb tus acccbF) acccbS) = true) ∧
    ((Op.epi ∈ [Op.move, Op.gather, Op.scatter, Op.dispatch, Op.mma, Op.mmax, Op.accsp, Op.accrs, Op.acccb, Op.epi, Op.vop, Op.vred, Op.vrng, Op.vcvt, Op.upd]) ∧
      mayRun Op.epi tus epiF epiS pTus ∧ Memory.wf epiS.mem.mem = true ∧ ringsFit epiS ∧ coherent epiS ∧
      (epiS.partCnt = 1 ∨ epiS.partCnt = 2 ∨ epiS.partCnt = 4) ∧
      (∀ (r : Tens), r ∈ srcsOf epiS tus.val Op.epi epiF → r.host = false → ∀ (ab : Nat × Nat), ab ∈ r.runs → inPart epiS.partCnt (epiS.partOf tus.val) ab.fst ab.snd = true) ∧
      isNext (exec (issueOf Op.epi tus epiF) epiS) = true) ∧
    ((Op.vop ∈ [Op.move, Op.gather, Op.scatter, Op.dispatch, Op.mma, Op.mmax, Op.accsp, Op.accrs, Op.acccb, Op.epi, Op.vop, Op.vred, Op.vrng, Op.vcvt, Op.upd]) ∧
      mayRun Op.vop sdg vopF vopS pSdg ∧ Memory.wf vopS.mem.mem = true ∧ ringsFit vopS ∧ coherent vopS ∧
      (vopS.partCnt = 1 ∨ vopS.partCnt = 2 ∨ vopS.partCnt = 4) ∧
      (∀ (r : Tens), r ∈ srcsOf vopS sdg.val Op.vop vopF → r.host = false → ∀ (ab : Nat × Nat), ab ∈ r.runs → inPart vopS.partCnt (vopS.partOf sdg.val) ab.fst ab.snd = true) ∧
      isNext (exec (issueOf Op.vop sdg vopF) vopS) = true) ∧
    ((Op.vred ∈ [Op.move, Op.gather, Op.scatter, Op.dispatch, Op.mma, Op.mmax, Op.accsp, Op.accrs, Op.acccb, Op.epi, Op.vop, Op.vred, Op.vrng, Op.vcvt, Op.upd]) ∧
      mayRun Op.vred sdg moveF vredS pSdg ∧ Memory.wf vredS.mem.mem = true ∧ ringsFit vredS ∧ coherent vredS ∧
      (vredS.partCnt = 1 ∨ vredS.partCnt = 2 ∨ vredS.partCnt = 4) ∧
      (∀ (r : Tens), r ∈ srcsOf vredS sdg.val Op.vred moveF → r.host = false → ∀ (ab : Nat × Nat), ab ∈ r.runs → inPart vredS.partCnt (vredS.partOf sdg.val) ab.fst ab.snd = true) ∧
      isNext (exec (issueOf Op.vred sdg moveF) vredS) = true) ∧
    ((Op.vrng ∈ [Op.move, Op.gather, Op.scatter, Op.dispatch, Op.mma, Op.mmax, Op.accsp, Op.accrs, Op.acccb, Op.epi, Op.vop, Op.vred, Op.vrng, Op.vcvt, Op.upd]) ∧
      mayRun Op.vrng sdg vrngF vrngS pSdg ∧ Memory.wf vrngS.mem.mem = true ∧ ringsFit vrngS ∧ coherent vrngS ∧
      (vrngS.partCnt = 1 ∨ vrngS.partCnt = 2 ∨ vrngS.partCnt = 4) ∧
      (∀ (r : Tens), r ∈ srcsOf vrngS sdg.val Op.vrng vrngF → r.host = false → ∀ (ab : Nat × Nat), ab ∈ r.runs → inPart vrngS.partCnt (vrngS.partOf sdg.val) ab.fst ab.snd = true) ∧
      isNext (exec (issueOf Op.vrng sdg vrngF) vrngS) = true) ∧
    ((Op.vcvt ∈ [Op.move, Op.gather, Op.scatter, Op.dispatch, Op.mma, Op.mmax, Op.accsp, Op.accrs, Op.acccb, Op.epi, Op.vop, Op.vred, Op.vrng, Op.vcvt, Op.upd]) ∧
      mayRun Op.vcvt sdg moveF vcvtS pSdg ∧ Memory.wf vcvtS.mem.mem = true ∧ ringsFit vcvtS ∧ coherent vcvtS ∧
      (vcvtS.partCnt = 1 ∨ vcvtS.partCnt = 2 ∨ vcvtS.partCnt = 4) ∧
      (∀ (r : Tens), r ∈ srcsOf vcvtS sdg.val Op.vcvt moveF → r.host = false → ∀ (ab : Nat × Nat), ab ∈ r.runs → inPart vcvtS.partCnt (vcvtS.partOf sdg.val) ab.fst ab.snd = true) ∧
      isNext (exec (issueOf Op.vcvt sdg moveF) vcvtS) = true) ∧
    ((Op.upd ∈ [Op.move, Op.gather, Op.scatter, Op.dispatch, Op.mma, Op.mmax, Op.accsp, Op.accrs, Op.acccb, Op.epi, Op.vop, Op.vred, Op.vrng, Op.vcvt, Op.upd]) ∧
      mayRun Op.upd hmk updF updOneS pHmk ∧ Memory.wf updOneS.mem.mem = true ∧ ringsFit updOneS ∧ coherent updOneS ∧
      (updOneS.partCnt = 1 ∨ updOneS.partCnt = 2 ∨ updOneS.partCnt = 4) ∧
      (∀ (r : Tens), r ∈ srcsOf updOneS hmk.val Op.upd updF → r.host = false → ∀ (ab : Nat × Nat), ab ∈ r.runs → inPart updOneS.partCnt (updOneS.partOf hmk.val) ab.fst ab.snd = true) ∧
      isNext (exec (issueOf Op.upd hmk updF) updOneS) = true) :=
  by and_intros <;> first | decide +kernel | exact coherent_of (by decide +kernel)

theorem test_met_SsigSendsOrFaults :
    (mayIssue Op.ssig tus ssigF ssigBusyS pTus ∧
      ((ssigBusyS.eng tus.val).inflight ≠ [] ∨ (ssigBusyS.part (ssigBusyS.partOf tus.val)).injecting = true)) ∧
    (mayIssue Op.ssig tus ssigF ssigS pTus ∧ (ssigS.eng tus.val).inflight = [] ∧ (ssigS.part (ssigS.partOf tus.val)).injecting = false ∧
      ssigS.destOk (ssigS.partOf tus.val) (BitVec.ofNat 20 (ssigF.immF 16 20)) = true ∧
      (ssigS.peer (ssigS.partOf tus.val) (BitVec.ofNat 20 (ssigF.immF 16 20))).outstanding < 8192 ∧
      (ssigS.nextHop (ssigS.rankEnt (ssigS.partOf tus.val) (epRank (BitVec.ofNat 20 (ssigF.immF 16 20)))).coord (ssigS.dirsTo (ssigS.part (ssigS.partOf tus.val)).plan (ssigS.rankEnt (ssigS.partOf tus.val) (epRank (BitVec.ofNat 20 (ssigF.immF 16 20)))).coord) = some (0, 1)) ∧
      ssigS.pickLane (ssigS.part (ssigS.partOf tus.val)).plan 0 1 = Lane.direct 1 ∧
      (ssigF.cs = true → semRange (BitVec.toInt (ssigS.sem ssigF.csem.toNat).value + 1) = true)) ∧
    (mayIssue Op.ssig tus ssigF ssigBadS pTus ∧ (ssigBadS.eng tus.val).inflight = [] ∧ (ssigBadS.part (ssigBadS.partOf tus.val)).injecting = false ∧
      (ssigBadS.eng tus.val).rerunning = false ∧ (ssigBadS.eng tus.val).faultTicks = [] ∧
      ssigBadS.destOk (ssigBadS.partOf tus.val) (BitVec.ofNat 20 (ssigF.immF 16 20)) = false ∧ reloadable ssigBadS tus.val) :=
  by and_intros <;> first | decide +kernel | exact reloadable_of (by decide +kernel)

theorem test_met_PutSends :
    (mayIssue Op.put clv putF putBadS pClv ∧ putF.modF 3 4 = 0 ∧ putBadS.destOk (putBadS.partOf clv.val) (BitVec.ofNat 20 (putF.immF 0 20)) = false ∧
      (putBadS.eng clv.val).rerunning = false ∧ (putBadS.eng clv.val).faultTicks = [] ∧
      (∀ (i : InFlight) (r : List InFlight), (putBadS.eng clv.val).inflight = i :: r → i.chunks = []) ∧ reloadable putBadS clv.val) ∧
    (mayRun Op.put clv putF putS pClv ∧ lanesWhole putS 0 1 ∧ putF.modF 3 4 = 0 ∧
      putS.destOk (putS.partOf clv.val) (BitVec.ofNat 20 (putF.immF 0 20)) = true ∧
      (putS.nextHop (putS.rankEnt (putS.partOf clv.val) (epRank (BitVec.ofNat 20 (putF.immF 0 20)))).coord (putS.dirsTo (putS.part (putS.partOf clv.val)).plan (putS.rankEnt (putS.partOf clv.val) (epRank (BitVec.ofNat 20 (putF.immF 0 20)))).coord) = some (0, 1)) ∧
      (putS.peer (putS.partOf clv.val) (BitVec.ofNat 20 (putF.immF 0 20))).txWait = [] ∧
      (putS.peer (putS.partOf clv.val) (BitVec.ofNat 20 (putF.immF 0 20))).outstanding + (putPayloads pClv ((putS.eng clv.val).tens putF.s1) (putS.rdOf clv.val ((putS.eng clv.val).tens putF.s1)) ((putS.eng clv.val).ea ((putS.eng clv.val).aVal (specIdx putF.d % 16)))).snd.length ≤ 8192) ∧
    (mayRun Op.put clv putChainF putChainS pChain ∧ lanesWhole putChainS 0 1 ∧ putChainF.modF 3 4 ≠ 0 ∧
      List.find? (fun c => c.index.toNat == putChainF.immF 0 16) pChain.shape.chains = some chainE ∧ chainE.next ≠ 4294967295 ∧
      (putChainS.nextHop (BitVec.ofNat 17 (BitVec.toNat chainE.next)) (putChainS.dirsTo (putChainS.part (putChainS.partOf clv.val)).plan (BitVec.ofNat 17 (BitVec.toNat chainE.next))) = some (0, 1))) :=
  by and_intros <;> first | decide +kernel | exact noChunks_of (by decide +kernel) | exact reloadable_of (by decide +kernel)

theorem test_met_RringOpensInstance :
    (mayIssue Op.rring mere rringF rringFullS pRing2 ∧ (4 ≤ (rringFullS.eng mere.val).openInsts ∨ rringF.mod.getLsbD 0 = true ∧
      rringFullS.unwritten mere.val ((rringFullS.eng mere.val).tens rringF.s1).expRuns = true)) ∧
    (mayIssue Op.rring mere rringWaitF rringWaitS pRing2 ∧ (4 ≤ (rringWaitS.eng mere.val).openInsts ∨ rringWaitF.mod.getLsbD 0 = true ∧
      rringWaitS.unwritten mere.val ((rringWaitS.eng mere.val).tens rringWaitF.s1).expRuns = true)) ∧
    (mayIssue Op.rring mere rringF rringS2 pRing2 ∧ rringS2.rringFree mere.val rringF = true ∧
      rringS2.ringEnt (rringS2.partOf mere.val) (BitVec.ofNat 16 (rringF.immF 0 16)) = some ring2 ∧
      rringS2.ringUnfit (rringS2.partOf mere.val) (ringInst rringS2 mere.val rringF) ring2 = none ∧
      (rringS2.inst mere.val (BitVec.ofNat 16 (rringF.immF 0 16), rringF.mod.getLsbD 0, BitVec.ofNat 32 (rringF.immF 16 32)) = none) ∧ 2 ≤ ring2.l ∧
      ((rringS2.part (rringS2.partOf mere.val)).readyKept.contains (BitVec.ofNat 16 (rringF.immF 0 16), rringF.mod.getLsbD 0, BitVec.ofNat 32 (rringF.immF 16 32)) = false) ∧
      rringS2.destOk (rringS2.partOf mere.val) (BitVec.ofNat 20 (BitVec.toNat ring2.pred)) = true ∧
      (rringS2.nextHop (rringS2.rankEnt (rringS2.partOf mere.val) (epRank (BitVec.ofNat 20 (BitVec.toNat ring2.pred)))).coord (rringS2.dirsTo (rringS2.part (rringS2.partOf mere.val)).plan (rringS2.rankEnt (rringS2.partOf mere.val) (epRank (BitVec.ofNat 20 (BitVec.toNat ring2.pred)))).coord) = some (0, 1)) ∧
      lanesWhole rringS2 0 1) ∧
    (mayIssue Op.rring mere rringF rringS1 pRing1 ∧ rringS1.rringFree mere.val rringF = true ∧
      rringS1.ringEnt (rringS1.partOf mere.val) (BitVec.ofNat 16 (rringF.immF 0 16)) = some ring1 ∧
      rringS1.ringUnfit (rringS1.partOf mere.val) (ringInst rringS1 mere.val rringF) ring1 = none ∧
      (rringS1.inst mere.val (BitVec.ofNat 16 (rringF.immF 0 16), rringF.mod.getLsbD 0, BitVec.ofNat 32 (rringF.immF 16 32)) = none) ∧ ring1.l ≤ 1 ∧
      rringF.mod = 0 ∧ rringS1.ringPoison (ringInst rringS1 mere.val rringF) ((ringInst rringS1 mere.val rringF).firstBlocks ring1) = none) :=
  by and_intros <;> decide +kernel

theorem test_met_RnormSums :
    (mayIssue Op.rnorm mere rnormF rnormWaitS pRing1 ∧
      (rnormWaitS.unwritten mere.val (((rnormWaitS.eng mere.val).tens rnormF.s1).runs ++ ((rnormWaitS.eng mere.val).tens rnormF.d).runs) = true ∨ rnormF.immF 0 16 ≠ 65535 ∧
      rnormWaitS.reducing (rnormWaitS.partOf mere.val) = true)) ∧
    (mayRun Op.rnorm mere rnormF rnormS pRing1 ∧
      rnormS.unwritten mere.val (((rnormS.eng mere.val).tens rnormF.s1).runs ++ ((rnormS.eng mere.val).tens rnormF.d).runs) = false ∧
      (rnormF.immF 0 16 = 65535 ∨ rnormS.reducing (rnormS.partOf mere.val) = false) ∧ isRfx ((rnormS.eng mere.val).tens rnormF.s1).code = true) ∧
    (mayIssue Op.rnorm mere normF rnormOpenS pRoot ∧
      (rnormOpenS.unwritten mere.val (((rnormOpenS.eng mere.val).tens normF.s1).runs ++ ((rnormOpenS.eng mere.val).tens normF.d).runs) = true ∨ normF.immF 0 16 ≠ 65535 ∧
      rnormOpenS.reducing (rnormOpenS.partOf mere.val) = true)) ∧
    (mayRun Op.rnorm mere normF rebuildS pRoot ∧
      rebuildS.unwritten mere.val (((rebuildS.eng mere.val).tens normF.s1).runs ++ ((rebuildS.eng mere.val).tens normF.d).runs) = false ∧
      (normF.immF 0 16 = 65535 ∨ rebuildS.reducing (rebuildS.partOf mere.val) = false) ∧ isRfx ((rebuildS.eng mere.val).tens normF.s1).code = false ∧
      rebuildS.rebuilds (rebuildS.partOf mere.val) (rebuildS.eng mere.val).step = true ∧
      rebuildS.poisonOf mere.val ((rebuildS.eng mere.val).tens normF.d) = none) ∧
    (mayRun Op.rnorm mere normF rootS pRoot ∧
      rootS.unwritten mere.val (((rootS.eng mere.val).tens normF.s1).runs ++ ((rootS.eng mere.val).tens normF.d).runs) = false ∧
      (normF.immF 0 16 = 65535 ∨ rootS.reducing (rootS.partOf mere.val) = false) ∧ isRfx ((rootS.eng mere.val).tens normF.s1).code = false ∧
      rootS.rebuilds (rootS.partOf mere.val) (rootS.eng mere.val).step = false ∧
      rootS.treeEnt (rootS.partOf mere.val) (normF.immF 0 16) = some root1 ∧ root1.children = [] ∧ root1.pred = 4294967295) ∧
    (mayRun Op.rnorm mere normF nodeS pNode ∧
      nodeS.unwritten mere.val (((nodeS.eng mere.val).tens normF.s1).runs ++ ((nodeS.eng mere.val).tens normF.d).runs) = false ∧
      (normF.immF 0 16 = 65535 ∨ nodeS.reducing (nodeS.partOf mere.val) = false) ∧ isRfx ((nodeS.eng mere.val).tens normF.s1).code = false ∧
      nodeS.rebuilds (nodeS.partOf mere.val) (nodeS.eng mere.val).step = false ∧
      nodeS.treeEnt (nodeS.partOf mere.val) (normF.immF 0 16) = some node1 ∧ node1.children ≠ [] ∧
      (nodeS.normNode (nodeS.partOf mere.val) (normF.immF 0 16)).ups = []) ∧
    (mayRun Op.rnorm mere normF leafS pLeaf ∧
      leafS.unwritten mere.val (((leafS.eng mere.val).tens normF.s1).runs ++ ((leafS.eng mere.val).tens normF.d).runs) = false ∧
      (normF.immF 0 16 = 65535 ∨ leafS.reducing (leafS.partOf mere.val) = false) ∧ isRfx ((leafS.eng mere.val).tens normF.s1).code = false ∧
      leafS.rebuilds (leafS.partOf mere.val) (leafS.eng mere.val).step = false ∧
      leafS.treeEnt (leafS.partOf mere.val) (normF.immF 0 16) = some leaf1 ∧ leaf1.children = [] ∧ leaf1.pred ≠ 4294967295 ∧
      routed leafS (leafS.partOf mere.val) leaf1.pred) :=
  by and_intros <;> first | decide +kernel | exact ⟨0, 1, by decide +kernel, by decide +kernel⟩

theorem test_met_UpdatesAndWatches :
    (mayRun Op.upd hmk updF updEarlyS pMirror ∧
      (updEarlyS.mirrorStreamOpen (updEarlyS.partOf hmk.val) = true ∨ updEarlyS.mirrorEarly hmk.val updF = true)) ∧
    (mayRun Op.upd hmk updF updRecS pMirror ∧ updRecS.mirrorStreamOpen (updRecS.partOf hmk.val) = false ∧ updRecS.mirrorEarly hmk.val updF = false ∧
      pMirror.isMirror ((updRecS.eng hmk.val).tens updF.d).ea = true ∧
      (updRecS.eng hmk.val).mirrorRec.find ((updRecS.eng hmk.val).tens updF.d).ea = some (updRecS.eng hmk.val).step) ∧
    (mayRun Op.upd hmk updF updOneS pHmk ∧ updOneS.mirrorStreamOpen (updOneS.partOf hmk.val) = false ∧ updOneS.mirrorEarly hmk.val updF = false ∧
      pHmk.isMirror ((updOneS.eng hmk.val).tens updF.d).ea = false ∧
      (af40.read (((updOneS.eng hmk.val).tens (normSpec updF)).bits (updOneS.rdOf hmk.val ((updOneS.eng hmk.val).tens (normSpec updF))) 0 0 0)).finite = true) ∧
    (mayRun Op.upd hmk updF updInfS pHmk ∧ updInfS.mirrorStreamOpen (updInfS.partOf hmk.val) = false ∧ updInfS.mirrorEarly hmk.val updF = false ∧
      pHmk.isMirror ((updInfS.eng hmk.val).tens updF.d).ea = false ∧
      (af40.read (((updInfS.eng hmk.val).tens (normSpec updF)).bits (updInfS.rdOf hmk.val ((updInfS.eng hmk.val).tens (normSpec updF))) 0 0 0)).finite = false ∧
      pHmk.hostNumerics = false) ∧
    (mayRun Op.upd hmk updF updAskS pAsk ∧ updAskS.mirrorStreamOpen (updAskS.partOf hmk.val) = false ∧ updAskS.mirrorEarly hmk.val updF = false ∧
      pAsk.isMirror ((updAskS.eng hmk.val).tens updF.d).ea = false ∧
      (af40.read (((updAskS.eng hmk.val).tens (normSpec updF)).bits (updAskS.rdOf hmk.val ((updAskS.eng hmk.val).tens (normSpec updF))) 0 0 0)).finite = false ∧
      pAsk.hostNumerics = true ∧ (updAskS.part (updAskS.partOf hmk.val)).numAnswer = none) ∧
    (mayRun Op.nwatch sdg nwatchF nwatchS pSdg ∧ ((nwatchS.eng sdg.val).inflight.all fun i => i.opc != 96) = true) :=
  by and_intros <;> decide +kernel

theorem test_met_CommitWaits :
    (mayIssue Op.commit hmk commitF commitS pHmk ∧ (commitS.eng hmk.val).inflight = [] ∧ commitS.power.throttle = false ∧
      BitVec.toNat (commitS.part (commitS.partOf hmk.val)).epoch ≤ BitVec.toNat (commitS.eng hmk.val).step) ∧
    (mayIssue Op.commit hmk commitF commitOldS pHmk ∧ (commitOldS.eng hmk.val).inflight = [] ∧ commitOldS.power.throttle = false ∧
      BitVec.toNat (commitOldS.eng hmk.val).step < BitVec.toNat (commitOldS.part (commitOldS.partOf hmk.val)).epoch) ∧
    (mayIssue Op.commit hmk commitF commitThrS pHmk ∧ (commitThrS.power.throttle = true ∨ (commitThrS.eng hmk.val).inflight ≠ [])) ∧
    (mayIssue Op.commit hmk commitF commitBusyS pHmk ∧ (commitBusyS.power.throttle = true ∨ (commitBusyS.eng hmk.val).inflight ≠ [])) :=
  by and_intros <;> decide +kernel

theorem test_met_CompletionActs :
    (flightQS.ready tus.val = some flightQ ∧ flightQ.mirror = none ∧ noneRetired flightQS ∧ Memory.wf flightQS.mem.mem = true ∧ ringsFit flightQS ∧
      (flightQ.writes.all fun w => !w.host && w.hint != 1) = true) ∧
    (flightS.ready tus.val = some flightI ∧ (flightS.part (flightS.partOf tus.val)).runs = true ∧
      (flightS.part (flightS.partOf tus.val)).stopNow = false ∧ flightI.mirror = none ∧ (flightS.eng tus.val).waitCs = false ∧
      (flightI.cs = true → semRange (BitVec.toInt (flightS.sem flightI.csem.toNat).value + 1) = true)) ∧
    (flightQS.ready tus.val = some flightQ ∧ (flightQS.part (flightQS.partOf tus.val)).runs = true ∧
      (flightQS.part (flightQS.partOf tus.val)).stopNow = false ∧ flightQ.mirror = none ∧ (flightQS.eng tus.val).waitCs = false ∧
      (flightQ.cs = true → semRange (BitVec.toInt (flightQS.sem flightQ.csem.toNat).value + 1) = true)) :=
  by and_intros <;> first | decide +kernel | exact noneRetired_of (by decide +kernel)

theorem test_met_PausesAndLimits :
    ((waitS.eng tus.val).run = EngRun.waiting ∧ (waitS.part (waitS.partOf tus.val)).waitlim ≠ 0 ∧ (waitS.eng tus.val).waitLogged = false) ∧
    ((waitLoggedS.eng tus.val).run = EngRun.waiting ∧ (waitLoggedS.part (waitLoggedS.partOf tus.val)).waitlim ≠ 0 ∧
      (waitLoggedS.eng tus.val).waitLogged = true) :=
  by and_intros <;> decide +kernel

theorem test_met_BlockFaultReruns :
    ((opMove ∈ [Op.move, Op.gather, Op.scatter, Op.dispatch, Op.mmax, Op.accsp, Op.acccb, Op.epi, Op.vop, Op.vred, Op.vrng, Op.vcvt]) ∧
      mayIssue opMove clv moveF movePoisonS pClv ∧ (movePoisonS.eng clv.val).rerunning = false ∧ (movePoisonS.eng clv.val).faultTicks = [] ∧
      (movePoisonS.eng clv.val).barrierEntry = none ∧
      (∀ (i : InFlight) (r : List InFlight), (movePoisonS.eng clv.val).inflight = i :: r → i.chunks = []) ∧ reloadable movePoisonS clv.val ∧
      (((srcsOf movePoisonS clv.val opMove moveF ++ dstsOf movePoisonS clv.val opMove moveF).any fun t => t.host) = false ∨ movePoisonS.host.linkUp = true) ∧
      ((srcsOf movePoisonS clv.val opMove moveF ++ dstsOf movePoisonS clv.val opMove moveF).all pClv.tensOk = false ∨ ((srcsOf movePoisonS clv.val opMove moveF).any fun t => (movePoisonS.poisonOf clv.val t).isSome) = true)) ∧
    ((opEpi ∈ [Op.move, Op.gather, Op.scatter, Op.dispatch, Op.mmax, Op.accsp, Op.acccb, Op.epi, Op.vop, Op.vred, Op.vrng, Op.vcvt]) ∧
      mayIssue opEpi tus epiF epiRangeS pTus ∧ (epiRangeS.eng tus.val).rerunning = false ∧ (epiRangeS.eng tus.val).faultTicks = [] ∧
      (epiRangeS.eng tus.val).barrierEntry = none ∧
      (∀ (i : InFlight) (r : List InFlight), (epiRangeS.eng tus.val).inflight = i :: r → i.chunks = []) ∧ reloadable epiRangeS tus.val ∧
      (((srcsOf epiRangeS tus.val opEpi epiF ++ dstsOf epiRangeS tus.val opEpi epiF).any fun t => t.host) = false ∨ epiRangeS.host.linkUp = true) ∧
      ((srcsOf epiRangeS tus.val opEpi epiF ++ dstsOf epiRangeS tus.val opEpi epiF).all pTus.tensOk = false ∨ ((srcsOf epiRangeS tus.val opEpi epiF).any fun t => (epiRangeS.poisonOf tus.val t).isSome) = true)) ∧
    ((flightS.part (flightS.partOf tus.val)).runs = true ∧ (flightS.eng tus.val).faultable = true ∧ (cause1 = 1 ∨ cause1 = 2 ∨ cause1 = 3) ∧
      (kindOf tus.val).code ≠ 3 ∧ (flightS.eng tus.val).rerunning = false ∧ (flightS.eng tus.val).faultTicks = [] ∧
      (flightS.eng tus.val).barrierEntry = none ∧ (∀ (i : InFlight) (r : List InFlight), (flightS.eng tus.val).inflight = i :: r → i.chunks = []) ∧
      reloadable flightS tus.val ∧ (cause1 = 3 → inPart flightS.partCnt (flightS.partOf tus.val) (BitVec.toNat addr0) 1 = true) ∧
      Memory.wf flightS.mem.mem = true ∧ ringsFit flightS) :=
  by and_intros <;> first | decide +kernel | exact noChunks_of (by decide +kernel) | exact reloadable_of (by decide +kernel)

theorem test_met_CarveoutTransparent :
    (Memory.wf carveS.mem.mem = true ∧ coherent carveS ∧ (carveS.partCnt = 1 ∨ carveS.partCnt = 2 ∨ carveS.partCnt = 4) ∧ 0 < carveS.partCnt ∧
      dramLo carveS.partCnt 0 ≤ 16638 ∧ 16638 + bytes3.length ≤ dramLo carveS.partCnt (0 + 1)) ∧
    (Memory.wf carveS.mem.mem = true ∧ coherent carveS ∧ (carveS.partCnt = 1 ∨ carveS.partCnt = 2 ∨ carveS.partCnt = 4) ∧ 0 < carveS.partCnt ∧
      dramLo carveS.partCnt 0 ≤ 16894 ∧ 16894 + bytes3.length ≤ dramLo carveS.partCnt (0 + 1)) ∧
    (Memory.wf carveS.mem.mem = true ∧ coherent carveS ∧ (carveS.partCnt = 1 ∨ carveS.partCnt = 2 ∨ carveS.partCnt = 4) ∧ 0 < carveS.partCnt ∧
      dramLo carveS.partCnt 0 ≤ 16384 ∧ 16384 + 769 ≤ dramLo carveS.partCnt (0 + 1)) :=
  by and_intros <;> first | decide +kernel | exact coherent_of (by decide +kernel)

theorem test_met_SignalsAndRebase :
    ((sigS.part q0.val).barStage = 0 ∧ (sigS.part q0.val).arrived = false ∧
      List.find? (fun h => h.sender == ep4 && h.seq == seq0 && !h.deferred) (sigS.part q0.val).heldQ = some heldNow ∧
      (sigS.peer q0.val ep4).allBelow seq0 = true ∧ heldNow.epochBits.toNat = BitVec.toNat (sigS.part q0.val).epoch % 4 ∧
      sigS.remoteOk q0.val heldNow.sem.toNat = true ∧ semRange (BitVec.toInt (sigS.sem heldNow.sem.toNat).value + heldNow.n.toNat.cast) = true) ∧
    ((sigNextS.part q0.val).barStage = 0 ∧ (sigNextS.part q0.val).arrived = false ∧
      List.find? (fun h => h.sender == ep4 && h.seq == seq0 && !h.deferred) (sigNextS.part q0.val).heldQ = some Test.heldNext ∧
      (sigNextS.peer q0.val ep4).allBelow seq0 = true ∧ Test.heldNext.epochBits.toNat = (BitVec.toNat (sigNextS.part q0.val).epoch % 4 + 1) % 4) ∧
    ((sigLateS.part q0.val).barStage = 0 ∧ (sigLateS.part q0.val).arrived = false ∧
      List.find? (fun h => h.sender == ep4 && h.seq == seq1 && !h.deferred) (sigLateS.part q0.val).heldQ = some heldLate ∧
      (sigLateS.peer q0.val ep4).allBelow seq1 = false) :=
  by and_intros <;> decide +kernel

theorem test_met_BarrierCommits :
    ((arriveS.part q0.val).plan = some pBar ∧ (arriveS.part q0.val).runs = true ∧ (arriveS.part q0.val).arrived = false ∧
      (pBar.hummocks.all fun e => (arriveS.eng e).barrierEntry.isSome) = true ∧ arriveS.sigsApplied q0.val = true ∧ pBar.barrier = some barNode ∧
      arriveS.barSem q0.val < barNode.children.length.cast) ∧
    ((doneS.part q0.val).plan = some pBar ∧ (doneS.part q0.val).arrived = true ∧ (doneS.part q0.val).barStage = 5 ∧
      ((doneS.part q0.val).barPeerSeq.all fun x => serialLe x.snd (doneS.peer q0.val x.fst).txAcked) = true ∧
      ((doneS.commitsDone q0.val).mismatches q0.val = []) ∧ noneRetired doneS ∧
      (∀ (e : Nat) (i : InFlight) (r : List InFlight), (doneS.eng e).inflight = i :: r → i.mirror = none)) :=
  by and_intros <;> first | decide +kernel | exact noneRetired_of (by decide +kernel) | exact noMirror_of (by decide +kernel)

theorem test_met_ErrorsAreCounted :
    (nopS.boot.quar = false) ∧
    (nopS.boot.quar = false ∧ words1 ≠ []) ∧
    ((hitD.all fun h => h.uncorrectable && isDram (BitVec.toNat h.addr)) = true ∧ ringsFit nopS ∧ Memory.wf nopS.mem.mem = true) ∧
    ((hitP.all fun h => h.uncorrectable && isPeat (BitVec.toNat h.addr)) = true ∧ ringsFit nopS ∧ Memory.wf nopS.mem.mem = true) ∧
    (ceD.uncorrectable = false ∧ nopS.seenBefore (granule (BitVec.toNat ceD.addr)) (BitVec.toNat ceD.bit) = false ∧
      isDram (BitVec.toNat ceD.addr) = true) ∧
    (ceP.uncorrectable = false ∧ nopS.seenBefore (granule (BitVec.toNat ceP.addr)) (BitVec.toNat ceP.bit) = false ∧
      isPeat (BitVec.toNat ceP.addr) = true) ∧
    (copyS.mem.copies = copyJob :: noJobs) :=
  by and_intros <;> decide +kernel

theorem test_met_FramesMove :
    ((laneS.rx port0.val col1.val).hears = true ∧ (decodeFrame idleCw = some (idleWire, n0)) ∧ idleWire.nak = false ∧ idleWire.idle = true) ∧
    ((laneS.rx port0.val col1.val).hears = true ∧ (decodeFrame dataCw = some (dataWire, n0)) ∧ dataWire.nak = false ∧ dataWire.idle = false ∧
      dataWire.fsn = (laneS.rx port0.val col1.val).expect ∧ (laneS.rx port0.val col1.val).asm = [] ∧ (laneS.rx port0.val col1.val).restart = none ∧
      315 ≤ dataWire.first.toNat) ∧
    ((laneS.rx port0.val col1.val).hears = true ∧ decodeFrame badCw = none ∧ (laneS.rx port0.val col1.val).uncTicks.length < 1000) ∧
    ((laneS.rx port0.val col1.val).st = RxSt.up ∧ blk0.state = 0 ∧ blk0.rptOma ≠ noSignal) ∧
    ((laneS.rx port0.val col1.val).st = RxSt.up ∧ blk1.state = 1) ∧
    ((laneS.rx port0.val col1.val).st = RxSt.up ∧ blk2.state = 2) ∧
    ((ackS.tx port0.val col1.val).unacked = frame0 :: lastFrame ∧ (ackS.tx port0.val col1.val).flows = true ∧
      ((frame0 :: lastFrame).all fun f => decide (Tab.get 0 (ackS.tx port0.val col1.val).resends f.fsn.toNat < 16)) = true ∧
      (List.map (fun f => f.fsn) (frame0 :: lastFrame)).Nodup) ∧
    ((busyS.tx port0.val col1.val).unacked = [frame0] ∧ (busyS.tx port0.val col1.val).pausedBusy = some 0) :=
  by and_intros <;> decide +kernel

theorem test_met_LanesTrainAndFall :
    ((trainS.island (port0.val / 4)).blocks = false ∧ (trainS.rx port0.val col1.val).st = RxSt.training) ∧
    ((trainS.island (port0.val / 4)).blocks = false ∧ (trainS.tx port0.val col1.val).st = TxSt.training ∧
      (trainS.tx port0.val col1.val).unacked = [] ∧ (trainS.tx port0.val col1.val).queue = [] ∧ trainS.router.relayq = []) ∧
    ((trainS.island (port0.val / 4)).blocks = false ∧ (trainS.rx port0.val col1.val).st = RxSt.training ∧
      (trainS.rx port0.val col1.val).hostTry = false ∧ (trainS.recent (trainS.rx port0.val col1.val).retrains).length < 2 ∧
      (trainS.rx port0.val col1.val).declining = false) ∧
    ((trainHostS.island (port0.val / 4)).blocks = false ∧ (trainHostS.rx port0.val col1.val).st = RxSt.training ∧
      (trainHostS.rx port0.val col1.val).hostTry = true) ∧
    ((laneS.rx port0.val col1.val).st = RxSt.up ∧ (laneS.rx port0.val col1.val).noticeUntil ≤ laneS.now ∧
      (laneS.recent (laneS.rx port0.val col1.val).retrains).length < 2) ∧
    ((lowS.tx port0.val col1.val).st = TxSt.up ∧ (lowS.tx port0.val col1.val).margin ≠ noSignal ∧ (lowS.tx port0.val col1.val).margin.toInt < -100 ∧
      lowS.switchable (port0.val / 4) = false ∧ lowS.hostMode 2 = false ∧ (lowS.tx port0.val col1.val).held = [] ∧
      (lowS.tx port0.val col1.val).waitq = []) ∧
    (laneDS.awaiting (Proposal.lane port0.val col1.val Dir.rx) = some laneD ∧ (laneDS.rx port0.val col1.val).st ≠ RxSt.retired) :=
  by and_intros <;> decide +kernel

theorem test_met_HeatHoldsLines :
    (10000 ≤ 10000) ∧
    (10000 < 10001 ∧ (laneS.rx port0.val col1.val).locked = true) ∧
    ((unlockS.rx port0.val col1.val).locked = false) ∧
    ((unlockS.rx port0.val col1.val).locked = false ∧ (unlockS.rx port0.val col1.val).relocks < 2) ∧
    ((unlock2S.rx port0.val col1.val).locked = false ∧ (unlock2S.rx port0.val col1.val).relocks = 2 ∧ unlock2S.hostMode 2 = false) ∧
    (inBand tHot = false ∧ (laneS.island phot0.val).stopped = false ∧ (laneS.island phot0.val).lost = false) ∧
    (inBand tWarm = false ∧ (laneS.island phot0.val).stopped = false ∧ (laneS.island phot0.val).lost = false) ∧
    (inBand tGood = true ∧ (laneS.island phot0.val).stopped = false) ∧
    ((laneS.island phot0.val).lost = false) :=
  by and_intros <;> decide +kernel

theorem test_met_CombsServe :
    ((combS.comb comb0.val).st = CombSt.service ∧ (combS.comb comb0.val).switching = false ∧ (combS.worstLane (comb0.val / 2) = some (0, 1))) ∧
    ((combS.comb comb0.val).st = CombSt.service) ∧
    ((combS.comb comb1.val).st = CombSt.warm) ∧
    (combS.pendingComb phot0.val = some 0 ∧ (combS.comb 0).approved = true ∧ combS.windowOpen phot0.val = true ∧
      (combS.island phot0.val).blocks = false) ∧
    (combS.pendingComb phot0.val = some 0 ∧ (combS.island phot0.val).blocks = false) ∧
    ((List.find? (fun i => (switchS.comb i).switching) [2 * phot0.val, 2 * phot0.val + 1] = some 0) ∧ (switchS.comb 0).st = CombSt.service) :=
  by and_intros <;> decide +kernel

theorem test_met_WritesCommit :
    (writeK.typ = 0 ∧ endsHere jobTusS writeK ∧ taken jobTusS 0 pTus writeK ∧ Memory.wf jobTusS.mem.mem = true ∧ coherent jobTusS ∧
      pTus.remoteOk (BitVec.toNat writeK.addr) (arrivalBytes writeK.wfmt.toNat writeK.payload).length = true) ∧
    (writeBadK.typ = 0 ∧ endsHere jobTusS writeBadK ∧ taken jobTusS 0 pTus writeBadK ∧ Memory.wf jobTusS.mem.mem = true ∧ coherent jobTusS ∧
      pTus.remoteOk (BitVec.toNat writeBadK.addr) (arrivalBytes writeBadK.wfmt.toNat writeBadK.payload).length = false ∧
      jobTusS.mirrorOk 0 pTus writeBadK (arrivalBytes writeBadK.wfmt.toNat writeBadK.payload).length = false ∧ (jobTusS.part 0).started = true ∧
      noneRetired jobTusS ∧ ringsFit jobTusS) ∧
    (mcastK.typ = 1 ∧ endsHere chainS mcastK ∧ taken chainS 0 pChainM mcastK ∧ Memory.wf chainS.mem.mem = true ∧ coherent chainS ∧ ringsFit chainS ∧
      noneRetired chainS ∧ List.find? (fun e => e.index == mcastK.chain) pChainM.shape.chains = some chainM ∧ chainM.member = true ∧
      chainM.next = 4294967295 ∧ pChainM.remoteOk (BitVec.toNat mcastK.addr) (arrivalBytes mcastK.wfmt.toNat mcastK.payload).length = true ∧
      (BitVec.toNat word1 ≤ Tab.get 0 (chainS.part 0).arrivals (BitVec.toNat word1 * 65536 + chainM.index.toNat) + 1 → chainS.remoteOk 0 chainM.sem.toNat = true ∧
      semRange (BitVec.toInt (chainS.sem chainM.sem.toNat).value + 1) = true)) ∧
    (mcastK.typ = 1 ∧ endsHere chainS mcastK ∧ taken chainS 0 pChainM mcastK ∧ Memory.wf chainS.mem.mem = true ∧ coherent chainS ∧ ringsFit chainS ∧
      noneRetired chainS ∧ List.find? (fun e => e.index == mcastK.chain) pChainM.shape.chains = some chainM ∧ chainM.member = true ∧
      chainM.next = 4294967295 ∧ pChainM.remoteOk (BitVec.toNat mcastK.addr) (arrivalBytes mcastK.wfmt.toNat mcastK.payload).length = true ∧
      (BitVec.toNat two32 ≤ Tab.get 0 (chainS.part 0).arrivals (BitVec.toNat word1 * 65536 + chainM.index.toNat) + 1 → chainS.remoteOk 0 chainM.sem.toNat = true ∧
      semRange (BitVec.toInt (chainS.sem chainM.sem.toNat).value + 1) = true)) :=
  by and_intros <;> first | decide +kernel | exact coherent_of (by decide +kernel) | exact noneRetired_of (by decide +kernel)

theorem test_met_SignalAddsInOrder :
    (sigK.typ = 2 ∧ endsHere sigDupS sigK ∧ taken sigDupS 0 pTus sigK ∧ (sigDupS.part 0).barStage = 0 ∧ (sigDupS.part 0).arrived = false ∧
      (sigDupS.peer 0 sigK.src).has sigK.pseq = true) ∧
    (sigK.typ = 2 ∧ endsHere jobTusS sigK ∧ taken jobTusS 0 pTus sigK ∧ (jobTusS.part 0).barStage = 0 ∧ (jobTusS.part 0).arrived = false ∧
      (jobTusS.peer 0 sigK.src).has sigK.pseq = false ∧ ((jobTusS.part 0).heldQ.any fun y => y.sender == sigK.src && y.seq == sigK.pseq) = false ∧
      (jobTusS.peer 0 sigK.src).allBelow sigK.pseq = true ∧ (sigOf sigK).epochBits.toNat = BitVec.toNat (jobTusS.part 0).epoch % 4 ∧
      jobTusS.remoteOk 0 (sigOf sigK).sem.toNat = true ∧
      semRange (BitVec.toInt (jobTusS.sem (sigOf sigK).sem.toNat).value + (sigOf sigK).n.toNat.cast) = true) ∧
    (sigLateK.typ = 2 ∧ endsHere jobTusS sigLateK ∧ taken jobTusS 0 pTus sigLateK ∧ (jobTusS.part 0).barStage = 0 ∧ (jobTusS.part 0).arrived = false ∧
      (jobTusS.peer 0 sigLateK.src).has sigLateK.pseq = false ∧
      ((jobTusS.part 0).heldQ.any fun y => y.sender == sigLateK.src && y.seq == sigLateK.pseq) = false ∧
      (jobTusS.peer 0 sigLateK.src).allBelow sigLateK.pseq = false ∧ (jobTusS.part 0).heldQ.length < heldCap jobTusS.partCnt) :=
  by and_intros <;> decide +kernel

theorem test_met_WindowsAndCredits :
    (packK.typ = 3 ∧ endsHere packS packK ∧ taken packS 0 pTus packK ∧ packK.packv = true ∧
      serialLe (packS.peer 0 packK.src).txAcked packK.pack = true ∧ serialLe packK.pack ((packS.peer 0 packK.src).txNext - 1) = true) ∧
    (linkK.typ = 6 ∧ linkK.crcOk = true ∧ linkK.malformed = false ∧ linkK.len = 0 ∧ fld linkK.chain.toNat 5 5 < 20 ∧ 2 < 12 ∧
      (jobTusS.tx (fld linkK.chain.toNat 0 5) (fld linkK.chain.toNat 5 5)).waitq = []) ∧
    ((ackDirtyS.peer q0.val ep4).ackDirty = true ∧ ackDirtyS.destOk q0.val ep4 = true) :=
  by and_intros <;> decide +kernel

theorem test_met_RelaysAndReports :
    (relayK.crcOk = true ∧ relayK.len.toNat ≤ 4096 ∧ relayK.malformed = false ∧ relayK.coord = false ∧ relayK.hops.toNat ≤ 60 ∧ relayK.typ ≠ 5 ∧
      relayK.typ ≠ 6 ∧ relayK.dcoord ≠ jobTusS.coord ∧ ((jobTusS.port port0.val).slots.contains (col1.val, relayK) = false) ∧
      (jobTusS.nextHop relayK.dcoord relayK.dirs = some (0, 1)) ∧ lanesWhole jobTusS 0 1) ∧
    ((∀ (j : Nat), j ∈ jobTusS.mates → j ≤ 15 → jobTusS.litPorts 0 (txColour jobTusS.slot j) = [] ∨ lanesWhole jobTusS 0 j)) ∧
    (detourS.boot.quar = false ∧ (detourS.router.relayq.any fun w => w.plane == plane0 && w.slot.toNat == slot1.val) = true) :=
  by and_intros <;> decide +kernel

theorem test_met_RingBlocksAgree :
    (downK.payload.length = 2 ∧ 2 ≤ ring2.l ∧ atInstance ringES 0 164 instE ring2 downK false ∧ ringTaken ringES 0 pRingE downK 1 ∧
      (ring2.pos + 1) % ring2.l = ringBlock downK % ring2.l) ∧
    (upK.payload.length = 2 ∧ 2 ≤ ring2.l ∧ atInstance ringES 0 164 instE ring2 upK false ∧ ringTaken ringES 0 pRingE upK 0 ∧
      ring2.pos = ringBlock upK % ring2.l ∧ ringES.ringPoison instE [ringBlock upK] = none ∧ routed ringES 0 ring2.succ) ∧
    (atInstance ringRS 0 164 instR ring2 sumK true ∧ ringTaken ringRS 0 pRingE sumK 2 ∧ 2 ≤ ring2.l ∧
      ringRS.ringPoison instR [ringBlock sumK] = none ∧ instR.heldQueued = [] ∧ ringRS.twinOff 0 = true ∧
      sumK.payload.length = 32 * fmtBits instR.s1.code + 224 ∧ Tab.get false instR.added (ringBlock sumK) = false ∧
      roleOf ring2.l ring2.pos (segOf instR.nblk ring2.l (ringBlock sumK - BitVec.toNat instR.first)) = ring2.l - 1 ∧
      (bodyBlock (fmtBits instR.s1.code) 1 sumK.payload 0).snd = true) ∧
    (atInstance ringRS 0 164 instR ring2 hackK true ∧ ringTaken ringRS 0 pRingE hackK 4) :=
  by and_intros <;> first | decide +kernel | exact ⟨0, 1, by decide +kernel, by decide +kernel⟩

theorem test_met_HeldAndEarlyPackets :
    (ringTaken idleRingS 0 pRingE heldK 3 ∧ idleRingS.ringEnt 0 (ringOf heldK) = some ring2 ∧ (heldForm heldK.payload.length = some (w24, 1)) ∧
      (idleRingS.part 0).heldAttempt = [] ∧ Memory.wf idleRingS.mem.mem = true ∧ coherent idleRingS ∧
      fieldLE heldK.payload 0 8 + 1 * 32 * w24 ≤ ring2.shardLen ∧ fieldLE heldK.payload 8 8 + 2 * 1 ≤ ring2.shardLen ∧
      (fieldLE heldK.payload 8 8 + 2 * 1 ≤ fieldLE heldK.payload 0 8 ∨ fieldLE heldK.payload 0 8 + 1 * 32 * w24 ≤ fieldLE heldK.payload 8 8) ∧
      ((List.range 1).all fun i => (bodyBlock w24 1 (List.drop (16 + roundUp (2 * 1) 8) heldK.payload) i).snd) = true ∧
      routed idleRingS 0 (BitVec.ofNat 32 (BitVec.toNat heldK.src))) ∧
    (ringTaken idleRingS 0 pRingE heldOutK 3 ∧ idleRingS.ringEnt 0 (ringOf heldOutK) = some ring2 ∧
      (heldForm heldOutK.payload.length = some (w24, 1)) ∧ (idleRingS.part 0).heldAttempt = [] ∧ Memory.wf idleRingS.mem.mem = true ∧
      coherent idleRingS ∧ ring2.shardLen < fieldLE heldOutK.payload 0 8 + 1 * 32 * w24 ∧ (idleRingS.part 0).started = true ∧ noneRetired idleRingS ∧
      ringsFit idleRingS) ∧
    (ringTaken idleRingS 0 pRingE readyK 5 ∧ ringBlock readyK ≠ 4294967295 ∧
      ((idleRingS.findInst 0 fun i => i.key == (ringOf readyK, bitAt (fieldLE readyK.payload 0 1) 0, BitVec.ofNat 32 (ringBlock readyK))) = none)) ∧
    (ringTaken idleRingS 0 pRingE hreadyK 5 ∧ ringBlock hreadyK = 4294967295 ∧ bitAt (fieldLE hreadyK.payload 0 1) 0 = true ∧
      (∀ (e : Nat), e ∈ meresOf idleRingS.partCnt 0 → (idleRingS.eng e).rinsts = [])) ∧
    (ringTaken idleRingS 0 pRingE normK 6 ∧ idleRingS.treeEnt 0 (ringOf normK).toNat = some node1 ∧ bitAt (fieldLE normK.payload 5 1) 0 = false ∧
      List.findIdx? (fun ch => BitVec.toNat ch.fst == BitVec.toNat normK.src) node1.children = some 0 ∧ ringAtt normK = (idleRingS.part 0).normAtt ∧
      (idleRingS.normNode 0 (ringOf normK).toNat).own = none) ∧
    (ringTaken idleRingS 0 pRingE retryK 7 ∧ idleRingS.ringEnt 0 (ringOf retryK) = some ring2 ∧ 2 ≤ ring2.l ∧ routed idleRingS 0 ring2.succ ∧
      fieldLE retryK.payload 0 1 % 4 ≠ 0 ∧
      ((idleRingS.findInst 0 fun i => i.key == (ringOf retryK, true, BitVec.ofNat 32 (ringBlock retryK))) = none) ∧
      ((idleRingS.findInst 0 fun i => i.key == (ringOf retryK, false, BitVec.ofNat 32 (ringBlock retryK))) = none) ∧
      (idleRingS.part 0).ringAttempt = []) :=
  by and_intros <;> first | decide +kernel | exact coherent_of (by decide +kernel) | exact ⟨0, 1, by decide +kernel, by decide +kernel⟩ | exact noneRetired_of (by decide +kernel)

theorem test_met_FirmwareMessages :
    (firmware twinS hello19 1 ∧ BitVec.ofNat 17 (fieldLE hello19.payload 0 3) = twinS.landing (portPlane port0.val) (rxSource twinS.slot col1.val) ∧
      fieldLE hello19.payload 3 2 = twinS.extentBits) ∧
    (firmware twinS hello18 1 ∧ BitVec.ofNat 17 (fieldLE hello18.payload 0 3) ≠ twinS.landing (portPlane port0.val) (rxSource twinS.slot col1.val)) ∧
    (firmware twinS drainK 2 ∧ jobOf twinS drainK 0) ∧
    (firmware twinS drainOddK 2 ∧
      List.find? (fun q => twinS.jobHere q (BitVec.ofNat 16 (fieldLE drainOddK.payload 0 2))) (List.range twinS.partCnt) = none) ∧
    ((drainS.part q0.val).drain = 1 ∧ (drainS.part q0.val).drainDue = true) ∧
    (jobOf twinS rtabK 0 ∧ firmware twinS rtabK 4 ∧ allCarry twinS) ∧
    (jobOf twinS resumeK 0 ∧ firmware twinS resumeK 5) ∧
    (firmware twinS ans1 9 ∧ jobOf twinS ans1 0 ∧ (twinS.part 0).runs = true ∧ allCarry twinS ∧ fieldLE ans1.payload 10 1 = 1) ∧
    (firmware twinS ans2 9 ∧ jobOf twinS ans2 0 ∧ (twinS.part 0).runs = true ∧ allCarry twinS ∧ fieldLE ans2.payload 10 1 = 2 ∧ noneRetired twinS) ∧
    (firmware twinS laneK 10 ∧ sameCarr (BitVec.ofNat 17 (fieldLE laneK.payload 0 3)) twinS.coord = true) :=
  by and_intros <;> first | decide +kernel | exact allCarry_of (by decide +kernel) | exact noneRetired_of (by decide +kernel)

theorem test_met_ResumeReplays :
    ((resumeDrainS.part q0.val).plan = some pTwin ∧ (resumeDrainS.part q0.val).runs = true ∧ (resumeDrainS.part q0.val).spare = none ∧
      (resumeDrainS.part q0.val).resumeAt = some tick99 ∧ (resumeDrainS.part q0.val).pendingTab = [] ∧
      (resumeDrainS.part q0.val).decidedC ≠ some (resumeDrainS.part q0.val).epoch ∧ resumeDrainS.host.vacating = none ∧ noneRetired resumeDrainS ∧
      (resumeDrainS.part q0.val).hold = Hold.none) ∧
    ((resumeHeldS.part q0.val).plan = some pTwin ∧ (resumeHeldS.part q0.val).runs = true ∧ (resumeHeldS.part q0.val).spare = none ∧
      (resumeHeldS.part q0.val).resumeAt = some tick99 ∧ (resumeHeldS.part q0.val).pendingTab = [] ∧
      (resumeHeldS.part q0.val).decidedC ≠ some (resumeHeldS.part q0.val).epoch ∧ resumeHeldS.host.vacating = none ∧ noneRetired resumeHeldS ∧
      (resumeHeldS.part q0.val).hold ≠ Hold.none) ∧
    ((resumeHsigS.part q0.val).plan = some pTwin ∧ (resumeHsigS.part q0.val).runs = true ∧ (resumeHsigS.part q0.val).spare = none ∧
      (resumeHsigS.part q0.val).resumeAt = some tick99 ∧ (resumeHsigS.part q0.val).pendingTab = [] ∧
      (resumeHsigS.part q0.val).decidedC ≠ some (resumeHsigS.part q0.val).epoch ∧ resumeHsigS.host.vacating = none ∧ noneRetired resumeHsigS ∧
      (resumeHsigS.part q0.val).hold ≠ Hold.none) :=
  by and_intros <;> first | decide +kernel | exact noneRetired_of (by decide +kernel)

theorem test_met_FenceBeginsHold :
    (firmware twinS fence1 7 ∧ fieldLE fence1.payload 2 1 = 0 ∧ 0 < twinS.partCnt ∧
      twinS.jobHere 0 (BitVec.ofNat 16 (fieldLE fence1.payload 0 2)) = true ∧ (twinS.part 0).plan = some pTwin ∧ allCarry twinS ∧
      fieldLE fence1.payload 4 4 < 65536 ∧ (twinS.rankEnt 0 (fieldLE fence1.payload 4 4)).valid = true ∧
      BitVec.ofNat 16 (fieldLE fence1.payload 8 2) = (twinS.rankEnt 0 (fieldLE fence1.payload 4 4)).gen + 1 ∧
      BitVec.ofNat 16 (fieldLE fence1.payload 8 2) ≠ 0 ∧ fieldLE fence1.payload 4 4 ≠ twinS.rankOf 0 ∧ (twinS.part 0).runs = true ∧
      BitVec.getLsbD pTwin.shape.flags 0 = false ∧ twinS.pairLost 0 pTwin (fieldLE fence1.payload 4 4) = false) ∧
    (firmware twinS fence0 7 ∧ fieldLE fence0.payload 2 1 = 0 ∧ 0 < twinS.partCnt ∧
      twinS.jobHere 0 (BitVec.ofNat 16 (fieldLE fence0.payload 0 2)) = true ∧ (twinS.part 0).plan = some pTwin ∧ allCarry twinS ∧
      fieldLE fence0.payload 4 4 < 65536 ∧ (twinS.rankEnt 0 (fieldLE fence0.payload 4 4)).valid = true ∧
      BitVec.ofNat 16 (fieldLE fence0.payload 8 2) = (twinS.rankEnt 0 (fieldLE fence0.payload 4 4)).gen) :=
  by and_intros <;> first | decide +kernel | exact allCarry_of (by decide +kernel)

theorem test_met_LossesFence :
    (admits twinS declareK 1 0 ∧ fenceable twinS 0 pTwin (fieldLE declareK.payload 4 4) ∧
      twinS.leads (BitVec.ofNat 17 (fieldLE declareK.payload 8 4)) = true ∧ fieldLE declareK.payload 16 1 ≠ 5 ∧ (twinS.part 0).recov = none ∧
      (twinS.part 0).hold = Hold.none ∧ allCarry twinS) ∧
    (firmware twinS oddK 6 ∧ 9 < fieldLE oddK.payload 0 1) ∧
    (slot2.val ≠ silentS.slot ∧ silentS.leads (silentS.carrCoord slot2.val) = true ∧ silentS.silentAt slot2.val bit0 = true ∧
      fenceable silentS 0 pTwin 2 ∧ (∀ (i : Nat), (silentS.part i).recov = none) ∧ allCarry silentS ∧ (silentS.part 0).hold = Hold.none ∧
      (silentS.ranksAt (silentS.carrCoord slot2.val) = [(0, 2)])) ∧
    (silentNotS.silentAt slot2.val bit0 = false) ∧
    (fenceable reportsS q0.val pTwin rank1.toNat ∧ (reportsS.part q0.val).recov = some job7 ∧ allCarry reportsS ∧
      (reportsS.ranksAt (reportsS.rankEnt q0.val rank1.toNat).coord = [(q0.val, rank1.toNat)]) ∧ ¬rank1.toNat ∈ job7.lost ∧
      job7.stage = RecStage.reports ∧ (job7.reports.any fun y => y.rank == rank1.toNat) = false ∧ job7.warmNotice.contains rank1.toNat = false) ∧
    (fenceable noticeS q0.val pTwin rank1.toNat ∧ (noticeS.part q0.val).recov = some warm1 ∧ allCarry noticeS ∧
      (noticeS.ranksAt (noticeS.rankEnt q0.val rank1.toNat).coord = [(q0.val, rank1.toNat)]) ∧ ¬rank1.toNat ∈ warm1.lost ∧
      warm1.warmNotice.contains rank1.toNat = true ∧ List.find? (fun a => a.fst == rank1.toNat) warm1.accepted = none) :=
  by and_intros <;> first | decide +kernel | exact allCarry_of (by decide +kernel) | exact noRecov_of (by decide +kernel)

theorem test_met_HoldsReport :
    ((holdingS.part q0.val).plan = some pTwin ∧ (holdingS.part q0.val).hold = Hold.holding ∧
      (engsOf holdingS.partCnt q0.val).all holdingS.engHeld = true ∧ holdingS.holdQuiet q0.val = true ∧ holdingS.midMirror q0.val = false ∧
      allCarry holdingS) ∧
    (admits reportsS reportWarm 2 0 ∧ (reportsS.part 0).plan = some pTwin ∧ (reportsS.part 0).recov = some job7 ∧
      BitVec.ofNat 64 (fieldLE reportWarm.payload 24 8) = 18446744073709551615) ∧
    (admits reportsS reportNow 2 0 ∧ (reportsS.part 0).plan = some pTwin ∧ (reportsS.part 0).recov = some job7 ∧
      BitVec.ofNat 64 (fieldLE reportNow.payload 24 8) ≠ 18446744073709551615 ∧ 2 < pTwin.shape.ranks.length ∧ 2 ≠ fieldLE reportNow.payload 4 4 ∧
      job7.lost.contains 2 = false ∧ (reportsS.rankEnt 0 2).valid = true ∧ (job7.reports.any fun y => y.rank == 2) = false) ∧
    ((slowS.part q0.val).plan = some pTwin ∧ (slowS.part q0.val).runs = true ∧ slowS.wantedRanks q0.val ≠ [] ∧ (slowS.part q0.val).recov = none ∧
      (slowS.part q0.val).hold = Hold.none ∧ ((slowS.wantedRanks q0.val).all fun r => !slowS.inWindow q0.val pTwin r) = true ∧ allCarry slowS) ∧
    ((slowWinS.part q0.val).plan = some pTwin ∧ (slowWinS.part q0.val).runs = true ∧ slowWinS.wantedRanks q0.val ≠ [] ∧
      (slowWinS.part q0.val).recov = none ∧ (slowWinS.part q0.val).hold = Hold.none ∧
      ((slowWinS.wantedRanks q0.val).all fun r => !slowWinS.inWindow q0.val pTwin r) = false) ∧
    ((drainedS.part q0.val).drain = 1 ∧ (drainedS.part q0.val).drainDue = true ∧ drainedS.atZero q0.val = true ∧ drainedS.fabricQuiet q0.val = true ∧
      (drainedS.part q0.val).recov = none ∧ drainedS.host.slowLeaves = false ∧ allCarry drainedS) ∧
    (firmware drainingS drainedK 3 ∧ fieldLE drainedK.payload 2 1 = 0 ∧ 0 < drainingS.partCnt ∧
      drainingS.jobHere 0 (BitVec.ofNat 16 (fieldLE drainedK.payload 0 2)) = true ∧ (drainingS.part 0).plan = some pTwin ∧
      (drainingS.part 0).recov = some drainingR ∧ drainingR.drained + 1 < (drainingS.others 0 pTwin []).length) :=
  by and_intros <;> first | decide +kernel | exact allCarry_of (by decide +kernel)

theorem test_met_SparesOffered :
    (firmware idleS offer1 6 ∧ fieldLE offer1.payload 0 1 = 3 ∧ fieldLE offer1.payload 1 1 = 0 ∧ 0 < idleS.partCnt ∧
      idleS.stewardNear (BitVec.ofNat 17 (fieldLE offer1.payload 8 4)) = some 0 ∧ idleS.boot.quar = false ∧ allCarry idleS ∧
      idleS.declines 0 (fieldLE offer1.payload 16 1) (BitVec.ofNat 17 (fieldLE offer1.payload 8 4)) = 0) ∧
    (firmware idleS offer2 6 ∧ fieldLE offer2.payload 0 1 = 3 ∧ fieldLE offer2.payload 1 1 = 0 ∧ 0 < idleS.partCnt ∧
      idleS.stewardNear (BitVec.ofNat 17 (fieldLE offer2.payload 8 4)) = some 0 ∧ idleS.boot.quar = false ∧ allCarry idleS ∧
      idleS.declines 0 (fieldLE offer2.payload 16 1) (BitVec.ofNat 17 (fieldLE offer2.payload 8 4)) ≠ 0) ∧
    ((offeredS.part 0).plan = some pTwin ∧ (offeredS.part 0).recov = some offeredR ∧ allCarry offeredS ∧
      offeredR.offeredTo = some (cSlot (BitVec.ofNat 17 (fieldLE acceptK.payload 8 4))) ∧ admits offeredS acceptK 4 0 ∧
      offeredR.resync = BitVec.ofNat 32 (fieldLE acceptK.payload 16 4) ∧ offeredR.offerRank = fieldLE acceptK.payload 4 4 ∧
      pTwin.twinOf (fieldLE acceptK.payload 4 4) ≠ pTwin.shape.self) ∧
    ((offeredS.part 0).plan = some pTwin ∧ (offeredS.part 0).recov = some offeredR ∧ allCarry offeredS ∧
      offeredR.offeredTo = some (cSlot (BitVec.ofNat 17 (fieldLE declineK.payload 8 4))) ∧ admits offeredS declineK 5 0) ∧
    ((offeredS.part q0.val).recov = some offeredR ∧ allCarry offeredS ∧ q0.val < offeredS.partCnt ∧ offeredR.offeredTo = some slot16) ∧
    ((seekingS.part q0.val).recov = some seekingR ∧ allCarry seekingS ∧ q0.val < seekingS.partCnt ∧ seekingR.stage = RecStage.offering ∧
      seekingR.offeredTo = none ∧ List.find? (fun r => !seekingR.accepted.any fun a => a.fst == r) seekingR.lost = some 2 ∧
      seekingS.candidates q0.val { seekingR with passed := [] } 2 = []) ∧
    ((awaitS.part q0.val).recov = some awaitR ∧ allCarry awaitS ∧ q0.val < awaitS.partCnt ∧
      awaitS.awaiting (Proposal.replace q0.val) = some replaceD) ∧
    ((List.find? (fun d => !d.answered && !d.expired && match d.what with | Proposal.numerics j _ => j == q0.val | _ => false) numS.host.decisions = some numD) ∧
      numD.what = Proposal.numerics q0.val step5 ∧ allCarry numS) :=
  by and_intros <;> first | decide +kernel | exact allCarry_of (by decide +kernel)

theorem test_met_SparesAdmitted :
    (firmware dataS dataK 6 ∧ fieldLE dataK.payload 0 1 = 6 ∧ fieldLE dataK.payload 1 1 = 0 ∧ 0 < dataS.partCnt ∧
      dataS.dataKnown (fieldLE dataK.payload 16 4) 0 (BitVec.ofNat 16 (fieldLE dataK.payload 2 2)) = true ∧ Memory.wf dataS.mem.mem = true ∧
      coherent dataS ∧ (dataS.partCnt = 1 ∨ dataS.partCnt = 2 ∨ dataS.partCnt = 4) ∧ allCarry dataS ∧
      List.find? (fun j => !j.sender && !j.mirror && j.part == 0 && j.resync == BitVec.ofNat 32 (fieldLE (List.drop 16 dataK.payload) 0 4)) dataS.host.journals = some inJ ∧
      inJ.open_ = true ∧ fieldLE (List.drop 16 dataK.payload) 4 4 = inJ.last ∧ fieldLE (List.drop 16 dataK.payload) 4 4 ≠ 0 ∧
      fieldLE (List.drop 16 dataK.payload) 4 4 + 1 < inJ.chunks ∧ ringsFit dataS ∧ dramLo dataS.partCnt 0 ≤ fieldLE (List.drop 16 dataK.payload) 8 8 ∧
      fieldLE (List.drop 16 dataK.payload) 8 8 + (List.drop 16 (List.drop 16 dataK.payload)).length ≤ dramLo dataS.partCnt (0 + 1)) ∧
    (admits ackChunkS chunkOk 7 0 ∧
      List.find? (fun j => j.sender && j.open_ && j.part == 0 && BitVec.toNat j.resync == fieldLE chunkOk.payload 16 4) ackChunkS.host.journals = some outJ ∧
      outJ.last = fieldLE chunkOk.payload 20 4 ∧ (ackChunkS.chunksOf outJ)[outJ.last]? = some chunk1 ∧ outJ.mirror = false ∧
      outJ.last + 1 < outJ.chunks ∧ allCarry ackChunkS ∧ ackChunkS.mem.poison = [] ∧
      crc32c (ackChunkS.pieceBytes chunk1) = BitVec.ofNat 32 (fieldLE chunkOk.payload 24 4)) ∧
    (admits ackChunkS chunkBad 7 0 ∧
      List.find? (fun j => j.sender && j.open_ && j.part == 0 && BitVec.toNat j.resync == fieldLE chunkBad.payload 16 4) ackChunkS.host.journals = some outJ ∧
      outJ.last = fieldLE chunkBad.payload 20 4 ∧ (ackChunkS.chunksOf outJ)[outJ.last]? = some chunk1 ∧ outJ.mirror = false ∧
      outJ.last + 1 < outJ.chunks ∧ allCarry ackChunkS ∧ ackChunkS.mem.poison = [] ∧
      crc32c (ackChunkS.pieceBytes chunk1) ≠ BitVec.ofNat 32 (fieldLE chunkBad.payload 24 4)) ∧
    ((spareS.part q0.val).spare = some spareW ∧ (spareS.part q0.val).loading = some spareJ ∧ allCarry spareS ∧ spareS.mem.poison = []) ∧
    ((admit1S.part 0).plan = some pTwin ∧ (admit1S.part 0).recov = some admit1 ∧ allCarry admit1S ∧ admits admit1S liveK 8 0 ∧
      (admit1.accepted.contains (fieldLE liveK.payload 4 4, cSlot (BitVec.ofNat 17 (fieldLE liveK.payload 8 4))) = true) ∧
      admit1.live.contains (fieldLE liveK.payload 4 4) = false ∧ admit1.stage ≠ RecStage.tables) ∧
    ((admit2S.part 0).plan = some pTwin ∧ (admit2S.part 0).recov = some admit2 ∧ allCarry admit2S ∧ admits admit2S liveK 8 0 ∧
      (admit2.accepted.contains (fieldLE liveK.payload 4 4, cSlot (BitVec.ofNat 17 (fieldLE liveK.payload 8 4))) = true) ∧
      admit2.live.contains (fieldLE liveK.payload 4 4) = false ∧ admit2.stage ≠ RecStage.tables) ∧
    ((tables1S.part 0).plan = some pTwin ∧ (tables1S.part 0).recov = some tables1 ∧ allCarry tables1S ∧ firmware tables1S rtackK 8 ∧
      jobOf tables1S rtackK 0 ∧ tables1.stage = RecStage.tables ∧ tables1.rtacks + 1 < (tables1S.tableTargets 0 pTwin tables1).length) ∧
    ((tables2S.part 0).plan = some pTwin ∧ (tables2S.part 0).recov = some tables2 ∧ allCarry tables2S ∧ firmware tables2S rtackK 8 ∧
      jobOf tables2S rtackK 0 ∧ tables2.stage = RecStage.tables ∧ (tables2S.tableTargets 0 pTwin tables2).length ≤ tables2.rtacks + 1) ∧
    (admits twinS goK 9 0) :=
  by and_intros <;> first | decide +kernel | exact coherent_of (by decide +kernel) | exact allCarry_of (by decide +kernel)

theorem test_met_SupplyFollowsVin :
    (onS.power.on = true ∧ 3400 < v37.toNat ∧ v37.toNat < 3800 ∧ onS.power.throttle = false) ∧
    (dipS.power.throttle = true ∧ dipS.standbyUp = true ∧ 3900 ≤ v39.toNat ∧ v39.toNat ≤ 6300) ∧
    (v34.toNat ≤ 3400 ∧ 3400 < onS.power.vin.toNat) ∧
    (onS.power.on = true ∧ 6300 < v63.toNat) ∧
    (4000 < v40.toNat ∧ offS.power.on = false ∧ offS.power.tripped = false ∧ offS.power.offLatched = false) ∧
    (dipS.power.throttle = true) ∧
    (onS.power.auxok = true ∧ 3401 ≤ onS.power.vin.toNat) ∧
    (noAuxS.power.auxok = false ∧ 3401 ≤ noAuxS.power.vin.toNat) :=
  by and_intros <;> decide +kernel

theorem test_met_CapAndHeat :
    (onS.power.lvl.toNat ≤ 56) ∧
    (over56S.power.over56 = true ∧ over56S.power.capMissed = false) ∧
    (capOpenS.power.capOpen = true) ∧
    (onS.power.on = true ∧
      ((List.foldl (fun s x => s.readSensor badSensors x.fst x.snd) onS (List.mapIdx (fun i t => (i, t)) (List.take 96 cool))).power.hottest.snd.toInt < 1840)) ∧
    (onS.power.on = true ∧
      (1840 ≤ (List.foldl (fun s x => s.readSensor badSensors x.fst x.snd) onS (List.mapIdx (fun i t => (i, t)) (List.take 96 hot))).power.hottest.snd.toInt)) ∧
    (onS.power.on = true) :=
  by and_intros <;> decide +kernel

theorem test_met_PointsAndDroop :
    (lowerS.power.chg = some chgLow ∧ chgLow.step = 0 ∧ lowerS.power.released = true ∧ lowerS.power.pllMhz = some (lowerS.opMhz chgLow.target) ∧
      chgLow.raise = false) ∧
    (raiseS.power.chg = some chgRaise ∧ chgRaise.step = 0 ∧ raiseS.power.released = true ∧ raiseS.power.pllMhz = some (raiseS.opMhz chgRaise.target) ∧
      chgRaise.raise = true ∧ raiseS.power.throttle = false) ∧
    (raiseDipS.power.chg = some chgRaise ∧ chgRaise.step = 0 ∧ raiseDipS.power.released = true ∧
      raiseDipS.power.pllMhz = some (raiseDipS.opMhz chgRaise.target) ∧ chgRaise.raise = true ∧ raiseDipS.power.throttle = true) ∧
    (lower1S.power.chg = some chgLow1 ∧ chgLow1.step = 1 ∧ lower1S.power.opWant = chgLow1.target ∧ chgLow1.raise = false) ∧
    (raise1S.power.chg = some chgRaise1 ∧ chgRaise1.step = 1 ∧ raise1S.power.opWant = chgRaise1.target ∧ chgRaise1.raise = true ∧
      raise1S.power.released = true ∧ raise1S.power.throttle = false) ∧
    (raise1S.power.chg = some chgRaise1 ∧ (chgRaise1.raise = true ∨ chgRaise1.step = 0) ∧ raise1S.power.opWant = chgRaise1.target) ∧
    (lowerS.power.chg = some chgLow ∧ (chgLow.raise = true ∨ chgLow.step = 0) ∧ lowerS.power.opWant = chgLow.target) ∧
    (onS.power.on = true ∧ onS.power.burst = false) ∧
    (burstS.power.burst = true) ∧
    (onS.power.burst = false) :=
  by and_intros <;> decide +kernel

theorem test_met_ClocksFollow :
    (onS.clk.lock = true) ∧
    (holdoverS.clk.hold = true) ∧
    (stepWordOk word9 = true ∧ freshS.clk.counting = true ∧ freshS.clk.stepLock = false) ∧
    (stepWordOk word9 = true ∧ onS.clk.counting = true ∧ onS.clk.stepLock = true ∧ 8 ≤ onS.boot.stage ∧
      BitVec.ofNat 64 (fld word9.toNat 16 64) + 4 ≠ onS.clk.tick ∧ onS.clk.misTick = none) ∧
    (headS.clk.stepLock = true ∧ headS.clk.counting = true ∧ headS.now % 65536 = 0 ∧ headS.clk.head = true) ∧
    (onS.clk.stepLock = true ∧ onS.clk.counting = true ∧ onS.now % 65536 = 0 ∧ onS.clk.head = false ∧ onS.clk.hop ≠ 63) ∧
    (farS.clk.stepLock = true ∧ farS.clk.counting = true ∧ farS.now % 65536 = 0 ∧ farS.clk.head = false ∧ farS.clk.hop = 63) ∧
    (freshS.clk.counting = true ∧ freshS.clk.stepLock = false) ∧
    (drift100.toInt.natAbs ≤ 100) ∧
    (100 < drift101.toInt.natAbs ∧ 9 ≤ driftS.clk.driftRun ∧ driftS.clk.driftTick = none) ∧
    (135 ≤ BitVec.toNat bk135) ∧
    (BitVec.toNat bk134 < 135) ∧
    (fld (BitVec.toNat calOn.clk.setLo) 0 30 < 1000000000 ∧
      (calOn.clk.valid = false ∨ calOn.calendar ≤ BitVec.ofNat 64 ((fld (BitVec.toNat calOn.clk.setLo) 30 2 + 4 * BitVec.toNat calOn.clk.setHi) * 2 ^ 30 + fld (BitVec.toNat calOn.clk.setLo) 0 30))) ∧
    (calBack.clk.valid = true ∧
      BitVec.ofNat 64 ((fld (BitVec.toNat calBack.clk.setLo) 30 2 + 4 * BitVec.toNat calBack.clk.setHi) * 2 ^ 30 + fld (BitVec.toNat calBack.clk.setLo) 0 30) < calBack.calendar) :=
  by and_intros <;> decide +kernel

theorem test_met_ResetsLeave :
    (onS.boot.perst = false ∧ onS.power.on = true) ∧
    (perstGoodS.boot.pwrGood = true) ∧
    (perstS.boot.pwrGood = false) ∧
    (fld (BitVec.toNat key0) 24 8 ≠ 195) ∧
    (fld (BitVec.toNat keyModule) 24 8 = 195 ∧ BitVec.getLsbD keyModule 0 = true ∧ onS.power.on = true) ∧
    (fld (BitVec.toNat keyWarm) 24 8 = 195 ∧ BitVec.getLsbD keyWarm 0 = false ∧ BitVec.getLsbD keyWarm 1 = true ∧ fld (BitVec.toNat keyWarm) 4 4 = 0 ∧
      8 ≤ heldWarmS.boot.stage ∧ heldWarmS.warmBlocked = none ∧ allCarry heldWarmS) ∧
    (fld (BitVec.toNat keyWarm) 24 8 = 195 ∧ BitVec.getLsbD keyWarm 0 = false ∧ BitVec.getLsbD keyWarm 1 = true ∧ fld (BitVec.toNat keyWarm) 4 4 = 0 ∧
      8 ≤ onS.boot.stage ∧ (onS.warmBlocked = some (0, 2))) ∧
    (fld (BitVec.toNat keyPart) 24 8 = 195 ∧ BitVec.getLsbD keyPart 0 = false ∧ BitVec.getLsbD keyPart 1 = false ∧
      fld (BitVec.toNat keyPart) 4 4 ≠ 0 ∧ 8 ≤ onS.boot.stage ∧ onS.partCnt ≤ 4 ∧ noneRetired onS ∧ allCarry onS) :=
  by and_intros <;> first | decide +kernel | exact allCarry_of (by decide +kernel) | exact noneRetired_of (by decide +kernel)

theorem test_met_BringUpAdvances :
    (stage0S.stageMayEnd = true ∧ stage0S.boot.warm = false ∧ stage0S.boot.stage = 0) ∧
    (stage1S.stageMayEnd = true ∧ stage1S.boot.warm = false ∧ stage1S.boot.stage = 1 ∧ stage1S.clk.stepLock = false ∧ stage1S.clk.refIn = true ∧
      noBanks.contains 4 = false) ∧
    (stage3S.stageMayEnd = true ∧ stage3S.boot.warm = false ∧ stage3S.boot.stage = 3 ∧ noBanks = []) ∧
    (stage3S.stageMayEnd = true ∧ stage3S.boot.warm = false ∧ stage3S.boot.stage = 3 ∧ bank5 ≠ []) ∧
    (stage7S.stageMayEnd = true ∧ stage7S.boot.warm = false ∧ stage7S.boot.stage = 7 ∧ stage7S.boot.partWanted = 0 ∧ stage7S.boot.warmWanted = none ∧
      stage7S.boot.reinstating = false) ∧
    (stage3S.power.on = true ∧ stage3S.boot.failed = false ∧ stage3S.boot.stage < 8) ∧
    (stage7S.boot.stage = 7 ∧ stage7S.boot.helloCnt < 16 ∧ stage7S.boot.brd.toNat < 5) ∧
    (helloLaneS.isReady = true ∧ helloLaneS.boot.brd.toNat < 5) :=
  by and_intros <;> decide +kernel

theorem test_met_JobsRun :
    (pf0.via = Via.mailbox fn0 ∧ heard onIdleS pf0 Perm.vf false ∧ (onIdleS.part (BitVec.toNat pf0.part)).state = PartState.noPlan ∧
      onIdleS.isReady = true ∧ BitVec.toNat addr4k % 4096 = 0 ∧ dramLo onIdleS.partCnt (BitVec.toNat pf0.part) ≤ BitVec.toNat addr4k ∧
      BitVec.toNat addr4k + BitVec.toNat len64 ≤ dramLo onIdleS.partCnt (BitVec.toNat pf0.part + 1) ∧ BitVec.toNat len64 ≤ 1073741824) ∧
    ((loadS.part q0.val).loading = some reqJob ∧ (loadS.part q0.val).spare = none ∧ loadS.mem.poison = []) ∧
    (heard plannedS pf0 Perm.vf false ∧ (plannedS.part (BitVec.toNat pf0.part)).state = PartState.idle ∧
      (plannedS.part (BitVec.toNat pf0.part)).plan = some pTus ∧ plannedS.now ≤ BitVec.toNat tick99k ∧ noneRetired plannedS) ∧
    ((pendingS.part q0.val).plan = some pTus ∧ (pendingS.part q0.val).stat = PStat.pending ∧ BitVec.getLsbD pTus.shape.flags 0 = true ∧
      (pTus.streams.all fun st => (pendingS.engMap st.eng).valid) = true) ∧
    (heard runningS pf0 Perm.vf false ∧ (runningS.part (BitVec.toNat pf0.part)).state = PartState.running ∧
      (runningS.part (BitVec.toNat pf0.part)).stat = PStat.running) ∧
    (heard plannedS pf0 Perm.vf false ∧ (plannedS.part (BitVec.toNat pf0.part)).state = PartState.idle) :=
  by and_intros <;> first | decide +kernel | exact noneRetired_of (by decide +kernel)

theorem test_met_RequestsAnswered :
    (heard onIdleS pf0 Perm.pf false ∧ (two = 1 ∨ two = 2 ∨ two = 4) ∧ BitVec.toNat two ≠ onIdleS.partCnt ∧
      ((List.range onIdleS.partCnt).any fun q => (onIdleS.part q).plan.isSome || (onIdleS.part q).loading.isSome) = false ∧ onIdleS.isReady = true) ∧
    (heard onIdleS pf0 Perm.pf false ∧ BitVec.toNat pf0.part < onIdleS.partCnt ∧ (onIdleS.part (BitVec.toNat pf0.part)).plan = none ∧
      (onIdleS.part (BitVec.toNat pf0.part)).loading = none ∧ key96.length = 96) ∧
    (heard onIdleS pf0 Perm.pf false ∧ BitVec.toNat pf0.part < onIdleS.partCnt ∧ (onIdleS.part (BitVec.toNat pf0.part)).plan = none ∧
      (onIdleS.part (BitVec.toNat pf0.part)).loading = none) ∧
    (heard capS pf0 Perm.pf true ∧ 300 ≤ w300.toNat ∧ w300.toNat ≤ 1500 ∧ 1 ≤ w1000.toNat ∧ w1000.toNat ≤ 1000 ∧ capS.hostMode 0 = true) ∧
    (heard decideNowS pf0 Perm.any true ∧ reqFn pf0 = 0 ∧ List.find? (fun d => d.ident == ident6) decideNowS.host.decisions = some combD ∧
      combD.what = Proposal.comb 0 ∧ combD.answered = false ∧ combD.expired = false ∧ decideNowS.now ≤ BitVec.toNat combD.deadline ∧
      (decideNowS.comb 0).decision = some ident6) ∧
    (heard decideLateS i2cReq Perm.any true ∧ reqFn i2cReq = 0 ∧ List.find? (fun d => d.ident == ident6) decideLateS.host.decisions = some combLate ∧
      combLate.what = Proposal.comb 0 ∧ combLate.answered = false ∧ combLate.expired = true) ∧
    (heard runningS pf0 Perm.vf false ∧ n10 ≠ 0 ∧ BitVec.toNat n10 ≤ 1048575 ∧ (runningS.part (BitVec.toNat pf0.part)).plan.isSome = true ∧
      runningS.remoteOk (BitVec.toNat pf0.part) sem5.toNat = true ∧ seed5 = (runningS.part (BitVec.toNat pf0.part)).epoch ∧
      (runningS.part (BitVec.toNat pf0.part)).hold = Hold.none ∧ (runningS.part (BitVec.toNat pf0.part)).spare = none ∧
      semRange (BitVec.toInt (runningS.sem sem5.toNat).value + (BitVec.toNat n10).cast) = true) ∧
    (heard runningS pf0 Perm.vf false ∧ n10 ≠ 0 ∧ BitVec.toNat n10 ≤ 1048575 ∧ (runningS.part (BitVec.toNat pf0.part)).plan.isSome = true ∧
      runningS.remoteOk (BitVec.toNat pf0.part) sem5.toNat = true ∧
      (BitVec.toNat (runningS.part (BitVec.toNat pf0.part)).epoch < BitVec.toNat step6 ∨ step6 = (runningS.part (BitVec.toNat pf0.part)).epoch ∧
      (runningS.part (BitVec.toNat pf0.part)).hold ≠ Hold.none)) ∧
    (heard runHoldS pf0 Perm.vf false ∧ n10 ≠ 0 ∧ BitVec.toNat n10 ≤ 1048575 ∧ (runHoldS.part (BitVec.toNat pf0.part)).plan.isSome = true ∧
      runHoldS.remoteOk (BitVec.toNat pf0.part) sem5.toNat = true ∧
      (BitVec.toNat (runHoldS.part (BitVec.toNat pf0.part)).epoch < BitVec.toNat seed5 ∨ seed5 = (runHoldS.part (BitVec.toNat pf0.part)).epoch ∧
      (runHoldS.part (BitVec.toNat pf0.part)).hold ≠ Hold.none)) ∧
    (heard runningS pf0 Perm.vf false ∧ n10 ≠ 0 ∧ BitVec.toNat n10 ≤ 1048575 ∧ (runningS.part (BitVec.toNat pf0.part)).plan.isSome = true ∧
      runningS.remoteOk (BitVec.toNat pf0.part) sem5.toNat = true ∧ BitVec.toNat step4 < BitVec.toNat (runningS.part (BitVec.toNat pf0.part)).epoch) ∧
    (heard slotOneS pf0 Perm.pf true ∧ slotOneS.servesAt coord3 = false ∧ slotOneS.stewardNear coord3 = some 0 ∧ 0 ≠ slotOneS.slot ∧
      (slotOneS.litPorts 0 (txColour slotOneS.slot 0) = [] ∨ lanesWhole slotOneS 0 0)) ∧
    (heard quarEarlyS pf0 Perm.pf true ∧ quarEarlyS.boot.quar = true ∧ quarEarlyS.boot.stage < 8) ∧
    (heard quarS pf0 Perm.pf true ∧ quarS.boot.quar = true ∧ 8 ≤ quarS.boot.stage ∧ allCarry quarS ∧ (∀ (q : Nat), (quarS.part q).loading = none)) ∧
    (heard onIdleS pf0 Perm.pf true ∧ onIdleS.boot.quar = false) ∧
    (heard onS i2cReq Perm.pf true ∧ onS.power.on = true) ∧
    (heard onIdleS pf0 Perm.pf true ∧ 4 < BitVec.toNat five) ∧
    (heard vacateS pf0 Perm.pf true ∧ BitVec.toNat one ≤ 4 ∧ vacateS.isSteward = true ∧ (∃ q, q < vacateS.partCnt ∧
      vacateS.boardRanks q (BitVec.toNat one) ≠ [])) ∧
    (heard slotOneS pf0 Perm.pf true ∧ BitVec.toNat one ≤ 4 ∧ slotOneS.isSteward = false ∧ slotOneS.stewardSlot = some 0 ∧ 0 ≠ slotOneS.slot ∧
      (slotOneS.litPorts 0 (txColour slotOneS.slot 0) = [] ∨ lanesWhole slotOneS 0 0)) ∧
    (heard onIdleS pf0 Perm.any true) :=
  by and_intros <;> first | decide +kernel | exact allCarry_of (by decide +kernel) | exact notLoading_of (by decide +kernel)

theorem test_met_HostWindows :
    ((noteS.fn fn0.val).waiting = note1 :: noNotes ∧ (noteS.fn fn0.val).noteFull = false) ∧
    (barS.host.linkUp = true ∧ (barS.fn fn0.val).inWindow off3.toNat len3.toNat = true ∧
      barS.winPart fn0.val (BitVec.toNat (barS.fn fn0.val).win + off3.toNat) = some 0 ∧ 0 < barS.partCnt ∧
      inPart barS.partCnt 0 (BitVec.toNat (barS.fn fn0.val).win + off3.toNat) len3.toNat = true ∧
      barS.poisonIn (BitVec.toNat (barS.fn fn0.val).win + off3.toNat) len3.toNat = none) ∧
    (barIdleS.host.linkUp = true ∧ Memory.wf barIdleS.mem.mem = true ∧ coherent barIdleS ∧
      (barIdleS.partCnt = 1 ∨ barIdleS.partCnt = 2 ∨ barIdleS.partCnt = 4) ∧ (barIdleS.fn fn0.val).inWindow off3.toNat bytes3.length = true ∧
      barIdleS.winPart fn0.val (BitVec.toNat (barIdleS.fn fn0.val).win + off3.toNat) = some 0 ∧ 0 < barIdleS.partCnt ∧
      inPart barIdleS.partCnt 0 (BitVec.toNat (barIdleS.fn fn0.val).win + off3.toNat) bytes3.length = true ∧
      barIdleS.mayWrite 0 (BitVec.toNat (barIdleS.fn fn0.val).win + off3.toNat) bytes3.length = true) ∧
    (barS.host.linkUp = true ∧ Memory.wf barS.mem.mem = true ∧ coherent barS ∧ (barS.partCnt = 1 ∨ barS.partCnt = 2 ∨ barS.partCnt = 4) ∧
      (barS.fn fn0.val).inWindow off3.toNat bytes3.length = true ∧ barS.winPart fn0.val (BitVec.toNat (barS.fn fn0.val).win + off3.toNat) = some 0 ∧
      0 < barS.partCnt ∧ inPart barS.partCnt 0 (BitVec.toNat (barS.fn fn0.val).win + off3.toNat) bytes3.length = true ∧
      barS.mayWrite 0 (BitVec.toNat (barS.fn fn0.val).win + off3.toNat) bytes3.length = false ∧ ringsFit barS) ∧
    (waitFnS.power.on = true ∧ waitFnS.boot.perst = false) ∧
    (rep6.toNat ≤ 6) :=
  by and_intros <;> first | decide +kernel | exact coherent_of (by decide +kernel)

theorem test_met_ManagementAnswers :
    (onIdleS.bindOpen i2c = true) ∧
    (onIdleS.bindOpen i2c = true ∧ onIdleS.sensors[BitVec.toNat (body2.headD 0)]? = some 0) ∧
    (onIdleS.bindOpen i2c = true ∧ onIdleS.host.fuseSvn ≤ svn3 ∧ onIdleS.keySlot.isSome = true) :=
  by and_intros <;> decide +kernel

theorem test_met_AttestationAnswers :
    (newS.bindOpen i2c = true) ∧
    (versionS.bindOpen i2c = true ∧ (versionS.spdmOf i2c).version = true) ∧
    (newS.bindOpen i2c = true ∧ (newS.spdmOf i2c).version = false) ∧
    (capsS.bindOpen i2c = true ∧ (capsS.spdmOf i2c).caps = true) ∧
    (algsS.bindOpen i2c = true ∧ (algsS.spdmOf i2c).algs = true) ∧
    (algsS.bindOpen i2c = true ∧ (algsS.spdmOf i2c).algs = true ∧ BitVec.toNat one < 2) ∧
    (algsS.bindOpen pcie1 = true ∧ (algsS.spdmOf pcie1).algs = true ∧ meas16 ≠ 0 ∧ meas16 ≠ 255 ∧
      (measList pcie1).contains (BitVec.toNat meas16) = true) ∧
    (algsS.bindOpen pcie1 = true ∧ (algsS.spdmOf pcie1).algs = true ∧ meas17 ≠ 0 ∧ meas17 ≠ 255 ∧
      (measList pcie1).contains (BitVec.toNat meas17) = false) ∧
    (handS.bindOpen i2c = true ∧ (handS.spdmOf i2c).handshake = true) ∧
    (sessS.bindOpen i2c = true ∧ (sessS.spdmOf i2c).session = true) ∧
    (sessS.bindOpen i2c = true ∧ spdmCodes.contains (BitVec.toNat code85) = false) :=
  by and_intros <;> decide +kernel

theorem test_met_RegistersLatch :
    (fld (BitVec.toNat keyA5) 24 8 = 165 ∧ BitVec.getLsbD keyA5 0 = true ∧ svnS.isReady = true ∧
      svnS.host.fuseSvn < (svnS.copyOf svnS.host.activeB).svn) ∧
    (fld (BitVec.toNat keyA4) 24 8 ≠ 165) ∧
    (obsOffS.obs.rcnt.en = false) ∧
    (obsOnS.obs.rcnt.en = true) ∧
    (obsOnS.countsCycles ctr600.toNat = false ∧ (ctr600.toNat < 280 ∨ 512 ≤ ctr600.toNat)) ∧
    (obsOnS.obs.rcnt.en = true ∧ obsOnS.latchTick = true ∧ obsOnS.selfRefresh = false ∧ Ring.takes 1 obsOnS.obs.rcnt = true) ∧
    (restS.obs.rcnt.en = true ∧ restS.latchTick = true ∧ restS.selfRefresh = true) ∧
    (betweenS.latchTick = false) :=
  by and_intros <;> decide +kernel

theorem test_met_RegistersTakeWrites :
    (ringFitS.busyOf [(ringFitS.ring cntBlk).part.toNat] = none ∧ ringFitS.ringFits (ringFitS.ring cntBlk) (ringRecLen cntBlk) = true) ∧
    (ringOddS.busyOf [(ringOddS.ring cntBlk).part.toNat] = none ∧ ringOddS.ringFits (ringOddS.ring cntBlk) (ringRecLen cntBlk) = false) ∧
    (onIdleS.busyOf [q0.val] = none ∧ fld (BitVec.toNat rate256) 0 9 + otherRates onIdleS.mem.drate q0.val ≤ 256) ∧
    (sharedS.busyOf [p1.val] = none ∧ fld (BitVec.toNat rate128) 0 9 + otherRates sharedS.mem.prate p1.val ≤ 256) ∧
    (sharedS.busyOf [p1.val] = none ∧ 256 < fld (BitVec.toNat rate256) 0 9 + otherRates sharedS.mem.drate p1.val) ∧
    (onIdleS.busyAny = none ∧ fld (BitVec.toNat cz47) 6 6 ≤ 47) ∧
    (onIdleS.busyAny = none ∧ 1 ≤ fld (BitVec.toNat ext8) 0 4 ∧ fld (BitVec.toNat ext8) 0 4 ≤ 8 ∧ 1 ≤ fld (BitVec.toNat ext8) 4 4 ∧
      fld (BitVec.toNat ext8) 4 4 ≤ 8 ∧ 1 ≤ fld (BitVec.toNat ext8) 8 6 ∧ fld (BitVec.toNat ext8) 8 6 ≤ 48) ∧
    (sharedS.busyOf [1] = none) ∧
    (busy1S.busyOf [1] = some 1) ∧
    (BitVec.toNat five32 < 208) ∧
    ((off0.toNat < 65536 ∨ 8454144 ≤ off0.toNat)) ∧
    ((off81.toNat < 65536 ∨ 8454144 ≤ off81.toNat)) :=
  by and_intros <;> decide +kernel

theorem test_met_IdleStepCountsTick :
    lockS.pending = [] ∧ (lockS.clk.lock = true ∨ lockS.clk.hold = true) :=
  by and_intros <;> decide +kernel

theorem test_met_DecodeEncodeAgree :
    nopWord < 2 ^ 128 ∧ (decodeInsn nopWord = some (opNop, nopF)) :=
  by and_intros <;> decide +kernel

theorem test_met_OpcodeMap :
    ((Op.all.all fun o => o.code != badWord % 256) = true) ∧
    ((Op.mma.code / 16 = 2 ∧ kindOf sdg.val ≠ Kind.clv ∨ Op.mma.code / 16 = 3 ∧ kindOf sdg.val ≠ Kind.tus ∨ Op.mma.code / 16 = 4 ∧
      kindOf sdg.val ≠ Kind.sdg ∨ Op.mma.code / 16 = 5 ∧ kindOf sdg.val ≠ Kind.mere ∨ Op.mma.code / 16 = 6 ∧
      kindOf sdg.val ≠ Kind.hmk ∨ Op.mma.code / 16 = 7 ∧ kindOf sdg.val = Kind.mere ∨ Op.mma.code / 16 = 0 ∧ fields.cs = true)) :=
  by and_intros <;> decide +kernel

theorem test_met_IssueIsChecked :
    (legalForm tus.val opLoop loopIdx = false) ∧
    (legalForm tus.val opNop nopF = true ∧
      ((∀ (pl : Plan) (st : StreamInfo), plannedS.streamOf tus.val = some (pl, st) → plannedS.insnAt st (plannedS.eng tus.val).pc.toNat ≠ encodeInsn opNop nopF) ∨ (plannedS.part (plannedS.partOf tus.val)).runs = false)) :=
  by and_intros <;> first | decide +kernel | exact .inr (by decide +kernel)

theorem test_met_FuseRisesOnlyByCommit :
    isNext (exec (Instr.commitSvn keyA5) svnS) = true := by decide +kernel

end Sys2Proof.Test
end

section
/-! PROOFS. The opcode map (R55, Table 3.7): which words are instructions, and which engine kind may issue which opcode. -/

namespace Sys2Proof.Proofs

open Sys2Proof.Machine Sys2Proof.Claim

/-! ## Words -/

theorem ofCode_eq_none_iff (n : Nat) : Op.ofCode n = none ↔ (Op.all.all fun o => o.code != n) = true := by
  simp only [Op.ofCode, List.find?_eq_none, List.all_eq_true, bne_iff_ne, beq_iff_eq, ne_eq]

theorem decodeInsn_eq_none_iff (w : Nat) : decodeInsn w = none ↔ (Op.all.all fun o => o.code != w % 256) = true := by
  rw [decodeInsn, Option.map_eq_none_iff, ofCode_eq_none_iff]

/-! ## Families: bits [7:4] of an opcode are its row of Table 3.7 -/

/-- The last column of Table 3.7, for the family with number `n`. -/
def familyIssuedBy (n : Nat) (k : Kind) : Bool :=
  match n with
  | 2 => k == .clv
  | 3 => k == .tus
  | 4 => k == .sdg
  | 5 => k == .mere
  | 6 => k == .hmk
  | 7 => k != .mere
  | _ => true

theorem issuedBy_eq_familyIssuedBy (op : Op) (k : Kind) : op.issuedBy k = familyIssuedBy (op.code / 16) k := by
  cases op <;> rfl

theorem csLegal_eq_false_of_control {op : Op} {f : Fields} (hfam : op.code / 16 = 0) (hcs : f.cs = true) :
    op.csLegal f = false := by
  cases op <;> simp [Op.code] at hfam <;> simp [Op.csLegal, hcs]

/-! ## Illegal forms -/

theorem legalForm_eq_false_of_family {op : Op} {e : Nat} (f : Fields)
    (h : familyIssuedBy (op.code / 16) (kindOf e) = false) : legalForm e op f = false := by
  rw [legalForm, issuedBy_eq_familyIssuedBy, h, Bool.false_and, Bool.false_and]

theorem legalForm_eq_false_of_csLegal {op : Op} {f : Fields} (e : Nat) (h : op.csLegal f = false) : legalForm e op f = false := by
  rw [legalForm, h, Bool.and_false, Bool.false_and]

/-- Every engine command goes through the shared issue `issueIf`, under its own opcode. -/
theorem exec_issueOf_eq_issueIf (op : Op) (e : Eng) (f : Fields) (s : State) :
    ∃ ok k, exec (issueOf op e f) s = issueIf ok op e f s k := by
  cases op <;>
    simp only [issueOf, exec, execNop, execHalt, execLoop, execEndl, execJmp, execPhase, execSetr, execSwait, execSadd, execSsub, execSsig,
      execSwatch, execMove, execGather, execScatter, execPut, execDispatch, execMma, execMmax, execAccsp, execAccrs, execAcccb, execEpi,
      execVop, execVred, execVrng, execVcvt, execRring, execRnorm, execUpd, execCommit, execNwatch, issue] <;>
    exact ⟨_, _, rfl⟩

theorem exec_issueOf_of_illegal {op : Op} {e : Eng} {f : Fields} (s : State) (h : legalForm e.val op f = false) :
    exec (issueOf op e f) s = .fault .illegalForm := by
  obtain ⟨ok, k, hexec⟩ := exec_issueOf_eq_issueIf op e f s
  rw [hexec, issueIf_illegal ok k h]

theorem exec_issueOf_of_family {op : Op} {e : Eng} (f : Fields) (s : State)
    (h : familyIssuedBy (op.code / 16) (kindOf e.val) = false) : exec (issueOf op e f) s = .fault .illegalForm :=
  exec_issueOf_of_illegal s (legalForm_eq_false_of_family f h)

/-- A family of one kind `k₀` stops on an engine of any other. -/
theorem exec_issueOf_of_other_kind {op : Op} {e : Eng} {n : Nat} {k₀ : Kind} (f : Fields) (s : State) (hfam : op.code / 16 = n)
    (hrow : ∀ k, familyIssuedBy n k = (k == k₀)) (hk : kindOf e.val ≠ k₀) : exec (issueOf op e f) s = .fault .illegalForm :=
  exec_issueOf_of_family f s (by rw [hfam, hrow, beq_eq_false_iff_ne.2 hk])

/-- Settles O4: bits [7:4] of the opcode fix the kinds that may issue it, so each disjunct makes the form illegal, and every engine command
checks its form first. -/
theorem opcodeMap : Obligations.OpcodeMap := by
  unfold Obligations.OpcodeMap
  refine ⟨rfl, fun w => (decodeInsn_eq_none_iff w).2, fun op e f s h => ?_⟩
  rcases h with ⟨hfam, hk⟩ | ⟨hfam, hk⟩ | ⟨hfam, hk⟩ | ⟨hfam, hk⟩ | ⟨hfam, hk⟩ | ⟨hfam, hk⟩ | ⟨hfam, hcs⟩
  · exact exec_issueOf_of_other_kind f s hfam (fun _ => rfl) hk
  · exact exec_issueOf_of_other_kind f s hfam (fun _ => rfl) hk
  · exact exec_issueOf_of_other_kind f s hfam (fun _ => rfl) hk
  · exact exec_issueOf_of_other_kind f s hfam (fun _ => rfl) hk
  · exact exec_issueOf_of_other_kind f s hfam (fun _ => rfl) hk
  · exact exec_issueOf_of_family f s (by rw [hfam, hk]; rfl)
  · exact exec_issueOf_of_illegal s (legalForm_eq_false_of_csLegal e.val (csLegal_eq_false_of_control hfam hcs))

end Sys2Proof.Proofs
end

section
/-! PROOFS. An operation on a semaphore that would leave ±2^20 (R190): it is not applied, event 0x710 is logged, and the partition stops. -/

namespace Sys2Proof.Proofs

open Sys2Proof.Machine Sys2Proof.Claim

/-! ## What an engine's own block touches -/

/-- `t` is `s` but for what an engine touches when it issues, completes or stops: the engines, the free values, the memories, the
observation and the host's side. -/
def engineOnly (s t : State) : Prop := t = { s with engs := t.engs, free := t.free, mem := t.mem, obs := t.obs, host := t.host }

theorem engineOnly_refl (s : State) : engineOnly s s := rfl

theorem engineOnly.trans {s t u : State} (h1 : engineOnly s t) (h2 : engineOnly t u) : engineOnly s u := by
  unfold engineOnly at *; rw [h2, h1]

theorem engineOnly_of_memOnly {s t : State} (h : s.memOnly t) : engineOnly s t := by
  unfold State.memOnly at h; rw [h]; rfl

theorem engineOnly_foldl {α : Type} {g : State → α → State} (hg : ∀ s a, engineOnly s (g s a)) (l : List α) (s : State) :
    engineOnly s (l.foldl g s) :=
  foldl_inv (engineOnly s) g (fun t a h => h.trans (hg t a)) l s (engineOnly_refl s)

theorem engineOnly.sems {s t : State} (h : engineOnly s t) : t.sems = s.sems := by unfold engineOnly at h; rw [h]
theorem engineOnly.sync {s t : State} (h : engineOnly s t) : t.sync = s.sync := by unfold engineOnly at h; rw [h]
theorem engineOnly.partCnt {s t : State} (h : engineOnly s t) : t.partCnt = s.partCnt := by unfold engineOnly at h; rw [h]
theorem engineOnly.part {s t : State} (h : engineOnly s t) (q : Nat) : t.part q = s.part q := by unfold engineOnly at h; rw [h]; rfl
theorem engineOnly.txl {s t : State} (h : engineOnly s t) : t.txl = s.txl := by unfold engineOnly at h; rw [h]
theorem engineOnly.rxl {s t : State} (h : engineOnly s t) : t.rxl = s.rxl := by unfold engineOnly at h; rw [h]

theorem modEng_engineOnly (s : State) (e : Nat) (f : Engine → Engine) : engineOnly s (s.modEng e f) := rfl

theorem count_engineOnly (s : State) (q unit ev n : Nat) : engineOnly s (s.count q unit ev n) := by
  obtain ⟨c, h⟩ := s.count_obs q unit ev n
  rw [h]; rfl

theorem countGrains_engineOnly (s : State) (q : Nat) (g : List Nat) : engineOnly s (s.countGrains q g) := by
  unfold State.countGrains
  split
  · rfl
  · exact engineOnly_foldl (fun t _ => count_engineOnly t _ _ _ _) _ s

theorem countRun_engineOnly (s : State) (e : Nat) (w : Bool) (a n : Nat) : engineOnly s (s.countRun e w a n) := by
  unfold State.countRun
  dsimp only
  split
  · have hg := countGrains_engineOnly s (s.partOf e) (linesOf a n)
    split
    · exact hg.trans (count_engineOnly _ _ _ _ _)
    · exact hg
  · exact count_engineOnly _ _ _ _ _

theorem putRun_engineOnly (s : State) (e : Nat) (w : WriteRun) : engineOnly s (s.putRun e w) := by
  unfold State.putRun
  dsimp only
  split
  · split
    · exact engineOnly.trans (t := s.modMem _) rfl (count_engineOnly _ _ _ _ _)
    · rfl
  · exact (countRun_engineOnly s e true w.addr w.data.length).trans (engineOnly_of_memOnly (State.store_memOnly _ _ _ _ _))

/-! ## Trace records (R404) -/

/-- A record sent to the trace ring touches the free values, the memories, and the observation's trace ring. -/
theorem traceOut_eq (s : State) (e : Nat) (i : InFlight) :
    ∃ n m r, s.traceOut e i = { s with free := n, mem := m, obs := { s.obs with rtrace := r } } := by
  unfold State.traceOut State.takeFree
  dsimp only
  have h := State.ringPut_memOnly { s with free := s.free + 1 } s.obs.rtrace 64 fun lost => [traceBytes e (s.partOf e) i s.free lost]
  unfold State.memOnly at h
  exact ⟨s.free + 1, _, _, by rw [h]⟩

theorem traceOuts_eq (s : State) (e : Nat) (l : List InFlight) :
    ∃ n m r, l.foldl (fun s i => s.traceOut e i) s = { s with free := n, mem := m, obs := { s.obs with rtrace := r } } := by
  refine foldl_inv (fun t => ∃ n m r, t = { s with free := n, mem := m, obs := { s.obs with rtrace := r } }) _ ?_ l s
    ⟨s.free, s.mem, s.obs.rtrace, rfl⟩
  rintro _ i ⟨n, m, r, rfl⟩
  obtain ⟨n', m', r', h⟩ := traceOut_eq { s with free := n, mem := m, obs := { s.obs with rtrace := r } } e i
  exact ⟨n', m', r', h⟩

/-- The end of a block empties its engine's list of records beside that, where the list holds any. -/
theorem traceBlock_cases (s : State) (e : Nat) : s.traceBlock e = s ∨
    ∃ n m r, s.traceBlock e =
      State.modEng { s with free := n, mem := m, obs := { s.obs with rtrace := r } } e fun x => { x with traces := [] } := by
  unfold State.traceBlock
  split
  · exact .inl rfl
  · obtain ⟨n, m, r, h⟩ := traceOuts_eq s e (s.eng e).traces
    exact .inr ⟨n, m, r, by rw [h]⟩

theorem traceBlock_engineOnly (s : State) (e : Nat) : engineOnly s (s.traceBlock e) := by
  rcases traceBlock_cases s e with h | ⟨n, m, r, h⟩ <;> rw [h] <;> rfl

theorem traceBlock_log (s : State) (e : Nat) :
    (s.traceBlock e).obs.log = s.obs.log ∧ (s.traceBlock e).obs.seq = s.obs.seq := by
  rcases traceBlock_cases s e with h | ⟨n, m, r, h⟩ <;> rw [h] <;> exact ⟨rfl, rfl⟩

theorem traceBlock_eng_other (s : State) {e j : Nat} (hj : j ≠ e) : (s.traceBlock e).eng j = s.eng j := by
  rcases traceBlock_cases s e with h | ⟨n, m, r, h⟩ <;> rw [h]
  exact State.modEng_eng_other _ _ hj

/-- Only the list of records changes in the engine itself. -/
theorem traceBlock_eng_same (s : State) (e : Nat) :
    (s.traceBlock e).eng e = s.eng e ∨ (s.traceBlock e).eng e = { s.eng e with traces := [] } := by
  rcases traceBlock_cases s e with h | ⟨n, m, r, h⟩ <;> rw [h]
  · exact .inl rfl
  · exact .inr (State.modEng_eng _ _ _)

/-! ## Checkpoints, completion and issue -/

theorem flushCensus_engineOnly (s : State) (e : Nat) : engineOnly s (s.flushCensus e) := by
  unfold State.flushCensus
  dsimp only
  split <;> rfl

theorem saveCkpt_engineOnly (s : State) (e : Nat) (c : Ckpt) (n : Nat) : engineOnly s (s.saveCkpt e c n) :=
  ((traceBlock_engineOnly s e).trans (modEng_engineOnly _ e _)).trans (flushCensus_engineOnly _ e)

theorem progress_engineOnly (s : State) (e : Nat) (c : Ckpt) (n : Nat) : engineOnly s (s.progress e c n) :=
  (modEng_engineOnly s e _).trans (flushCensus_engineOnly _ e)

theorem keepState_engineOnly (s : State) (e : Nat) (i : InFlight) : engineOnly s (s.keepState e i) := by
  unfold State.keepState
  split
  · exact saveCkpt_engineOnly s e _ _
  · exact progress_engineOnly s e _ _
  · exact engineOnly_refl s

theorem tracePut_engineOnly (s : State) (e : Nat) (i : InFlight) : engineOnly s (s.tracePut e i) := by
  unfold State.tracePut
  split <;> rfl

theorem done_engineOnly (s : State) (e : Nat) (en : InFlight) (restart : Bool) : engineOnly s (s.done e en restart) := by
  unfold State.done
  dsimp only
  split
  · have ht := tracePut_engineOnly s e en
    split
    · exact ht.trans (saveCkpt_engineOnly _ e _ _)
    · exact ht
  · split <;> rfl

theorem passOn_engineOnly (s : State) (e : Nat) (op : Op) (f : Fields) : engineOnly s (s.passOn e op f) :=
  (modEng_engineOnly s e _).trans (done_engineOnly _ e _ _)

/-- An issue that begins no new pass also notes in its partition that an instruction has issued (R345). -/
theorem noteIssue_engineOnly (s : State) (e : Nat) (op : Op) (hlap : (s.eng e).lap = false) :
    engineOnly (s.modPart (s.partOf e) fun p => { p with issued := true }) (s.noteIssue e op) := by
  have hpass : s.newPass e = s := by rw [State.newPass, if_neg (by simp [hlap])]
  unfold State.noteIssue
  rw [hpass]
  have hcount := count_engineOnly (s.modPart (s.partOf e) fun p => { p with issued := true }) (s.partOf e) e 0 1
  dsimp only
  split <;> split
  · exact (hcount.trans (modEng_engineOnly _ e _)).trans (modEng_engineOnly _ e _)
  · exact hcount.trans (modEng_engineOnly _ e _)
  · exact hcount.trans (modEng_engineOnly _ e _)
  · exact hcount

/-! ## Stopping the engines of a partition (R190, R470) -/

/-- The engine has no events of the step that wait to be logged (R470). -/
def noStepEvents (x : Engine) : Prop := x.idxRange = 0 ∧ x.satCnt = 0 ∧ x.keptCnt = 0 ∧ x.dropCnt = 0

/-- The engine issues nothing and holds nothing in flight. -/
def isStopped (x : Engine) : Prop := (x.run = .idle ∨ x.run = .retired) ∧ x.inflight = []

theorem stopped_isStopped (x : Engine) : isStopped x.stopped := by
  refine ⟨?_, rfl⟩
  unfold Engine.stopped
  dsimp only
  split
  · exact .inr rfl
  · exact .inl rfl

theorem stepEventsOf_logOnly (s : State) (e : Nat) : s.logOnly (s.stepEventsOf e) := by
  have one : ∀ (b : Prop) [Decidable b] (t : State) (c : BitVec 12) (q : Nat) (l : List Byte), s.logOnly t →
      s.logOnly (if b then t else t.log c q l) := by
    intro b _ t c q l h
    split
    · exact h
    · exact State.logOnly_trans h (State.log_logOnly t c q l)
  exact one _ _ _ _ _ (one _ _ _ _ _ (one _ _ _ _ _ (one _ _ _ _ _ s.logOnly_refl)))

theorem stepEventsOf_eq_self (s : State) (e : Nat) (h : noStepEvents (s.eng e)) : s.stepEventsOf e = s := by
  obtain ⟨hidx, hsat, hkept, hdrop⟩ := h
  simp only [State.stepEventsOf, hidx, hsat, hkept, hdrop, if_true]

theorem stepEvents_engineOnly (s : State) (e : Nat) : engineOnly s (s.stepEvents e) := by
  obtain ⟨en, m, o, h, hs⟩ := s.stepEvents_eq e
  rw [hs]; rfl

theorem stepEvents_eng_other (s : State) {e j : Nat} (hj : j ≠ e) : (s.stepEvents e).eng j = s.eng j := by
  unfold State.stepEvents
  dsimp only
  rw [State.modEng_eng_other _ _ hj]
  split
  · rfl
  · have h := stepEventsOf_logOnly s e
    unfold State.logOnly at h
    rw [h]; rfl

theorem stepEvents_noStepEvents (s : State) (e : Nat) : noStepEvents ((s.stepEvents e).eng e) := by
  unfold State.stepEvents
  dsimp only
  rw [State.modEng_eng]
  exact ⟨rfl, rfl, rfl, rfl⟩

/-- With no events to log, the end of the step logs none. -/
theorem stepEvents_obs (s : State) (e : Nat) (h : noStepEvents (s.eng e)) : (s.stepEvents e).obs = s.obs := by
  unfold State.stepEvents
  dsimp only
  rw [stepEventsOf_eq_self s e h, ite_self]
  rfl

/-- One engine of a partition stops. -/
def stopEng (s : State) (e : Nat) : State := ((s.stepEvents e).traceBlock e).modEng e Engine.stopped

theorem stopEngs_eq_foldl (s : State) (q : Nat) : s.stopEngs q = (engsOf s.partCnt q).foldl stopEng s := rfl

theorem stopEng_engineOnly (s : State) (e : Nat) : engineOnly s (stopEng s e) :=
  ((stepEvents_engineOnly s e).trans (traceBlock_engineOnly _ e)).trans (modEng_engineOnly _ e _)

theorem stopEng_eng_other (s : State) {e j : Nat} (hj : j ≠ e) : (stopEng s e).eng j = s.eng j := by
  rw [stopEng, State.modEng_eng_other _ _ hj, traceBlock_eng_other _ hj, stepEvents_eng_other _ hj]

theorem stopEng_isStopped (s : State) (e : Nat) : isStopped ((stopEng s e).eng e) := by
  rw [stopEng, State.modEng_eng]
  exact stopped_isStopped _

theorem stopEng_noStepEvents (s : State) (e : Nat) : noStepEvents ((stopEng s e).eng e) := by
  have h := stepEvents_noStepEvents s e
  rw [stopEng, State.modEng_eng]
  rcases traceBlock_eng_same (s.stepEvents e) e with ht | ht <;> rw [ht] <;> exact h

theorem stopEng_log (s : State) (e : Nat) (h : noStepEvents (s.eng e)) :
    (stopEng s e).obs.log = s.obs.log ∧ (stopEng s e).obs.seq = s.obs.seq := by
  have ht := traceBlock_log (s.stepEvents e) e
  rw [stepEvents_obs s e h] at ht
  exact ht

/-- What one more engine's stop leaves of a property that every stopped engine has. -/
theorem stopEng_keeps {P : Engine → Prop} (hP : ∀ s e, P ((stopEng s e).eng e)) {s : State} {j : Nat} (e : Nat) (h : P (s.eng j)) :
    P ((stopEng s e).eng j) := by
  by_cases hj : j = e
  · rw [hj]; exact hP s e
  · rw [stopEng_eng_other s hj]; exact h

theorem foldl_stopEng_isStopped (l : List Nat) (s : State) {j : Nat} (hj : j ∈ l) : isStopped ((l.foldl stopEng s).eng j) := by
  induction l generalizing s with
  | nil => cases hj
  | cons e l ih =>
    rcases List.mem_cons.1 hj with rfl | hl
    · exact foldl_inv (fun t => isStopped (t.eng j)) stopEng (fun t e h => stopEng_keeps stopEng_isStopped e h) l _ (stopEng_isStopped s j)
    · exact ih _ hl

theorem foldl_stopEng_log (l : List Nat) (s : State) (h : ∀ e ∈ l, noStepEvents (s.eng e)) :
    (l.foldl stopEng s).obs.log = s.obs.log ∧ (l.foldl stopEng s).obs.seq = s.obs.seq := by
  induction l generalizing s with
  | nil => exact ⟨rfl, rfl⟩
  | cons e l ih =>
    obtain ⟨hlog, hseq⟩ := stopEng_log s e (h e List.mem_cons_self)
    obtain ⟨ihlog, ihseq⟩ := ih (stopEng s e) fun j hj => stopEng_keeps stopEng_noStepEvents e (h j (List.mem_cons_of_mem _ hj))
    exact ⟨ihlog.trans hlog, ihseq.trans hseq⟩

theorem stopEngs_engineOnly (s : State) (q : Nat) : engineOnly s (s.stopEngs q) := by
  rw [stopEngs_eq_foldl]
  exact engineOnly_foldl stopEng_engineOnly _ s

/-! ## The lanes (R241, R307) -/

/-- Whether a lane has retired is said by the lanes alone. -/
theorem noneRetired_of_lanes {s t : State} (htx : t.txl = s.txl) (hrx : t.rxl = s.rxl) (h : noneRetired s) : noneRetired t := by
  intro p c
  unfold State.tx State.rx
  rw [htx, hrx]
  exact h p c

theorem tx_relit_ne_retired {l : TxLane} (want keep : Bool) (h : l.st ≠ .retired) : (l.relit want keep).st ≠ .retired := by
  unfold TxLane.relit
  split
  · dsimp only; split <;> simp [h]
  · dsimp only; split <;> simp [h]

theorem rx_relit_ne_retired {l : RxLane} (want keep : Bool) (h : l.st ≠ .retired) : (l.relit want keep).st ≠ .retired := by
  unfold RxLane.relit
  split
  · exact h
  · split
    · dsimp only; split <;> simp [h]
    · split
      · exact h
      · simp [RxLane.darkened]

theorem modTx_noneRetired {s : State} (p c : Nat) {f : TxLane → TxLane} (hf : ∀ l, l.st ≠ .retired → (f l).st ≠ .retired)
    (h : noneRetired s) : noneRetired (s.modTx p c f) := by
  intro p' c'
  refine ⟨?_, (h p' c').2⟩
  by_cases hk : laneKey p' c' = laneKey p c
  · have ht : (s.modTx p c f).tx p' c' = f (s.tx p c) := by rw [State.tx, hk]; exact State.modTx_tx s p c f
    rw [ht]
    exact hf _ (h p c).1
  · rw [State.modTx, State.setTx_tx_other _ _ hk]
    exact (h p' c').1

theorem modRx_noneRetired {s : State} (p c : Nat) {f : RxLane → RxLane} (hf : ∀ l, l.st ≠ .retired → (f l).st ≠ .retired)
    (h : noneRetired s) : noneRetired (s.modRx p c f) := by
  intro p' c'
  refine ⟨(h p' c').1, ?_⟩
  by_cases hk : laneKey p' c' = laneKey p c
  · have ht : (s.modRx p c f).rx p' c' = f (s.rx p c) := by rw [State.rx, hk]; exact State.modRx_rx s p c f
    rw [ht]
    exact hf _ (h p c).2
  · rw [State.modRx, State.setRx_rx_other _ _ hk]
    exact (h p' c').2

/-- Any property of the state that a change of one lane by `relit` keeps is kept by lighting the lanes anew. -/
theorem relight_keeps (P : State → Prop) (htx : ∀ s p c w k, P s → P (s.modTx p c fun l => l.relit w k))
    (hrx : ∀ s p c w k, P s → P (s.modRx p c fun l => l.relit w k)) {s : State} (h : P s) : P s.relight := by
  unfold State.relight
  refine foldl_inv P _ (fun t p ht => ?_) _ s h
  refine foldl_inv P _ (fun u c hu => ?_) _ t ht
  dsimp only
  split <;> split
  · exact hrx _ p c _ _ (htx u p c _ _ hu)
  · exact htx u p c _ _ hu
  · exact hrx u p c _ _ hu
  · exact hu

theorem relight_noneRetired {s : State} (h : noneRetired s) : noneRetired s.relight :=
  relight_keeps (fun s => noneRetired s) (fun _ p c w k => modTx_noneRetired p c fun _ => tx_relit_ne_retired w k)
    (fun _ p c w k => modRx_noneRetired p c fun _ => rx_relit_ne_retired w k) h

/-- Lighting the lanes anew touches the lanes alone. -/
theorem relight_eq (s : State) : ∃ x y, s.relight = { s with txl := x, rxl := y } := by
  refine relight_keeps (fun t => ∃ x y, t = { s with txl := x, rxl := y }) ?_ ?_ ⟨s.txl, s.rxl, rfl⟩
  all_goals
    rintro _ p c w k ⟨x, y, rfl⟩
    exact ⟨_, _, rfl⟩

/-- A boundary touches the power block alone. -/
theorem opBoundary_eq (s : State) (tag : BitVec 16) : ∃ w, s.opBoundary tag = { s with power := w } := by
  unfold State.opBoundary
  dsimp only
  split <;> exact ⟨_, rfl⟩

/-- With no lane retired the limit of R241 is not passed. -/
theorem laneLimit_eq_self {s : State} (d : Dir) (h : noneRetired s) : s.laneLimit d = s := by
  have hzero : s.retiredLit d = 0 := by
    unfold State.retiredLit
    rw [List.length_eq_zero_iff, List.filter_eq_nil_iff]
    intro x _
    cases d
    · simpa using (h x.1 x.2).1
    · simpa using (h x.1 x.2).2
  rw [State.laneLimit, hzero, if_neg (Nat.not_lt_zero _)]

theorem laneLimits_eq_self {s : State} (h : noneRetired s) : s.laneLimits = s := by
  rw [State.laneLimits, laneLimit_eq_self .tx h, laneLimit_eq_self .rx h]

/-! ## The partition goes idle with its plan loaded (R190) -/

/-- Going idle: the engines of the partition stop, its own state changes, and the power block and the lanes follow (R307, R362). -/
theorem toIdle_eq (s : State) (q : Nat) : ∃ m g,
    (∀ p : Partn, (g p).stat = .idle ∧ (g p).stopNow = false ∧ (g p).plan = p.plan ∧ (g p).lastCommit = p.lastCommit) ∧
    s.toIdle q = (((State.stopEngs { s with mem := m } q).modPart q g).opBoundary 0).relight := by
  refine ⟨_, _, ?_, rfl⟩
  exact fun _ => ⟨rfl, rfl, rfl, rfl⟩

/-- What going idle leaves of the parts that R190 names; it logs no event where no step event waits. -/
structure WentIdle (s t : State) (q : Nat) : Prop where
  sems : t.sems = s.sems
  sync : t.sync = s.sync
  partCnt : t.partCnt = s.partCnt
  stat : (t.part q).stat = .idle
  stopNow : (t.part q).stopNow = false
  plan : (t.part q).plan = (s.part q).plan
  lastCommit : (t.part q).lastCommit = (s.part q).lastCommit
  engs : ∀ j ∈ engsOf s.partCnt q, isStopped (t.eng j)
  log : (∀ j ∈ engsOf s.partCnt q, noStepEvents (s.eng j)) → t.obs.log = s.obs.log ∧ t.obs.seq = s.obs.seq

theorem toIdle_wentIdle (s : State) (q : Nat) : WentIdle s (s.toIdle q) q := by
  obtain ⟨m, g, hg, ht⟩ := toIdle_eq s q
  obtain ⟨w, hw⟩ := opBoundary_eq ((State.stopEngs { s with mem := m } q).modPart q g) 0
  obtain ⟨x, y, hr⟩ := relight_eq (((State.stopEngs { s with mem := m } q).modPart q g).opBoundary 0)
  rw [hr, hw] at ht
  have hstop := stopEngs_engineOnly { s with mem := m } q
  have hpart : (s.toIdle q).part q = g (s.part q) := by
    rw [ht]
    exact (State.modPart_part _ q g).trans (congrArg g (hstop.part q))
  obtain ⟨hstat, hnow, hplan, hcommit⟩ := hg (s.part q)
  rw [← hpart] at hstat hnow hplan hcommit
  refine ⟨?_, ?_, ?_, hstat, hnow, hplan, hcommit, fun j hj => ?_, fun h => ?_⟩
  · rw [ht]; exact hstop.sems
  · rw [ht]; exact hstop.sync
  · rw [ht]; exact hstop.partCnt
  · rw [ht]; exact foldl_stopEng_isStopped _ { s with mem := m } hj
  · rw [ht]; exact foldl_stopEng_log _ { s with mem := m } h

theorem toIdle_noneRetired {s : State} (q : Nat) (h : noneRetired s) : noneRetired (s.toIdle q) := by
  obtain ⟨m, g, _, ht⟩ := toIdle_eq s q
  obtain ⟨w, hw⟩ := opBoundary_eq ((State.stopEngs { s with mem := m } q).modPart q g) 0
  have hstop := stopEngs_engineOnly { s with mem := m } q
  rw [ht, hw]
  exact relight_noneRetired (noneRetired_of_lanes hstop.txl hstop.rxl h)

/-- Only the host's side learns that the partition has stopped. -/
theorem noteStopped_eq (s : State) (q cause : Nat) : ∃ h, s.noteStopped q cause = { s with host := h } := by
  unfold State.noteStopped State.notePart State.noteFn State.modFn State.setFn
  exact ⟨_, rfl⟩

/-- A partition stops (R190). Where no lane has retired the module goes on. -/
theorem stopPart_wentIdle {s : State} (q cause : Nat) (h : noneRetired s) : WentIdle s (s.stopPart q cause) q := by
  obtain ⟨x, hx⟩ := noteStopped_eq (s.toIdle q) q cause
  have hn : noneRetired ((s.toIdle q).noteStopped q cause) := by
    rw [hx]
    exact noneRetired_of_lanes (s := s.toIdle q) rfl rfl (toIdle_noneRetired q h)
  have hw := toIdle_wentIdle s q
  rw [State.stopPart, laneLimits_eq_self hn, hx]
  exact ⟨hw.sems, hw.sync, hw.partCnt, hw.stat, hw.stopNow, hw.plan, hw.lastCommit, hw.engs, hw.log⟩

/-! ## The operation that is not applied (R190) -/

/-- The arguments of event 0x710: the semaphore, its value and the source of the operation. -/
def rangeArgs (s : State) (i : Nat) (src : Src) : List Byte := a2 i ++ w4 (s.sem i).value ++ a3 src.ep.toNat ++ a1 src.eng.toNat

/-- The state in which the partition of an operation that is not applied stops. -/
def rangeNoted (s : State) (q i : Nat) (src : Src) : State := (s.log 0x710 q (rangeArgs s i src)).syncBit 0

theorem semAdd_of_outside {s : State} (q : Nat) {i : Nat} {n : Int} (src : Src) (h : semRange ((s.sem i).value.toInt + n) = false) :
    s.semAdd q i n src = (rangeNoted s q i src).stopPart q 1 := by
  rw [State.semAdd, State.semAddWith]
  dsimp only
  rw [if_neg (by rw [h]; exact Bool.false_ne_true)]
  rfl

theorem places_le_logCap (r : EventRec) : r.places ≤ logCap := by
  unfold EventRec.places logCap
  split <;> decide

/-- An event that is logged is the newest in the log. -/
theorem log_logged (s : State) (code : BitVec 12) (q : Nat) (args : List Byte) : logged s (s.log code q args) code q args := by
  obtain ⟨r, lost, h⟩ := s.log_obs code q args
  refine ⟨s.log_seq code q args, ?_⟩
  rw [h]
  dsimp only
  rw [trimLog, if_pos (places_le_logCap _)]
  rfl

theorem getLsbD_setBit_zero (x : Word) : (setBit x 0).getLsbD 0 = true := by simp [setBit]

theorem rangeNoted_wentIdle {s : State} (q i : Nat) (src : Src) (h : noneRetired s) :
    WentIdle (rangeNoted s q i src) ((rangeNoted s q i src).stopPart q 1) q :=
  stopPart_wentIdle q 1 (noneRetired_of_lanes (s.log_txl 0x710 q (rangeArgs s i src)) (s.log_rxl 0x710 q (rangeArgs s i src)) h)

/-- An operation outside ±2^20 leaves what R190 says. -/
theorem semAdd_stoppedBy710 {s : State} (q : Nat) {i : Nat} {n : Int} (src : Src) (h : semRange ((s.sem i).value.toInt + n) = false)
    (hret : noneRetired s) : stoppedBy710 s (s.semAdd q i n src) q := by
  have hw := rangeNoted_wentIdle q i src hret
  rw [semAdd_of_outside q src h]
  refine ⟨?_, ?_, hw.stat, ?_, ?_, ?_⟩
  · exact hw.sems.trans (s.log_sems 0x710 q _)
  · rw [hw.sync]
    exact getLsbD_setBit_zero _
  · exact hw.plan.trans (congrArg Partn.plan (s.log_part 0x710 q _ q))
  · exact hw.lastCommit.trans (congrArg Partn.lastCommit (s.log_part 0x710 q _ q))
  · intro j hj
    refine hw.engs j ?_
    rw [← s.log_partCnt 0x710 q (rangeArgs s i src)] at hj
    exact hj

/-- A STOP under way ends with it (R36). -/
theorem semAdd_stopNow {s : State} (q : Nat) {i : Nat} {n : Int} (src : Src) (h : semRange ((s.sem i).value.toInt + n) = false)
    (hret : noneRetired s) : ((s.semAdd q i n src).part q).stopNow = false := by
  rw [semAdd_of_outside q src h]
  exact (rangeNoted_wentIdle q i src hret).stopNow

theorem semAdd_partCnt {s : State} (q : Nat) {i : Nat} {n : Int} (src : Src) (h : semRange ((s.sem i).value.toInt + n) = false)
    (hret : noneRetired s) : (s.semAdd q i n src).partCnt = s.partCnt := by
  rw [semAdd_of_outside q src h]
  exact (rangeNoted_wentIdle q i src hret).partCnt.trans (s.log_partCnt 0x710 q _)

/-- Where no step event waits, event 0x710 is the newest, and the only new one. -/
theorem semAdd_logged {s : State} (q : Nat) {i : Nat} {n : Int} (src : Src) (h : semRange ((s.sem i).value.toInt + n) = false)
    (hret : noneRetired s) (hev : ∀ e ∈ engsOf s.partCnt q, noStepEvents (s.eng e)) :
    logged s (s.semAdd q i n src) 0x710 q (rangeArgs s i src) := by
  have hev' : ∀ e ∈ engsOf (rangeNoted s q i src).partCnt q, noStepEvents ((rangeNoted s q i src).eng e) := by
    intro e he
    have hcnt : (rangeNoted s q i src).partCnt = s.partCnt := s.log_partCnt 0x710 q _
    have heng : (rangeNoted s q i src).eng e = s.eng e := s.log_eng 0x710 q _ e
    rw [hcnt] at he
    rw [heng]
    exact hev e he
  obtain ⟨hlog, hseq⟩ := (rangeNoted_wentIdle q i src hret).log hev'
  obtain ⟨hs, hh⟩ := log_logged s 0x710 q (rangeArgs s i src)
  rw [semAdd_of_outside q src h]
  refine ⟨hseq.trans hs, ?_⟩
  rw [hlog]
  exact hh

/-! ## The instructions that signal (R189, R190) -/

/-- No completion signal follows in a partition that is idle. -/
theorem signalCs_of_idle {s : State} {e : Nat} (f : Fields) (h : (s.part (s.partOf e)).stat = .idle) : s.signalCs e f = s := by
  have hruns : (s.part (s.partOf e)).runs = false := by rw [Partn.runs, h]; rfl
  unfold State.signalCs
  dsimp only
  rw [if_neg (by rw [hruns]; exact fun hc => Bool.false_ne_true hc.2)]

/-- `t` has the semaphores, the partitions' plans and last committed steps, the partition count and the lanes of `s`: what R190 reads. -/
structure Kept710 (s t : State) : Prop where
  sems : t.sems = s.sems
  partCnt : t.partCnt = s.partCnt
  plan : ∀ q, (t.part q).plan = (s.part q).plan
  lastCommit : ∀ q, (t.part q).lastCommit = (s.part q).lastCommit
  txl : t.txl = s.txl
  rxl : t.rxl = s.rxl

theorem engineOnly.kept710 {s t : State} (h : engineOnly s t) : Kept710 s t where
  sems := h.sems
  partCnt := h.partCnt
  plan q := congrArg Partn.plan (h.part q)
  lastCommit q := congrArg Partn.lastCommit (h.part q)
  txl := h.txl
  rxl := h.rxl

theorem Kept710.trans {s t u : State} (h1 : Kept710 s t) (h2 : Kept710 t u) : Kept710 s u where
  sems := h2.sems.trans h1.sems
  partCnt := h2.partCnt.trans h1.partCnt
  plan q := (h2.plan q).trans (h1.plan q)
  lastCommit q := (h2.lastCommit q).trans (h1.lastCommit q)
  txl := h2.txl.trans h1.txl
  rxl := h2.rxl.trans h1.rxl

theorem Kept710.sem {s t : State} (h : Kept710 s t) (i : Nat) : t.sem i = s.sem i := by rw [State.sem, h.sems]; rfl

theorem Kept710.noneRetired {s t : State} (h : Kept710 s t) (hret : Claim.noneRetired s) : Claim.noneRetired t :=
  noneRetired_of_lanes h.txl h.rxl hret

theorem Kept710.stoppedBy710 {s t u : State} {q : Nat} (h : Kept710 s t) (hstop : Claim.stoppedBy710 t u q) : Claim.stoppedBy710 s u q := by
  obtain ⟨hsems, hsync, hstat, hplan, hcommit, hengs⟩ := hstop
  exact ⟨hsems.trans h.sems, hsync, hstat, hplan.trans (h.plan q), hcommit.trans (h.lastCommit q), h.partCnt ▸ hengs⟩

/-- An operation outside ±2^20 that comes after changes which R190 does not read. -/
theorem Kept710.semAdd_stoppedBy710 {s t : State} (h : Kept710 s t) (q : Nat) {i : Nat} {n : Int} (src : Src)
    (hout : semRange ((s.sem i).value.toInt + n) = false) (hret : Claim.noneRetired s) : Claim.stoppedBy710 s (t.semAdd q i n src) q :=
  h.stoppedBy710 (Proofs.semAdd_stoppedBy710 q src (by rw [h.sem]; exact hout) (h.noneRetired hret))

theorem markIssued_kept710 (s : State) (q : Nat) : Kept710 s (s.modPart q fun p => { p with issued := true }) := by
  have hpart : ∀ j, ((s.modPart q fun p => { p with issued := true }).part j).plan = (s.part j).plan ∧
      ((s.modPart q fun p => { p with issued := true }).part j).lastCommit = (s.part j).lastCommit := by
    intro j
    by_cases hj : j = q
    · rw [hj, State.modPart_part]; exact ⟨rfl, rfl⟩
    · rw [State.modPart_part_other _ _ hj]; exact ⟨rfl, rfl⟩
  exact ⟨rfl, rfl, fun j => (hpart j).1, fun j => (hpart j).2, rfl, rfl⟩

theorem noteIssue_kept710 (s : State) (e : Nat) (op : Op) (hlap : (s.eng e).lap = false) : Kept710 s (s.noteIssue e op) :=
  (markIssued_kept710 s (s.partOf e)).trans (noteIssue_engineOnly s e op hlap).kept710

theorem partOf_of_partCnt {s t : State} (h : t.partCnt = s.partCnt) (e : Nat) : t.partOf e = s.partOf e := by
  rw [State.partOf, h]; rfl

/-- SADD and SSUB at issue: an addition of `n` outside ±2^20 leaves what R190 says, and no completion signal. -/
theorem localAdd_stoppedBy710 {s s' : State} {e : Nat} (op : Op) {f : Fields} {n : Int} (h : Kept710 s s')
    (hout : semRange ((s.sem (f.immF 0 16)).value.toInt + n) = false) (hret : noneRetired s) :
    stoppedBy710 s (s'.localAdd e op f n) (s.partOf e) := by
  have hq := partOf_of_partCnt h.partCnt e
  have hpass := h.trans (passOn_engineOnly s' e op f).kept710
  have hpassOut : semRange (((s'.passOn e op f).sem (f.immF 0 16)).value.toInt + n) = false := by rw [hpass.sem]; exact hout
  have hstop := hpass.semAdd_stoppedBy710 (s.partOf e) (s'.localSrc (s.partOf e) e) hout hret
  have hcnt := (semAdd_partCnt (s.partOf e) (s'.localSrc (s.partOf e) e) hpassOut (hpass.noneRetired hret)).trans hpass.partCnt
  have ⟨_, _, hstat, _⟩ := hstop
  rw [State.localAdd, hq, signalCs_of_idle f (by rw [partOf_of_partCnt hcnt]; exact hstat)]
  exact hstop

/-! ## The completion signal (R46, R190) -/

theorem mirrorDone_of_none (s : State) (e : Nat) {i : InFlight} (h : i.mirror = none) : s.mirrorDone e i = s := by
  rw [State.mirrorDone, h]

/-- What a completion does before its signal. -/
def beforeSignal (s : State) (e : Nat) (i : InFlight) : State :=
  let s1 := i.writes.foldl (fun s w => s.putRun e w) s
  let s2 := s1.modEng e fun x => { x with inflight := x.inflight.tail, census := x.census ++ i.census }
  ((s2.mirrorDone e i).tracePut e i).keepState e i

/-- A completion, with its signal where the instruction carries one and its partition runs. -/
theorem complete_eq (s : State) (e : Nat) (i : InFlight) :
    let q := s.partOf e
    let s3 := beforeSignal s e i
    s.complete e i =
      if i.cs ∧ (s3.part q).runs then
        if i.wait = .barrier then s3.semAddWith q i.csem.toNat 1 (s3.localSrc q e) id else s3.semAdd q i.csem.toNat 1 (s3.localSrc q e)
      else s3 := rfl

theorem beforeSignal_engineOnly (s : State) (e : Nat) {i : InFlight} (h : i.mirror = none) : engineOnly s (beforeSignal s e i) := by
  rw [beforeSignal, mirrorDone_of_none _ e h]
  exact (((engineOnly_foldl (fun t w => putRun_engineOnly t e w) i.writes s).trans (modEng_engineOnly _ e _)).trans
    (tracePut_engineOnly _ e i)).trans (keepState_engineOnly _ e i)

/-- An instruction that waits for its turn, in a partition that runs, signals as it completes. -/
theorem complete_signals {s : State} {e : Nat} {i : InFlight} (hcs : i.cs = true) (hwait : i.wait = .turn) (hmir : i.mirror = none)
    (hruns : (s.part (s.partOf e)).runs = true) :
    s.complete e i = (beforeSignal s e i).semAdd (s.partOf e) i.csem.toNat 1 ((beforeSignal s e i).localSrc (s.partOf e) e) := by
  have hb : ((beforeSignal s e i).part (s.partOf e)).runs = true := by rw [(beforeSignal_engineOnly s e hmir).part]; exact hruns
  rw [complete_eq, if_pos ⟨hcs, hb⟩, if_neg (by rw [hwait]; decide)]

/-- What may complete waits for nothing but its turn. -/
theorem wait_of_ready {s : State} {e : Nat} {i : InFlight} (h : s.ready e = some i) : i.wait = .turn := by
  unfold State.ready at h
  split at h
  · cases h
  · split at h
    · next hc =>
      cases h
      simp only [Bool.and_eq_true, beq_iff_eq] at hc
      obtain ⟨⟨hwait, _⟩, _⟩ := hc
      exact hwait
    · cases h

theorem stopIfParked_of_not_stopNow {s : State} {q : Nat} (h : (s.part q).stopNow = false) : s.stopIfParked q = s := by
  rw [State.stopIfParked, if_neg (by rw [h]; exact fun hc => Bool.false_ne_true hc.1)]

/-- A completion signal outside ±2^20 leaves what R190 says. -/
theorem instructionComplete_stoppedBy710 {e : Eng} {s : State} {i : InFlight} (hready : s.ready e.val = some i)
    (hruns : (s.part (s.partOf e.val)).runs = true) (hmir : i.mirror = none) (hcs : i.cs = true) (hret : noneRetired s)
    (hout : semRange ((s.sem i.csem.toNat).value.toInt + 1) = false) :
    ∃ t, exec (.instructionComplete e) s = .next t ∧ stoppedBy710 s t (s.partOf e.val) := by
  have hkept := (beforeSignal_engineOnly s e.val hmir).kept710
  have houtb : semRange (((beforeSignal s e.val i).sem i.csem.toNat).value.toInt + 1) = false := by rw [hkept.sem]; exact hout
  have hexec : exec (.instructionComplete e) s = .next ((s.complete e.val i).stopIfParked (s.partOf e.val)) := by
    simp only [exec, execInstructionComplete, hready]
  refine ⟨_, hexec, ?_⟩
  rw [complete_signals hcs (wait_of_ready hready) hmir hruns,
    stopIfParked_of_not_stopNow (semAdd_stopNow _ _ houtb (hkept.noneRetired hret))]
  exact hkept.semAdd_stoppedBy710 _ _ hout hret

/-! ## SADD and SSUB -/

theorem quiet_of_inflight_nil {e : Nat} {s : State} (h : (s.eng e).inflight = []) : quiet e s = true := by rw [quiet, h]; rfl

theorem exec_sadd (e : Eng) (f : Fields) (s : State) : exec (.sadd e f) s =
    issueIf (quiet e.val) .sadd e f s fun _ t => t.localAdd e.val .sadd f (f.immF 32 32 : Nat) := rfl

theorem exec_ssub (e : Eng) (f : Fields) (s : State) : exec (.ssub e f) s =
    issueIf (quiet e.val) .ssub e f s fun _ t => t.localAdd e.val .ssub f (-(f.immF 32 32 : Nat)) := rfl

/-- SADD and SSUB issue, and an addition of `n` outside ±2^20 leaves what R190 says. -/
theorem issueIf_localAdd_stoppedBy710 {op : Op} {e : Eng} {f : Fields} {s : State} {p : Plan} {n : Int}
    (hfly : (s.eng e.val).inflight = []) (hret : noneRetired s) (hmay : mayIssue op e f s p)
    (hout : semRange ((s.sem (f.immF 0 16)).value.toInt + n) = false) :
    ∃ t, issueIf (quiet e.val) op e f s (fun _ t => t.localAdd e.val op f n) = .next t ∧ stoppedBy710 s t (s.partOf e.val) := by
  obtain ⟨⟨hlegal, hissue, hpoison, hfits⟩, hlap⟩ := hmay
  exact ⟨_, issueIf_runs _ _ hlegal hissue hpoison hfits (quiet_of_inflight_nil hfly),
    localAdd_stoppedBy710 op (noteIssue_kept710 s e.val op hlap) hout hret⟩

/-- Settles O10: an operation outside ±2^20 takes the branch of `semAdd` that logs event 0x710 and stops the partition; the stop leaves the
semaphores, the plan and the last committed step, and what SADD, SSUB and a completion do before it leaves them too. -/
theorem semaphoreOverflowStops : Obligations.SemaphoreOverflowStops := by
  unfold Obligations.SemaphoreOverflowStops
  refine ⟨?_, ?_, ?_⟩
  · intro s q i n src hout hret hev
    exact ⟨semAdd_logged q src hout hret hev, semAdd_stoppedBy710 q src hout hret⟩
  · intro e f s p hfly hret
    refine ⟨fun hmay hout => ?_, fun hmay hout => ?_⟩
    · rw [exec_sadd]
      exact issueIf_localAdd_stoppedBy710 hfly hret hmay hout
    · rw [exec_ssub]
      rw [Int.sub_eq_add_neg] at hout
      exact issueIf_localAdd_stoppedBy710 hfly hret hmay hout
  · intro e s i hready hruns hmir hcs hret hout
    exact instructionComplete_stoppedBy710 hready hruns hmir hcs hret hout

end Sys2Proof.Proofs
end
